-- ==== Sys2Proof/Word.lean ====
section
/-! DEFINITION. The plain types of the FCSB: bytes, registers of fixed width, frame numbers, timeslots,
and the two constants of the air interface and of the timer. -/

namespace Sys2Proof

/-- One byte of a datagram or record. -/
abbrev Byte := BitVec 8

/-- A byte string: a datagram, a host record, a queued payload (R80, R100). -/
abbrev Bytes := List Byte

/-- A frame number as it stands in a register: 22 bits (R23, R143). -/
abbrev Fn := BitVec 22

/-- A host clock value, microseconds in 64 bits (R24, decision D3). -/
abbrev Time := BitVec 64

/-- A timeslot number TN 0..7 (R5). -/
abbrev Tn := Fin 8

/-- A subchannel index ss 0..7 (R5). -/
abbrev Ss := Fin 8

/-- A burst index within a reassembly group, 2 bits (R31). -/
abbrev Bid := BitVec 2

/-- H, the hyperframe: frame numbers are 0..H-1 (R5, R143). -/
def hyperframe : Nat := 2715648

/-- FRAME_US, the period of the frame timer in microseconds (R144). -/
def frameUs : Nat := 4615

end Sys2Proof
end

