-- ==== Sys2Proof/Syntax.lean ====
section
/-! DEFINITION. The syntax of the FCSB: the ports and events, the codes that records and rules name, the
operands of the operations, and Instr with one constructor for each row of spec/opcode_table.json. -/

namespace Sys2Proof

/-- Where a pending record stands. The first three are the input ports of R100 and `timer` is the frame
timer's expiry (R109). `hosto` is the OUTPUT port HOSTO: a record there stands for the emission of that
record as an operation of its own; no event of the environment comes from it (log entry 3). -/
inductive Port
  | clk | uld | host | timer | hosto
  deriving DecidableEq, Repr

/-- An event: its port, the host clock value `now` every event carries (R4, R100), and its byte string. -/
structure Event where
  port  : Port
  now   : Time
  bytes : Bytes
  deriving DecidableEq, Repr

/-- The direction argument of MAP (R9, R212). -/
inductive Dir
  | dl | ul
  deriving DecidableEq, Repr

/-- The modulation of a burst or slot (R9, R104). -/
inductive Modulation
  | gmsk | psk8
  deriving DecidableEq, Repr

/-- The logical channel types a lawful MAP returns (R103, R212 M3). -/
inductive Ct
  | idle | fcch | sch | bcch | ccch | sdcch | sacch | tchf | tchh | pdtch | ptcch | rach
  deriving DecidableEq, Repr, Inhabited

/-- The channel types whose downlink runs through TX_GROUP (R243): those with a lane (R103). -/
inductive LaneCt
  | bcch | ccch | sdcch | sacch | tchf | tchh | pdtch | ptcch
  deriving DecidableEq, Repr

/-- The channel types whose uplink runs through RX_LANE (R291 to R295). -/
inductive UlCt
  | sdcch | sacch | tchf | tchh | pdtch
  deriving DecidableEq, Repr

/-- The channel types DL_MISS handles (R255). -/
inductive MissCt
  | sacch | tchf | tchh
  deriving DecidableEq, Repr

/-- The payload kinds of ENC_STEP and DEC_STEP (R9); DEC_STEP may return only the first three (R376). -/
inductive CodecKind
  | data | speech | facch | facchCont | fill | bfi
  deriving DecidableEq, Repr, Inhabited

/-- A codec's interleaver state: opaque to the block (R9, R31), held as a finite bit string (log entry 6). -/
structure Ilv where
  bits : List Bool
  deriving DecidableEq, Repr, Inhabited

/-- A burst slot as ENC_STEP returns it (R9, R31). -/
structure Slot where
  modulation : Modulation
  bits       : List Bool
  deriving DecidableEq, Repr

/-- What MAP answers, before its range is checked (R212, R376). -/
structure MapResult where
  ct      : Nat
  ss      : Nat
  bid     : Nat
  facchOk : Nat
  deriving DecidableEq, Repr, Inhabited

/-- A MAP result that meets law (M3) of R212. -/
structure Position where
  ct      : Ct
  ss      : Ss
  bid     : Bid
  facchOk : Bool
  deriving DecidableEq, Repr

/-- What ENC_STEP answers (R9). -/
structure EncResult where
  ilv   : Ilv
  slots : List Slot
  deriving DecidableEq, Repr, Inhabited

/-- What DEC_STEP answers (R9). -/
structure DecResult where
  ilv     : Ilv
  ok      : Bool
  kind    : CodecKind
  payload : Bytes
  nerr    : Nat
  nbits   : Nat
  ftValid : Bool
  ft      : Nat
  taValid : Bool
  ta      : Nat
  deriving DecidableEq, Repr, Inhabited

/-- What RACH_DEC answers (R9). -/
structure RachResult where
  ok    : Bool
  ra    : Nat
  nerr  : Nat
  nbits : Nat
  deriving DecidableEq, Repr, Inhabited

/-- A received uplink burst after the conversions of R104. A position's burst is `some b`, and `none` is
MISSING (R282). -/
structure Burst where
  rssi       : Int
  toa        : Int
  soft       : List Int
  modulation : Modulation
  deriving DecidableEq, Repr

/-- The payload queue a DLQ_PUSH names: its id q with the indices that q uses (R106, R115). -/
inductive QueueRef
  | bcch (tn : Tn)
  | ccch (tn : Tn)
  | sig (tn : Tn) (ss : Ss)
  | speech (tn : Tn) (ss : Ss)
  | assoc (tn : Tn) (ss : Ss)
  deriving DecidableEq, Repr

/-- The fatal causes (R108, R372). -/
inductive FatalCause
  | clockLoss | stallLate | stallBack
  deriving DecidableEq, Repr

/-- One constructor for each row of spec/opcode_table.json, in the table's order. The first ten are the
events; the rest are the sub-operations the events run, and the last seven the output records. -/
inductive Instr
  -- events (R124)
  | clkInd (bytes : Bytes) (now : Time)
  | ulBurstNb (bytes : Bytes)
  | ulBurst8psk (bytes : Bytes)
  | linkOpen
  | linkClose
  | cfgRd (addr : BitVec 16)
  | cfgWr (addr : BitVec 16) (value : BitVec 32)
  | dlqPush (q : QueueRef) (payload : Bytes)
  | hostReserved (bytes : Bytes)
  | tick (now : Time)
  -- sub-operations of CLK_IND (R146 to R150)
  | anchor (fn : Fn) (now : Time)
  | clkApply (fn : Fn) (now : Time)
  | resync (fn : Fn) (now : Time)
  | delay (k : Nat) (now : Time)
  | catchUp (fn : Fn) (now : Time)
  -- the steps of TICK (R152 to R154) and the fatal entry (R371)
  | tickLiveness (now : Time)
  | tickStall (now : Time)
  | tickProduce (k : Nat)
  | fatal (cause : FatalCause)
  -- the scheduler (R210, R211) and the TX handlers (R241 to R254)
  | schedFn (fn : Fn)
  | txDispatch (tn : Tn) (e : Position) (s : Fn)
  | txIdle (tn : Tn) (s : Fn)
  | txFcch (tn : Tn) (s : Fn)
  | txSch (tn : Tn) (s : Fn)
  | txBcch (tn : Tn) (bid : Bid) (s : Fn)
  | txCcch (tn : Tn) (bid : Bid) (s : Fn)
  | txSdcch (tn : Tn) (ss : Ss) (bid : Bid) (s : Fn)
  | txSacch (tn : Tn) (ss : Ss) (bid : Bid) (s : Fn)
  | txTchf (tn : Tn) (ss : Ss) (bid : Bid) (s : Fn)
  | txTchh (tn : Tn) (ss : Ss) (bid : Bid) (facchOk : Bool) (s : Fn)
  | txPdtch (tn : Tn) (ss : Ss) (bid : Bid) (s : Fn)
  | txPtcch (tn : Tn) (ss : Ss) (bid : Bid) (s : Fn)
  | txRachAsIdle (tn : Tn) (s : Fn)
  | txGroup (ct : LaneCt) (tn : Tn) (ss : Ss) (bid : Bid) (facchOk : Bool) (s : Fn)
  | dlMiss (ct : MissCt) (tn : Tn) (ss : Ss)
  | emitSlot (tn : Tn) (s : Fn) (slot : Slot)
  | asmNb (d : List Bool) (t : List Bool)
  | emitDl (tn : Tn) (s : Fn) (bits : List Bool)
  -- uplink (R281 to R299)
  | ulSeq (tn : Tn) (fn : Fn) (x : Burst)
  | ulGap (tn : Tn) (last : Fn) (fn : Fn)
  | rxPos (tn : Tn) (f : Fn) (x : Option Burst)
  | rxLane (ct : UlCt) (tn : Tn) (ss : Ss) (bid : Bid) (f : Fn) (x : Option Burst)
  | closeGroup (ct : UlCt) (tn : Tn) (ss : Ss)
  | report (ct : UlCt) (tn : Tn) (ss : Ss) (r : DecResult) (cont : Bool)
  | rxMissing (tn : Tn) (f : Fn)
  | rxIdle (x : Option Burst)
  | rxSdcch (tn : Tn) (ss : Ss) (bid : Bid) (f : Fn) (x : Option Burst)
  | rxSacch (tn : Tn) (ss : Ss) (bid : Bid) (f : Fn) (x : Option Burst)
  | rxTchf (tn : Tn) (ss : Ss) (bid : Bid) (f : Fn) (x : Option Burst)
  | rxTchh (tn : Tn) (ss : Ss) (bid : Bid) (f : Fn) (x : Option Burst)
  | rxPdtch (tn : Tn) (ss : Ss) (bid : Bid) (f : Fn) (x : Option Burst)
  | rxPtcch (tn : Tn) (ss : Ss) (f : Fn) (x : Option Burst)
  | rxRach (tn : Tn) (f : Fn) (x : Option Burst)
  | hoAccess (tn : Tn) (ss : Ss) (f : Fn) (x : Option Burst)
  -- the loops (R331 to R339)
  | pwrSample (tn : Tn) (ss : Ss) (rssi : Int)
  | pwrClock (tn : Tn) (ss : Ss)
  | pwrEval (tn : Tn) (ss : Ss)
  | taSample (tn : Tn) (ss : Ss) (toa : Int)
  | taEval (tn : Tn) (ss : Ss)
  | amrSample (tn : Tn) (ss : Ss) (ber : Nat) (w : Nat)
  | amrEval (tn : Tn) (ss : Ss)
  -- the output records (R116 to R123): the emission of the record
  | cfgData (addr : BitVec 16) (value : BitVec 32)
  | dataInd (tn ss ct kind : Byte) (fn : BitVec 32) (payload : Bytes)
  | measInd (tn ss ct : Byte) (fn : BitVec 32) (nbursts flags : Byte) (rssi ber toa : BitVec 16)
  | rachInd (tn ct : Byte) (fn : BitVec 32) (ra toa ber rssi : BitVec 16)
  | hoInd (tn ss : Byte) (fn : BitVec 32) (ra toa ber rssi : BitVec 16)
  | loopInd (tn ss which : Byte) (value : BitVec 16)
  | fatalInd (cause : Byte)
  deriving DecidableEq, Repr

end Sys2Proof
end

