-- ==== Sys2Proof/Decode.lean ====
section
/-! DEFINITION. Decode and encode: byte order (R82), the channel type codes (R103), the grammar of every
record (R101, R102, R105, R110 to R123), the first-level decoder over ports (R124), the second-level decoders
over ct, and the encoder. Every decoder is total; what has no instruction is rejected by name. -/

namespace Sys2Proof

/-! ## Byte order (R6, R82) -/

/-- Byte i of a record; callers check the length first (R93), so the 0 beyond the end is never used by them. -/
def byteAt (b : Bytes) (i : Nat) : Byte := (b[i]?).getD 0

/-- `be16(b, i)` (R6). -/
def be16 (b : Bytes) (i : Nat) : BitVec 16 :=
  BitVec.ofNat 16 ((byteAt b i).toNat * 256 + (byteAt b (i + 1)).toNat)

/-- `be32(b, i)` (R6). -/
def be32 (b : Bytes) (i : Nat) : BitVec 32 :=
  BitVec.ofNat 32
    ((((byteAt b i).toNat * 256 + (byteAt b (i + 1)).toNat) * 256 + (byteAt b (i + 2)).toNat) * 256
      + (byteAt b (i + 3)).toNat)

/-- The two bytes of a 16-bit field, most significant first (R82). -/
def bytes16 (v : BitVec 16) : Bytes := [BitVec.ofNat 8 (v.toNat / 256), BitVec.ofNat 8 v.toNat]

/-- The four bytes of a 32-bit field, most significant first (R82). -/
def bytes32 (v : BitVec 32) : Bytes :=
  [BitVec.ofNat 8 (v.toNat / 16777216), BitVec.ofNat 8 (v.toNat / 65536), BitVec.ofNat 8 (v.toNat / 256),
   BitVec.ofNat 8 v.toNat]

/-- A frame number as the 32-bit field of a record. -/
def fn32 (f : Fn) : BitVec 32 := f.setWidth 32

/-! ## Channel types (R103) -/

/-- The 4-bit code of a channel type (R103). -/
def Ct.code : Ct → Nat
  | .idle => 0 | .fcch => 1 | .sch => 2 | .bcch => 3 | .ccch => 4 | .sdcch => 5 | .sacch => 6
  | .tchf => 7 | .tchh => 8 | .pdtch => 11 | .ptcch => 12 | .rach => 13

/-- The channel type of a code; none for 9, 10, 14, 15, which MAP never returns, and beyond (R103, R125). -/
def ctOf : Nat → Option Ct
  | 0 => some .idle | 1 => some .fcch | 2 => some .sch | 3 => some .bcch | 4 => some .ccch
  | 5 => some .sdcch | 6 => some .sacch | 7 => some .tchf | 8 => some .tchh | 11 => some .pdtch
  | 12 => some .ptcch | 13 => some .rach | _ => none

/-- G(ct), the reassembly group length (R103). -/
def Ct.groupLen : Ct → Nat
  | .idle => 1 | .fcch => 1 | .sch => 1 | .rach => 1 | .tchh => 2
  | .bcch => 4 | .ccch => 4 | .sdcch => 4 | .sacch => 4 | .tchf => 4 | .pdtch => 4 | .ptcch => 4

/-- A downlink lane type as a channel type. -/
def LaneCt.toCt : LaneCt → Ct
  | .bcch => .bcch | .ccch => .ccch | .sdcch => .sdcch | .sacch => .sacch
  | .tchf => .tchf | .tchh => .tchh | .pdtch => .pdtch | .ptcch => .ptcch

/-- An uplink group type as a channel type. -/
def UlCt.toCt : UlCt → Ct
  | .sdcch => .sdcch | .sacch => .sacch | .tchf => .tchf | .tchh => .tchh | .pdtch => .pdtch

/-- A type DL_MISS handles as a lane type. -/
def MissCt.toLane : MissCt → LaneCt
  | .sacch => .sacch | .tchf => .tchf | .tchh => .tchh

/-- FACCH/F's code, which only DATA_IND carries (R103, R117). -/
def codeFacchF : Nat := 9

/-- FACCH/H's code, which only DATA_IND carries (R103, R117). -/
def codeFacchH : Nat := 10

/-- A MAP result that meets (M3): a legal ct, ss at most 7, bid below G(ct), facch_ok a bit (R212, R376). -/
def positionOf (m : MapResult) : Option Position :=
  match ctOf m.ct with
  | none => none
  | some ct =>
    if h : m.ss < 8 then
      if m.bid < ct.groupLen ∧ m.facchOk < 2 then
        some { ct := ct, ss := ⟨m.ss, h⟩, bid := BitVec.ofNat 2 m.bid, facchOk := m.facchOk == 1 }
      else none
    else none

/-! ## The codec contracts (R376) -/

/-- A slot that meets the codec contract (R9, R376): 116 bits for GMSK, 348 for PSK8. -/
def slotOk (s : Slot) : Bool :=
  match s.modulation with
  | .gmsk => s.bits.length == 116
  | .psk8 => s.bits.length == 348

/-- DEC_STEP's contract (R376): a legal kind, no more errors than bits, ft and ta in range where they are
valid, and a payload of at most 255 bytes. -/
def decOk (r : DecResult) : Bool :=
  (r.kind == .data || r.kind == .speech || r.kind == .facch)
    && decide (r.nerr ≤ r.nbits) && (!r.ftValid || decide (r.ft ≤ 3)) && (!r.taValid || decide (r.ta ≤ 63))
    && decide (r.payload.length ≤ 255)

/-! ## The clock datagram (R101) -/

/-- The ten bytes of "IND CLOCK " (R101). -/
def clkHead : Bytes := [0x49, 0x4E, 0x44, 0x20, 0x43, 0x4C, 0x4F, 0x43, 0x4B, 0x20]

/-- An ASCII decimal digit (R101). -/
def isDigit (b : Byte) : Bool := decide (0x30 ≤ b.toNat ∧ b.toNat ≤ 0x39)

/-- The value of a digit string, leading zeros allowed (R101). -/
def digitsValue (ds : Bytes) : Nat := ds.foldl (fun acc d => acc * 10 + (d.toNat - 0x30)) 0

/-- valid_clk and the operand fn: the frame number of a valid clock datagram, none of a malformed one (R101). -/
def parseClk (b : Bytes) : Option Fn :=
  let rest := b.drop 10
  let ds := rest.takeWhile isDigit
  let pad := rest.dropWhile isDigit
  if b.take 10 = clkHead ∧ 1 ≤ ds.length ∧ ds.length ≤ 7 ∧ pad.all (· == 0) ∧ digitsValue ds < hyperframe then
    some (BitVec.ofNat 22 (digitsValue ds))
  else none

/-- The decimal digits of n, w of them, leading zeros included. -/
def decimal : (w : Nat) → (n : Nat) → Bytes
  | 0, _ => []
  | w + 1, n => decimal w (n / 10) ++ [BitVec.ofNat 8 (0x30 + n % 10)]

/-- A clock datagram for fn: seven digits with leading zeros and no padding, one of the spellings R101 allows. -/
def clkRecord (fn : Fn) : Bytes := clkHead ++ decimal 7 fn.toNat

/-! ## The uplink burst datagram (R102, R104) -/

/-- `soft[i]` of R104. -/
def softOf (b : Byte) : Int := if b = 255 then -127 else 127 - (b.toNat : Int)

/-- valid_ul for N soft bits and the conversions of R104: none of a malformed datagram (R102). -/
def parseUl (m : Modulation) (n : Nat) (b : Bytes) : Option (Tn × Fn × Burst) :=
  if h : b.length = 8 + n ∧ (byteAt b 0).toNat < 8 ∧ (be32 b 1).toNat < hyperframe then
    some (⟨(byteAt b 0).toNat, h.2.1⟩, BitVec.ofNat 22 (be32 b 1).toNat,
      { rssi := -(byteAt b 5).toInt, toa := (be16 b 6).toInt, soft := (b.drop 8).map softOf, modulation := m })
  else none

/-- An uplink datagram from its fields (R102). -/
def ulRecord (tn : Tn) (fn : Fn) (rssi : Byte) (toa : BitVec 16) (soft : Bytes) : Bytes :=
  BitVec.ofNat 8 tn.val :: bytes32 (fn32 fn) ++ rssi :: bytes16 toa ++ soft

/-! ## The downlink burst datagram (R105) -/

/-- One byte 0x00 or 0x01 per bit (R105). -/
def bitByte (x : Bool) : Byte := if x then 1 else 0

/-- The downlink datagram of R105: TN, FN, power, then one byte per burst bit. -/
def dldRecord (tn : Tn) (s : Fn) (power : Byte) (bits : List Bool) : Bytes :=
  BitVec.ofNat 8 tn.val :: bytes32 (fn32 s) ++ power :: bits.map bitByte

/-! ## Host records (R110 to R115) and output records (R116 to R123) -/

/-- The queue of id q with its indices, if in range (R106, R115). -/
def queueOf (tn q ss : Byte) : Option QueueRef :=
  if ht : tn.toNat < 8 then
    if hs : ss.toNat < 8 then
      match q.toNat with
      | 0 => if ss.toNat = 0 then some (.bcch ⟨tn.toNat, ht⟩) else none
      | 1 => if ss.toNat = 0 then some (.ccch ⟨tn.toNat, ht⟩) else none
      | 2 => some (.sig ⟨tn.toNat, ht⟩ ⟨ss.toNat, hs⟩)
      | 3 => some (.speech ⟨tn.toNat, ht⟩ ⟨ss.toNat, hs⟩)
      | 4 => some (.assoc ⟨tn.toNat, ht⟩ ⟨ss.toNat, hs⟩)
      | _ => none
    else none
  else none

/-- The bytes tn, q, ss of a queue (R106, R115). -/
def queueBytes : QueueRef → Bytes
  | .bcch tn => [BitVec.ofNat 8 tn.val, 0, 0]
  | .ccch tn => [BitVec.ofNat 8 tn.val, 1, 0]
  | .sig tn ss => [BitVec.ofNat 8 tn.val, 2, BitVec.ofNat 8 ss.val]
  | .speech tn ss => [BitVec.ofNat 8 tn.val, 3, BitVec.ofNat 8 ss.val]
  | .assoc tn ss => [BitVec.ofNat 8 tn.val, 4, BitVec.ofNat 8 ss.val]

/-- A HOST record (R110 to R115); whatever is malformed or reserved is HOST_RESERVED (R121). -/
def decodeHost (b : Bytes) : Instr :=
  match (byteAt b 0).toNat with
  | 0x01 => if b.length = 1 then .linkOpen else .hostReserved b
  | 0x02 => if b.length = 1 then .linkClose else .hostReserved b
  | 0x10 => if b.length = 3 then .cfgRd (be16 b 1) else .hostReserved b
  | 0x11 => if b.length = 7 then .cfgWr (be16 b 1) (be32 b 3) else .hostReserved b
  | 0x20 =>
    match queueOf (byteAt b 1) (byteAt b 2) (byteAt b 3) with
    | some q => if b.length = 5 + (byteAt b 4).toNat then .dlqPush q (b.drop 5) else .hostReserved b
    | none => .hostReserved b
  | _ => .hostReserved b

/-- CFG_DATA (R116). -/
def recCfgData (addr : BitVec 16) (value : BitVec 32) : Bytes := 0x81 :: bytes16 addr ++ bytes32 value

/-- DATA_IND (R117). -/
def recDataInd (tn ss ct kind : Byte) (fn : BitVec 32) (payload : Bytes) : Bytes :=
  0x90 :: tn :: ss :: ct :: kind :: bytes32 fn ++ BitVec.ofNat 8 payload.length :: payload

/-- MEAS_IND (R118). -/
def recMeasInd (tn ss ct : Byte) (fn : BitVec 32) (nbursts flags : Byte) (rssi ber toa : BitVec 16) : Bytes :=
  0x91 :: tn :: ss :: ct :: bytes32 fn ++ nbursts :: flags :: bytes16 rssi ++ bytes16 ber ++ bytes16 toa

/-- RACH_IND (R119). -/
def recRachInd (tn ct : Byte) (fn : BitVec 32) (ra toa ber rssi : BitVec 16) : Bytes :=
  0x92 :: tn :: ct :: bytes32 fn ++ bytes16 ra ++ bytes16 toa ++ bytes16 ber ++ bytes16 rssi

/-- HO_IND (R120). -/
def recHoInd (tn ss : Byte) (fn : BitVec 32) (ra toa ber rssi : BitVec 16) : Bytes :=
  0x93 :: tn :: ss :: bytes32 fn ++ bytes16 ra ++ bytes16 toa ++ bytes16 ber ++ bytes16 rssi

/-- LOOP_IND (R122). -/
def recLoopInd (tn ss which : Byte) (value : BitVec 16) : Bytes := 0x94 :: tn :: ss :: which :: bytes16 value

/-- FATAL_IND (R123). -/
def recFatalInd (cause : Byte) : Bytes := [0xF0, cause]

/-- An output record read back by its first byte and its length (R116 to R123, R126). -/
def decodeOutput (b : Bytes) : Option Instr :=
  match (byteAt b 0).toNat with
  | 0x81 => if b.length = 7 then some (.cfgData (be16 b 1) (be32 b 3)) else none
  | 0x90 =>
    if b.length = 10 + (byteAt b 9).toNat then
      some (.dataInd (byteAt b 1) (byteAt b 2) (byteAt b 3) (byteAt b 4) (be32 b 5) (b.drop 10)) else none
  | 0x91 =>
    if b.length = 16 then
      some (.measInd (byteAt b 1) (byteAt b 2) (byteAt b 3) (be32 b 4) (byteAt b 8) (byteAt b 9)
        (be16 b 10) (be16 b 12) (be16 b 14)) else none
  | 0x92 =>
    if b.length = 15 then
      some (.rachInd (byteAt b 1) (byteAt b 2) (be32 b 3) (be16 b 7) (be16 b 9) (be16 b 11) (be16 b 13)) else none
  | 0x93 =>
    if b.length = 15 then
      some (.hoInd (byteAt b 1) (byteAt b 2) (be32 b 3) (be16 b 7) (be16 b 9) (be16 b 11) (be16 b 13)) else none
  | 0x94 =>
    if b.length = 6 then some (.loopInd (byteAt b 1) (byteAt b 2) (byteAt b 3) (be16 b 4)) else none
  | 0xF0 => if b.length = 2 then some (.fatalInd (byteAt b 1)) else none
  | _ => none

/-! ## The first-level decoder (R124) -/

/-- Why a record or a code has no instruction. -/
inductive Reject
  /-- An uplink datagram of a length other than 156 and 452: malformed (R102, R124). The block counts it. -/
  | uldLength
  /-- Bytes at the timer: a TICK has none (R109), so this is no event. -/
  | timerBytes
  /-- Bytes at HOSTO that are no output record (R116 to R123): no event. -/
  | outputRecord
  /-- A channel type code that MAP never returns, or that no handler of the direction serves (R103). -/
  | reservedCt
  deriving DecidableEq, Repr

/-- The decoder: the port first, then the record (R124). -/
def decodeEvent (e : Event) : Except Reject Instr :=
  match e.port with
  | .clk => .ok (.clkInd e.bytes e.now)
  | .uld =>
    if e.bytes.length = 156 then .ok (.ulBurstNb e.bytes)
    else if e.bytes.length = 452 then .ok (.ulBurst8psk e.bytes)
    else .error .uldLength
  | .host => .ok (decodeHost e.bytes)
  | .timer => if e.bytes = [] then .ok (.tick e.now) else .error .timerBytes
  | .hosto =>
    match decodeOutput e.bytes with
    | some i => .ok i
    | none => .error .outputRecord

/-! ## The second-level decoders over ct (R103, R211, R283) -/

/-- The TX handler of a channel type code in the downlink (R103, R211). -/
def decodeTx (ct : Nat) (tn : Tn) (ss : Ss) (bid : Bid) (facchOk : Bool) (s : Fn) : Except Reject Instr :=
  match ct with
  | 0 => .ok (.txIdle tn s)
  | 1 => .ok (.txFcch tn s)
  | 2 => .ok (.txSch tn s)
  | 3 => .ok (.txBcch tn bid s)
  | 4 => .ok (.txCcch tn bid s)
  | 5 => .ok (.txSdcch tn ss bid s)
  | 6 => .ok (.txSacch tn ss bid s)
  | 7 => .ok (.txTchf tn ss bid s)
  | 8 => .ok (.txTchh tn ss bid facchOk s)
  | 11 => .ok (.txPdtch tn ss bid s)
  | 12 => .ok (.txPtcch tn ss bid s)
  | 13 => .ok (.txRachAsIdle tn s)
  | _ => .error .reservedCt

/-- The RX handler of a channel type code in the uplink (R103, R283), at a channel not armed for handover. -/
def decodeRx (ct : Nat) (tn : Tn) (ss : Ss) (bid : Bid) (f : Fn) (x : Option Burst) : Except Reject Instr :=
  match ct with
  | 0 => .ok (.rxIdle x)
  | 1 => .ok (.rxIdle x)
  | 2 => .ok (.rxIdle x)
  | 3 => .ok (.rxIdle x)
  | 4 => .ok (.rxIdle x)
  | 5 => .ok (.rxSdcch tn ss bid f x)
  | 6 => .ok (.rxSacch tn ss bid f x)
  | 7 => .ok (.rxTchf tn ss bid f x)
  | 8 => .ok (.rxTchh tn ss bid f x)
  | 11 => .ok (.rxPdtch tn ss bid f x)
  | 12 => .ok (.rxPtcch tn ss f x)
  | 13 => .ok (.rxRach tn f x)
  | _ => .error .reservedCt

/-! ## The encoder -/

/-- The event that carries an instruction: its port and its bytes, for the rows that have an encoding (R124).
The sub-operations have none ("no encoding of their own", R124), so they answer none. -/
def encode : Instr → Option Event
  | .clkInd b now => some ⟨.clk, now, b⟩
  | .ulBurstNb b => some ⟨.uld, 0, b⟩
  | .ulBurst8psk b => some ⟨.uld, 0, b⟩
  | .linkOpen => some ⟨.host, 0, [0x01]⟩
  | .linkClose => some ⟨.host, 0, [0x02]⟩
  | .cfgRd a => some ⟨.host, 0, 0x10 :: bytes16 a⟩
  | .cfgWr a v => some ⟨.host, 0, 0x11 :: bytes16 a ++ bytes32 v⟩
  | .dlqPush q p => some ⟨.host, 0, 0x20 :: queueBytes q ++ BitVec.ofNat 8 p.length :: p⟩
  | .hostReserved b => some ⟨.host, 0, b⟩
  | .tick now => some ⟨.timer, now, []⟩
  | .anchor _ _ => none
  | .clkApply _ _ => none
  | .resync _ _ => none
  | .delay _ _ => none
  | .catchUp _ _ => none
  | .tickLiveness _ => none
  | .tickStall _ => none
  | .tickProduce _ => none
  | .fatal _ => none
  | .schedFn _ => none
  | .txDispatch _ _ _ => none
  | .txIdle _ _ => none
  | .txFcch _ _ => none
  | .txSch _ _ => none
  | .txBcch _ _ _ => none
  | .txCcch _ _ _ => none
  | .txSdcch _ _ _ _ => none
  | .txSacch _ _ _ _ => none
  | .txTchf _ _ _ _ => none
  | .txTchh _ _ _ _ _ => none
  | .txPdtch _ _ _ _ => none
  | .txPtcch _ _ _ _ => none
  | .txRachAsIdle _ _ => none
  | .txGroup _ _ _ _ _ _ => none
  | .dlMiss _ _ _ => none
  | .emitSlot _ _ _ => none
  | .asmNb _ _ => none
  | .emitDl _ _ _ => none
  | .ulSeq _ _ _ => none
  | .ulGap _ _ _ => none
  | .rxPos _ _ _ => none
  | .rxLane _ _ _ _ _ _ => none
  | .closeGroup _ _ _ => none
  | .report _ _ _ _ _ => none
  | .rxMissing _ _ => none
  | .rxIdle _ => none
  | .rxSdcch _ _ _ _ _ => none
  | .rxSacch _ _ _ _ _ => none
  | .rxTchf _ _ _ _ _ => none
  | .rxTchh _ _ _ _ _ => none
  | .rxPdtch _ _ _ _ _ => none
  | .rxPtcch _ _ _ _ => none
  | .rxRach _ _ _ => none
  | .hoAccess _ _ _ _ => none
  | .pwrSample _ _ _ => none
  | .pwrClock _ _ => none
  | .pwrEval _ _ => none
  | .taSample _ _ _ => none
  | .taEval _ _ => none
  | .amrSample _ _ _ _ => none
  | .amrEval _ _ => none
  | .cfgData a v => some ⟨.hosto, 0, recCfgData a v⟩
  | .dataInd tn ss ct kind fn p => some ⟨.hosto, 0, recDataInd tn ss ct kind fn p⟩
  | .measInd tn ss ct fn n fl rssi ber toa => some ⟨.hosto, 0, recMeasInd tn ss ct fn n fl rssi ber toa⟩
  | .rachInd tn ct fn ra toa ber rssi => some ⟨.hosto, 0, recRachInd tn ct fn ra toa ber rssi⟩
  | .hoInd tn ss fn ra toa ber rssi => some ⟨.hosto, 0, recHoInd tn ss fn ra toa ber rssi⟩
  | .loopInd tn ss which v => some ⟨.hosto, 0, recLoopInd tn ss which v⟩
  | .fatalInd cause => some ⟨.hosto, 0, recFatalInd cause⟩

/-! ## The opcode table's numbering of bits -/

/-- The bytes of a table word: byte i is bits 8i+7..8i. -/
def tableBytes (nbits w : Nat) : Bytes := (List.range ((nbits + 7) / 8)).map fun i => BitVec.ofNat 8 (w >>> (8 * i))

/-- A record filled up with zero bytes to the length its first byte gives (R110, R126). -/
def padRecord (b : Bytes) : Bytes :=
  let fill (n : Nat) := b ++ List.replicate (n - b.length) 0
  match (byteAt b 0).toNat with
  | 0x10 => fill 3
  | 0x11 => fill 7
  | 0x20 => fill (5 + (byteAt b 4).toNat)
  | 0x81 => fill 7
  | 0x90 => fill (10 + (byteAt b 9).toNat)
  | 0x91 => fill 16
  | 0x92 => fill 15
  | 0x93 => fill 15
  | 0x94 => fill 6
  | 0xF0 => fill 2
  | _ => b

/-- An output record's opcode (R121). -/
def isOutputOp (b : Byte) : Bool := b ∈ [0x81, 0x90, 0x91, 0x92, 0x93, 0x94, 0xF0]

/-- The event a table word stands for. The table's word does not name its port, so the port is read off the
word: no bytes are a TICK, "IND CLOCK " a clock datagram, 156 or 452 bytes an uplink datagram, an output
opcode an output record, and anything else a host record (log entry 3). -/
def tableEvent (nbits w : Nat) : Event :=
  let b := tableBytes nbits w
  if b = [] then ⟨.timer, 0, []⟩
  else if b.take 10 = clkHead then ⟨.clk, 0, b⟩
  else if b.length = 156 ∨ b.length = 452 then ⟨.uld, 0, b⟩
  else if isOutputOp (byteAt b 0) then ⟨.hosto, 0, padRecord b⟩
  else ⟨.host, 0, padRecord b⟩

/-- The instruction the decoder reads from an instruction whose bits are w, as the opcode table numbers them. -/
def decodeTableWord (nbits w : Nat) : Option Instr :=
  match decodeEvent (tableEvent nbits w) with
  | .ok i => some i
  | .error _ => none

end Sys2Proof
end

