-- ==== Sys2Proof/Config.lean ====
section
/-! DEFINITION. The parameters of the block that the spec leaves OPEN (R5, R9, 93 part B), each an opaque
constant with no body, so that a claim holds whatever they are; the types of the results their contracts allow
(R9, R376); and the default training sequences. -/

namespace Sys2Proof.Config

/-- A MAP result within law (M3) of R212. The bid stands before its reduction below G(ct), so that every lawful
result, and no other, is the value of such a record (`mapOf`, log entry 7). -/
structure LawfulPosition where
  ct      : Ct
  ss      : Ss
  bid     : Bid
  facchOk : Bool
  deriving DecidableEq, Repr, Inhabited

/-- A burst slot within the contract of ENC_STEP: 116 bits for GMSK, 348 for PSK8 (R9, R376). -/
inductive LawfulSlot
  | gmsk (bits : Vector Bool 116)
  | psk8 (bits : Vector Bool 348)
  deriving DecidableEq, Repr, Inhabited

/-- An ENC_STEP result within its contract; a group of G(ct) slots takes the first G(ct) (R9, R376). -/
structure LawfulEnc where
  ilv   : Ilv
  slots : Vector LawfulSlot 4
  deriving DecidableEq, Repr, Inhabited

/-- A payload of at most 255 bytes: the first `len` of `raw` (R376). -/
structure LawfulPayload where
  len : Fin 256
  raw : Vector Byte 255
  deriving DecidableEq, Repr, Inhabited

/-- The kinds DEC_STEP may return (R376). -/
inductive LawfulKind
  | data | speech | facch
  deriving DecidableEq, Repr, Inhabited

/-- A DEC_STEP result within its contract; nbits is nerr plus the bits without error (R9, R376). -/
structure LawfulDec where
  ilv     : Ilv
  ok      : Bool
  kind    : LawfulKind
  payload : LawfulPayload
  nerr    : Nat
  ngood   : Nat
  ftValid : Bool
  ft      : Fin 4
  taValid : Bool
  ta      : Fin 64
  deriving DecidableEq, Repr, Inhabited

/-- A RACH_DEC result within its contract: ra in 0..2047, no more errors than bits (R9, R376). -/
structure LawfulRach where
  ok    : Bool
  ra    : Fin 2048
  nerr  : Nat
  ngood : Nat
  deriving DecidableEq, Repr, Inhabited

/-- MAP, the 45.002 channel-to-burst mapping (R212, D18). -/
opaque map (comb : BitVec 8) (tn : Tn) (fn : Fn) (dir : Dir) : LawfulPosition

/-- ENC_STEP, channel coding and interleaving of one downlink group (R9). -/
opaque encStep (ct : LaneCt) (kind : CodecKind) (mode cmr : BitVec 2) (payload : Bytes) (ilv : Ilv) : LawfulEnc

/-- DEC_STEP, deinterleaving and decoding of one uplink group (R9); the mask is `UL_MASK[G-1:0]`. -/
opaque decStep (ct : UlCt) (mode : BitVec 2) (ilv : Ilv) (slots : List (List Int)) (mask : Nat) (cont : Bool) :
  LawfulDec

/-- RACH_DEC, the access burst decoder (R9). -/
opaque rachDec (sbits : List Int) : LawfulRach

/-- SCH_ENC (R9). -/
opaque schEnc (bsic : BitVec 6) (fn : Fn) : Vector Bool 148

/-- FCCH_BURST (R9). -/
opaque fcchBurst : Vector Bool 148

/-- DUMMY_BURST (R9). -/
opaque dummyBurst : Vector Bool 148

/-- FILLER (R9). -/
opaque filler (ct : LaneCt) : LawfulPayload

/-- BFI (R9); used for TCH/F and TCH/H (R255). -/
opaque bfi (ct : LaneCt) (mode : BitVec 2) : LawfulPayload

/-- ASM_8PSK, the assembly of an 8PSK slot into a burst (R9, R215). -/
opaque asm8psk (slot : List Bool) (tsc : BitVec 3) : Vector Bool 444

/-- ILV0, the initial interleaver state of a lane (R9, R36). -/
opaque ilv0 : Ilv

/-- TX_ADV_RESET, the reset value of TX_ADV (R49, D16). -/
opaque txAdvReset : BitVec 8

/-- BAND_MIN_DBM, the reset value of PWR_RANGE.MIN_DBM (R53, D32). -/
opaque bandMinDbm : BitVec 8

/-- BAND_MAX_DBM, the reset value of PWR_RANGE.MAX_DBM (R53, D32). -/
opaque bandMaxDbm : BitVec 8

/-- PQ_DEPTH minus 1, so that PQ_DEPTH is in 1..15 by its type (R5, D24). -/
opaque pqDepthM1 : Fin 15

/-- A row of the training sequence table: bit t[i] is bit 25 - i of the number, so that the number written in
binary reads as the row. -/
def tscRow (n : Nat) : Vector Bool 26 := Vector.ofFn fun i => n.testBit (25 - i.val)

/-- TSC_TABLE's default: the eight sequences of R217. -/
def tscDefault : Vector (Vector Bool 26) 8 := #v[
  tscRow 0b00100101110000100010010111, tscRow 0b00101101110111100010110111,
  tscRow 0b01000011101110100100001110, tscRow 0b01000111101101000100011110,
  tscRow 0b00011010111001000001101011, tscRow 0b01001110101100000100111010,
  tscRow 0b10100111110110001010011111, tscRow 0b11101111000100101110111100]

end Sys2Proof.Config
end

