-- ==== Sys2Proof/Machine/State.lean ====
section
/-! DEFINITION. State as plain data: every piece of state of 10_state.md (R20 to R37 and the registers R41 to
R70), the two output streams, and the model's own fields (pending events, listed contract values, the result
of a value-returning sub-operation); the reasons a step can stop; and the state after power-on reset. -/

namespace Sys2Proof.Machine

/-- The reasons the machine stops with a fault. There is none: "No access faults" (R86), "No encoding traps"
(R125), and the fatal entry of R371 is a next state. So the type has no constructor (safe). -/
inductive Fault : Type
  deriving DecidableEq, Repr

/-- The reasons an instruction has no successor state: the refusals of R376. Each is safe: where an external
function breaks its contract the spec itself says that the model refuses the step. -/
inductive Refusal
  /-- Raised by an arm of exec that has no meaning yet (safe). -/
  | notModelled (mnemonic : String)
  /-- Raised by SCHED_FN and RX_POS when MAP's result breaks law (M3) of R212 (safe). -/
  | mapContract
  /-- Raised by TX_GROUP when ENC_STEP returns a wrong slot count or slot length (safe). -/
  | encContract
  /-- Raised by CLOSE_GROUP when DEC_STEP's result is out of range (safe). -/
  | decContract
  /-- Raised by RX_RACH, RX_PTCCH and HO_ACCESS when RACH_DEC's result is out of range (safe). -/
  | rachContract
  /-- Raised by TX_SCH when SCH_ENC returns a length other than 148 (safe). -/
  | schLength
  /-- Raised by TX_FCCH when FCCH_BURST has a length other than 148 (safe). -/
  | fcchLength
  /-- Raised by TX_IDLE when it sends a DUMMY_BURST of a length other than 148 (safe). -/
  | dummyLength
  /-- Raised by EMIT_SLOT when ASM_8PSK returns a length other than 444 (safe). -/
  | psk8Length
  /-- Raised by a payload selection when FILLER returns more than 255 bytes (safe). -/
  | fillerLength
  /-- Raised by DL_MISS when BFI returns more than 255 bytes (safe). -/
  | bfiLength
  deriving DecidableEq, Repr

/-- CLK_STATE (R22). -/
inductive ClkState
  | closed | unsync | sync | fatal
  deriving DecidableEq, Repr

/-- The ClockState unit's registers (R22 to R29). -/
structure ClockState where
  /-- CLK_STATE, STATUS[1:0] (R22). -/
  clkState : ClkState
  /-- ARMED, STATUS[2] (R25). -/
  armed : Bool
  /-- LAST_FN, 22 bits (R23). -/
  lastFn : Fn
  /-- LAST_TS, the phase accumulator, 64 bits (R24). -/
  lastTs : Time
  /-- DEADLINE, 64 bits (R25). -/
  deadline : Time
  /-- NO_CLK, 16 bits saturating (R27). -/
  noClk : BitVec 16
  /-- FATAL_CAUSE, 4 bits, STATUS[7:4] (R28). -/
  fatalCause : BitVec 4
  /-- RESYNCS, 16 bits saturating (R29). -/
  resyncs : BitVec 16
  deriving DecidableEq, Repr

/-- The global configuration registers (R42 to R54). -/
structure GlobalCfg where
  /-- CTRL.PWR_LOOP_EN (R42). -/
  pwrLoopEn : Bool
  /-- CTRL.TA_LOOP_EN (R42). -/
  taLoopEn : Bool
  /-- CTRL.C0 (R42). -/
  c0 : Bool
  /-- MAX_SKEW (R46). -/
  maxSkew : BitVec 16
  /-- LOSS_FRAMES (R47). -/
  lossFrames : BitVec 16
  /-- TX_ADV (R49). -/
  txAdv : BitVec 8
  /-- UL_GAP_MAX (R50). -/
  ulGapMax : BitVec 16
  /-- PWR_TARGET, signed (R51). -/
  pwrTarget : BitVec 8
  /-- PWR_STEP.RAISE_MAX_DB, unsigned (R52). -/
  raiseMax : BitVec 8
  /-- PWR_STEP.LOWER_MAX_DB, unsigned (R52). -/
  lowerMax : BitVec 8
  /-- PWR_RANGE.MIN_DBM, signed (R53). -/
  minDbm : BitVec 8
  /-- PWR_RANGE.MAX_DBM, signed (R53). -/
  maxDbm : BitVec 8
  /-- BSIC (R54). -/
  bsic : BitVec 6
  deriving DecidableEq, Repr

/-- The discard counters of DISCARDS (R55) and DISCARDS2 (R57), each 8 bits saturating. -/
structure Discards where
  clkMalformed  : Byte
  dataMalformed : Byte
  ulReject      : Byte
  dlqReject     : Byte
  hostMalformed : Byte
  stateIgnored  : Byte
  accessFail    : Byte
  deriving DecidableEq, Repr

/-- The downlink fields every lane has (R31). -/
structure DlLane where
  /-- DL_SLOTS[0..3]. -/
  slots : Vector Slot 4
  /-- DL_VALID. -/
  valid : Bool
  /-- DL_LAST_BID. -/
  lastBid : Bid
  /-- DL_ILV. -/
  ilv : Ilv
  deriving DecidableEq, Repr

/-- A dedicated lane (R31). -/
structure Lane where
  /-- The downlink fields. -/
  dl : DlLane
  /-- DL_LOSS, 8 bits saturating. -/
  dlLoss : BitVec 8
  /-- UL_SLOTS[0..3], soft values. -/
  ulSlots : Vector (List Int) 4
  /-- UL_MASK. -/
  ulMask : BitVec 4
  /-- UL_LAST_BID. -/
  ulLastBid : Bid
  /-- UL_OPEN. -/
  ulOpen : Bool
  /-- UL_ILV. -/
  ulIlv : Ilv
  /-- UL_FIRST_FN. -/
  ulFirstFn : Fn
  /-- RSSI_SUM, signed 32. -/
  rssiSum : BitVec 32
  /-- RSSI_CNT. -/
  rssiCnt : BitVec 8
  /-- TOA_SUM, signed 32. -/
  toaSum : BitVec 32
  /-- TOA_CNT. -/
  toaCnt : BitVec 8
  deriving DecidableEq, Repr

/-- A dedicated channel CH[tn][ss] (R33), its lanes M and A (R31) and its queues (R32). -/
structure Channel where
  /-- ACTIVE (R61). -/
  active : Bool
  /-- AMR_EN (R61). -/
  amrEn : Bool
  /-- HO_ARM (R61). -/
  hoArm : Bool
  /-- NCODECS_M1 (R61). -/
  ncodecsM1 : BitVec 2
  /-- DL_CMR (R62). -/
  dlCmr : BitVec 2
  /-- UL_FT (R62). -/
  ulFt : BitVec 2
  /-- DL_FT (R62). -/
  dlFt : BitVec 2
  /-- THR[0..2] (R63). -/
  thr : Vector (BitVec 16) 3
  /-- HYST[0..2] (R63). -/
  hyst : Vector (BitVec 16) 3
  /-- MS_PWR, signed (R64). -/
  msPwr : BitVec 8
  /-- RQD_TA (R65). -/
  rqdTa : BitVec 6
  /-- ACK_TA (R65). -/
  ackTa : BitVec 6
  /-- PWR_CNT, 8 bits saturating (R66). -/
  pwrCnt : BitVec 8
  /-- PWR_MIN, signed 16 (R66). -/
  pwrMin : BitVec 16
  /-- PWR_CLK (R66). -/
  pwrClk : Bool
  /-- TA_CNT, 5 bits (R67). -/
  taCnt : BitVec 5
  /-- TA_SUM, signed 32 (R67). -/
  taSum : BitVec 32
  /-- BER_NUM (R68). -/
  berNum : BitVec 8
  /-- BER_SUM, unsigned 32 (R68). -/
  berSum : BitVec 32
  /-- Lane M: SDCCH, TCH/F, TCH/H, PDTCH (R213). -/
  laneM : Lane
  /-- Lane A: SACCH, PTCCH (R213). -/
  laneA : Lane
  /-- DL_FACCH_ONG, lane M only (R31). -/
  dlFacchOng : Bool
  /-- UL_FACCH_ONG, lane M only (R31). -/
  ulFacchOng : Bool
  /-- Queue M_SIG (R32). -/
  qSig : List Bytes
  /-- Queue M_SPEECH (R32). -/
  qSpeech : List Bytes
  /-- Queue A (R32). -/
  qAssoc : List Bytes
  deriving DecidableEq, Repr

/-- The state of one timeslot (R30, R58, R213). -/
structure TnState where
  /-- TN_CFG.COMB (R58). -/
  comb : BitVec 8
  /-- TN_CFG.TSC (R58). -/
  tsc : BitVec 3
  /-- TN_CFG.TX_POWER (R58). -/
  txPower : BitVec 8
  /-- UL_LAST_FN (R30). -/
  ulLastFn : Fn
  /-- UL_LAST_VALID (R30). -/
  ulLastValid : Bool
  /-- COM[tn].B, the BCCH lane. -/
  laneB : DlLane
  /-- COM[tn].C, the CCCH lane. -/
  laneC : DlLane
  /-- Queue BCCH[tn] (R32). -/
  qBcch : List Bytes
  /-- Queue CCCH[tn] (R32). -/
  qCcch : List Bytes
  /-- CH[tn][0..7]. -/
  chans : Vector Channel 8
  deriving DecidableEq, Repr

/-- The output ports (R100). -/
inductive OutPort
  | dld | hosto
  deriving DecidableEq, Repr

/-- One emitted record. -/
structure Output where
  port  : OutPort
  bytes : Bytes
  deriving DecidableEq, Repr

/-- The MODEL's own: what a value-returning sub-operation run on its own answered (log entry 4). -/
inductive Ret
  | none
  /-- ASM_NB's burst. -/
  | burst (bits : List Bool)
  /-- DL_MISS's kind and payload. -/
  | miss (kind : CodecKind) (payload : Bytes)
  deriving DecidableEq, Repr

/-- The arguments of MAP (R212). -/
structure MapKey where
  comb : BitVec 8
  tn   : Tn
  fn   : Fn
  dir  : Dir
  deriving DecidableEq, Repr

/-- The arguments of ENC_STEP (R9). -/
structure EncKey where
  ct      : LaneCt
  kind    : CodecKind
  mode    : BitVec 2
  cmr     : BitVec 2
  payload : Bytes
  ilv     : Ilv
  deriving DecidableEq, Repr

/-- The arguments of DEC_STEP (R9); the mask is the value of `UL_MASK[G-1:0]`. -/
structure DecKey where
  ct    : UlCt
  mode  : BitVec 2
  ilv   : Ilv
  slots : List (List Int)
  mask  : Nat
  cont  : Bool
  deriving DecidableEq, Repr

/-- The MODEL's own: values of the OPEN parameters listed as data. An argument that is not listed takes the
value of the opaque constant of Config; no operation writes the lists, and reset lists nothing (log entry 5). -/
structure Listed where
  map     : List (MapKey × MapResult)
  enc     : List (EncKey × EncResult)
  dec     : List (DecKey × DecResult)
  rach    : List (List Int × RachResult)
  sch     : List ((BitVec 6 × Fn) × List Bool)
  fcch    : Option (List Bool)
  dummy   : Option (List Bool)
  filler  : List (LaneCt × Bytes)
  bfi     : List ((LaneCt × BitVec 2) × Bytes)
  psk8    : List ((List Bool × BitVec 3) × List Bool)
  ilv0    : Option Ilv
  tsc     : Option (Vector (Vector Bool 26) 8)
  pqDepth : Option (Fin 15)
  deriving DecidableEq, Repr

/-- The state of the block (R20). -/
structure State where
  /-- ClockState and the frame timer (R22 to R29). -/
  clk : ClockState
  /-- The global configuration registers (R42 to R54). -/
  cfg : GlobalCfg
  /-- DISCARDS and DISCARDS2 (R55, R57). -/
  disc : Discards
  /-- The eight timeslots (R30 to R33, R58). -/
  tns : Vector TnState 8
  /-- The streams DLD and HOSTO in the one order of R87 (e), oldest first. -/
  out : List Output
  /-- The MODEL's own: the events the engine will take, in the order it takes them (log entry 3). -/
  pending : List Event
  /-- The MODEL's own: the answer of a value-returning sub-operation run on its own. -/
  ret : Ret
  /-- The MODEL's own: parameter values listed as data. -/
  listed : Listed
  deriving DecidableEq, Repr

/-! ## Reset values -/

/-- A reset downlink lane (R36), for the initial interleaver state given. -/
def DlLane.fresh (ilv : Ilv) : DlLane :=
  { slots := Vector.replicate 4 ⟨.gmsk, List.replicate 116 false⟩, valid := false, lastBid := 0, ilv := ilv }

/-- A reset dedicated lane (R36). -/
def Lane.fresh (ilv : Ilv) : Lane :=
  { dl := DlLane.fresh ilv, dlLoss := 0, ulSlots := Vector.replicate 4 (List.replicate 148 0), ulMask := 0
    ulLastBid := 0, ulOpen := false, ulIlv := ilv, ulFirstFn := 0, rssiSum := 0, rssiCnt := 0, toaSum := 0
    toaCnt := 0 }

/-- A channel after power-on reset (R61 to R70, R72). -/
def Channel.powerOn (ilv : Ilv) : Channel :=
  { active := false, amrEn := false, hoArm := false, ncodecsM1 := 0, dlCmr := 0, ulFt := 0, dlFt := 0
    thr := Vector.replicate 3 0, hyst := Vector.replicate 3 0, msPwr := 0, rqdTa := 0, ackTa := 0, pwrCnt := 0
    pwrMin := 0, pwrClk := false, taCnt := 0, taSum := 0, berNum := 0, berSum := 0, laneM := Lane.fresh ilv
    laneA := Lane.fresh ilv, dlFacchOng := false, ulFacchOng := false, qSig := [], qSpeech := [], qAssoc := [] }

/-- A timeslot after power-on reset (R30, R58, R72). -/
def TnState.powerOn (ilv : Ilv) : TnState :=
  { comb := 0, tsc := 0, txPower := 0, ulLastFn := 0, ulLastValid := false, laneB := DlLane.fresh ilv
    laneC := DlLane.fresh ilv, qBcch := [], qCcch := [], chans := Vector.replicate 8 (Channel.powerOn ilv) }

/-- No parameter value listed. -/
def Listed.nothing : Listed :=
  { map := [], enc := [], dec := [], rach := [], sch := [], fcch := none, dummy := none, filler := [], bfi := []
    psk8 := [], ilv0 := none, tsc := none, pqDepth := none }

/-- The machine right after power-on reset (R72, R400). -/
def State.reset : State :=
  { clk := { clkState := .closed, armed := false, lastFn := 0, lastTs := 0, deadline := 0, noClk := 0
             fatalCause := 0, resyncs := 0 }
    cfg := { pwrLoopEn := true, taLoopEn := true, c0 := false, maxSkew := 50, lossFrames := 400
             txAdv := Config.txAdvReset, ulGapMax := 50, pwrTarget := 0xF6, raiseMax := 4, lowerMax := 2
             minDbm := Config.bandMinDbm, maxDbm := Config.bandMaxDbm, bsic := 0 }
    disc := { clkMalformed := 0, dataMalformed := 0, ulReject := 0, dlqReject := 0, hostMalformed := 0
              stateIgnored := 0, accessFail := 0 }
    tns := Vector.replicate 8 (TnState.powerOn Config.ilv0)
    out := [], pending := [], ret := .none, listed := Listed.nothing }

end Sys2Proof.Machine
end

