-- ==== Sys2Proof/Machine/Operands.lean ====
section
/-! DEFINITION. Operand forms: the integer and FN arithmetic of R6 and R7, the parameter values an operation
reads (R9), and the names and addresses of the CFG registers (R40 to R71, R85). -/

namespace Sys2Proof.Machine

/-! ## Integers (R6) -/

/-- `clamp(x, lo, hi)` (R6). -/
def clampInt (x lo hi : Int) : Int := min (max x lo) hi

/-- A store into a saturating field of width w: the value is clamped to 0..2^w-1 (R6). -/
def satTo (w : Nat) (x : Int) : BitVec w := BitVec.ofNat w (clampInt x 0 (2 ^ w - 1)).toNat

/-- `sat_w(v + n)` for a counter v (R6). -/
def satAdd (v : BitVec w) (n : Nat) : BitVec w := satTo w (v.toNat + n)

/-- `tdiv(a, b)`, 0 for b = 0 as the rules that use it say (R6, R288). -/
def tdivOr0 (a b : Int) : Int := if b = 0 then 0 else a.tdiv b

/-- BER in parts per ten thousand (R288, R289): 0 when there are no bits. -/
def berPpt (nerr nbits : Nat) : Nat := (tdivOr0 (10000 * nerr) nbits).toNat

/-- A signed value in a 16-bit field of a record (R118 to R122). -/
def s16 (x : Int) : BitVec 16 := BitVec.ofInt 16 x

/-- A natural number in a 16-bit field of a record. -/
def u16 (n : Nat) : BitVec 16 := BitVec.ofNat 16 n

/-! ## Frame numbers (R7) -/

/-- `inc(f)` (R7). -/
def fnInc (f : Fn) : Fn := BitVec.ofNat 22 ((f.toNat + 1) % hyperframe)

/-- `addfn(f, n)` (R7). -/
def fnAdd (f : Fn) (n : Nat) : Fn := BitVec.ofNat 22 ((f.toNat + n) % hyperframe)

/-- `(a - b) mod H`: the number of increments from b to a (R7). -/
def fnDist (a b : Fn) : Nat := (((a.toNat : Int) - b.toNat) % hyperframe).toNat

/-- `sdiff(a, b)`, in -H/2..H/2-1 (R7, D8). -/
def sdiff (a b : Fn) : Int :=
  if fnDist a b ≥ 1357824 then (fnDist a b : Int) - hyperframe else fnDist a b

/-! ## Parameter values (R9): listed as data, or else the opaque constant of Config -/

/-- A lawful position as the record MAP answers (R212). -/
def mapResult (p : Config.LawfulPosition) : MapResult :=
  { ct := p.ct.code, ss := p.ss.val, bid := p.bid.toNat % p.ct.groupLen, facchOk := p.facchOk.toNat }

/-- A lawful slot as a slot. -/
def lawfulSlot : Config.LawfulSlot → Slot
  | .gmsk b => { modulation := .gmsk, bits := b.toList }
  | .psk8 b => { modulation := .psk8, bits := b.toList }

/-- A lawful payload as bytes. -/
def lawfulBytes (p : Config.LawfulPayload) : Bytes := p.raw.toList.take p.len.val

/-- A lawful ENC_STEP answer, of G(ct) slots. -/
def encResult (ct : LaneCt) (r : Config.LawfulEnc) : EncResult :=
  { ilv := r.ilv, slots := (r.slots.toList.take ct.toCt.groupLen).map lawfulSlot }

/-- A lawful kind as a kind. -/
def lawfulKind : Config.LawfulKind → CodecKind
  | .data => .data
  | .speech => .speech
  | .facch => .facch

/-- A lawful DEC_STEP answer. -/
def decResult (r : Config.LawfulDec) : DecResult :=
  { ilv := r.ilv, ok := r.ok, kind := lawfulKind r.kind, payload := lawfulBytes r.payload, nerr := r.nerr
    nbits := r.nerr + r.ngood, ftValid := r.ftValid, ft := r.ft.val, taValid := r.taValid, ta := r.ta.val }

/-- A lawful RACH_DEC answer. -/
def rachResult (r : Config.LawfulRach) : RachResult :=
  { ok := r.ok, ra := r.ra.val, nerr := r.nerr, nbits := r.nerr + r.ngood }

/-- MAP(comb, tn, fn, dir) (R212). -/
def State.mapOf (s : State) (comb : BitVec 8) (tn : Tn) (fn : Fn) (dir : Dir) : MapResult :=
  (s.listed.map.lookup ⟨comb, tn, fn, dir⟩).getD (mapResult (Config.map comb tn fn dir))

/-- ENC_STEP(...) (R9). -/
def State.encStep (s : State) (ct : LaneCt) (kind : CodecKind) (mode cmr : BitVec 2) (payload : Bytes)
    (ilv : Ilv) : EncResult :=
  (s.listed.enc.lookup ⟨ct, kind, mode, cmr, payload, ilv⟩).getD
    (encResult ct (Config.encStep ct kind mode cmr payload ilv))

/-- DEC_STEP(...) (R9). -/
def State.decStep (s : State) (ct : UlCt) (mode : BitVec 2) (ilv : Ilv) (slots : List (List Int)) (mask : Nat)
    (cont : Bool) : DecResult :=
  (s.listed.dec.lookup ⟨ct, mode, ilv, slots, mask, cont⟩).getD
    (decResult (Config.decStep ct mode ilv slots mask cont))

/-- RACH_DEC(sbits) (R9). -/
def State.rachDec (s : State) (sbits : List Int) : RachResult :=
  (s.listed.rach.lookup sbits).getD (rachResult (Config.rachDec sbits))

/-- SCH_ENC(bsic, fn) (R9). -/
def State.schEnc (s : State) (bsic : BitVec 6) (fn : Fn) : List Bool :=
  (s.listed.sch.lookup (bsic, fn)).getD (Config.schEnc bsic fn).toList

/-- FCCH_BURST (R9). -/
def State.fcchBurst (s : State) : List Bool := s.listed.fcch.getD Config.fcchBurst.toList

/-- DUMMY_BURST (R9). -/
def State.dummyBurst (s : State) : List Bool := s.listed.dummy.getD Config.dummyBurst.toList

/-- FILLER(ct) (R9). -/
def State.filler (s : State) (ct : LaneCt) : Bytes :=
  (s.listed.filler.lookup ct).getD (lawfulBytes (Config.filler ct))

/-- BFI(ct, mode) (R9). -/
def State.bfi (s : State) (ct : LaneCt) (mode : BitVec 2) : Bytes :=
  (s.listed.bfi.lookup (ct, mode)).getD (lawfulBytes (Config.bfi ct mode))

/-- ASM_8PSK(slot, tsc) (R9, R215). -/
def State.asm8psk (s : State) (slot : List Bool) (tsc : BitVec 3) : List Bool :=
  (s.listed.psk8.lookup (slot, tsc)).getD (Config.asm8psk slot tsc).toList

/-- ILV0 (R9, R36). -/
def State.ilv0 (s : State) : Ilv := s.listed.ilv0.getD Config.ilv0

/-- TSC_TABLE[tsc]: the parameter, whose default is the table of R217. -/
def State.tscSeq (s : State) (tsc : BitVec 3) : List Bool :=
  ((s.listed.tsc.getD Config.tscDefault)[tsc.toNat]'(by have := tsc.isLt; omega)).toList

/-- PQ_DEPTH, 1..15 (R32, D24). -/
def State.pqDepth (s : State) : Nat := (s.listed.pqDepth.getD Config.pqDepthM1).val + 1

/-- ENC_STEP's contract (R376): G(ct) slots, each of the length its modulation gives. -/
def encOk (ct : LaneCt) (r : EncResult) : Bool := r.slots.length == ct.toCt.groupLen && r.slots.all slotOk

/-- RACH_DEC's contract (R376). -/
def rachOk (r : RachResult) : Bool := decide (r.ra ≤ 2047) && decide (r.nerr ≤ r.nbits)

/-! ## Lanes (R213) -/

/-- Where a downlink lane stands. -/
inductive LaneRef
  | comB (tn : Tn)
  | comC (tn : Tn)
  | dedM (tn : Tn) (ss : Ss)
  | dedA (tn : Tn) (ss : Ss)
  deriving DecidableEq, Repr

/-- The lane of a position (R213). -/
def laneRef (ct : LaneCt) (tn : Tn) (ss : Ss) : LaneRef :=
  match ct with
  | .bcch => .comB tn
  | .ccch => .comC tn
  | .sdcch => .dedM tn ss
  | .tchf => .dedM tn ss
  | .tchh => .dedM tn ss
  | .pdtch => .dedM tn ss
  | .sacch => .dedA tn ss
  | .ptcch => .dedA tn ss

/-- The two lanes of a dedicated channel. -/
inductive LaneId
  | m | a
  deriving DecidableEq, Repr

/-- The lane an uplink group is assembled in (R213, R291 to R295). -/
def ulLaneId : UlCt → LaneId
  | .sacch => .a
  | .sdcch => .m
  | .tchf => .m
  | .tchh => .m
  | .pdtch => .m

/-! ## CFG registers -/

/-- The global registers (R41 to R57). -/
inductive GReg
  | id | ctrl | status | lastFn | noClk | maxSkew | lossFrames | frameUs | txAdv | ulGapMax | pwrTarget | pwrStep
  | pwrRange | bsic | discards | resyncs | lastTsLo | lastTsHi | deadlineLo | deadlineHi | discards2
  deriving DecidableEq, Repr

/-- The per-timeslot registers (R58 to R60). -/
inductive TReg
  | tnCfg | ulLast | comq
  deriving DecidableEq, Repr

/-- The per-channel registers (R61 to R70). -/
inductive CReg
  | chCtrl | chCodec | amrT0 | amrT1 | amrT2 | msPwr | ta | pwrAcc | taCnt | taSum | berNum | berSum | laneMStat
  | laneAStat | qstat
  deriving DecidableEq, Repr

/-- A register of the CFG space (R85). -/
inductive Reg
  | glob (r : GReg)
  | slot (r : TReg) (tn : Tn)
  | chan (r : CReg) (tn : Tn) (ss : Ss)
  deriving DecidableEq, Repr

/-- The address of a global register (R41 to R57). -/
def GReg.addr : GReg → Nat
  | .id => 0x000 | .ctrl => 0x004 | .status => 0x008 | .lastFn => 0x00C | .noClk => 0x010 | .maxSkew => 0x014
  | .lossFrames => 0x018 | .frameUs => 0x01C | .txAdv => 0x020 | .ulGapMax => 0x024 | .pwrTarget => 0x028
  | .pwrStep => 0x02C | .pwrRange => 0x030 | .bsic => 0x034 | .discards => 0x038 | .resyncs => 0x03C
  | .lastTsLo => 0x040 | .lastTsHi => 0x044 | .deadlineLo => 0x048 | .deadlineHi => 0x04C | .discards2 => 0x050

/-- The base of a per-timeslot register (R58 to R60). -/
def TReg.base : TReg → Nat
  | .tnCfg => 0x100 | .ulLast => 0x140 | .comq => 0x160

/-- The offset of a channel register in its channel block (R61 to R70). -/
def CReg.offset : CReg → Nat
  | .chCtrl => 0x00 | .chCodec => 0x04 | .amrT0 => 0x08 | .amrT1 => 0x0C | .amrT2 => 0x10 | .msPwr => 0x14
  | .ta => 0x18 | .pwrAcc => 0x1C | .taCnt => 0x20 | .taSum => 0x24 | .berNum => 0x28 | .berSum => 0x2C
  | .laneMStat => 0x30 | .laneAStat => 0x34 | .qstat => 0x38

/-- The address of a register (R85): CHB(tn, ss) = 0x1000 + 0x40 (8 tn + ss). -/
def Reg.addr : Reg → BitVec 16
  | .glob r => BitVec.ofNat 16 r.addr
  | .slot r tn => BitVec.ofNat 16 (r.base + 4 * tn.val)
  | .chan r tn ss => BitVec.ofNat 16 (0x1000 + 0x40 * (8 * tn.val + ss.val) + r.offset)

/-- The global register at an address below 0x100. -/
def gregAt : Nat → Option GReg
  | 0x000 => some .id | 0x004 => some .ctrl | 0x008 => some .status | 0x00C => some .lastFn | 0x010 => some .noClk
  | 0x014 => some .maxSkew | 0x018 => some .lossFrames | 0x01C => some .frameUs | 0x020 => some .txAdv
  | 0x024 => some .ulGapMax | 0x028 => some .pwrTarget | 0x02C => some .pwrStep | 0x030 => some .pwrRange
  | 0x034 => some .bsic | 0x038 => some .discards | 0x03C => some .resyncs | 0x040 => some .lastTsLo
  | 0x044 => some .lastTsHi | 0x048 => some .deadlineLo | 0x04C => some .deadlineHi | 0x050 => some .discards2
  | _ => none

/-- The channel register at an offset in a channel block; 0x3C is reserved (R70). -/
def cregAt : Nat → Option CReg
  | 0x00 => some .chCtrl | 0x04 => some .chCodec | 0x08 => some .amrT0 | 0x0C => some .amrT1 | 0x10 => some .amrT2
  | 0x14 => some .msPwr | 0x18 => some .ta | 0x1C => some .pwrAcc | 0x20 => some .taCnt | 0x24 => some .taSum
  | 0x28 => some .berNum | 0x2C => some .berSum | 0x30 => some .laneMStat | 0x34 => some .laneAStat
  | 0x38 => some .qstat | _ => none

/-- The register a word-aligned address names; none where it is reserved (R71, R85). -/
def regAt (a : BitVec 16) : Option Reg :=
  let n := a.toNat
  if n % 4 ≠ 0 then none
  else if n < 0x100 then (gregAt n).map .glob
  else if n < 0x120 then some (.slot .tnCfg (Fin.ofNat 8 ((n - 0x100) / 4)))
  else if n < 0x140 then none
  else if n < 0x160 then some (.slot .ulLast (Fin.ofNat 8 ((n - 0x140) / 4)))
  else if n < 0x180 then some (.slot .comq (Fin.ofNat 8 ((n - 0x160) / 4)))
  else if n < 0x1000 then none
  else if n < 0x2000 then
    (cregAt (n % 0x40)).map fun r => .chan r (Fin.ofNat 8 ((n - 0x1000) / 0x200)) (Fin.ofNat 8 ((n - 0x1000) / 0x40))
  else none

/-- A register word from (value, lowest bit) pairs; reserved bits are 0 (R40). -/
def packWord (fields : List (Nat × Nat)) : BitVec 32 := BitVec.ofNat 32 ((fields.map fun f => f.1 * 2 ^ f.2).sum)

end Sys2Proof.Machine
end

