-- ==== Sys2Proof/Machine/Flags.lean ====
section
/-! DEFINITION. The flags of R34: their codes, the words that show them, and the conditions the event rules
read from them. -/

namespace Sys2Proof.Machine

/-- The 2-bit code of CLK_STATE (R22). -/
def ClkState.code : ClkState → Nat
  | .closed => 0 | .unsync => 1 | .sync => 2 | .fatal => 3

/-- The code of a fatal cause (R28, R108). -/
def fatalCode : FatalCause → BitVec 4
  | .clockLoss => 1 | .stallLate => 2 | .stallBack => 3

/-- The STATUS word (R43). -/
def ClockState.statusWord (c : ClockState) : BitVec 32 :=
  packWord [(c.clkState.code, 0), (c.armed.toNat, 2), (c.fatalCause.toNat, 4)]

/-- A LANE_M_STAT or LANE_A_STAT word, with the FACCH flags as given (R69). -/
def Lane.statWord (l : Lane) (dlFacch ulFacch : Bool) : BitVec 32 :=
  packWord [(l.ulMask.toNat, 0), (l.ulLastBid.toNat, 4), (l.ulOpen.toNat, 8), (l.dl.valid.toNat, 9),
    (dlFacch.toNat, 10), (ulFacch.toNat, 11), (l.dl.lastBid.toNat, 12), (l.dlLoss.toNat, 16)]

/-- CLK and ULD events are dropped in CLOSED and FATAL (R145, R280). -/
def ClockState.dropsRadio (c : ClockState) : Bool := c.clkState == .closed || c.clkState == .fatal

/-- A TICK at `now` is admissible (R151). -/
def ClockState.tickDue (c : ClockState) (now : Time) : Bool :=
  c.clkState == .sync && c.armed && decide (c.deadline.toNat ≤ now.toNat)

/-- k, the expirations since DEADLINE (R152); at least 1, as the rule says. -/
def ClockState.expirations (c : ClockState) (now : Time) : Nat := 1 + (now.toNat - c.deadline.toNat) / frameUs

/-- The liveness check of R152: NO_CLK > LOSS_FRAMES. -/
def State.clockLost (s : State) : Bool := decide (s.cfg.lossFrames.toNat < s.clk.noClk.toNat)

/-- elapsed of R153, signed. -/
def ClockState.elapsed (c : ClockState) (now : Time) : Int := (now.toNat : Int) - c.lastTs.toNat

/-- The stall check of R153: which stall there is, late before back. -/
def State.stalled (s : State) (now : Time) : Option FatalCause :=
  if s.clk.elapsed now > (s.cfg.maxSkew.toNat * frameUs : Nat) then some .stallLate
  else if s.clk.elapsed now < 0 then some .stallBack
  else none

/-- A downlink slot other than the first may be sent: the group was started and bid is past the last one sent
(R243, D60). -/
def DlLane.continues (l : DlLane) (bid : Bid) : Bool := l.valid && decide (l.lastBid.toNat < bid.toNat)

/-- The forced-close condition (R284, R285, D62). -/
def Lane.forcesClose (l : Lane) (bid : Bid) : Bool := l.ulOpen && decide (bid.toNat ≤ l.ulLastBid.toNat)

/-- popcount(UL_MASK) (R118, R288). -/
def popcount4 (m : BitVec 4) : Nat :=
  (m.getLsbD 0).toNat + (m.getLsbD 1).toNat + (m.getLsbD 2).toNat + (m.getLsbD 3).toNat

/-- UL_MASK with bit bid set (R286). -/
def setMask (m : BitVec 4) (bid : Bid) : BitVec 4 := m ||| (1#4 <<< bid.toNat)

/-- The loop is synchronised: UL_FT equals DL_CMR (R338). -/
def Channel.amrSynced (c : Channel) : Bool := c.ulFt == c.dlCmr

end Sys2Proof.Machine
end

