-- ==== Sys2Proof/Machine/Ops.lean ====
section
/-! DEFINITION. The named operations over the state: access to timeslots, channels, lanes and queues,
emission, counters, the resets of R36 and R37, the fatal entry (R371) and the way back from it (R374). -/

namespace Sys2Proof.Machine

/-- What an operation answers before it is an outcome: a value, or the contract that was broken (R376). -/
abbrev Res (α : Type) := Except Refusal α

/-- The outcome of an operation run as a step. -/
def Res.outcome (r : Res State) : Host.Outcome State Fault Refusal :=
  match r with
  | .ok s => .next s
  | .error e => .refused e

/-! ## Timeslots and channels -/

/-- The state of timeslot tn. -/
def State.slot (s : State) (tn : Tn) : TnState := s.tns[tn.val]

/-- CH[tn][ss]. -/
def State.chan (s : State) (tn : Tn) (ss : Ss) : Channel := (s.slot tn).chans[ss.val]

/-- Change timeslot tn. -/
def State.modSlot (s : State) (tn : Tn) (f : TnState → TnState) : State :=
  { s with tns := s.tns.set tn.val (f (s.slot tn)) }

/-- Change CH[tn][ss]. -/
def State.modChan (s : State) (tn : Tn) (ss : Ss) (f : Channel → Channel) : State :=
  s.modSlot tn fun t => { t with chans := t.chans.set ss.val (f t.chans[ss.val]) }

/-- A change of every entry. -/
def mapAll8 (f : α → α) (v : Vector α 8) : Vector α 8 :=
  #v[f v[0], f v[1], f v[2], f v[3], f v[4], f v[5], f v[6], f v[7]]

/-! ## Lanes -/

/-- A lane of a channel. -/
def Channel.lane (c : Channel) : LaneId → Lane
  | .m => c.laneM
  | .a => c.laneA

/-- Change a lane of a channel. -/
def Channel.modLane (c : Channel) (id : LaneId) (f : Lane → Lane) : Channel :=
  match id with
  | .m => { c with laneM := f c.laneM }
  | .a => { c with laneA := f c.laneA }

/-- LANE(tn, ss, M|A). -/
def State.lane (s : State) (tn : Tn) (ss : Ss) (id : LaneId) : Lane := (s.chan tn ss).lane id

/-- Change LANE(tn, ss, M|A). -/
def State.modLane (s : State) (tn : Tn) (ss : Ss) (id : LaneId) (f : Lane → Lane) : State :=
  s.modChan tn ss fun c => c.modLane id f

/-- The downlink fields of a lane (R31, R213). -/
def State.dlLane (s : State) : LaneRef → DlLane
  | .comB tn => (s.slot tn).laneB
  | .comC tn => (s.slot tn).laneC
  | .dedM tn ss => (s.chan tn ss).laneM.dl
  | .dedA tn ss => (s.chan tn ss).laneA.dl

/-- Change the downlink fields of a lane. -/
def State.modDl (s : State) (l : LaneRef) (f : DlLane → DlLane) : State :=
  match l with
  | .comB tn => s.modSlot tn fun t => { t with laneB := f t.laneB }
  | .comC tn => s.modSlot tn fun t => { t with laneC := f t.laneC }
  | .dedM tn ss => s.modChan tn ss fun c => { c with laneM := { c.laneM with dl := f c.laneM.dl } }
  | .dedA tn ss => s.modChan tn ss fun c => { c with laneA := { c.laneA with dl := f c.laneA.dl } }

/-- DL_SLOTS[bid]. -/
def DlLane.slotAt (l : DlLane) (bid : Bid) : Slot := l.slots[bid.toNat]'(by have := bid.isLt; omega)

/-- DL_SLOTS[0..n-1] <- the n slots given; the others keep their value (R243). -/
def overlaySlots (old : Vector Slot 4) (new : List Slot) : Vector Slot 4 :=
  #v[(new[0]?).getD old[0], (new[1]?).getD old[1], (new[2]?).getD old[2], (new[3]?).getD old[3]]

/-! ## Queues (R32, R106) -/

/-- The contents of a queue, head first. -/
def State.queue (s : State) : QueueRef → List Bytes
  | .bcch tn => (s.slot tn).qBcch
  | .ccch tn => (s.slot tn).qCcch
  | .sig tn ss => (s.chan tn ss).qSig
  | .speech tn ss => (s.chan tn ss).qSpeech
  | .assoc tn ss => (s.chan tn ss).qAssoc

/-- Replace the contents of a queue. -/
def State.setQueue (s : State) (q : QueueRef) (v : List Bytes) : State :=
  match q with
  | .bcch tn => s.modSlot tn fun t => { t with qBcch := v }
  | .ccch tn => s.modSlot tn fun t => { t with qCcch := v }
  | .sig tn ss => s.modChan tn ss fun c => { c with qSig := v }
  | .speech tn ss => s.modChan tn ss fun c => { c with qSpeech := v }
  | .assoc tn ss => s.modChan tn ss fun c => { c with qAssoc := v }

/-- `if not empty(Q): pop(Q)`, the entry dropped (R249, R250). -/
def State.dropHead (s : State) (q : QueueRef) : State := s.setQueue q (s.queue q).tail

/-- The timeslot of a queue (R115). -/
def queueTn : QueueRef → Tn
  | .bcch tn => tn
  | .ccch tn => tn
  | .sig tn _ => tn
  | .speech tn _ => tn
  | .assoc tn _ => tn

/-- CH[tn][ss].ACTIVE for the queues of a dedicated channel (q at least 2); true for the common queues (R188). -/
def State.queueActive (s : State) : QueueRef → Bool
  | .bcch _ => true
  | .ccch _ => true
  | .sig tn ss => (s.chan tn ss).active
  | .speech tn ss => (s.chan tn ss).active
  | .assoc tn ss => (s.chan tn ss).active

/-! ## Emission (R8) and counters (R55, R57) -/

/-- `emit P(record)`. -/
def State.emit (s : State) (p : OutPort) (b : Bytes) : State := { s with out := s.out ++ [⟨p, b⟩] }

/-- The seven discard counters. -/
inductive Counter
  | clkMalformed | dataMalformed | ulReject | dlqReject | hostMalformed | stateIgnored | accessFail
  deriving DecidableEq, Repr

/-- A counter's value. -/
def Discards.get (d : Discards) : Counter → Byte
  | .clkMalformed => d.clkMalformed
  | .dataMalformed => d.dataMalformed
  | .ulReject => d.ulReject
  | .dlqReject => d.dlqReject
  | .hostMalformed => d.hostMalformed
  | .stateIgnored => d.stateIgnored
  | .accessFail => d.accessFail

/-- The counters with one of them counted up, saturating (R375). -/
def Discards.bump (d : Discards) : Counter → Discards
  | .clkMalformed => { d with clkMalformed := satAdd d.clkMalformed 1 }
  | .dataMalformed => { d with dataMalformed := satAdd d.dataMalformed 1 }
  | .ulReject => { d with ulReject := satAdd d.ulReject 1 }
  | .dlqReject => { d with dlqReject := satAdd d.dlqReject 1 }
  | .hostMalformed => { d with hostMalformed := satAdd d.hostMalformed 1 }
  | .stateIgnored => { d with stateIgnored := satAdd d.stateIgnored 1 }
  | .accessFail => { d with accessFail := satAdd d.accessFail 1 }

/-- `discard(K)` (R8, R375). -/
def State.discard (s : State) (k : Counter) : State := { s with disc := s.disc.bump k }

/-- What the block does with a record the decoder rejects: an uplink datagram of another length is malformed
and counted (R102, R280); what is no event at all changes nothing (R109). -/
def rejectEvent (r : Reject) (s : State) : State :=
  match r with
  | .uldLength => s.discard .dataMalformed
  | .timerBytes => s
  | .outputRecord => s
  | .reservedCt => s

/-! ## Resets (R36, R37) -/

/-- Reset of lanes M and A, with lane M's FACCH flags (R36). -/
def Channel.resetLanes (ilv : Ilv) (c : Channel) : Channel :=
  { c with laneM := Lane.fresh ilv, laneA := Lane.fresh ilv, dlFacchOng := false, ulFacchOng := false }

/-- Reset of the accumulators (R37). -/
def Channel.resetAcc (c : Channel) : Channel :=
  { c with pwrCnt := 0, pwrMin := 0, pwrClk := false, taCnt := 0, taSum := 0, berNum := 0, berSum := 0, ulFt := 0
           ackTa := c.rqdTa }

/-- M_SIG, M_SPEECH and A emptied. -/
def Channel.flush (c : Channel) : Channel := { c with qSig := [], qSpeech := [], qAssoc := [] }

/-- What LINK_OPEN and a COMB change do to a channel: inactive, lanes and accumulators reset, queues emptied
(R141, R183). -/
def Channel.takeDown (ilv : Ilv) (c : Channel) : Channel :=
  { ((c.resetLanes ilv).resetAcc).flush with active := false }

/-- What LINK_OPEN and a COMB change do to a timeslot, COMB and UL_LAST apart (R141, R183). -/
def TnState.takeDown (ilv : Ilv) (t : TnState) : TnState :=
  { t with laneB := DlLane.fresh ilv, laneC := DlLane.fresh ilv, qBcch := [], qCcch := []
           chans := mapAll8 (Channel.takeDown ilv) t.chans }

/-! ## The fatal entry and leaving it -/

/-- `raise FATAL(c)`, the fatal entry (R371): what a trap entry is elsewhere. Nothing else is saved or cleared. -/
def raiseFatal (c : FatalCause) (s : State) : State :=
  { s with clk := { s.clk with armed := false, clkState := .fatal, fatalCause := fatalCode c } }.emit .hosto
    (recFatalInd ((fatalCode c).setWidth 8))

/-- The teardown of LINK_CLOSE, the only way out of FATAL (R142, R374); FATAL_CAUSE stays. -/
def tearDown (s : State) : State :=
  if s.clk.clkState = .closed then s else { s with clk := { s.clk with clkState := .closed, armed := false } }

/-! ## The timer -/

/-- LAST_TS <- base, DEADLINE <- base + FRAME_US, ARMED <- 1: the phase every correction sets (R26). -/
def State.rephase (s : State) (base : Time) : State :=
  { s with clk := { s.clk with lastTs := base, deadline := base + BitVec.ofNat 64 frameUs, armed := true } }

/-! ## Loop indications -/

/-- LOOP_IND which = 0, 1, 2 (R107). -/
inductive LoopKind
  | pwr | ta | cmr
  deriving DecidableEq, Repr

/-- The code of `which` (R107). -/
def LoopKind.code : LoopKind → Byte
  | .pwr => 0 | .ta => 1 | .cmr => 2

/-- A tn or ss byte. -/
def idx8 (i : Fin 8) : Byte := BitVec.ofNat 8 i.val

/-- `emit HOSTO LOOP_IND(tn, ss, which, value)` (R122). -/
def State.emitLoop (s : State) (tn : Tn) (ss : Ss) (w : LoopKind) (v : Int) : State :=
  s.emit .hosto (recLoopInd (idx8 tn) (idx8 ss) w.code (s16 v))

end Sys2Proof.Machine
end

