-- ==== Sys2Proof/Machine/Burst.lean ====
section
/-! DEFINITION. Burst assembly and the downlink datagram (R215 to R218). -/

namespace Sys2Proof.Machine

/-- ASM_NB(d, t), the GMSK normal-burst layout (R216): tail, 58 slot bits, training sequence, 58 slot bits, tail. -/
def asmNb (d t : List Bool) : List Bool :=
  [false, false, false] ++ d.take 58 ++ t ++ (d.drop 58).take 58 ++ [false, false, false]

/-- EMIT_DL(tn, s, bits) (R218). -/
def emitDl (tn : Tn) (s : Fn) (bits : List Bool) (st : State) : State :=
  st.emit .dld (dldRecord tn s (st.slot tn).txPower bits)

/-- EMIT_SLOT(tn, s, slot) (R215); ASM_8PSK must give 444 bits (R376). -/
def emitSlot (tn : Tn) (s : Fn) (slot : Slot) (st : State) : Res State :=
  match slot.modulation with
  | .gmsk => .ok (emitDl tn s (asmNb slot.bits (st.tscSeq (st.slot tn).tsc)) st)
  | .psk8 =>
    if (st.asm8psk slot.bits (st.slot tn).tsc).length = 444 then
      .ok (emitDl tn s (st.asm8psk slot.bits (st.slot tn).tsc) st)
    else .error .psk8Length

/-! ## Meanings -/

/-- ASM_NB (R216): a pure function, whose answer stands in the model's field `ret`. -/
def execAsmNb (d t : List Bool) (st : State) : Host.Outcome State Fault Refusal :=
  .next { st with ret := .burst (asmNb d t) }

/-- EMIT_DL (R218). -/
def execEmitDl (tn : Tn) (s : Fn) (bits : List Bool) (st : State) : Host.Outcome State Fault Refusal :=
  .next (emitDl tn s bits st)

/-- EMIT_SLOT (R215). -/
def execEmitSlot (tn : Tn) (s : Fn) (slot : Slot) (st : State) : Host.Outcome State Fault Refusal :=
  (emitSlot tn s slot st).outcome

end Sys2Proof.Machine
end

