-- ==== Sys2Proof/Machine/Downlink.lean ====
section
/-! DEFINITION. Downlink burst production (43_sched_downlink.md): payload selection (R240, R255), the
reassembly-group procedure TX_GROUP (R243) and the TX handlers (R241 to R254). -/

namespace Sys2Proof.Machine

/-! ## Payload selection -/

/-- What a selection answers (R240), with the state it leaves. -/
structure Selected where
  kind    : CodecKind
  payload : Bytes
  mode    : BitVec 2
  cmr     : BitVec 2
  state   : State

/-- The filler of a channel type, at most 255 bytes (R240, R376). -/
def fillerOf (ct : LaneCt) (st : State) : Res Bytes :=
  if (st.filler ct).length ≤ 255 then .ok (st.filler ct) else .error .fillerLength

/-- POP_OR_FILL(Q, ct) (R240), with mode 0 and cmr 0. -/
def popOrFill (q : QueueRef) (ct : LaneCt) (st : State) : Res Selected :=
  match st.queue q with
  | p :: rest => .ok { kind := .data, payload := p, mode := 0, cmr := 0, state := st.setQueue q rest }
  | [] =>
    match fillerOf ct st with
    | .ok f => .ok { kind := .fill, payload := f, mode := 0, cmr := 0, state := st }
    | .error e => .error e

/-- The lane whose DL_LOSS a type counts (R213, R255). -/
def missLane : MissCt → LaneId
  | .sacch => .a
  | .tchf => .m
  | .tchh => .m

/-- DL_HIT(L) (R255). -/
def dlHit (id : LaneId) (tn : Tn) (ss : Ss) (st : State) : State :=
  st.modLane tn ss id fun l => { l with dlLoss := 0 }

/-- DL_LOSS counted up (R255). -/
def countLoss (id : LaneId) (tn : Tn) (ss : Ss) (st : State) : State :=
  st.modLane tn ss id fun l => { l with dlLoss := satAdd l.dlLoss 1 }

/-- A second or further consecutive miss on TCH, after counting (R255). -/
def needsBfi (ct : MissCt) (tn : Tn) (ss : Ss) (st : State) : Bool :=
  (ct == .tchf || ct == .tchh) && decide (1 < (st.lane tn ss (missLane ct)).dlLoss.toNat)

/-- DL_MISS(L, ct) (R255): the kind and payload to send, and the state with the miss counted. -/
def dlMiss (ct : MissCt) (tn : Tn) (ss : Ss) (st : State) : Res (CodecKind × Bytes × State) :=
  let st1 := countLoss (missLane ct) tn ss st
  if needsBfi ct tn ss st1 then
    let b := st1.bfi ct.toLane (st1.chan tn ss).dlFt
    if b.length ≤ 255 then .ok (.bfi, b, st1) else .error .bfiLength
  else
    match fillerOf ct.toLane st1 with
    | .ok f => .ok (.fill, f, st1)
    | .error e => .error e

/-- A miss as a selection, with the mode and cmr given (R248 to R250). -/
def missSel (ct : MissCt) (tn : Tn) (ss : Ss) (mode cmr : BitVec 2) (st : State) : Res Selected :=
  match dlMiss ct tn ss st with
  | .ok (k, p, st1) => .ok { kind := k, payload := p, mode := mode, cmr := cmr, state := st1 }
  | .error e => .error e

/-- SEL_SACCH (R248). -/
def selSacch (tn : Tn) (ss : Ss) (st : State) : Res Selected :=
  match st.queue (.assoc tn ss) with
  | p :: rest =>
    .ok { kind := .data, payload := p, mode := 0, cmr := 0
          state := (dlHit .a tn ss st).setQueue (.assoc tn ss) rest }
  | [] => missSel .sacch tn ss 0 0 st

/-- A speech frame if one is queued, else a miss: the last two cases of SEL_TCHF and SEL_TCHH (R249, R250). -/
def selSpeech (ct : MissCt) (tn : Tn) (ss : Ss) (st : State) : Res Selected :=
  let c := st.chan tn ss
  match st.queue (.speech tn ss) with
  | p :: rest =>
    .ok { kind := .speech, payload := p, mode := c.dlFt, cmr := c.dlCmr
          state := (dlHit .m tn ss st).setQueue (.speech tn ss) rest }
  | [] => missSel ct tn ss c.dlFt c.dlCmr st

/-- SEL_TCHF (R249): FACCH first, and the speech frame it steals is dropped. -/
def selTchf (tn : Tn) (ss : Ss) (st : State) : Res Selected :=
  let c := st.chan tn ss
  match st.queue (.sig tn ss) with
  | p :: rest =>
    .ok { kind := .facch, payload := p, mode := c.dlFt, cmr := c.dlCmr
          state := (dlHit .m tn ss (st.setQueue (.sig tn ss) rest)).dropHead (.speech tn ss) }
  | [] => selSpeech .tchf tn ss st

/-- DL_FACCH_ONG <- v (R250, R251). -/
def setDlFacch (v : Bool) (tn : Tn) (ss : Ss) (st : State) : State :=
  st.modChan tn ss fun c => { c with dlFacchOng := v }

/-- SEL_TCHH (R250, R251): a FACCH/H continuation first, then a FACCH where MAP permits its start. -/
def selTchh (tn : Tn) (ss : Ss) (facchOk : Bool) (st : State) : Res Selected :=
  let c := st.chan tn ss
  if c.dlFacchOng then
    .ok { kind := .facchCont, payload := [], mode := c.dlFt, cmr := c.dlCmr
          state := (dlHit .m tn ss (setDlFacch false tn ss st)).dropHead (.speech tn ss) }
  else
    match facchOk, st.queue (.sig tn ss) with
    | true, p :: rest =>
      .ok { kind := .facch, payload := p, mode := c.dlFt, cmr := c.dlCmr
            state := (dlHit .m tn ss (setDlFacch true tn ss (st.setQueue (.sig tn ss) rest))).dropHead
              (.speech tn ss) }
    | _, _ => selSpeech .tchh tn ss st

/-- The selection of a lane type (R245 to R253). -/
def select (ct : LaneCt) (tn : Tn) (ss : Ss) (facchOk : Bool) (st : State) : Res Selected :=
  match ct with
  | .bcch => popOrFill (.bcch tn) .bcch st
  | .ccch => popOrFill (.ccch tn) .ccch st
  | .sdcch => popOrFill (.sig tn ss) .sdcch st
  | .sacch => selSacch tn ss st
  | .tchf => selTchf tn ss st
  | .tchh => selTchh tn ss facchOk st
  | .pdtch => popOrFill (.sig tn ss) .pdtch st
  | .ptcch => popOrFill (.assoc tn ss) .ptcch st

/-! ## Handlers without a lane -/

/-- TX_IDLE(tn, s) (R241): DUMMY_BURST on C0, nothing elsewhere. -/
def txIdle (tn : Tn) (s : Fn) (st : State) : Res State :=
  if st.cfg.c0 then
    if st.dummyBurst.length = 148 then .ok (emitDl tn s st.dummyBurst st) else .error .dummyLength
  else .ok st

/-- TX_FCCH(tn, s) (R242). -/
def txFcch (tn : Tn) (s : Fn) (st : State) : Res State :=
  if st.fcchBurst.length = 148 then .ok (emitDl tn s st.fcchBurst st) else .error .fcchLength

/-- TX_SCH(tn, s) (R244). -/
def txSch (tn : Tn) (s : Fn) (st : State) : Res State :=
  if (st.schEnc st.cfg.bsic s).length = 148 then .ok (emitDl tn s (st.schEnc st.cfg.bsic s) st)
  else .error .schLength

/-! ## TX_GROUP (R243) -/

/-- The group start: ENC_STEP's answer stored in the lane, DL_VALID set (R243). -/
def startGroup (ct : LaneCt) (tn : Tn) (ss : Ss) (sel : Selected) : Res State :=
  let l := laneRef ct tn ss
  let r := sel.state.encStep ct sel.kind sel.mode sel.cmr sel.payload (sel.state.dlLane l).ilv
  if encOk ct r then
    .ok (sel.state.modDl l fun d => { d with ilv := r.ilv, slots := overlaySlots d.slots r.slots, valid := true })
  else .error .encContract

/-- The last three statements of TX_GROUP: DL_LAST_BID, EMIT_SLOT, and DL_VALID after the last burst (R243). -/
def sendSlot (ct : LaneCt) (tn : Tn) (ss : Ss) (bid : Bid) (s : Fn) (st : State) : Res State :=
  let l := laneRef ct tn ss
  let st1 := st.modDl l fun d => { d with lastBid := bid }
  match emitSlot tn s ((st1.dlLane l).slotAt bid) st1 with
  | .ok st2 =>
    .ok (if bid.toNat + 1 = ct.toCt.groupLen then st2.modDl l fun d => { d with valid := false } else st2)
  | .error e => .error e

/-- TX_GROUP(L, ct, tn, bid, s, SELECT) (R243); L and SELECT are those of ct (R213, R245 to R253). -/
def txGroup (ct : LaneCt) (tn : Tn) (ss : Ss) (bid : Bid) (facchOk : Bool) (s : Fn) (st : State) : Res State :=
  if bid = 0 then
    match select ct tn ss facchOk st with
    | .ok sel =>
      match startGroup ct tn ss sel with
      | .ok st1 => sendSlot ct tn ss bid s st1
      | .error e => .error e
    | .error e => .error e
  else if (st.dlLane (laneRef ct tn ss)).continues bid then sendSlot ct tn ss bid s st
  else txIdle tn s st

/-! ## Meanings -/

/-- TX_IDLE (R241). -/
def execTxIdle (tn : Tn) (s : Fn) (st : State) : Host.Outcome State Fault Refusal := (txIdle tn s st).outcome

/-- TX_FCCH (R242). -/
def execTxFcch (tn : Tn) (s : Fn) (st : State) : Host.Outcome State Fault Refusal := (txFcch tn s st).outcome

/-- TX_SCH (R244). -/
def execTxSch (tn : Tn) (s : Fn) (st : State) : Host.Outcome State Fault Refusal := (txSch tn s st).outcome

/-- TX_BCCH (R245). -/
def execTxBcch (tn : Tn) (bid : Bid) (s : Fn) (st : State) : Host.Outcome State Fault Refusal :=
  (txGroup .bcch tn 0 bid false s st).outcome

/-- TX_CCCH (R246). -/
def execTxCcch (tn : Tn) (bid : Bid) (s : Fn) (st : State) : Host.Outcome State Fault Refusal :=
  (txGroup .ccch tn 0 bid false s st).outcome

/-- TX_SDCCH (R247). -/
def execTxSdcch (tn : Tn) (ss : Ss) (bid : Bid) (s : Fn) (st : State) : Host.Outcome State Fault Refusal :=
  (txGroup .sdcch tn ss bid false s st).outcome

/-- TX_SACCH (R248). -/
def execTxSacch (tn : Tn) (ss : Ss) (bid : Bid) (s : Fn) (st : State) : Host.Outcome State Fault Refusal :=
  (txGroup .sacch tn ss bid false s st).outcome

/-- TX_TCHF (R249). -/
def execTxTchf (tn : Tn) (ss : Ss) (bid : Bid) (s : Fn) (st : State) : Host.Outcome State Fault Refusal :=
  (txGroup .tchf tn ss bid false s st).outcome

/-- TX_TCHH (R250). -/
def execTxTchh (tn : Tn) (ss : Ss) (bid : Bid) (facchOk : Bool) (s : Fn) (st : State) :
    Host.Outcome State Fault Refusal :=
  (txGroup .tchh tn ss bid facchOk s st).outcome

/-- TX_PDTCH (R252). -/
def execTxPdtch (tn : Tn) (ss : Ss) (bid : Bid) (s : Fn) (st : State) : Host.Outcome State Fault Refusal :=
  (txGroup .pdtch tn ss bid false s st).outcome

/-- TX_PTCCH (R253). -/
def execTxPtcch (tn : Tn) (ss : Ss) (bid : Bid) (s : Fn) (st : State) : Host.Outcome State Fault Refusal :=
  (txGroup .ptcch tn ss bid false s st).outcome

/-- A RACH position in the downlink is treated as IDLE (R254). -/
def execTxRachAsIdle (tn : Tn) (s : Fn) (st : State) : Host.Outcome State Fault Refusal :=
  (txIdle tn s st).outcome

/-- TX_GROUP (R243). -/
def execTxGroup (ct : LaneCt) (tn : Tn) (ss : Ss) (bid : Bid) (facchOk : Bool) (s : Fn) (st : State) :
    Host.Outcome State Fault Refusal :=
  (txGroup ct tn ss bid facchOk s st).outcome

/-- DL_MISS (R255); its answer stands in the model's field `ret`. -/
def execDlMiss (ct : MissCt) (tn : Tn) (ss : Ss) (st : State) : Host.Outcome State Fault Refusal :=
  match dlMiss ct tn ss st with
  | .ok (k, p, st1) => .next { st1 with ret := .miss k p }
  | .error e => .refused e

end Sys2Proof.Machine
end

