-- ==== Sys2Proof/Machine/Scheduler.lean ====
section
/-! DEFINITION. The Burst Scheduler's per-frame dispatch (42_sched_dispatch.md): SCHED_FN (R210) and
TX_DISPATCH (R211). -/

namespace Sys2Proof.Machine

/-- The dedicated channel types of R211 and R214. -/
def isDedicated : Ct → Bool
  | .sdcch => true
  | .sacch => true
  | .tchf => true
  | .tchh => true
  | .pdtch => true
  | .ptcch => true
  | .idle => false
  | .fcch => false
  | .sch => false
  | .bcch => false
  | .ccch => false
  | .rach => false

/-- TX_DISPATCH(tn, e, s) (R211): an inactive dedicated position is idle (R214), else the handler of ct. -/
def txDispatch (tn : Tn) (e : Position) (s : Fn) (st : State) : Res State :=
  if isDedicated e.ct && !(st.chan tn e.ss).active then txIdle tn s st
  else
    match e.ct with
    | .idle => txIdle tn s st
    | .fcch => txFcch tn s st
    | .sch => txSch tn s st
    | .bcch => txGroup .bcch tn 0 e.bid false s st
    | .ccch => txGroup .ccch tn 0 e.bid false s st
    | .sdcch => txGroup .sdcch tn e.ss e.bid false s st
    | .sacch => txGroup .sacch tn e.ss e.bid false s st
    | .tchf => txGroup .tchf tn e.ss e.bid false s st
    | .tchh => txGroup .tchh tn e.ss e.bid e.facchOk s st
    | .pdtch => txGroup .pdtch tn e.ss e.bid false s st
    | .ptcch => txGroup .ptcch tn e.ss e.bid false s st
    | .rach => txIdle tn s st

/-- One timeslot of SCHED_FN (R210): nothing for COMB 0, a refusal for a MAP result outside (M3). -/
def schedTn (s : Fn) (tn : Tn) (st : State) : Res State :=
  if (st.slot tn).comb = 0 then .ok st
  else
    match positionOf (st.mapOf (st.slot tn).comb tn s .dl) with
    | some e => txDispatch tn e s st
    | none => .error .mapContract

/-- The timeslots of a list, in its order (R210). -/
def schedTns (s : Fn) : List Tn → State → Res State
  | [], st => .ok st
  | tn :: rest, st =>
    match schedTn s tn st with
    | .ok st1 => schedTns s rest st1
    | .error e => .error e

/-- TN 0..7 in ascending order (R210). -/
def allTns : List Tn := [0, 1, 2, 3, 4, 5, 6, 7]

/-- SCHED_FN(fn) (R210). -/
def schedFn (fn : Fn) (st : State) : Res State := schedTns (fnAdd fn st.cfg.txAdv.toNat) allTns st

/-- n times: LAST_FN <- inc(LAST_FN); SCHED_FN(LAST_FN) (R150, R154). -/
def produce : Nat → State → Res State
  | 0, st => .ok st
  | n + 1, st =>
    let st1 : State := { st with clk := { st.clk with lastFn := fnInc st.clk.lastFn } }
    match schedFn st1.clk.lastFn st1 with
    | .ok st2 => produce n st2
    | .error e => .error e

/-! ## Meanings -/

/-- SCHED_FN (R210). -/
def execSchedFn (fn : Fn) (st : State) : Host.Outcome State Fault Refusal := (schedFn fn st).outcome

/-- TX_DISPATCH (R211). -/
def execTxDispatch (tn : Tn) (e : Position) (s : Fn) (st : State) : Host.Outcome State Fault Refusal :=
  (txDispatch tn e s st).outcome

end Sys2Proof.Machine
end

