-- ==== Sys2Proof/Machine/ClockSync.lean ====
section
/-! DEFINITION. The Frame Clock Synchronizer (40_clock_sync.md): link open and close, the clock indication and
its corrections, the timer expiry, and the fatal entry's meaning (R371). -/

namespace Sys2Proof.Machine

/-! ## Link (R141, R142) -/

/-- The datapath clear of LINK_OPEN for one timeslot (R141): UL_LAST, lanes, queues, channels and COMB. -/
def openSlot (ilv : Ilv) (t : TnState) : TnState :=
  { t.takeDown ilv with ulLastFn := 0, ulLastValid := false, comb := 0 }

/-- LINK_OPEN (R141). -/
def linkOpen (s : State) : State :=
  if s.clk.clkState = .closed then
    { s with
      clk := { clkState := .unsync, armed := false, deadline := 0, lastFn := 0, lastTs := 0, noClk := 0
               resyncs := 0, fatalCause := 0 }
      tns := mapAll8 (openSlot s.ilv0) s.tns }
  else s

/-! ## Corrections (R146 to R150) -/

/-- ANCHOR(fn, now) (R146). -/
def anchor (fn : Fn) (now : Time) (s : State) : State :=
  { s with clk := { s.clk with lastFn := fn } }.rephase now

/-- RESYNC(fn, now) (R148). -/
def resync (fn : Fn) (now : Time) (s : State) : State :=
  let s1 := anchor fn now s
  { s1 with clk := { s1.clk with resyncs := satAdd s1.clk.resyncs 1 } }

/-- DELAY(k, now) (R149). -/
def delay (k : Nat) (now : Time) (s : State) : State := s.rephase (now + BitVec.ofNat 64 (k * frameUs))

/-- CATCH_UP(fn, now) (R150); the loop runs until LAST_FN = fn, that is fnDist(fn, LAST_FN) times. -/
def catchUp (fn : Fn) (now : Time) (s : State) : Res State :=
  match produce (fnDist fn s.clk.lastFn) s with
  | .ok s1 => .ok (s1.rephase now)
  | .error e => .error e

/-- NO_CLK <- 0 (R147). -/
def clearNoClk (s : State) : State := { s with clk := { s.clk with noClk := 0 } }

/-- CLK_APPLY(fn, now) (R147). -/
def clkApply (fn : Fn) (now : Time) (s : State) : Res State :=
  if s.clk.clkState = .unsync then
    let s1 := anchor fn now s
    .ok (clearNoClk { s1 with clk := { s1.clk with clkState := .sync } })
  else
    let s1 := clearNoClk s
    let d := sdiff fn s1.clk.lastFn
    if d > s1.cfg.maxSkew.toNat ∨ d < -(s1.cfg.maxSkew.toNat : Int) then .ok (resync fn now s1)
    else if d < 0 then .ok (delay (-d).toNat now s1)
    else catchUp fn now s1

/-- CLK_IND (R145). -/
def clkInd (b : Bytes) (now : Time) (s : State) : Res State :=
  match parseClk b with
  | none => .ok (s.discard .clkMalformed)
  | some fn => if s.clk.dropsRadio then .ok (s.discard .stateIgnored) else clkApply fn now s

/-! ## Timer expiry (R151 to R154) -/

/-- DEADLINE and NO_CLK of TICK, step 1 (R152). -/
def countExpirations (now : Time) (s : State) : State :=
  let k := s.clk.expirations now
  { s with clk := { s.clk with deadline := s.clk.deadline + BitVec.ofNat 64 (k * frameUs)
                               noClk := satAdd s.clk.noClk k } }

/-- TICK, step 3 (R154). -/
def tickProduce (k : Nat) (s : State) : Res State :=
  match produce k s with
  | .ok s1 => .ok { s1 with clk := { s1.clk with lastTs := s1.clk.lastTs + BitVec.ofNat 64 (k * frameUs) } }
  | .error e => .error e

/-- TICK (R151 to R154, R377): liveness, then stall, then production. A TICK that is not due is no event (R109). -/
def tick (now : Time) (s : State) : Res State :=
  if s.clk.tickDue now then
    let s1 := countExpirations now s
    if s1.clockLost then .ok (raiseFatal .clockLoss s1)
    else
      match s1.stalled now with
      | some c => .ok (raiseFatal c s1)
      | none => tickProduce (s.clk.expirations now) s1
  else .ok s

/-! ## Meanings -/

/-- CLK_IND (R145). -/
def execClkInd (b : Bytes) (now : Time) (s : State) : Host.Outcome State Fault Refusal := (clkInd b now s).outcome

/-- LINK_OPEN (R141). -/
def execLinkOpen (s : State) : Host.Outcome State Fault Refusal := .next (linkOpen s)

/-- LINK_CLOSE (R142). -/
def execLinkClose (s : State) : Host.Outcome State Fault Refusal := .next (tearDown s)

/-- TICK (R151 to R154). -/
def execTick (now : Time) (s : State) : Host.Outcome State Fault Refusal := (tick now s).outcome

/-- ANCHOR (R146). -/
def execAnchor (fn : Fn) (now : Time) (s : State) : Host.Outcome State Fault Refusal := .next (anchor fn now s)

/-- CLK_APPLY (R147). -/
def execClkApply (fn : Fn) (now : Time) (s : State) : Host.Outcome State Fault Refusal :=
  (clkApply fn now s).outcome

/-- RESYNC (R148). -/
def execResync (fn : Fn) (now : Time) (s : State) : Host.Outcome State Fault Refusal := .next (resync fn now s)

/-- DELAY (R149). -/
def execDelay (k : Nat) (now : Time) (s : State) : Host.Outcome State Fault Refusal := .next (delay k now s)

/-- CATCH_UP (R150). -/
def execCatchUp (fn : Fn) (now : Time) (s : State) : Host.Outcome State Fault Refusal := (catchUp fn now s).outcome

/-- TICK, step 1 (R152): the expirations counted, and the fatal entry on clock loss. -/
def execTickLiveness (now : Time) (s : State) : Host.Outcome State Fault Refusal :=
  let s1 := countExpirations now s
  .next (if s1.clockLost then raiseFatal .clockLoss s1 else s1)

/-- TICK, step 2 (R153): the fatal entry on a stall. -/
def execTickStall (now : Time) (s : State) : Host.Outcome State Fault Refusal :=
  match s.stalled now with
  | some c => .next (raiseFatal c s)
  | none => .next s

/-- TICK, step 3 (R154). -/
def execTickProduce (k : Nat) (s : State) : Host.Outcome State Fault Refusal := (tickProduce k s).outcome

/-- The fatal entry (R371). -/
def execFatal (c : FatalCause) (s : State) : Host.Outcome State Fault Refusal := .next (raiseFatal c s)

end Sys2Proof.Machine
end

