-- ==== Sys2Proof/Machine/ConfigPort.lean ====
section
/-! DEFINITION. The configuration port (41_config_port.md): reading and writing the CFG registers (R81, R40 to
R71) with their side effects (R183 to R186), DLQ_PUSH (R187, R188), and the reserved host records (R121). -/

namespace Sys2Proof.Machine

/-! ## Reading (R41 to R71) -/

/-- The value of a global register (R41 to R57). -/
def readGlob (s : State) : GReg → BitVec 32
  | .id => 1
  | .ctrl => packWord [(s.cfg.pwrLoopEn.toNat, 0), (s.cfg.taLoopEn.toNat, 1), (s.cfg.c0.toNat, 2)]
  | .status => s.clk.statusWord
  | .lastFn => s.clk.lastFn.setWidth 32
  | .noClk => s.clk.noClk.setWidth 32
  | .maxSkew => s.cfg.maxSkew.setWidth 32
  | .lossFrames => s.cfg.lossFrames.setWidth 32
  | .frameUs => BitVec.ofNat 32 frameUs
  | .txAdv => s.cfg.txAdv.setWidth 32
  | .ulGapMax => s.cfg.ulGapMax.setWidth 32
  | .pwrTarget => s.cfg.pwrTarget.setWidth 32
  | .pwrStep => packWord [(s.cfg.raiseMax.toNat, 0), (s.cfg.lowerMax.toNat, 8)]
  | .pwrRange => packWord [(s.cfg.minDbm.toNat, 0), (s.cfg.maxDbm.toNat, 8)]
  | .bsic => s.cfg.bsic.setWidth 32
  | .discards =>
    packWord [(s.disc.clkMalformed.toNat, 0), (s.disc.dataMalformed.toNat, 8), (s.disc.ulReject.toNat, 16),
      (s.disc.dlqReject.toNat, 24)]
  | .resyncs => s.clk.resyncs.setWidth 32
  | .lastTsLo => s.clk.lastTs.extractLsb' 0 32
  | .lastTsHi => s.clk.lastTs.extractLsb' 32 32
  | .deadlineLo => s.clk.deadline.extractLsb' 0 32
  | .deadlineHi => s.clk.deadline.extractLsb' 32 32
  | .discards2 =>
    packWord [(s.disc.hostMalformed.toNat, 0), (s.disc.stateIgnored.toNat, 8), (s.disc.accessFail.toNat, 16)]

/-- An occupancy field of 4 bits (R60, R70). -/
def occupancy (q : List Bytes) : Nat := q.length % 16

/-- The value of a per-timeslot register (R58 to R60). -/
def readSlot (t : TnState) : TReg → BitVec 32
  | .tnCfg => packWord [(t.comb.toNat, 0), (t.tsc.toNat, 8), (t.txPower.toNat, 16)]
  | .ulLast => packWord [(t.ulLastFn.toNat, 0), (t.ulLastValid.toNat, 31)]
  | .comq => packWord [(occupancy t.qBcch, 0), (occupancy t.qCcch, 4)]

/-- The value of a channel register (R61 to R70). -/
def readChan (c : Channel) : CReg → BitVec 32
  | .chCtrl =>
    packWord [(c.active.toNat, 0), (c.amrEn.toNat, 1), (c.hoArm.toNat, 2), (c.ncodecsM1.toNat, 4)]
  | .chCodec => packWord [(c.dlCmr.toNat, 0), (c.ulFt.toNat, 8), (c.dlFt.toNat, 16)]
  | .amrT0 => packWord [(c.thr[0].toNat, 0), (c.hyst[0].toNat, 16)]
  | .amrT1 => packWord [(c.thr[1].toNat, 0), (c.hyst[1].toNat, 16)]
  | .amrT2 => packWord [(c.thr[2].toNat, 0), (c.hyst[2].toNat, 16)]
  | .msPwr => c.msPwr.setWidth 32
  | .ta => packWord [(c.rqdTa.toNat, 0), (c.ackTa.toNat, 8)]
  | .pwrAcc => packWord [(c.pwrCnt.toNat, 0), (c.pwrClk.toNat, 8), (c.pwrMin.toNat, 16)]
  | .taCnt => c.taCnt.setWidth 32
  | .taSum => c.taSum
  | .berNum => c.berNum.setWidth 32
  | .berSum => c.berSum
  | .laneMStat => c.laneM.statWord c.dlFacchOng c.ulFacchOng
  | .laneAStat => c.laneA.statWord false false
  | .qstat => packWord [(occupancy c.qSig, 0), (occupancy c.qSpeech, 4), (occupancy c.qAssoc, 8)]

/-- The value of a register. -/
def readReg (s : State) : Reg → BitVec 32
  | .glob r => readGlob s r
  | .slot r tn => readSlot (s.slot tn) r
  | .chan r tn ss => readChan (s.chan tn ss) r

/-- MemRead(a, 4) at a word-aligned address (R81); a reserved register reads 0 (R71). -/
def memRead (s : State) (a : BitVec 16) : BitVec 32 :=
  match regAt a with
  | some r => readReg s r
  | none => 0

/-! ## Writing (R81, R182 to R186) -/

/-- One bit of the written value. -/
def bitOf (v : BitVec 32) (i : Nat) : Bool := v.getLsbD i

/-- A write to the global registers (R42 to R57, R186); read-only ones ignore it. -/
def writeGlob (g : GlobalCfg) (v : BitVec 32) : GReg → GlobalCfg
  | .ctrl => { g with pwrLoopEn := bitOf v 0, taLoopEn := bitOf v 1, c0 := bitOf v 2 }
  | .maxSkew => { g with maxSkew := v.extractLsb' 0 16 }
  | .lossFrames => { g with lossFrames := v.extractLsb' 0 16 }
  | .txAdv => { g with txAdv := v.extractLsb' 0 8 }
  | .ulGapMax => { g with ulGapMax := v.extractLsb' 0 16 }
  | .pwrTarget => { g with pwrTarget := v.extractLsb' 0 8 }
  | .pwrStep => { g with raiseMax := v.extractLsb' 0 8, lowerMax := v.extractLsb' 8 8 }
  | .pwrRange => { g with minDbm := v.extractLsb' 0 8, maxDbm := v.extractLsb' 8 8 }
  | .bsic => { g with bsic := v.extractLsb' 0 6 }
  | .id => g
  | .status => g
  | .lastFn => g
  | .noClk => g
  | .frameUs => g
  | .discards => g
  | .resyncs => g
  | .lastTsLo => g
  | .lastTsHi => g
  | .deadlineLo => g
  | .deadlineHi => g
  | .discards2 => g

/-- A write to a per-timeslot register: TN_CFG with the COMB-change side effect (R183); the others are read-only. -/
def writeSlot (ilv : Ilv) (t : TnState) (v : BitVec 32) : TReg → TnState
  | .tnCfg =>
    let t1 := { t with comb := v.extractLsb' 0 8, tsc := v.extractLsb' 8 3, txPower := v.extractLsb' 16 8 }
    if t1.comb = t.comb then t1 else { t1.takeDown ilv with ulLastValid := false }
  | .ulLast => t
  | .comq => t

/-- min(v, NCODECS-1) (R184, R185, D55). -/
def clampMode (v n : BitVec 2) : BitVec 2 := if v.toNat ≤ n.toNat then v else n

/-- A write to CH_CTRL with its side effects (R184). -/
def writeChCtrl (ilv : Ilv) (c : Channel) (v : BitVec 32) : Channel :=
  let n := v.extractLsb' 4 2
  let c1 := { c with active := bitOf v 0, amrEn := bitOf v 1, hoArm := bitOf v 2, ncodecsM1 := n
                     dlCmr := clampMode c.dlCmr n, dlFt := clampMode c.dlFt n }
  if c.active = false ∧ bitOf v 0 = true then (c1.resetLanes ilv).resetAcc
  else if c.active = true ∧ bitOf v 0 = false then ((c1.resetLanes ilv).resetAcc).flush
  else c1

/-- A write to a channel register (R184 to R186); read-only ones ignore it. -/
def writeChan (ilv : Ilv) (c : Channel) (v : BitVec 32) : CReg → Channel
  | .chCtrl => writeChCtrl ilv c v
  | .chCodec =>
    { c with dlCmr := clampMode (v.extractLsb' 0 2) c.ncodecsM1, dlFt := clampMode (v.extractLsb' 16 2) c.ncodecsM1 }
  | .amrT0 => { c with thr := c.thr.set 0 (v.extractLsb' 0 16), hyst := c.hyst.set 0 (v.extractLsb' 16 16) }
  | .amrT1 => { c with thr := c.thr.set 1 (v.extractLsb' 0 16), hyst := c.hyst.set 1 (v.extractLsb' 16 16) }
  | .amrT2 => { c with thr := c.thr.set 2 (v.extractLsb' 0 16), hyst := c.hyst.set 2 (v.extractLsb' 16 16) }
  | .msPwr => { c with msPwr := v.extractLsb' 0 8 }
  | .ta => { c with rqdTa := v.extractLsb' 0 6 }
  | .pwrAcc => c
  | .taCnt => c
  | .taSum => c
  | .berNum => c
  | .berSum => c
  | .laneMStat => c
  | .laneAStat => c
  | .qstat => c

/-- A write to a register, side effects included (R81). -/
def writeReg (s : State) (v : BitVec 32) : Reg → State
  | .glob r => { s with cfg := writeGlob s.cfg v r }
  | .slot r tn => s.modSlot tn fun t => writeSlot s.ilv0 t v r
  | .chan r tn ss => s.modChan tn ss fun c => writeChan s.ilv0 c v r

/-- MemWrite(a, 4, v) at a word-aligned address (R81); a reserved register ignores it (R71). -/
def memWrite (s : State) (a : BitVec 16) (v : BitVec 32) : State :=
  match regAt a with
  | some r => writeReg s v r
  | none => s

/-- The alignment rule of the CFG space (R83). -/
def aligned (a : BitVec 16) : Bool := a.toNat % 4 == 0

/-! ## Payload queues (R187, R188) -/

/-- DLQ_REJECTED (R188). -/
def dlqRejected (q : QueueRef) (s : State) : Bool :=
  s.clk.dropsRadio || (s.slot (queueTn q)).comb == 0 || !s.queueActive q || decide (s.pqDepth ≤ (s.queue q).length)

/-- DLQ_PUSH (R187). -/
def dlqPush (q : QueueRef) (p : Bytes) (s : State) : State :=
  if dlqRejected q s then s.discard .dlqReject else s.setQueue q (s.queue q ++ [p])

/-! ## Meanings -/

/-- CFG_RD (R181): a misaligned address is counted and answers nothing (R83). -/
def execCfgRd (a : BitVec 16) (s : State) : Host.Outcome State Fault Refusal :=
  .next (if aligned a then s.emit .hosto (recCfgData a (memRead s a)) else s.discard .hostMalformed)

/-- CFG_WR (R182): a misaligned address is counted and writes nothing (R83). -/
def execCfgWr (a : BitVec 16) (v : BitVec 32) (s : State) : Host.Outcome State Fault Refusal :=
  .next (if aligned a then memWrite s a v else s.discard .hostMalformed)

/-- DLQ_PUSH (R187, R188). -/
def execDlqPush (q : QueueRef) (p : Bytes) (s : State) : Host.Outcome State Fault Refusal := .next (dlqPush q p s)

/-- A malformed or reserved host record (R121, R180): counted, whatever its bytes. -/
def execHostReserved (_b : Bytes) (s : State) : Host.Outcome State Fault Refusal :=
  .next (s.discard .hostMalformed)

end Sys2Proof.Machine
end

