-- ==== Sys2Proof/Machine/Indications.lean ====
section
/-! DEFINITION. The output records of 30_encoding.md (R116 to R123): what each emission appends to HOSTO. -/

namespace Sys2Proof.Machine

/-- The DATA_IND kinds (R107). -/
inductive IndKind
  | data | speech | facch | bad | empty
  deriving DecidableEq, Repr

/-- The code of a DATA_IND kind (R107). -/
def IndKind.code : IndKind → Byte
  | .data => 0 | .speech => 1 | .facch => 2 | .bad => 3 | .empty => 4

/-- A decoder kind as a DATA_IND kind (R288). DEC_STEP returns no kind but the first three (R376); the others are
reached by no step (log entry 25). -/
def indKindOf : CodecKind → IndKind
  | .data => .data
  | .speech => .speech
  | .facch => .facch
  | .facchCont => .bad
  | .fill => .bad
  | .bfi => .bad

/-- `emit HOSTO DATA_IND(tn, ss, ct, kind, fn, payload)` (R117). -/
def State.emitData (s : State) (tn : Tn) (ss : Ss) (ct : Nat) (k : IndKind) (fn : Fn) (p : Bytes) : State :=
  s.emit .hosto (recDataInd (idx8 tn) (idx8 ss) (BitVec.ofNat 8 ct) k.code (fn32 fn) p)

/-- `emit HOSTO MEAS_IND(tn, ss, ct, fn, n, flags, rssi, ber, toa)` (R118). -/
def State.emitMeas (s : State) (tn : Tn) (ss : Ss) (ct : Nat) (fn : Fn) (n : Nat) (empty : Bool) (rssi : Int)
    (ber : Nat) (toa : Int) : State :=
  s.emit .hosto (recMeasInd (idx8 tn) (idx8 ss) (BitVec.ofNat 8 ct) (fn32 fn) (BitVec.ofNat 8 n) (bitByte empty)
    (s16 rssi) (u16 ber) (s16 toa))

/-- `emit HOSTO RACH_IND(tn, ct, fn, ra, toa, ber, rssi)` (R119). -/
def State.emitRach (s : State) (tn : Tn) (ct : Nat) (fn : Fn) (r : RachResult) (x : Burst) : State :=
  s.emit .hosto (recRachInd (idx8 tn) (BitVec.ofNat 8 ct) (fn32 fn) (u16 r.ra) (s16 x.toa)
    (u16 (berPpt r.nerr r.nbits)) (s16 x.rssi))

/-- `emit HOSTO HO_IND(tn, ss, fn, ra, toa, ber, rssi)` (R120). -/
def State.emitHo (s : State) (tn : Tn) (ss : Ss) (fn : Fn) (r : RachResult) (x : Burst) : State :=
  s.emit .hosto (recHoInd (idx8 tn) (idx8 ss) (fn32 fn) (u16 r.ra) (s16 x.toa) (u16 (berPpt r.nerr r.nbits))
    (s16 x.rssi))

/-! ## Meanings -/

/-- CFG_DATA (R116): the record goes to HOSTO. -/
def execCfgData (addr : BitVec 16) (value : BitVec 32) (s : State) : Host.Outcome State Fault Refusal :=
  .next (s.emit .hosto (recCfgData addr value))

/-- DATA_IND (R117). -/
def execDataInd (tn ss ct kind : Byte) (fn : BitVec 32) (payload : Bytes) (s : State) :
    Host.Outcome State Fault Refusal :=
  .next (s.emit .hosto (recDataInd tn ss ct kind fn payload))

/-- MEAS_IND (R118). -/
def execMeasInd (tn ss ct : Byte) (fn : BitVec 32) (nbursts flags : Byte) (rssi ber toa : BitVec 16) (s : State) :
    Host.Outcome State Fault Refusal :=
  .next (s.emit .hosto (recMeasInd tn ss ct fn nbursts flags rssi ber toa))

/-- RACH_IND (R119). -/
def execRachInd (tn ct : Byte) (fn : BitVec 32) (ra toa ber rssi : BitVec 16) (s : State) :
    Host.Outcome State Fault Refusal :=
  .next (s.emit .hosto (recRachInd tn ct fn ra toa ber rssi))

/-- HO_IND (R120). -/
def execHoInd (tn ss : Byte) (fn : BitVec 32) (ra toa ber rssi : BitVec 16) (s : State) :
    Host.Outcome State Fault Refusal :=
  .next (s.emit .hosto (recHoInd tn ss fn ra toa ber rssi))

/-- LOOP_IND (R122). -/
def execLoopInd (tn ss which : Byte) (value : BitVec 16) (s : State) : Host.Outcome State Fault Refusal :=
  .next (s.emit .hosto (recLoopInd tn ss which value))

/-- FATAL_IND (R123). -/
def execFatalInd (cause : Byte) (s : State) : Host.Outcome State Fault Refusal :=
  .next (s.emit .hosto (recFatalInd cause))

end Sys2Proof.Machine
end

