-- ==== Sys2Proof/Machine/Loops.lean ====
section
/-! DEFINITION. The closed-loop controllers (45_loops.md, R330 to R341): the operations, which the uplink
handlers call, and the meanings of the seven loop instructions. -/

namespace Sys2Proof.Machine

/-! ## Power (R331 to R333) -/

/-- PWR_SAMPLE on a channel, the loop being enabled (R331). -/
def Channel.pwrSample (c : Channel) (rssi : Int) : Channel :=
  { c with
    pwrMin := BitVec.ofInt 16 (if c.pwrCnt = 0 then rssi else min c.pwrMin.toInt rssi)
    pwrCnt := satAdd c.pwrCnt 1 }

/-- PWR_SAMPLE(tn, ss, rssi) (R331). -/
def pwrSample (tn : Tn) (ss : Ss) (rssi : Int) (s : State) : State :=
  if s.cfg.pwrLoopEn then s.modChan tn ss fun c => c.pwrSample rssi else s

/-- The step of R333: the raise signal when no sample arrived, else the clamped difference to the target. -/
def pwrStepOf (g : GlobalCfg) (c : Channel) : Int :=
  clampInt (if c.pwrCnt = 0 then (g.raiseMax.toNat : Int) else g.pwrTarget.toInt - c.pwrMin.toInt)
    (-(g.lowerMax.toNat : Int)) g.raiseMax.toNat

/-- `new` of R333. -/
def pwrNewOf (g : GlobalCfg) (c : Channel) : Int :=
  clampInt (c.msPwr.toInt + pwrStepOf g c) g.minDbm.toInt g.maxDbm.toInt

/-- PWR_EVAL(tn, ss) (R333). -/
def pwrEval (tn : Tn) (ss : Ss) (s : State) : State :=
  let c := s.chan tn ss
  let new := pwrNewOf s.cfg c
  let s1 := s.modChan tn ss fun c => { c with pwrCnt := 0, pwrMin := 0 }
  if new = c.msPwr.toInt then s1
  else (s1.modChan tn ss fun c => { c with msPwr := BitVec.ofInt 8 new }).emitLoop tn ss .pwr new

/-- PWR_CLOCK(tn, ss) (R332). -/
def pwrClock (tn : Tn) (ss : Ss) (s : State) : State :=
  if s.cfg.pwrLoopEn then
    let s1 := s.modChan tn ss fun c => { c with pwrClk := !c.pwrClk }
    if (s1.chan tn ss).pwrClk then s1 else pwrEval tn ss s1
  else s

/-! ## Timing advance (R334 to R336) -/

/-- RQD_TA after an evaluation (R336): one step at a mean beyond 230.4/256 symbol, within 0..63. -/
def taNewOf (c : Channel) : BitVec 6 :=
  if 10 * c.taSum.toInt > 36864 ∧ c.rqdTa.toNat < 63 then c.rqdTa + 1
  else if 10 * c.taSum.toInt < -36864 ∧ c.rqdTa.toNat > 0 then c.rqdTa - 1
  else c.rqdTa

/-- TA_EVAL(tn, ss) (R336). -/
def taEval (tn : Tn) (ss : Ss) (s : State) : State :=
  let c := s.chan tn ss
  let new := taNewOf c
  let s1 := s.modChan tn ss fun c => { c with rqdTa := new, taSum := 0, taCnt := 0 }
  if new = c.rqdTa then s1 else s1.emitLoop tn ss .ta new.toNat

/-- TA_SAMPLE(tn, ss, toa) (R334). -/
def taSample (tn : Tn) (ss : Ss) (toa : Int) (s : State) : State :=
  let c := s.chan tn ss
  if s.cfg.taLoopEn = true ∧ c.ackTa = c.rqdTa then
    let s1 := s.modChan tn ss fun c =>
      { c with taSum := BitVec.ofInt 32 (c.taSum.toInt + toa), taCnt := c.taCnt + 1 }
    if (s1.chan tn ss).taCnt = 16 then taEval tn ss s1 else s1
  else s

/-! ## AMR codec mode (R337 to R339) -/

/-- THR[i] and HYST[i] of a boundary i, 0..2 (R63); a boundary 3 does not exist and is never asked for. -/
def Channel.boundary (c : Channel) (i : Nat) : Nat × Nat :=
  match i with
  | 0 => (c.thr[0].toNat, c.hyst[0].toNat)
  | 1 => (c.thr[1].toNat, c.hyst[1].toNat)
  | _ => (c.thr[2].toNat, c.hyst[2].toNat)

/-- DL_CMR after an evaluation (R339): degrade first, else upgrade, one step. -/
def amrNewOf (c : Channel) : BitVec 2 :=
  let m := c.dlCmr.toNat
  if 0 < m ∧ c.berSum.toNat > (c.boundary (m - 1)).1 * c.berNum.toNat then c.dlCmr - 1
  else if m < c.ncodecsM1.toNat
      ∧ (c.berSum.toNat : Int) < (((c.boundary m).1 : Int) - (c.boundary m).2) * c.berNum.toNat then c.dlCmr + 1
  else c.dlCmr

/-- AMR_EVAL(tn, ss) (R339). -/
def amrEval (tn : Tn) (ss : Ss) (s : State) : State :=
  let c := s.chan tn ss
  let new := amrNewOf c
  let s1 := s.modChan tn ss fun c => { c with dlCmr := new, berSum := 0, berNum := 0 }
  if new = c.dlCmr then s1 else s1.emitLoop tn ss .cmr new.toNat

/-- AMR_SAMPLE(tn, ss, ber, w) (R337, R338). -/
def amrSample (tn : Tn) (ss : Ss) (ber w : Nat) (s : State) : State :=
  let c := s.chan tn ss
  if c.amrEn then
    if c.amrSynced then
      let s1 := s.modChan tn ss fun c =>
        { c with berSum := c.berSum + BitVec.ofNat 32 (w * ber), berNum := c.berNum + BitVec.ofNat 8 w }
      if 48 ≤ (s1.chan tn ss).berNum.toNat then amrEval tn ss s1 else s1
    else s.modChan tn ss fun c => { c with berSum := 0, berNum := 0 }
  else s

/-! ## Meanings -/

/-- PWR_SAMPLE (R331). -/
def execPwrSample (tn : Tn) (ss : Ss) (rssi : Int) (s : State) : Host.Outcome State Fault Refusal :=
  .next (pwrSample tn ss rssi s)

/-- PWR_CLOCK (R332). -/
def execPwrClock (tn : Tn) (ss : Ss) (s : State) : Host.Outcome State Fault Refusal := .next (pwrClock tn ss s)

/-- PWR_EVAL (R333). -/
def execPwrEval (tn : Tn) (ss : Ss) (s : State) : Host.Outcome State Fault Refusal := .next (pwrEval tn ss s)

/-- TA_SAMPLE (R334). -/
def execTaSample (tn : Tn) (ss : Ss) (toa : Int) (s : State) : Host.Outcome State Fault Refusal :=
  .next (taSample tn ss toa s)

/-- TA_EVAL (R336). -/
def execTaEval (tn : Tn) (ss : Ss) (s : State) : Host.Outcome State Fault Refusal := .next (taEval tn ss s)

/-- AMR_SAMPLE (R337). -/
def execAmrSample (tn : Tn) (ss : Ss) (ber w : Nat) (s : State) : Host.Outcome State Fault Refusal :=
  .next (amrSample tn ss ber w s)

/-- AMR_EVAL (R339). -/
def execAmrEval (tn : Tn) (ss : Ss) (s : State) : Host.Outcome State Fault Refusal := .next (amrEval tn ss s)

end Sys2Proof.Machine
end

