-- ==== Sys2Proof/Machine/Uplink.lean ====
section
/-! DEFINITION. Uplink burst consumption (44_sched_uplink.md): acceptance (R280 to R283), reassembly groups
(R284 to R290) and the RX handlers (R291 to R299). -/

namespace Sys2Proof.Machine

/-! ## Groups (R284 to R288) -/

/-- What a closed group came to (R288). -/
inductive Closed
  | empty | cont | bad | ok
  deriving DecidableEq, Repr

/-- HOOKS_SACCH.closed (R292). -/
def closedSacch (o : Closed) (r : DecResult) (tn : Tn) (ss : Ss) (s : State) : State :=
  pwrClock tn ss <|
    if o = .ok ∧ r.taValid = true then s.modChan tn ss fun c => { c with ackTa := BitVec.ofNat 6 r.ta } else s

/-- UL_FT <- r.ft where the frame carries one (R293, R294). -/
def noteFt (r : DecResult) (tn : Tn) (ss : Ss) (s : State) : State :=
  if r.ftValid then s.modChan tn ss fun c => { c with ulFt := BitVec.ofNat 2 r.ft } else s

/-- HOOKS_TCHF.closed (R293). -/
def closedTchf (o : Closed) (r : DecResult) (ber : Nat) (tn : Tn) (ss : Ss) (s : State) : State :=
  let s1 := if o = .ok ∨ o = .bad then noteFt r tn ss s else s
  if o = .bad ∨ (o = .ok ∧ r.kind ≠ .facch) then amrSample tn ss ber 1 s1 else s1

/-- UL_FACCH_ONG <- v (R294). -/
def setUlFacch (v : Bool) (tn : Tn) (ss : Ss) (s : State) : State :=
  s.modChan tn ss fun c => { c with ulFacchOng := v }

/-- HOOKS_TCHH.closed (R294). -/
def closedTchh (o : Closed) (r : DecResult) (ber : Nat) (tn : Tn) (ss : Ss) (s : State) : State :=
  match o with
  | .cont => setUlFacch false tn ss s
  | .empty => setUlFacch false tn ss s
  | .bad => amrSample tn ss ber 2 (noteFt r tn ss s)
  | .ok =>
    if r.kind = .facch then setUlFacch true tn ss (noteFt r tn ss s)
    else amrSample tn ss ber 2 (noteFt r tn ss s)

/-- HOOKS.closed of a group type (R291 to R295). -/
def closedHook (ct : UlCt) (o : Closed) (r : DecResult) (ber : Nat) (tn : Tn) (ss : Ss) (s : State) : State :=
  match ct with
  | .sacch => closedSacch o r tn ss s
  | .tchf => closedTchf o r ber tn ss s
  | .tchh => closedTchh o r ber tn ss s
  | .sdcch => s
  | .pdtch => s

/-- HOOKS.burst of a group type: the per-burst loop samples of SACCH (R292). -/
def burstHook (ct : UlCt) (x : Burst) (tn : Tn) (ss : Ss) (s : State) : State :=
  match ct with
  | .sacch => taSample tn ss x.toa (pwrSample tn ss x.rssi s)
  | .tchf => s
  | .tchh => s
  | .sdcch => s
  | .pdtch => s

/-- The average RSSI of a group (R288). -/
def Lane.rssiAvg (l : Lane) : Int := tdivOr0 l.rssiSum.toInt l.rssiCnt.toNat

/-- The average TOA of a group (R288). -/
def Lane.toaAvg (l : Lane) : Int := tdivOr0 l.toaSum.toInt l.toaCnt.toNat

/-- ct' of R288: the code a decoded block is reported under. -/
def dataCode (ct : UlCt) (k : CodecKind) : Nat :=
  match k, ct with
  | .facch, .tchf => codeFacchF
  | .facch, .tchh => codeFacchH
  | _, _ => ct.toCt.code

/-- The outcome of a group (R288): no first burst, a FACCH/H continuation, a failed decode, or a decoded block. -/
def outcomeOf (l : Lane) (r : DecResult) (cont : Bool) : Closed :=
  if l.ulMask.getLsbD 0 = false then .empty
  else if cont then .cont
  else if r.ok = false then .bad
  else .ok

/-- REPORT(L, ct, tn, ss, r, cont, HOOKS) (R288): MEAS_IND, then DATA_IND, then HOOKS.closed. -/
def report (ct : UlCt) (tn : Tn) (ss : Ss) (r : DecResult) (cont : Bool) (s : State) : State :=
  let l := s.lane tn ss (ulLaneId ct)
  let code := ct.toCt.code
  let n := popcount4 l.ulMask
  let o := outcomeOf l r cont
  let ber := if o = .empty then 0 else berPpt r.nerr r.nbits
  let s1 := s.emitMeas tn ss code l.ulFirstFn n (o == .empty) l.rssiAvg ber l.toaAvg
  let s2 :=
    match o with
    | .empty => s1.emitData tn ss code .empty l.ulFirstFn []
    | .cont => s1.emitData tn ss code .bad l.ulFirstFn []
    | .bad => s1.emitData tn ss code .bad l.ulFirstFn []
    | .ok => s1.emitData tn ss (dataCode ct r.kind) (indKindOf r.kind) l.ulFirstFn r.payload
  closedHook ct o r ber tn ss s2

/-- `cont` of R287. -/
def contOf (ct : UlCt) (c : Channel) : Bool := ct == .tchh && c.ulFacchOng

/-- `mode` of R287. -/
def decMode (ct : UlCt) (c : Channel) : BitVec 2 :=
  match ct with
  | .tchf => c.ulFt
  | .tchh => c.ulFt
  | .sdcch => 0
  | .sacch => 0
  | .pdtch => 0

/-- DEC_STEP's answer for the open group of a lane (R287). -/
def decodeGroup (ct : UlCt) (tn : Tn) (ss : Ss) (s : State) : DecResult :=
  let c := s.chan tn ss
  let l := c.lane (ulLaneId ct)
  s.decStep ct (decMode ct c) l.ulIlv (l.ulSlots.toList.take ct.toCt.groupLen)
    (l.ulMask.toNat % 2 ^ ct.toCt.groupLen) (contOf ct c)

/-- CLOSE_GROUP(L, ct, tn, ss, HOOKS) (R287). -/
def closeGroup (ct : UlCt) (tn : Tn) (ss : Ss) (s : State) : Res State :=
  let r := decodeGroup ct tn ss s
  if decOk r then
    .ok (report ct tn ss r (contOf ct (s.chan tn ss))
      (s.modLane tn ss (ulLaneId ct) fun l => { l with ulIlv := r.ilv, ulOpen := false }))
  else .error .decContract

/-- OPEN_GROUP(L, f) (R285). -/
def Lane.openGroup (l : Lane) (f : Fn) : Lane :=
  { l with ulOpen := true, ulMask := 0, ulLastBid := 0, ulFirstFn := f
           ulSlots := Vector.replicate 4 (List.replicate 148 0), rssiSum := 0, rssiCnt := 0, toaSum := 0
           toaCnt := 0 }

/-- STORE(L, bid, x) (R286). -/
def Lane.store (l : Lane) (bid : Bid) (x : Option Burst) : Lane :=
  match x with
  | none => { l with ulLastBid := bid }
  | some b =>
    { l with
      ulLastBid := bid
      ulSlots := l.ulSlots.set bid.toNat b.soft (by have := bid.isLt; omega)
      ulMask := setMask l.ulMask bid
      rssiSum := BitVec.ofInt 32 (l.rssiSum.toInt + b.rssi)
      rssiCnt := l.rssiCnt + 1
      toaSum := BitVec.ofInt 32 (l.toaSum.toInt + b.toa)
      toaCnt := l.toaCnt + 1 }

/-- OPEN_GROUP where the group is closed, then STORE (R284). -/
def Lane.accept (l : Lane) (bid : Bid) (f : Fn) (x : Option Burst) : Lane :=
  (if l.ulOpen then l else l.openGroup f).store bid x

/-- The forced close of R284, where its condition holds. -/
def forceClose (ct : UlCt) (tn : Tn) (ss : Ss) (bid : Bid) (s : State) : Res State :=
  if (s.lane tn ss (ulLaneId ct)).forcesClose bid then closeGroup ct tn ss s else .ok s

/-- The position stored, and the per-burst samples of a received burst (R284). -/
def takePosition (ct : UlCt) (tn : Tn) (ss : Ss) (bid : Bid) (f : Fn) (x : Option Burst) (s : State) : State :=
  let s1 := s.modLane tn ss (ulLaneId ct) fun l => l.accept bid f x
  match x with
  | none => s1
  | some b => burstHook ct b tn ss s1

/-- RX_LANE(L, ct, tn, ss, bid, f, x, HOOKS) (R284). -/
def rxLane (ct : UlCt) (tn : Tn) (ss : Ss) (bid : Bid) (f : Fn) (x : Option Burst) (s : State) : Res State :=
  match forceClose ct tn ss bid s with
  | .error e => .error e
  | .ok s1 =>
    let s2 := takePosition ct tn ss bid f x s1
    if bid.toNat + 1 = ct.toCt.groupLen then closeGroup ct tn ss s2 else .ok s2

/-! ## Access bursts and idle positions (R296 to R299) -/

/-- The access burst decode of R296 to R298; `ind` is the indication of a success. -/
def accessBurst (ind : RachResult → Burst → State → State) (x : Option Burst) (s : State) : Res State :=
  match x with
  | none => .ok s
  | some b =>
    let r := s.rachDec (b.soft.take 148)
    if rachOk r then .ok (if r.ok then ind r b s else s.discard .accessFail) else .error .rachContract

/-- RX_RACH(tn, f, x) (R296). -/
def rxRach (tn : Tn) (f : Fn) (x : Option Burst) (s : State) : Res State :=
  accessBurst (fun r b s => s.emitRach tn Ct.rach.code f r b) x s

/-- RX_PTCCH(tn, ss, f, x) (R297); the record names no ss. -/
def rxPtcch (tn : Tn) (f : Fn) (x : Option Burst) (s : State) : Res State :=
  accessBurst (fun r b s => s.emitRach tn Ct.ptcch.code f r b) x s

/-- HO_ACCESS(tn, ss, f, x) (R298). -/
def hoAccess (tn : Tn) (ss : Ss) (f : Fn) (x : Option Burst) (s : State) : Res State :=
  accessBurst (fun r b s => s.emitHo tn ss f r b) x s

/-- RX_IDLE(x) (R299): a received burst is rejected, a MISSING position does nothing. -/
def rxIdle (x : Option Burst) (s : State) : State := if x.isSome then s.discard .ulReject else s

/-! ## Position lookup (R283) -/

/-- An 8PSK burst (R283). -/
def isPsk8 (x : Option Burst) : Bool :=
  match x with
  | some b => b.modulation == .psk8
  | none => false

/-- The dispatch of RX_POS for a dedicated type, on an active channel (R283): armed lane-M types go to
HO_ACCESS. -/
def rxGroup (ct : UlCt) (tn : Tn) (ss : Ss) (bid : Bid) (f : Fn) (x : Option Burst) (s : State) : Res State :=
  if (s.chan tn ss).hoArm && ct != .sacch then hoAccess tn ss f x s else rxLane ct tn ss bid f x s

/-- RX_POS after MAP: the checks and the dispatch on ct (R283). -/
def rxDispatch (tn : Tn) (e : Position) (f : Fn) (x : Option Burst) (s : State) : Res State :=
  if isPsk8 x && e.ct != .pdtch then .ok (s.discard .ulReject)
  else
    let active := (s.chan tn e.ss).active
    let group (ct : UlCt) : Res State := if active then rxGroup ct tn e.ss e.bid f x s else .ok (rxIdle x s)
    match e.ct with
    | .idle => .ok (rxIdle x s)
    | .fcch => .ok (rxIdle x s)
    | .sch => .ok (rxIdle x s)
    | .bcch => .ok (rxIdle x s)
    | .ccch => .ok (rxIdle x s)
    | .rach => rxRach tn f x s
    | .ptcch => if active then rxPtcch tn f x s else .ok (rxIdle x s)
    | .sdcch => group .sdcch
    | .sacch => group .sacch
    | .tchf => group .tchf
    | .tchh => group .tchh
    | .pdtch => group .pdtch

/-- RX_POS(tn, f, x) (R283). -/
def rxPos (tn : Tn) (f : Fn) (x : Option Burst) (s : State) : Res State :=
  match positionOf (s.mapOf (s.slot tn).comb tn f .ul) with
  | some e => rxDispatch tn e f x s
  | none => .error .mapContract

/-! ## Sequence and acceptance (R280 to R282) -/

/-- n MISSING positions from f on (R282). -/
def missingRun (tn : Tn) : Nat → Fn → State → Res State
  | 0, _, s => .ok s
  | n + 1, f, s =>
    match rxPos tn f none s with
    | .ok s1 => missingRun tn n (fnInc f) s1
    | .error e => .error e

/-- UL_GAP(tn, last, fn) (R282): the positions after last and before fn. -/
def ulGap (tn : Tn) (last fn : Fn) (s : State) : Res State := missingRun tn (fnDist fn (fnInc last)) (fnInc last) s

/-- UL_LAST[tn] <- fn, valid (R281). -/
def noteUl (tn : Tn) (fn : Fn) (s : State) : State :=
  s.modSlot tn fun t => { t with ulLastFn := fn, ulLastValid := true }

/-- UL_SEQ(tn, fn, x) (R281). -/
def ulSeq (tn : Tn) (fn : Fn) (x : Burst) (s : State) : Res State :=
  let t := s.slot tn
  let d := sdiff fn t.ulLastFn
  if t.ulLastValid = true ∧ d ≤ 0 then .ok (s.discard .ulReject)
  else
    match (if t.ulLastValid = true ∧ 2 ≤ d ∧ d ≤ s.cfg.ulGapMax.toNat then ulGap tn t.ulLastFn fn s else .ok s) with
    | .ok s1 => rxPos tn fn (some x) (noteUl tn fn s1)
    | .error e => .error e

/-- UL_BURST after its parse (R280): the order of the checks is parse, state, COMB, sequence. -/
def ulBurst (p : Option (Tn × Fn × Burst)) (s : State) : Res State :=
  match p with
  | none => .ok (s.discard .dataMalformed)
  | some (tn, fn, x) =>
    if s.clk.dropsRadio then .ok (s.discard .stateIgnored)
    else if (s.slot tn).comb = 0 then .ok (s.discard .ulReject)
    else ulSeq tn fn x s

/-! ## Meanings -/

/-- UL_BURST with 148 soft bits (R280). -/
def execUlBurstNb (b : Bytes) (s : State) : Host.Outcome State Fault Refusal :=
  (ulBurst (parseUl .gmsk 148 b) s).outcome

/-- UL_BURST with 444 soft bits (R280). -/
def execUlBurst8psk (b : Bytes) (s : State) : Host.Outcome State Fault Refusal :=
  (ulBurst (parseUl .psk8 444 b) s).outcome

/-- UL_SEQ (R281). -/
def execUlSeq (tn : Tn) (fn : Fn) (x : Burst) (s : State) : Host.Outcome State Fault Refusal :=
  (ulSeq tn fn x s).outcome

/-- UL_GAP (R282). -/
def execUlGap (tn : Tn) (last fn : Fn) (s : State) : Host.Outcome State Fault Refusal :=
  (ulGap tn last fn s).outcome

/-- RX_POS (R283). -/
def execRxPos (tn : Tn) (f : Fn) (x : Option Burst) (s : State) : Host.Outcome State Fault Refusal :=
  (rxPos tn f x s).outcome

/-- RX_LANE (R284). -/
def execRxLane (ct : UlCt) (tn : Tn) (ss : Ss) (bid : Bid) (f : Fn) (x : Option Burst) (s : State) :
    Host.Outcome State Fault Refusal :=
  (rxLane ct tn ss bid f x s).outcome

/-- CLOSE_GROUP (R287). -/
def execCloseGroup (ct : UlCt) (tn : Tn) (ss : Ss) (s : State) : Host.Outcome State Fault Refusal :=
  (closeGroup ct tn ss s).outcome

/-- REPORT (R288). -/
def execReport (ct : UlCt) (tn : Tn) (ss : Ss) (r : DecResult) (cont : Bool) (s : State) :
    Host.Outcome State Fault Refusal :=
  .next (report ct tn ss r cont s)

/-- A MISSING position (R290). -/
def execRxMissing (tn : Tn) (f : Fn) (s : State) : Host.Outcome State Fault Refusal := (rxPos tn f none s).outcome

/-- RX_IDLE (R299). -/
def execRxIdle (x : Option Burst) (s : State) : Host.Outcome State Fault Refusal := .next (rxIdle x s)

/-- RX_SDCCH (R291). -/
def execRxSdcch (tn : Tn) (ss : Ss) (bid : Bid) (f : Fn) (x : Option Burst) (s : State) :
    Host.Outcome State Fault Refusal :=
  (rxLane .sdcch tn ss bid f x s).outcome

/-- RX_SACCH (R292). -/
def execRxSacch (tn : Tn) (ss : Ss) (bid : Bid) (f : Fn) (x : Option Burst) (s : State) :
    Host.Outcome State Fault Refusal :=
  (rxLane .sacch tn ss bid f x s).outcome

/-- RX_TCHF (R293). -/
def execRxTchf (tn : Tn) (ss : Ss) (bid : Bid) (f : Fn) (x : Option Burst) (s : State) :
    Host.Outcome State Fault Refusal :=
  (rxLane .tchf tn ss bid f x s).outcome

/-- RX_TCHH (R294). -/
def execRxTchh (tn : Tn) (ss : Ss) (bid : Bid) (f : Fn) (x : Option Burst) (s : State) :
    Host.Outcome State Fault Refusal :=
  (rxLane .tchh tn ss bid f x s).outcome

/-- RX_PDTCH (R295). -/
def execRxPdtch (tn : Tn) (ss : Ss) (bid : Bid) (f : Fn) (x : Option Burst) (s : State) :
    Host.Outcome State Fault Refusal :=
  (rxLane .pdtch tn ss bid f x s).outcome

/-- RX_PTCCH (R297): its record names no subchannel, so ss is not used. -/
def execRxPtcch (tn : Tn) (_ss : Ss) (f : Fn) (x : Option Burst) (s : State) : Host.Outcome State Fault Refusal :=
  (rxPtcch tn f x s).outcome

/-- RX_RACH (R296). -/
def execRxRach (tn : Tn) (f : Fn) (x : Option Burst) (s : State) : Host.Outcome State Fault Refusal :=
  (rxRach tn f x s).outcome

/-- HO_ACCESS (R298). -/
def execHoAccess (tn : Tn) (ss : Ss) (f : Fn) (x : Option Burst) (s : State) : Host.Outcome State Fault Refusal :=
  (hoAccess tn ss f x s).outcome

end Sys2Proof.Machine
end

