-- ==== Sys2Proof/Machine/Dispatch.lean ====
section
/-! DEFINITION. The dispatch: one arm per constructor of Instr, each one call of that instruction's meaning. -/

namespace Sys2Proof.Machine

/-- The meaning of an instruction. -/
def exec (i : Instr) (s : State) : Host.Outcome State Fault Refusal :=
  match i with
  | .clkInd bytes now => Sys2Proof.Machine.execClkInd bytes now s
  | .ulBurstNb bytes => Sys2Proof.Machine.execUlBurstNb bytes s
  | .ulBurst8psk bytes => Sys2Proof.Machine.execUlBurst8psk bytes s
  | .linkOpen => Sys2Proof.Machine.execLinkOpen s
  | .linkClose => Sys2Proof.Machine.execLinkClose s
  | .cfgRd addr => Sys2Proof.Machine.execCfgRd addr s
  | .cfgWr addr value => Sys2Proof.Machine.execCfgWr addr value s
  | .dlqPush q payload => Sys2Proof.Machine.execDlqPush q payload s
  | .hostReserved bytes => Sys2Proof.Machine.execHostReserved bytes s
  | .tick now => Sys2Proof.Machine.execTick now s
  | .anchor fn now => Sys2Proof.Machine.execAnchor fn now s
  | .clkApply fn now => Sys2Proof.Machine.execClkApply fn now s
  | .resync fn now => Sys2Proof.Machine.execResync fn now s
  | .delay k now => Sys2Proof.Machine.execDelay k now s
  | .catchUp fn now => Sys2Proof.Machine.execCatchUp fn now s
  | .tickLiveness now => Sys2Proof.Machine.execTickLiveness now s
  | .tickStall now => Sys2Proof.Machine.execTickStall now s
  | .tickProduce k => Sys2Proof.Machine.execTickProduce k s
  | .fatal cause => Sys2Proof.Machine.execFatal cause s
  | .schedFn fn => Sys2Proof.Machine.execSchedFn fn s
  | .txDispatch tn e sn => Sys2Proof.Machine.execTxDispatch tn e sn s
  | .txIdle tn sn => Sys2Proof.Machine.execTxIdle tn sn s
  | .txFcch tn sn => Sys2Proof.Machine.execTxFcch tn sn s
  | .txSch tn sn => Sys2Proof.Machine.execTxSch tn sn s
  | .txBcch tn bid sn => Sys2Proof.Machine.execTxBcch tn bid sn s
  | .txCcch tn bid sn => Sys2Proof.Machine.execTxCcch tn bid sn s
  | .txSdcch tn ss bid sn => Sys2Proof.Machine.execTxSdcch tn ss bid sn s
  | .txSacch tn ss bid sn => Sys2Proof.Machine.execTxSacch tn ss bid sn s
  | .txTchf tn ss bid sn => Sys2Proof.Machine.execTxTchf tn ss bid sn s
  | .txTchh tn ss bid facchOk sn => Sys2Proof.Machine.execTxTchh tn ss bid facchOk sn s
  | .txPdtch tn ss bid sn => Sys2Proof.Machine.execTxPdtch tn ss bid sn s
  | .txPtcch tn ss bid sn => Sys2Proof.Machine.execTxPtcch tn ss bid sn s
  | .txRachAsIdle tn sn => Sys2Proof.Machine.execTxRachAsIdle tn sn s
  | .txGroup ct tn ss bid facchOk sn => Sys2Proof.Machine.execTxGroup ct tn ss bid facchOk sn s
  | .dlMiss ct tn ss => Sys2Proof.Machine.execDlMiss ct tn ss s
  | .emitSlot tn sn slot => Sys2Proof.Machine.execEmitSlot tn sn slot s
  | .asmNb d t => Sys2Proof.Machine.execAsmNb d t s
  | .emitDl tn sn bits => Sys2Proof.Machine.execEmitDl tn sn bits s
  | .ulSeq tn fn x => Sys2Proof.Machine.execUlSeq tn fn x s
  | .ulGap tn last fn => Sys2Proof.Machine.execUlGap tn last fn s
  | .rxPos tn f x => Sys2Proof.Machine.execRxPos tn f x s
  | .rxLane ct tn ss bid f x => Sys2Proof.Machine.execRxLane ct tn ss bid f x s
  | .closeGroup ct tn ss => Sys2Proof.Machine.execCloseGroup ct tn ss s
  | .report ct tn ss r cont => Sys2Proof.Machine.execReport ct tn ss r cont s
  | .rxMissing tn f => Sys2Proof.Machine.execRxMissing tn f s
  | .rxIdle x => Sys2Proof.Machine.execRxIdle x s
  | .rxSdcch tn ss bid f x => Sys2Proof.Machine.execRxSdcch tn ss bid f x s
  | .rxSacch tn ss bid f x => Sys2Proof.Machine.execRxSacch tn ss bid f x s
  | .rxTchf tn ss bid f x => Sys2Proof.Machine.execRxTchf tn ss bid f x s
  | .rxTchh tn ss bid f x => Sys2Proof.Machine.execRxTchh tn ss bid f x s
  | .rxPdtch tn ss bid f x => Sys2Proof.Machine.execRxPdtch tn ss bid f x s
  | .rxPtcch tn ss f x => Sys2Proof.Machine.execRxPtcch tn ss f x s
  | .rxRach tn f x => Sys2Proof.Machine.execRxRach tn f x s
  | .hoAccess tn ss f x => Sys2Proof.Machine.execHoAccess tn ss f x s
  | .pwrSample tn ss rssi => Sys2Proof.Machine.execPwrSample tn ss rssi s
  | .pwrClock tn ss => Sys2Proof.Machine.execPwrClock tn ss s
  | .pwrEval tn ss => Sys2Proof.Machine.execPwrEval tn ss s
  | .taSample tn ss toa => Sys2Proof.Machine.execTaSample tn ss toa s
  | .taEval tn ss => Sys2Proof.Machine.execTaEval tn ss s
  | .amrSample tn ss ber w => Sys2Proof.Machine.execAmrSample tn ss ber w s
  | .amrEval tn ss => Sys2Proof.Machine.execAmrEval tn ss s
  | .cfgData addr value => Sys2Proof.Machine.execCfgData addr value s
  | .dataInd tn ss ct kind fn payload => Sys2Proof.Machine.execDataInd tn ss ct kind fn payload s
  | .measInd tn ss ct fn nbursts flags rssi ber toa => Sys2Proof.Machine.execMeasInd tn ss ct fn nbursts flags rssi ber toa s
  | .rachInd tn ct fn ra toa ber rssi => Sys2Proof.Machine.execRachInd tn ct fn ra toa ber rssi s
  | .hoInd tn ss fn ra toa ber rssi => Sys2Proof.Machine.execHoInd tn ss fn ra toa ber rssi s
  | .loopInd tn ss which value => Sys2Proof.Machine.execLoopInd tn ss which value s
  | .fatalInd cause => Sys2Proof.Machine.execFatalInd cause s

end Sys2Proof.Machine
end

