-- ==== Sys2Proof/Machine/Step.lean ====
section
/-! DEFINITION. One step: the engine takes the next pending event and runs it to completion (R4, R87). -/

namespace Sys2Proof.Machine

/-- One step. With no event pending the block waits and changes nothing (R386, R401). An event the decoder
rejects is handled as `rejectEvent` says. -/
def step (s : State) : Host.Outcome State Fault Refusal :=
  match s.pending with
  | [] => .next s
  | e :: rest =>
    match decodeEvent e with
    | .ok i => exec i { s with pending := rest }
    | .error r => .next (rejectEvent r { s with pending := rest })

/-- s with the table word's event as the next one the engine takes. -/
def State.withFetchWord (s : State) (nbits w : Nat) : State :=
  { s with pending := tableEvent nbits w :: s.pending }

end Sys2Proof.Machine
end

