-- ==== Sys2Proof/Safety.lean ====
section
/-! DEFINITION. The terms statements are made in: lawful parameters (R9, R212, R376), frames (what an operation
leaves unchanged), the bounds and invariants the spec states of the state (R25, R26, R28, R31, R32, R143, R286,
R335, R337), and the laws of MAP and of the codec that no step checks (R10, R212). -/

namespace Sys2Proof.Machine

/-! ## Lawful parameters -/

/-- Every listed parameter value meets its contract (R376). The opaque constants of Config meet theirs by type,
so a machine whose listed values are lawful has lawful parameters. -/
def Listed.lawful (l : Listed) : Bool :=
  l.map.all (fun e => (positionOf e.2).isSome) && l.enc.all (fun e => encOk e.1.ct e.2)
    && l.dec.all (fun e => decOk e.2) && l.rach.all (fun e => rachOk e.2) && l.sch.all (fun e => e.2.length == 148)
    && l.fcch.all (fun b => b.length == 148) && l.dummy.all (fun b => b.length == 148)
    && l.filler.all (fun e => decide (e.2.length ≤ 255)) && l.bfi.all (fun e => decide (e.2.length ≤ 255))
    && l.psk8.all (fun e => e.2.length == 444)

/-- What R10 leaves to the codec: `holds ct dl ul` says that the decoder's interleaver state ul holds the earlier
groups the encoder's dl held, and `carries ct kind mode p` that p is a payload of the type. R10 speaks of "a payload
for a channel type", and no group of bits carries every byte string; the spec gives no list of sizes (log entry 21). -/
structure CodecTerms where
  holds   : UlCt → Ilv → Ilv → Prop
  carries : UlCt → CodecKind → BitVec 2 → Bytes → Prop

/-- The burst a slot is assembled into on timeslot tn (R215). -/
def State.assemble (s : State) (tn : Tn) (slot : Slot) : List Bool :=
  match slot.modulation with
  | .gmsk => asmNb slot.bits (s.tscSeq (s.slot tn).tsc)
  | .psk8 => s.asm8psk slot.bits (s.slot tn).tsc

/-- Burst bits as the soft values of a reception without errors (R10): bit 0 as +127, bit 1 as -127. -/
def hardSoft (bits : List Bool) : List Int := bits.map fun b => if b then -127 else 127

/-- The byte of an uplink datagram that carries a soft value (R104, backwards). -/
def softByte (v : Int) : Byte := BitVec.ofInt 8 (127 - v)

/-- R' of R10: a burst's soft values as the uplink datagram conversion of R104 delivers them. -/
def delivered (bits : List Bool) : List Int := (hardSoft bits).map fun v => softOf (softByte v)

/-- An uplink type as the lane type of the downlink. -/
def ulLaneCt : UlCt → LaneCt
  | .sdcch => .sdcch
  | .sacch => .sacch
  | .tchf => .tchf
  | .tchh => .tchh
  | .pdtch => .pdtch

/-- The codec law (R10): a payload of the type, encoded, assembled and delivered without errors, decodes to itself.
It is a law of the parameters ENC_STEP and DEC_STEP: a claim about delivered data assumes it as its premise, as
Obligations.CodecRoundTrip does, and it can be met (log entry 21). -/
def codecLaw (s : State) (terms : CodecTerms) : Prop :=
  ∀ (ct : UlCt) (kind : CodecKind) (mode cmr : BitVec 2) (p : Bytes) (dl ul : Ilv) (tn : Tn),
    kind ≠ .facchCont → terms.carries ct kind mode p → terms.holds ct dl ul →
    let e := s.encStep (ulLaneCt ct) kind mode cmr p dl
    let r := s.decStep ct mode ul (e.slots.map fun sl => delivered (s.assemble tn sl)) (2 ^ ct.toCt.groupLen - 1) false
    r.ok = true ∧ r.payload = p ∧ r.nerr = 0

/-- Law (M2) of R212 for the periods P: MAP repeats, and every period divides the hyperframe. -/
def mapPeriodic (s : State) (P : BitVec 8 → Nat) : Prop :=
  ∀ comb, 0 < P comb ∧ P comb ∣ hyperframe ∧ ∀ (tn : Tn) (fn : Fn) (dir : Dir),
    s.mapOf comb tn fn dir = s.mapOf comb tn (BitVec.ofNat 22 (fn.toNat % P comb)) dir

/-- The position MAP gives, where it is within (M3). -/
def State.position (s : State) (comb : BitVec 8) (tn : Tn) (fn : Fn) (dir : Dir) : Option Position :=
  positionOf (s.mapOf comb tn fn dir)

/-- The lane of a channel type, for the types that have one (R213). -/
def laneOfCt (tn : Tn) (ss : Ss) : Ct → Option LaneRef
  | .bcch => some (laneRef .bcch tn ss)
  | .ccch => some (laneRef .ccch tn ss)
  | .sdcch => some (laneRef .sdcch tn ss)
  | .sacch => some (laneRef .sacch tn ss)
  | .tchf => some (laneRef .tchf tn ss)
  | .tchh => some (laneRef .tchh tn ss)
  | .pdtch => some (laneRef .pdtch tn ss)
  | .ptcch => some (laneRef .ptcch tn ss)
  | .idle => none
  | .fcch => none
  | .sch => none
  | .rach => none

/-- Law (M4) of R212: between a position of a lane and the lane's next one, the bid goes up by one modulo G. -/
def mapGroups (s : State) : Prop :=
  ∀ (comb : BitVec 8) (tn : Tn) (dir : Dir) (fn : Fn) (n : Nat) (p q : Position) (l : LaneRef),
    0 < n → s.position comb tn fn dir = some p → s.position comb tn (fnAdd fn n) dir = some q →
    laneOfCt tn p.ss p.ct = some l → laneOfCt tn q.ss q.ct = some l →
    (∀ m r, 0 < m → m < n → s.position comb tn (fnAdd fn m) dir = some r → laneOfCt tn r.ss r.ct ≠ some l) →
    q.bid.toNat = (p.bid.toNat + 1) % p.ct.groupLen

/-- Law (M5) of R212: a FACCH/H may begin only at a TCH/H position with bid 0. -/
def mapFacchParity (s : State) : Prop :=
  ∀ (comb : BitVec 8) (tn : Tn) (fn : Fn) (dir : Dir) (p : Position),
    s.position comb tn fn dir = some p → p.ct = .tchh → p.facchOk = true → p.bid = 0

/-! ## Frames -/

/-- From s to t only CH[tn][ss] may differ, of everything the timeslots hold. -/
def chanOnly (tn : Tn) (ss : Ss) (s t : State) : Prop :=
  (∀ u, u ≠ tn → t.slot u = s.slot u) ∧ t.slot tn = { s.slot tn with chans := (t.slot tn).chans }
    ∧ ∀ v, v ≠ ss → t.chan tn v = s.chan tn v

/-- From s to t only timeslot tn may differ, of the timeslots. -/
def slotOnly (tn : Tn) (s t : State) : Prop := ∀ u, u ≠ tn → t.slot u = s.slot u

/-- A channel without what the downlink scheduler may write in it (R220): its downlink lane fields, DL_LOSS, the
downlink FACCH flag and its queues, each set to one fixed value. -/
def Channel.withoutDownlink (c : Channel) : Channel :=
  { c with
    laneM := { c.laneM with dl := DlLane.fresh ⟨[]⟩, dlLoss := 0 }
    laneA := { c.laneA with dl := DlLane.fresh ⟨[]⟩, dlLoss := 0 }
    dlFacchOng := false, qSig := [], qSpeech := [], qAssoc := [] }

/-- A timeslot without what the downlink scheduler may write in it (R220). -/
def TnState.withoutDownlink (t : TnState) : TnState :=
  { t with
    laneB := DlLane.fresh ⟨[]⟩, laneC := DlLane.fresh ⟨[]⟩, qBcch := [], qCcch := []
    chans := t.chans.map Channel.withoutDownlink }

/-- The state without its frame counter, time of frame and deadline: what an uplink rule may read (R300 (d)). -/
def State.sameButTiming (s t : State) : Prop :=
  t = { s with clk := { s.clk with lastFn := t.clk.lastFn, lastTs := t.clk.lastTs, deadline := t.clk.deadline } }

/-- The input ports (R100). -/
def isInputPort : Port → Bool
  | .clk => true
  | .uld => true
  | .host => true
  | .timer => true
  | .hosto => false

/-! ## Invariants -/

/-- The clock unit: ARMED only in SYNC (R25), the timer's relation in SYNC (R26), the cause in range, nonzero in
FATAL and zero in UNSYNC and SYNC (R28), LAST_FN below H (R143). -/
def clockInv (c : ClockState) : Bool :=
  (!c.armed || c.clkState == .sync)
    && (c.clkState != .sync || (c.armed && c.deadline == c.lastTs + BitVec.ofNat 64 frameUs))
    && decide (c.fatalCause.toNat ≤ 3) && (c.clkState != .fatal || c.fatalCause != 0)
    && ((c.clkState != .unsync && c.clkState != .sync) || c.fatalCause == 0)
    && decide (c.lastFn.toNat < hyperframe)

/-- The soft values of a stored burst: 148 or 444 of them, each in -127..127 (R31). -/
def softOk (v : List Int) : Bool :=
  (v.length == 148 || v.length == 444) && v.all fun x => decide (-127 ≤ x ∧ x ≤ 127)

/-- A downlink lane's slots keep the lengths ENC_STEP's contract gives them (R31, R376). -/
def dlInv (l : DlLane) : Bool := l.slots.toList.all slotOk

/-- A dedicated lane: its downlink slots, its soft bursts, and the group's accumulators, which count exactly the
bursts of UL_MASK, no bit of which stands above UL_LAST_BID (R31, R286). -/
def laneInv (l : Lane) : Bool :=
  dlInv l.dl && l.ulSlots.toList.all softOk && l.rssiCnt.toNat == popcount4 l.ulMask
    && l.toaCnt.toNat == popcount4 l.ulMask && decide (l.ulMask.toNat < 2 ^ (l.ulLastBid.toNat + 1))
    && decide (-127 * (l.rssiCnt.toNat : Int) ≤ l.rssiSum.toInt ∧ l.rssiSum.toInt ≤ 128 * l.rssiCnt.toNat)
    && decide (-32768 * (l.toaCnt.toNat : Int) ≤ l.toaSum.toInt ∧ l.toaSum.toInt ≤ 32767 * l.toaCnt.toNat)
    && decide (l.ulFirstFn.toNat < hyperframe)

/-- A channel's loop and codec state: DL_CMR and DL_FT within the active set (R62), the power sample in range
(R331), the TA accumulator (R335) and the AMR accumulator (R337) within their bounds. -/
def loopInv (c : Channel) : Bool :=
  decide (c.dlCmr.toNat ≤ c.ncodecsM1.toNat) && decide (c.dlFt.toNat ≤ c.ncodecsM1.toNat)
    && decide (-127 ≤ c.pwrMin.toInt ∧ c.pwrMin.toInt ≤ 128) && decide (c.taCnt.toNat < 16)
    && decide (-32768 * (c.taCnt.toNat : Int) ≤ c.taSum.toInt ∧ c.taSum.toInt ≤ 32767 * c.taCnt.toNat)
    && decide (c.berNum.toNat < 48) && decide (c.berSum.toNat ≤ 10000 * c.berNum.toNat)

/-- A queue holds at most PQ_DEPTH payloads of at most 255 bytes (R32, R115). -/
def queueInv (depth : Nat) (q : List Bytes) : Bool :=
  decide (q.length ≤ depth) && q.all fun p => decide (p.length ≤ 255)

/-- A channel. -/
def chanInv (depth : Nat) (c : Channel) : Bool :=
  loopInv c && laneInv c.laneM && laneInv c.laneA && queueInv depth c.qSig && queueInv depth c.qSpeech
    && queueInv depth c.qAssoc

/-- A timeslot; UL_LAST_FN is below H (R143). -/
def slotInv (depth : Nat) (t : TnState) : Bool :=
  decide (t.ulLastFn.toNat < hyperframe) && dlInv t.laneB && dlInv t.laneC && queueInv depth t.qBcch
    && queueInv depth t.qCcch && t.chans.toList.all (chanInv depth)

/-- A record of a length R126 allows on its port: a downlink datagram of 154 or 450 bytes with its timeslot, its
FN below H and its bits as R105 gives them; on HOSTO one of the seven output records. -/
def recordOk (o : Output) : Bool :=
  match o.port with
  | .dld =>
    (o.bytes.length == 154 || o.bytes.length == 450) && decide ((byteAt o.bytes 0).toNat < 8)
      && decide ((be32 o.bytes 1).toNat < hyperframe) && (o.bytes.drop 6).all fun b => b == 0 || b == 1
  | .hosto => (decodeOutput o.bytes).isSome

/-- The invariant of the whole state. -/
def State.inv (s : State) : Bool :=
  clockInv s.clk && s.tns.toList.all (slotInv s.pqDepth) && s.out.all recordOk

/-! ## Counting and composing -/

/-- `sat_w(v + n)` of a field of width w, as R6 defines it. -/
def satInc {w : Nat} (v : BitVec w) (n : Nat) : BitVec w := BitVec.ofNat w (min (2 ^ w - 1) (v.toNat + n))

/-- The signed FN difference of R7, written as one residue: the representative of a - b in [-H/2, H/2). -/
def signedDiff (a b : Fn) : Int := ((a.toNat : Int) - b.toNat + 1357824) % 2715648 - 1357824

/-- Run an instruction after an outcome; a stop stays. -/
def thenExec (o : Host.Outcome State Fault Refusal) (i : Instr) : Host.Outcome State Fault Refusal :=
  match o with
  | .next s => exec i s
  | .fault f => .fault f
  | .refused r => .refused r

/-- k frames produced one after the other (R150, R154): k calls of SCHED_FN, LAST_FN stepping before each. -/
def scheduleFrames : Nat → State → Host.Outcome State Fault Refusal
  | 0, s => .next s
  | k + 1, s =>
    let next := fnInc s.clk.lastFn
    match exec (.schedFn next) { s with clk := { s.clk with lastFn := next } } with
    | .next t => scheduleFrames k t
    | .fault f => .fault f
    | .refused r => .refused r

/-- One timeslot's turn in SCHED_FN after an outcome (R210), for the scheduling FN sn. -/
def thenTimeslot (sn : Fn) (o : Host.Outcome State Fault Refusal) (tn : Tn) : Host.Outcome State Fault Refusal :=
  match o with
  | .next s =>
    if (s.slot tn).comb = 0 then .next s
    else
      match s.position (s.slot tn).comb tn sn .dl with
      | some e => exec (.txDispatch tn e sn) s
      | none => .refused .mapContract
  | .fault f => .fault f
  | .refused r => .refused r

/-! ## Handlers by type -/

/-- The TX handler of a lane type (R103, R211). -/
def txHandler (ct : LaneCt) (tn : Tn) (ss : Ss) (bid : Bid) (facchOk : Bool) (sn : Fn) : Instr :=
  match ct with
  | .bcch => .txBcch tn bid sn
  | .ccch => .txCcch tn bid sn
  | .sdcch => .txSdcch tn ss bid sn
  | .sacch => .txSacch tn ss bid sn
  | .tchf => .txTchf tn ss bid sn
  | .tchh => .txTchh tn ss bid facchOk sn
  | .pdtch => .txPdtch tn ss bid sn
  | .ptcch => .txPtcch tn ss bid sn

/-- The RX handler of a group type (R103, R283). -/
def rxHandler (ct : UlCt) (tn : Tn) (ss : Ss) (bid : Bid) (f : Fn) (x : Option Burst) : Instr :=
  match ct with
  | .sdcch => .rxSdcch tn ss bid f x
  | .sacch => .rxSacch tn ss bid f x
  | .tchf => .rxTchf tn ss bid f x
  | .tchh => .rxTchh tn ss bid f x
  | .pdtch => .rxPdtch tn ss bid f x

/-- The instructions of the uplink (44_sched_uplink.md). -/
def isUplink : Instr → Bool
  | .ulBurstNb _ => true
  | .ulBurst8psk _ => true
  | .ulSeq _ _ _ => true
  | .ulGap _ _ _ => true
  | .rxPos _ _ _ => true
  | .rxLane _ _ _ _ _ _ => true
  | .closeGroup _ _ _ => true
  | .report _ _ _ _ _ => true
  | .rxMissing _ _ => true
  | .rxIdle _ => true
  | .rxSdcch _ _ _ _ _ => true
  | .rxSacch _ _ _ _ _ => true
  | .rxTchf _ _ _ _ _ => true
  | .rxTchh _ _ _ _ _ => true
  | .rxPdtch _ _ _ _ _ => true
  | .rxPtcch _ _ _ _ => true
  | .rxRach _ _ _ => true
  | .hoAccess _ _ _ _ => true
  | _ => false

/-! ## What a downlink group start takes from a dedicated channel (R240, R247 to R253, R255) -/

/-- The arguments a group start gives ENC_STEP, and the channel it leaves. -/
structure Taken where
  kind    : CodecKind
  payload : Bytes
  mode    : BitVec 2
  cmr     : BitVec 2
  chan    : Channel

/-- DL_LOSS of lane M set. -/
def Channel.withLossM (c : Channel) (n : BitVec 8) : Channel := { c with laneM := { c.laneM with dlLoss := n } }

/-- DL_LOSS of lane A set. -/
def Channel.withLossA (c : Channel) (n : BitVec 8) : Channel := { c with laneA := { c.laneA with dlLoss := n } }

/-- A speech frame if one is queued, else a miss: FILLER at the first, BFI from the second on (R255). -/
def speechOrMiss (s : State) (ct : LaneCt) (c : Channel) : Taken :=
  match c.qSpeech with
  | v :: rest => ⟨.speech, v, c.dlFt, c.dlCmr, { c with qSpeech := rest }.withLossM 0⟩
  | [] =>
    let loss := satInc c.laneM.dlLoss 1
    if 1 < loss.toNat then ⟨.bfi, s.bfi ct c.dlFt, c.dlFt, c.dlCmr, c.withLossM loss⟩
    else ⟨.fill, s.filler ct, c.dlFt, c.dlCmr, c.withLossM loss⟩

/-- The selection of a dedicated type, on its channel alone; the two common types have no channel. -/
def takeFrom (s : State) (ct : LaneCt) (facchOk : Bool) (c : Channel) : Taken :=
  match ct with
  | .bcch => ⟨.fill, s.filler .bcch, 0, 0, c⟩
  | .ccch => ⟨.fill, s.filler .ccch, 0, 0, c⟩
  | .sdcch =>
    match c.qSig with
    | p :: rest => ⟨.data, p, 0, 0, { c with qSig := rest }⟩
    | [] => ⟨.fill, s.filler .sdcch, 0, 0, c⟩
  | .pdtch =>
    match c.qSig with
    | p :: rest => ⟨.data, p, 0, 0, { c with qSig := rest }⟩
    | [] => ⟨.fill, s.filler .pdtch, 0, 0, c⟩
  | .ptcch =>
    match c.qAssoc with
    | p :: rest => ⟨.data, p, 0, 0, { c with qAssoc := rest }⟩
    | [] => ⟨.fill, s.filler .ptcch, 0, 0, c⟩
  | .sacch =>
    match c.qAssoc with
    | p :: rest => ⟨.data, p, 0, 0, { c with qAssoc := rest }.withLossA 0⟩
    | [] => ⟨.fill, s.filler .sacch, 0, 0, c.withLossA (satInc c.laneA.dlLoss 1)⟩
  | .tchf =>
    match c.qSig with
    | p :: rest => ⟨.facch, p, c.dlFt, c.dlCmr, { c with qSig := rest, qSpeech := c.qSpeech.tail }.withLossM 0⟩
    | [] => speechOrMiss s .tchf c
  | .tchh =>
    if c.dlFacchOng then
      ⟨.facchCont, [], c.dlFt, c.dlCmr, { c with dlFacchOng := false, qSpeech := c.qSpeech.tail }.withLossM 0⟩
    else
      match facchOk, c.qSig with
      | true, p :: rest =>
        ⟨.facch, p, c.dlFt, c.dlCmr,
          { c with dlFacchOng := true, qSig := rest, qSpeech := c.qSpeech.tail }.withLossM 0⟩
      | _, _ => speechOrMiss s .tchh c

/-- The downlink lane of a type replaced (R213). -/
def Channel.withDl (c : Channel) (ct : LaneCt) (d : DlLane) : Channel :=
  match ct with
  | .sacch => { c with laneA := { c.laneA with dl := d } }
  | .ptcch => { c with laneA := { c.laneA with dl := d } }
  | _ => { c with laneM := { c.laneM with dl := d } }

end Sys2Proof.Machine
end

