-- ==== Sys2Proof/WellFormed.lean ====
section
/-! DEFINITION. Which terms of Instr are well formed: the ranges and lengths that the spec gives the operands
and that their types do not already hold. -/

namespace Sys2Proof

/-- A frame number below H (R143). -/
def fnOk (f : Fn) : Bool := decide (f.toNat < hyperframe)

/-- A received burst within the ranges of R104: RSSI, TOA, soft values and their number. -/
def burstOk (b : Burst) : Bool :=
  decide (-127 ≤ b.rssi ∧ b.rssi ≤ 128 ∧ -32768 ≤ b.toa ∧ b.toa ≤ 32767)
    && (b.soft.all fun v => decide (-127 ≤ v ∧ v ≤ 127))
    && b.soft.length == (match b.modulation with | .gmsk => 148 | .psk8 => 444)

/-- A position's burst: MISSING is always in range. -/
def posOk : Option Burst → Bool
  | none => true
  | some b => burstOk b

/-- A byte that is a timeslot or subchannel number (R5). -/
def idxOk (b : Byte) : Bool := decide (b.toNat < 8)

/-- A 32-bit FN field below H (R143). -/
def fn32Ok (f : BitVec 32) : Bool := decide (f.toNat < hyperframe)

/-- A channel type code that an uplink indication of a group carries (R117, R118). -/
def groupCodeOk (c : Byte) : Bool := c ∈ [5, 6, 7, 8, 11]

/-- The well-formed instructions. -/
def WellFormed : Instr → Bool
  | .clkInd _ _ => true
  | .ulBurstNb b => b.length == 156
  | .ulBurst8psk b => b.length == 452
  | .linkOpen => true
  | .linkClose => true
  | .cfgRd _ => true
  | .cfgWr _ _ => true
  | .dlqPush _ p => decide (p.length ≤ 255)
  | .hostReserved b => decide (decodeHost b = .hostReserved b)
  | .tick _ => true
  | .anchor fn _ => fnOk fn
  | .clkApply fn _ => fnOk fn
  | .resync fn _ => fnOk fn
  | .delay k _ => decide (1 ≤ k ∧ k ≤ 65535)
  | .catchUp fn _ => fnOk fn
  | .tickLiveness _ => true
  | .tickStall _ => true
  | .tickProduce k => decide (1 ≤ k)
  | .fatal _ => true
  | .schedFn fn => fnOk fn
  | .txDispatch _ e s => decide (e.bid.toNat < e.ct.groupLen) && fnOk s
  | .txIdle _ s => fnOk s
  | .txFcch _ s => fnOk s
  | .txSch _ s => fnOk s
  | .txBcch _ _ s => fnOk s
  | .txCcch _ _ s => fnOk s
  | .txSdcch _ _ _ s => fnOk s
  | .txSacch _ _ _ s => fnOk s
  | .txTchf _ _ _ s => fnOk s
  | .txTchh _ _ bid _ s => decide (bid.toNat < 2) && fnOk s
  | .txPdtch _ _ _ s => fnOk s
  | .txPtcch _ _ _ s => fnOk s
  | .txRachAsIdle _ s => fnOk s
  | .txGroup ct _ _ bid _ s => decide (bid.toNat < ct.toCt.groupLen) && fnOk s
  | .dlMiss _ _ _ => true
  | .emitSlot _ s slot => fnOk s && slotOk slot
  | .asmNb d t => d.length == 116 && t.length == 26
  | .emitDl _ s bits => fnOk s && (bits.length == 148 || bits.length == 444)
  | .ulSeq _ fn x => fnOk fn && burstOk x
  | .ulGap _ last fn => fnOk last && fnOk fn
  | .rxPos _ f x => fnOk f && posOk x
  | .rxLane ct _ _ bid f x => decide (bid.toNat < ct.toCt.groupLen) && fnOk f && posOk x
  | .closeGroup _ _ _ => true
  | .report ct _ _ r cont => decOk r && (!cont || ct == .tchh)
  | .rxMissing _ f => fnOk f
  | .rxIdle x => posOk x
  | .rxSdcch _ _ _ f x => fnOk f && posOk x
  | .rxSacch _ _ _ f x => fnOk f && posOk x
  | .rxTchf _ _ _ f x => fnOk f && posOk x
  | .rxTchh _ _ bid f x => decide (bid.toNat < 2) && fnOk f && posOk x
  | .rxPdtch _ _ _ f x => fnOk f && posOk x
  | .rxPtcch _ _ f x => fnOk f && posOk x
  | .rxRach _ f x => fnOk f && posOk x
  | .hoAccess _ _ f x => fnOk f && posOk x
  | .pwrSample _ _ rssi => decide (-127 ≤ rssi ∧ rssi ≤ 128)
  | .pwrClock _ _ => true
  | .pwrEval _ _ => true
  | .taSample _ _ toa => decide (-32768 ≤ toa ∧ toa ≤ 32767)
  | .taEval _ _ => true
  | .amrSample _ _ ber w => decide (ber ≤ 10000 ∧ (w = 1 ∨ w = 2))
  | .amrEval _ _ => true
  | .cfgData a _ => decide (a.toNat % 4 = 0)
  | .dataInd tn ss ct kind fn p =>
    idxOk tn && idxOk ss && (groupCodeOk ct || decide (ct ∈ ([9, 10] : Bytes))) && decide (kind.toNat ≤ 4) && fn32Ok fn
      && decide (p.length ≤ 255) && (decide (kind.toNat < 3) || p.isEmpty)
  | .measInd tn ss ct fn n flags _ ber _ =>
    idxOk tn && idxOk ss && groupCodeOk ct && fn32Ok fn && decide (n.toNat ≤ 4) && decide (flags.toNat ≤ 1)
      && decide (ber.toNat ≤ 10000)
  | .rachInd tn ct fn ra _ ber _ =>
    idxOk tn && decide (ct ∈ ([12, 13] : Bytes)) && fn32Ok fn && decide (ra.toNat ≤ 2047) && decide (ber.toNat ≤ 10000)
  | .hoInd tn ss fn ra _ ber _ =>
    idxOk tn && idxOk ss && fn32Ok fn && decide (ra.toNat ≤ 2047) && decide (ber.toNat ≤ 10000)
  | .loopInd tn ss which _ => idxOk tn && idxOk ss && decide (which.toNat ≤ 2)
  | .fatalInd cause => decide (1 ≤ cause.toNat ∧ cause.toNat ≤ 3)

end Sys2Proof
end

