-- ==== Sys2Proof/Certificates/Slice0/Obligations.lean ====
section
/-! DEFINITION. The statements for the provers. Each says what an instruction or the machine does, after the
numbered rules of spec/ that its docstring names; where one rests on a choice of the model it says so. -/

open Sys2Proof Sys2Proof.Machine

/-! ## Encoding -/

/-- A few words written out from 30_encoding.md (R101, R109, R111 to R115, R122) decode to their instructions. That a
table word's port is read off the word, and that a record on the port hosto decodes to its emission (the LOOP_IND
clause), is the model's choice (log entry 3). -/
def Obligations.OpcodeWordsDecode : Prop :=
  decodeTableWord 8 0x01 = some .linkOpen ∧ decodeTableWord 8 0x02 = some .linkClose
    ∧ decodeTableWord 24 0x140010 = some (.cfgRd 0x0014)
    ∧ decodeTableWord 56 0x14000000140011 = some (.cfgWr 0x0014 0x00000014)
    ∧ decodeEvent ⟨.host, 0, [0x20, 0x00, 0x03, 0x02, 0x01, 0xAA]⟩ = .ok (.dlqPush (.speech 0 2) [0xAA])
    ∧ parseClk [0x49, 0x4E, 0x44, 0x20, 0x43, 0x4C, 0x4F, 0x43, 0x4B, 0x20, 0x38, 0x30] = some 80
    ∧ decodeEvent ⟨.timer, 6615, []⟩ = .ok (.tick 6615)
    ∧ decodeEvent ⟨.hosto, 0, [0x94, 0x01, 0x02, 0x00, 0xFF, 0xF0]⟩ = .ok (.loopInd 1 2 0 0xFFF0)

/-- Decode and encode agree: a well-formed instruction that has an encoding is read back from it (R124). -/
def Obligations.DecodeOfEncode : Prop :=
  ∀ (i : Instr) (e : Event), WellFormed i = true → encode i = some e → decodeEvent e = .ok i

/-- What the decoder reads, the encoder writes back on the same port with the same bytes, so decoding drops no
byte; and from an input port it reads only well-formed instructions (R124). -/
def Obligations.EncodeOfDecode : Prop :=
  ∀ (e : Event) (i : Instr), decodeEvent e = .ok i →
    (∃ e', encode i = some e' ∧ e'.port = e.port ∧ e'.bytes = e.bytes)
      ∧ (isInputPort e.port = true → WellFormed i = true)

/-- The grammar of the clock datagram, both ways (R101). -/
def Obligations.ClockDatagramGrammar : Prop :=
  ∀ (b : Bytes) (fn : Fn), parseClk b = some fn ↔
    ∃ (ds : Bytes) (n : Nat),
      b = [0x49, 0x4E, 0x44, 0x20, 0x43, 0x4C, 0x4F, 0x43, 0x4B, 0x20] ++ ds ++ List.replicate n 0
        ∧ 1 ≤ ds.length ∧ ds.length ≤ 7 ∧ (∀ d ∈ ds, 0x30 ≤ d.toNat ∧ d.toNat ≤ 0x39)
        ∧ Nat.ofDigits 10 (ds.reverse.map fun d => d.toNat - 0x30) < 2715648
        ∧ fn.toNat = Nat.ofDigits 10 (ds.reverse.map fun d => d.toNat - 0x30)

/-- The uplink datagram: when it is valid, and what each field reads as (R102, R104). -/
def Obligations.UplinkDatagramFields : Prop :=
  (∀ (m : Modulation) (n : Nat) (b : Bytes),
    (parseUl m n b).isSome = true ↔
      b.length = 8 + n ∧ (byteAt b 0).toNat ≤ 7
        ∧ (byteAt b 1).toNat * 16777216 + (byteAt b 2).toNat * 65536 + (byteAt b 3).toNat * 256
            + (byteAt b 4).toNat < 2715648)
    ∧ ∀ (m : Modulation) (tn : Tn) (fn : Fn) (r : Byte) (toa : BitVec 16) (soft : Bytes), fn.toNat < 2715648 →
      parseUl m soft.length
          ([BitVec.ofNat 8 tn.val, BitVec.ofNat 8 (fn.toNat / 16777216), BitVec.ofNat 8 (fn.toNat / 65536),
            BitVec.ofNat 8 (fn.toNat / 256), BitVec.ofNat 8 fn.toNat, r, toa.extractLsb' 8 8, toa.extractLsb' 0 8]
            ++ soft)
        = some (tn, fn, { rssi := -r.toInt, toa := toa.toInt
                          soft := soft.map fun v => if v = 255 then -127 else 127 - (v.toNat : Int)
                          modulation := m })

/-- Which host records are reserved or malformed, and what such a record does: it counts, and changes nothing
else (R110, R115, R121). -/
def Obligations.ReservedHostRecords : Prop :=
  (∀ b : Bytes, decodeHost b = .hostReserved b ↔
    b ≠ [0x01] ∧ b ≠ [0x02] ∧ ¬ (byteAt b 0 = 0x10 ∧ b.length = 3) ∧ ¬ (byteAt b 0 = 0x11 ∧ b.length = 7)
      ∧ ¬ (byteAt b 0 = 0x20 ∧ (byteAt b 1).toNat ≤ 7 ∧ (byteAt b 2).toNat ≤ 4 ∧ (byteAt b 3).toNat ≤ 7
            ∧ ((byteAt b 2).toNat ≤ 1 → byteAt b 3 = 0) ∧ b.length = 5 + (byteAt b 4).toNat))
    ∧ ∀ (b : Bytes) (s : State), exec (.hostReserved b) s
        = .next { s with disc := { s.disc with hostMalformed := satInc s.disc.hostMalformed 1 } }

/-! ## The step -/

/-- A step takes the next pending event and runs the instruction its bytes decode to; with none pending it
changes nothing; an uplink datagram of another length is counted (R4, R87, R102, R124, R280, R386, R401). The word of
`withFetchWord` is run at once. That the pending events stand in State is the model's choice (log entry 3); that the
wait with none pending is a step that changes nothing (log entry 1), and that a datagram of another length is counted
without an instruction of its own (log entry 15), are its readings. -/
def Obligations.StepRunsDecoded : Prop :=
  (∀ (s : State) (e : Event) (rest : List Event) (i : Instr), s.pending = e :: rest → decodeEvent e = .ok i →
      step s = exec i { s with pending := rest })
    ∧ (∀ s : State, s.pending = [] → step s = .next s)
    ∧ (∀ (s : State) (e : Event) (rest : List Event), s.pending = e :: rest → e.port = .uld →
        e.bytes.length ≠ 156 → e.bytes.length ≠ 452 →
        step s = .next { s with
          pending := rest, disc := { s.disc with dataMalformed := satInc s.disc.dataMalformed 1 } })
    ∧ ∀ (s : State) (nbits w : Nat) (i : Instr), decodeTableWord nbits w = some i →
        step (s.withFetchWord nbits w) = exec i s

/-! ## The clock unit -/

/-- LINK_OPEN: in CLOSED it starts a session with the whole datapath cleared and the configuration kept, and
elsewhere it is ignored (R36, R37, R141, R403). -/
def Obligations.LinkOpen : Prop :=
  ∀ s : State,
    (s.clk.clkState ≠ .closed → exec .linkOpen s = .next s)
      ∧ (s.clk.clkState = .closed → ∃ t, exec .linkOpen s = .next t
          ∧ t = { s with clk := t.clk, tns := t.tns }
          ∧ t.clk = { clkState := .unsync, armed := false, deadline := 0, lastFn := 0, lastTs := 0, noClk := 0
                      resyncs := 0, fatalCause := 0 }
          ∧ (∀ tn, t.slot tn = { s.slot tn with
              comb := 0, ulLastFn := 0, ulLastValid := false, laneB := DlLane.fresh s.ilv0
              laneC := DlLane.fresh s.ilv0, qBcch := [], qCcch := [], chans := (t.slot tn).chans })
          ∧ ∀ tn ss, t.chan tn ss = { s.chan tn ss with
              active := false, laneM := Lane.fresh s.ilv0, laneA := Lane.fresh s.ilv0, dlFacchOng := false
              ulFacchOng := false, pwrCnt := 0, pwrMin := 0, pwrClk := false, taCnt := 0, taSum := 0, berNum := 0
              berSum := 0, ulFt := 0, ackTa := (s.chan tn ss).rqdTa, qSig := [], qSpeech := [], qAssoc := [] })

/-- LINK_CLOSE: to CLOSED with the timer disarmed and everything else kept; in CLOSED it is ignored (R142). -/
def Obligations.LinkClose : Prop :=
  ∀ s : State,
    (s.clk.clkState = .closed → exec .linkClose s = .next s)
      ∧ (s.clk.clkState ≠ .closed →
          exec .linkClose s = .next { s with clk := { s.clk with clkState := .closed, armed := false } })

/-- ANCHOR, RESYNC and DELAY: the phase each sets; nothing but the clock unit changes (R146, R148, R149). -/
def Obligations.ClockCorrections : Prop :=
  ∀ (s : State) (fn : Fn) (now : Time),
    exec (.anchor fn now) s
        = .next { s with clk := { s.clk with lastFn := fn, lastTs := now, deadline := now + 4615, armed := true } }
      ∧ exec (.resync fn now) s
        = .next { s with clk := { s.clk with
            lastFn := fn, lastTs := now, deadline := now + 4615, armed := true
            resyncs := satInc s.clk.resyncs 1 } }
      ∧ ∀ k : Nat, exec (.delay k now) s
        = .next { s with clk := { s.clk with
            lastTs := now + BitVec.ofNat 64 (k * 4615), deadline := now + BitVec.ofNat 64 ((k + 1) * 4615)
            armed := true } }

/-- CLK_IND: the parse before the state check, each with its counter, and then CLK_APPLY; the first indication of
a session moves the block to SYNC (R145, R147). -/
def Obligations.ClockIndication : Prop :=
  ∀ (s : State) (b : Bytes) (now : Time),
    (parseClk b = none → exec (.clkInd b now) s
        = .next { s with disc := { s.disc with clkMalformed := satInc s.disc.clkMalformed 1 } })
      ∧ ∀ fn, parseClk b = some fn →
        (s.clk.clkState = .closed ∨ s.clk.clkState = .fatal → exec (.clkInd b now) s
            = .next { s with disc := { s.disc with stateIgnored := satInc s.disc.stateIgnored 1 } })
          ∧ (s.clk.clkState = .unsync → exec (.clkInd b now) s
            = .next { s with clk := { s.clk with
                clkState := .sync, lastFn := fn, lastTs := now, deadline := now + 4615, armed := true, noClk := 0 } })
          ∧ (s.clk.clkState = .sync → exec (.clkInd b now) s = exec (.clkApply fn now) s)

/-- CLK_APPLY: the first indication anchors; in SYNC the lag against LAST_FN decides between RESYNC, DELAY and
CATCH_UP, with NO_CLK cleared (R7, R147). -/
def Obligations.ClockApply : Prop :=
  ∀ (s : State) (fn : Fn) (now : Time),
    (s.clk.clkState = .unsync → exec (.clkApply fn now) s
        = .next { s with clk := { s.clk with
            clkState := .sync, lastFn := fn, lastTs := now, deadline := now + 4615, armed := true, noClk := 0 } })
      ∧ (s.clk.clkState = .sync →
          let s0 := { s with clk := { s.clk with noClk := 0 } }
          let d := signedDiff fn s.clk.lastFn
          let m : Int := s.cfg.maxSkew.toNat
          (d > m ∨ d < -m → exec (.clkApply fn now) s
            = .next { s0 with clk := { s0.clk with
                lastFn := fn, lastTs := now, deadline := now + 4615, armed := true
                resyncs := satInc s.clk.resyncs 1 } })
          ∧ (-m ≤ d ∧ d < 0 → exec (.clkApply fn now) s
            = .next { s0 with clk := { s0.clk with
                lastTs := now + BitVec.ofNat 64 (d.natAbs * 4615)
                deadline := now + BitVec.ofNat 64 ((d.natAbs + 1) * 4615), armed := true } })
          ∧ (0 ≤ d ∧ d ≤ m → exec (.clkApply fn now) s = exec (.catchUp fn now) s0))

/-- CATCH_UP: nothing left to produce re-phases the grid; otherwise the next FN is scheduled and the loop goes on;
with lawful parameters it completes, having changed LAST_FN and the phase of the clock unit alone (R150). -/
def Obligations.CatchUp : Prop :=
  ∀ (s : State) (fn : Fn) (now : Time), fn.toNat < 2715648 → s.clk.lastFn.toNat < 2715648 →
    (s.clk.lastFn = fn → exec (.catchUp fn now) s
        = .next { s with clk := { s.clk with lastTs := now, deadline := now + 4615, armed := true } })
      ∧ (s.clk.lastFn ≠ fn → ∀ s1,
          exec (.schedFn (fnInc s.clk.lastFn)) { s with clk := { s.clk with lastFn := fnInc s.clk.lastFn } }
            = .next s1 →
          exec (.catchUp fn now) s = exec (.catchUp fn now) s1)
      ∧ (s.listed.lawful = true → ∃ t, exec (.catchUp fn now) s = .next t
          ∧ t = { s with clk := t.clk, tns := t.tns, out := t.out }
          ∧ t.clk = { s.clk with lastFn := fn, lastTs := now, deadline := now + 4615, armed := true })

/-- TICK: no event unless it is due; then the expirations are counted, and CLOCK_LOSS comes before STALL_LATE
before STALL_BACK before production (R151, R152, R153, R377). That a TICK which is not due changes nothing is the
model's reading of 'no event' (log entry 8). -/
def Obligations.TickOrder : Prop :=
  ∀ (s : State) (now : Time),
    (¬ (s.clk.clkState = .sync ∧ s.clk.armed = true ∧ s.clk.deadline.toNat ≤ now.toNat) →
        exec (.tick now) s = .next s)
      ∧ (s.clk.clkState = .sync ∧ s.clk.armed = true ∧ s.clk.deadline.toNat ≤ now.toNat →
          let k := 1 + (now.toNat - s.clk.deadline.toNat) / 4615
          let s1 := { s with clk := { s.clk with
            deadline := s.clk.deadline + BitVec.ofNat 64 (k * 4615), noClk := satInc s.clk.noClk k } }
          let elapsed : Int := (now.toNat : Int) - s.clk.lastTs.toNat
          let lost := s.cfg.lossFrames.toNat < s1.clk.noClk.toNat
          let late := elapsed > (s.cfg.maxSkew.toNat * 4615 : Nat)
          (lost → exec (.tick now) s = exec (.fatal .clockLoss) s1)
          ∧ (¬ lost ∧ late → exec (.tick now) s = exec (.fatal .stallLate) s1)
          ∧ (¬ lost ∧ ¬ late ∧ elapsed < 0 → exec (.tick now) s = exec (.fatal .stallBack) s1)
          ∧ (¬ lost ∧ ¬ late ∧ 0 ≤ elapsed → exec (.tick now) s = exec (.tickProduce k) s1))

/-- TICK_PRODUCE, and a TICK that reaches it: k frames are scheduled one after the other; LAST_FN advances by k
and the phase accumulator by k periods, whatever `now` is (R143, R152, R154). That TICK_PRODUCE may run on its own
is the model's choice (log entry 9). -/
def Obligations.TickProduces : Prop :=
  (∀ (s : State) (k : Nat), s.clk.lastFn.toNat < 2715648 →
      exec (.tickProduce 0) s = .next s
        ∧ (∀ s1, exec (.schedFn (fnInc s.clk.lastFn)) { s with clk := { s.clk with
              lastFn := fnInc s.clk.lastFn, lastTs := s.clk.lastTs + 4615 } } = .next s1 →
            ∀ t, exec (.tickProduce (k + 1)) s = .next t ↔ exec (.tickProduce k) s1 = .next t)
        ∧ (s.listed.lawful = true → ∃ t, exec (.tickProduce k) s = .next t
            ∧ t = { s with clk := t.clk, tns := t.tns, out := t.out }
            ∧ t.clk = { s.clk with lastFn := BitVec.ofNat 22 ((s.clk.lastFn.toNat + k) % 2715648)
                                   lastTs := s.clk.lastTs + BitVec.ofNat 64 (k * 4615) }))
    ∧ ∀ (s : State) (now : Time), s.clk.lastFn.toNat < 2715648 → s.listed.lawful = true → s.clk.clkState = .sync →
      s.clk.armed = true → s.clk.deadline.toNat ≤ now.toNat → s.clk.lastTs.toNat ≤ now.toNat →
      now.toNat - s.clk.lastTs.toNat ≤ s.cfg.maxSkew.toNat * 4615 →
      let k := 1 + (now.toNat - s.clk.deadline.toNat) / 4615
      s.clk.noClk.toNat + k ≤ s.cfg.lossFrames.toNat →
      ∃ t, exec (.tick now) s = .next t ∧ t = { s with clk := t.clk, tns := t.tns, out := t.out }
        ∧ t.clk = { s.clk with lastFn := BitVec.ofNat 22 ((s.clk.lastFn.toNat + k) % 2715648)
                               lastTs := s.clk.lastTs + BitVec.ofNat 64 (k * 4615)
                               deadline := s.clk.deadline + BitVec.ofNat 64 (k * 4615)
                               noClk := s.clk.noClk + BitVec.ofNat 16 k }

/-- The fatal entry, and the two checks of TICK run on their own: what is written, what is emitted, and that
everything else keeps its value (R108, R152, R153, R371, R372). That the two checks may run on their own, without
the step that follows, is the model's choice (log entry 9). -/
def Obligations.FatalEntry : Prop :=
  (∀ (s : State) (c : FatalCause) (code : Nat),
      (c = .clockLoss ∧ code = 1 ∨ c = .stallLate ∧ code = 2 ∨ c = .stallBack ∧ code = 3) →
      exec (.fatal c) s = .next { s with
        clk := { s.clk with armed := false, clkState := .fatal, fatalCause := BitVec.ofNat 4 code }
        out := s.out ++ [⟨.hosto, [0xF0, BitVec.ofNat 8 code]⟩] })
    ∧ (∀ (s : State) (now : Time), s.clk.deadline.toNat ≤ now.toNat →
        let k := 1 + (now.toNat - s.clk.deadline.toNat) / 4615
        let s1 := { s with clk := { s.clk with
          deadline := s.clk.deadline + BitVec.ofNat 64 (k * 4615), noClk := satInc s.clk.noClk k } }
        (s.cfg.lossFrames.toNat < s1.clk.noClk.toNat → exec (.tickLiveness now) s = exec (.fatal .clockLoss) s1)
        ∧ (s1.clk.noClk.toNat ≤ s.cfg.lossFrames.toNat → exec (.tickLiveness now) s = .next s1))
    ∧ ∀ (s : State) (now : Time),
        let elapsed : Int := (now.toNat : Int) - s.clk.lastTs.toNat
        let late := elapsed > (s.cfg.maxSkew.toNat * 4615 : Nat)
        (late → exec (.tickStall now) s = exec (.fatal .stallLate) s)
        ∧ (elapsed < 0 → exec (.tickStall now) s = exec (.fatal .stallBack) s)
        ∧ (¬ late ∧ 0 ≤ elapsed → exec (.tickStall now) s = .next s)

/-- What moves CLK_STATE: LINK_OPEN out of CLOSED, a valid clock indication out of UNSYNC, a due TICK into FATAL,
LINK_CLOSE to CLOSED; no other event does (R22, R372, R374). -/
def Obligations.ClockStateTransitions : Prop :=
  ∀ (s t : State) (e : Event) (rest : List Event), s.pending = e :: rest → isInputPort e.port = true →
    step s = .next t → t.clk.clkState ≠ s.clk.clkState →
    (s.clk.clkState = .closed ∧ t.clk.clkState = .unsync ∧ decodeEvent e = .ok .linkOpen)
      ∨ (s.clk.clkState = .unsync ∧ t.clk.clkState = .sync ∧ e.port = .clk ∧ (parseClk e.bytes).isSome = true)
      ∨ (s.clk.clkState = .sync ∧ t.clk.clkState = .fatal ∧ e.port = .timer ∧ s.clk.armed = true
          ∧ s.clk.deadline.toNat ≤ e.now.toNat)
      ∨ (t.clk.clkState = .closed ∧ decodeEvent e = .ok .linkClose)

/-- The table of R373: what each event does in FATAL, CFG_RD and CFG_WR doing what they do in every other CLK_STATE;
and nothing is emitted on DLD there. That a TICK which is not
due changes nothing is the model's reading of 'never due' (log entry 8). -/
def Obligations.InFatal : Prop :=
  ∀ s : State, s.clk.clkState = .fatal →
    (∀ b now, (parseClk b).isSome = true → exec (.clkInd b now) s
        = .next { s with disc := { s.disc with stateIgnored := satInc s.disc.stateIgnored 1 } })
      ∧ (∀ b now, parseClk b = none → exec (.clkInd b now) s
        = .next { s with disc := { s.disc with clkMalformed := satInc s.disc.clkMalformed 1 } })
      ∧ (∀ b, (parseUl .gmsk 148 b).isSome = true → exec (.ulBurstNb b) s
        = .next { s with disc := { s.disc with stateIgnored := satInc s.disc.stateIgnored 1 } })
      ∧ (∀ b, parseUl .gmsk 148 b = none → exec (.ulBurstNb b) s
        = .next { s with disc := { s.disc with dataMalformed := satInc s.disc.dataMalformed 1 } })
      ∧ (∀ b, (parseUl .psk8 444 b).isSome = true → exec (.ulBurst8psk b) s
        = .next { s with disc := { s.disc with stateIgnored := satInc s.disc.stateIgnored 1 } })
      ∧ (∀ b, parseUl .psk8 444 b = none → exec (.ulBurst8psk b) s
        = .next { s with disc := { s.disc with dataMalformed := satInc s.disc.dataMalformed 1 } })
      ∧ (∀ now, exec (.tick now) s = .next s)
      ∧ exec .linkOpen s = .next s
      ∧ exec .linkClose s = .next { s with clk := { s.clk with clkState := .closed, armed := false } }
      ∧ (∀ q p, exec (.dlqPush q p) s
        = .next { s with disc := { s.disc with dlqReject := satInc s.disc.dlqReject 1 } })
      ∧ (∀ b, exec (.hostReserved b) s
        = .next { s with disc := { s.disc with hostMalformed := satInc s.disc.hostMalformed 1 } })
      ∧ (∀ a : BitVec 16, a.toNat % 4 = 0 → ∃ v : BitVec 32,
          exec (.cfgRd a) s = .next { s with out := s.out ++ [⟨.hosto, recCfgData a v⟩] }
            ∧ (a = 0x008 → v.toNat = 3 + 4 * s.clk.armed.toNat + 16 * s.clk.fatalCause.toNat)
            ∧ (a ≠ 0x008 → ∀ st : ClkState,
                let u := { s with clk := { s.clk with clkState := st } }
                exec (.cfgRd a) u = .next { u with out := u.out ++ [⟨.hosto, recCfgData a v⟩] }))
      ∧ (∀ (a : BitVec 16) (v : BitVec 32), a.toNat % 4 = 0 → ∃ t, exec (.cfgWr a v) s = .next t
          ∧ t = { s with cfg := t.cfg, tns := t.tns }
          ∧ ∀ st : ClkState, exec (.cfgWr a v) { s with clk := { s.clk with clkState := st } }
              = .next { t with clk := { s.clk with clkState := st } })
      ∧ (∀ (a : BitVec 16) (v : BitVec 32), a.toNat % 4 ≠ 0 →
          let counted := { s with disc := { s.disc with hostMalformed := satInc s.disc.hostMalformed 1 } }
          exec (.cfgRd a) s = .next counted ∧ exec (.cfgWr a v) s = .next counted)
      ∧ ∀ (e : Event) (i : Instr) (t : State), isInputPort e.port = true → decodeEvent e = .ok i → exec i s = .next t →
        t.out.filter (fun o => o.port == .dld) = s.out.filter (fun o => o.port == .dld)

/-- Resync idempotence: a repeated resync input leaves the same LAST_FN and counts once (R156). -/
def Obligations.ResyncIdempotent : Prop :=
  ∀ (s : State) (fn : Fn) (now later : Time), s.clk.clkState = .sync →
    (signedDiff fn s.clk.lastFn).natAbs > s.cfg.maxSkew.toNat →
    ∃ s1, exec (.clkApply fn now) s = .next s1 ∧ s1.clk.lastFn = fn ∧ s1.clk.resyncs = satInc s.clk.resyncs 1
      ∧ exec (.clkApply fn later) s1
        = .next { s1 with clk := { s1.clk with lastTs := later, deadline := later + 4615, armed := true } }

/-- A malformed record of any input port changes its one counter and nothing else (R389). -/
def Obligations.MalformedOnlyCounts : Prop :=
  ∀ (s : State) (e : Event) (rest : List Event), s.pending = e :: rest →
    (e.port = .clk → parseClk e.bytes = none → step s = .next { s with
        pending := rest, disc := { s.disc with clkMalformed := satInc s.disc.clkMalformed 1 } })
      ∧ (e.port = .uld → parseUl .gmsk 148 e.bytes = none → parseUl .psk8 444 e.bytes = none →
        step s = .next { s with
          pending := rest, disc := { s.disc with dataMalformed := satInc s.disc.dataMalformed 1 } })
      ∧ (e.port = .host → decodeHost e.bytes = .hostReserved e.bytes → step s = .next { s with
        pending := rest, disc := { s.disc with hostMalformed := satInc s.disc.hostMalformed 1 } })

/-- The work bound of an event: a CLK_IND calls SCHED_FN at most MAX_SKEW times, and all it does beside those calls
is in the clock unit and the counters; a due TICK that reaches production calls it exactly k times, k at most MAX_SKEW,
and one that is fatal not at all (R26, R159). -/
def Obligations.TickWorkBound : Prop :=
  (∀ (s t : State) (b : Bytes) (now : Time), exec (.clkInd b now) s = .next t →
    ∃ (k : Nat) (s1 u : State), k ≤ s.cfg.maxSkew.toNat ∧ scheduleFrames k s1 = .next u
      ∧ s1 = { s with clk := s1.clk, disc := s1.disc } ∧ s1.clk.lastFn = s.clk.lastFn ∧ t = { u with clk := t.clk })
    ∧ ∀ (s t : State) (now : Time), clockInv s.clk = true → s.clk.lastTs.toNat + 4615 < 2 ^ 64 →
      s.clk.clkState = .sync → s.clk.deadline.toNat ≤ now.toNat → exec (.tick now) s = .next t →
      let k := 1 + (now.toNat - s.clk.deadline.toNat) / 4615
      (t.clk.clkState = .fatal → t = { s with clk := t.clk, out := t.out } ∧ t.clk.lastFn = s.clk.lastFn)
        ∧ (t.clk.clkState ≠ .fatal → k ≤ s.cfg.maxSkew.toNat ∧ ∃ s1 u : State,
            scheduleFrames k s1 = .next u
              ∧ s1 = { s with clk := { s.clk with deadline := s1.clk.deadline, noClk := s1.clk.noClk } }
              ∧ t = { u with clk := { u.clk with lastTs := t.clk.lastTs } })

/-! ## The configuration port -/

/-- CFG_RD of every global register: the address and the value placed as the register's rule shows, appended to
HOSTO, and no other effect (R41 to R57, R84, R116, R181). -/
def Obligations.ReadGlobalRegisters : Prop :=
  ∀ s : State,
    let rd (a v : Nat) : Prop := exec (.cfgRd (BitVec.ofNat 16 a)) s = .next { s with
      out := s.out ++ [⟨.hosto, [0x81, BitVec.ofNat 8 (a / 256), BitVec.ofNat 8 a, BitVec.ofNat 8 (v / 16777216),
        BitVec.ofNat 8 (v / 65536), BitVec.ofNat 8 (v / 256), BitVec.ofNat 8 v]⟩] }
    let state := match s.clk.clkState with | .closed => 0 | .unsync => 1 | .sync => 2 | .fatal => 3
    rd 0x000 1
      ∧ rd 0x004 (s.cfg.pwrLoopEn.toNat + 2 * s.cfg.taLoopEn.toNat + 4 * s.cfg.c0.toNat)
      ∧ rd 0x008 (state + 4 * s.clk.armed.toNat + 16 * s.clk.fatalCause.toNat)
      ∧ rd 0x00C s.clk.lastFn.toNat ∧ rd 0x010 s.clk.noClk.toNat ∧ rd 0x014 s.cfg.maxSkew.toNat
      ∧ rd 0x018 s.cfg.lossFrames.toNat ∧ rd 0x01C 4615 ∧ rd 0x020 s.cfg.txAdv.toNat
      ∧ rd 0x024 s.cfg.ulGapMax.toNat ∧ rd 0x028 s.cfg.pwrTarget.toNat
      ∧ rd 0x02C (s.cfg.raiseMax.toNat + 256 * s.cfg.lowerMax.toNat)
      ∧ rd 0x030 (s.cfg.minDbm.toNat + 256 * s.cfg.maxDbm.toNat) ∧ rd 0x034 s.cfg.bsic.toNat
      ∧ rd 0x038 (s.disc.clkMalformed.toNat + 256 * s.disc.dataMalformed.toNat + 65536 * s.disc.ulReject.toNat
          + 16777216 * s.disc.dlqReject.toNat)
      ∧ rd 0x03C s.clk.resyncs.toNat ∧ rd 0x040 (s.clk.lastTs.toNat % 2 ^ 32) ∧ rd 0x044 (s.clk.lastTs.toNat / 2 ^ 32)
      ∧ rd 0x048 (s.clk.deadline.toNat % 2 ^ 32) ∧ rd 0x04C (s.clk.deadline.toNat / 2 ^ 32)
      ∧ rd 0x050 (s.disc.hostMalformed.toNat + 256 * s.disc.stateIgnored.toNat + 65536 * s.disc.accessFail.toNat)

/-- CFG_RD of every per-timeslot and channel register, and of a reserved address, which reads 0; a misaligned
address answers nothing and is counted (R58 to R71, R83, R181). -/
def Obligations.ReadSlotAndChannelRegisters : Prop :=
  ∀ (s : State) (tn : Tn) (ss : Ss),
    let rd (a v : Nat) : Prop := exec (.cfgRd (BitVec.ofNat 16 a)) s = .next { s with
      out := s.out ++ [⟨.hosto, [0x81, BitVec.ofNat 8 (a / 256), BitVec.ofNat 8 a, BitVec.ofNat 8 (v / 16777216),
        BitVec.ofNat 8 (v / 65536), BitVec.ofNat 8 (v / 256), BitVec.ofNat 8 v]⟩] }
    let t := s.slot tn
    let c := s.chan tn ss
    let chb := 0x1000 + 0x40 * (8 * tn.val + ss.val)
    let amr (i : Fin 3) := c.thr[i].toNat + 65536 * c.hyst[i].toNat
    let lane (l : Lane) := l.ulMask.toNat + 16 * l.ulLastBid.toNat + 256 * l.ulOpen.toNat + 512 * l.dl.valid.toNat
      + 4096 * l.dl.lastBid.toNat + 65536 * l.dlLoss.toNat
    rd (0x100 + 4 * tn.val) (t.comb.toNat + 256 * t.tsc.toNat + 65536 * t.txPower.toNat)
      ∧ rd (0x140 + 4 * tn.val) (t.ulLastFn.toNat + 2147483648 * t.ulLastValid.toNat)
      ∧ rd (0x160 + 4 * tn.val) (t.qBcch.length % 16 + 16 * (t.qCcch.length % 16))
      ∧ rd chb (c.active.toNat + 2 * c.amrEn.toNat + 4 * c.hoArm.toNat + 16 * c.ncodecsM1.toNat)
      ∧ rd (chb + 0x04) (c.dlCmr.toNat + 256 * c.ulFt.toNat + 65536 * c.dlFt.toNat)
      ∧ rd (chb + 0x08) (amr 0) ∧ rd (chb + 0x0C) (amr 1) ∧ rd (chb + 0x10) (amr 2)
      ∧ rd (chb + 0x14) c.msPwr.toNat ∧ rd (chb + 0x18) (c.rqdTa.toNat + 256 * c.ackTa.toNat)
      ∧ rd (chb + 0x1C) (c.pwrCnt.toNat + 256 * c.pwrClk.toNat + 65536 * c.pwrMin.toNat)
      ∧ rd (chb + 0x20) c.taCnt.toNat ∧ rd (chb + 0x24) c.taSum.toNat ∧ rd (chb + 0x28) c.berNum.toNat
      ∧ rd (chb + 0x2C) c.berSum.toNat
      ∧ rd (chb + 0x30) (lane c.laneM + 1024 * c.dlFacchOng.toNat + 2048 * c.ulFacchOng.toNat)
      ∧ rd (chb + 0x34) (lane c.laneA)
      ∧ rd (chb + 0x38) (c.qSig.length % 16 + 16 * (c.qSpeech.length % 16) + 256 * (c.qAssoc.length % 16))
      ∧ (∀ a : Nat, a < 65536 → a % 4 = 0 →
          (0x054 ≤ a ∧ a < 0x100 ∨ 0x120 ≤ a ∧ a < 0x140 ∨ 0x180 ≤ a ∧ a < 0x1000
            ∨ 0x1000 ≤ a ∧ a < 0x2000 ∧ a % 0x40 = 0x3C ∨ 0x2000 ≤ a) → rd a 0)
      ∧ ∀ a : BitVec 16, a.toNat % 4 ≠ 0 → exec (.cfgRd a) s
          = .next { s with disc := { s.disc with hostMalformed := satInc s.disc.hostMalformed 1 } }

/-- CFG_WR changes nothing at a read-only or reserved address, and at a misaligned one only counts
(R71, R83, R186). -/
def Obligations.WriteIgnored : Prop :=
  ∀ (s : State) (a : BitVec 16) (v : BitVec 32),
    (a.toNat % 4 ≠ 0 → exec (.cfgWr a v) s
        = .next { s with disc := { s.disc with hostMalformed := satInc s.disc.hostMalformed 1 } })
      ∧ (a.toNat % 4 = 0 →
          (a.toNat ∈ [0x000, 0x008, 0x00C, 0x010, 0x01C, 0x038, 0x03C, 0x040, 0x044, 0x048, 0x04C, 0x050]
            ∨ 0x054 ≤ a.toNat ∧ a.toNat < 0x100 ∨ 0x120 ≤ a.toNat ∧ a.toNat < 0x1000
            ∨ 0x1000 ≤ a.toNat ∧ a.toNat < 0x2000 ∧ 0x1C ≤ a.toNat % 0x40 ∨ 0x2000 ≤ a.toNat) →
          exec (.cfgWr a v) s = .next s)

/-- CFG_WR of the plain registers: each stores its fields from the written value and changes nothing else
(R42, R46, R47, R49 to R54, R63 to R65, R186). -/
def Obligations.PlainWrites : Prop :=
  ∀ (s : State) (v : BitVec 32),
    let f (w lo : Nat) : BitVec w := BitVec.ofNat w (v.toNat / 2 ^ lo)
    exec (.cfgWr 0x004 v) s = .next { s with cfg := { s.cfg with
          pwrLoopEn := f 1 0 == 1, taLoopEn := f 1 1 == 1, c0 := f 1 2 == 1 } }
      ∧ exec (.cfgWr 0x014 v) s = .next { s with cfg := { s.cfg with maxSkew := f 16 0 } }
      ∧ exec (.cfgWr 0x018 v) s = .next { s with cfg := { s.cfg with lossFrames := f 16 0 } }
      ∧ exec (.cfgWr 0x020 v) s = .next { s with cfg := { s.cfg with txAdv := f 8 0 } }
      ∧ exec (.cfgWr 0x024 v) s = .next { s with cfg := { s.cfg with ulGapMax := f 16 0 } }
      ∧ exec (.cfgWr 0x028 v) s = .next { s with cfg := { s.cfg with pwrTarget := f 8 0 } }
      ∧ exec (.cfgWr 0x02C v) s = .next { s with cfg := { s.cfg with raiseMax := f 8 0, lowerMax := f 8 8 } }
      ∧ exec (.cfgWr 0x030 v) s = .next { s with cfg := { s.cfg with minDbm := f 8 0, maxDbm := f 8 8 } }
      ∧ exec (.cfgWr 0x034 v) s = .next { s with cfg := { s.cfg with bsic := f 6 0 } }
      ∧ ∀ (tn : Tn) (ss : Ss),
          let wr (off : Nat) (c : Channel) : Prop :=
            ∃ t, exec (.cfgWr (BitVec.ofNat 16 (0x1000 + 0x40 * (8 * tn.val + ss.val) + off)) v) s = .next t
              ∧ t = { s with tns := t.tns } ∧ chanOnly tn ss s t ∧ t.chan tn ss = c
          let c := s.chan tn ss
          (∀ i : Fin 3, wr (0x08 + 4 * i.val) { c with
              thr := c.thr.set i.val (f 16 0) i.isLt, hyst := c.hyst.set i.val (f 16 16) i.isLt })
            ∧ wr 0x14 { c with msPwr := f 8 0 } ∧ wr 0x18 { c with rqdTa := f 6 0 }

/-- CFG writes are idempotent: writing a value again changes nothing (R84). -/
def Obligations.WriteIdempotent : Prop :=
  ∀ (s : State) (a : BitVec 16) (v : BitVec 32), a.toNat % 4 = 0 →
    ∃ t, exec (.cfgWr a v) s = .next t ∧ exec (.cfgWr a v) t = .next t

/-- A TN_CFG write: with COMB unchanged only TSC and TX_POWER move; a COMB change takes the whole timeslot down
(R58, R183). -/
def Obligations.TimeslotConfigWrite : Prop :=
  ∀ (s : State) (tn : Tn) (v : BitVec 32), ∃ t,
    exec (.cfgWr (BitVec.ofNat 16 (0x100 + 4 * tn.val)) v) s = .next t ∧ t = { s with tns := t.tns }
      ∧ slotOnly tn s t
      ∧ (v.extractLsb' 0 8 = (s.slot tn).comb →
          t.slot tn = { s.slot tn with tsc := v.extractLsb' 8 3, txPower := v.extractLsb' 16 8 })
      ∧ (v.extractLsb' 0 8 ≠ (s.slot tn).comb →
          t.slot tn = { s.slot tn with
            comb := v.extractLsb' 0 8, tsc := v.extractLsb' 8 3, txPower := v.extractLsb' 16 8, ulLastValid := false
            laneB := DlLane.fresh s.ilv0, laneC := DlLane.fresh s.ilv0, qBcch := [], qCcch := []
            chans := (t.slot tn).chans }
          ∧ ∀ ss, t.chan tn ss = { s.chan tn ss with
              active := false, laneM := Lane.fresh s.ilv0, laneA := Lane.fresh s.ilv0, dlFacchOng := false
              ulFacchOng := false, pwrCnt := 0, pwrMin := 0, pwrClk := false, taCnt := 0, taSum := 0, berNum := 0
              berSum := 0, ulFt := 0, ackTa := (s.chan tn ss).rqdTa, qSig := [], qSpeech := [], qAssoc := [] })

/-- A CH_CTRL write: the four fields, the two modes clamped to the new NCODECS, and what activation and
deactivation reset (R61, R62, R184). -/
def Obligations.ChannelControlWrite : Prop :=
  ∀ (s : State) (tn : Tn) (ss : Ss) (v : BitVec 32), ∃ t,
    exec (.cfgWr (BitVec.ofNat 16 (0x1000 + 0x40 * (8 * tn.val + ss.val))) v) s = .next t
      ∧ t = { s with tns := t.tns } ∧ chanOnly tn ss s t
      ∧ let c := s.chan tn ss
        let n : BitVec 2 := v.extractLsb' 4 2
        let c1 := { c with
          active := v.getLsbD 0, amrEn := v.getLsbD 1, hoArm := v.getLsbD 2, ncodecsM1 := n
          dlCmr := BitVec.ofNat 2 (min c.dlCmr.toNat n.toNat), dlFt := BitVec.ofNat 2 (min c.dlFt.toNat n.toNat) }
        let c2 := { c1 with
          laneM := Lane.fresh s.ilv0, laneA := Lane.fresh s.ilv0, dlFacchOng := false, ulFacchOng := false
          pwrCnt := 0, pwrMin := 0, pwrClk := false, taCnt := 0, taSum := 0, berNum := 0, berSum := 0, ulFt := 0
          ackTa := c.rqdTa }
        (v.getLsbD 0 = c.active → t.chan tn ss = c1)
          ∧ (c.active = false ∧ v.getLsbD 0 = true → t.chan tn ss = c2)
          ∧ (c.active = true ∧ v.getLsbD 0 = false →
              t.chan tn ss = { c2 with qSig := [], qSpeech := [], qAssoc := [] })

/-- A CH_CODEC write stores the lesser of the written mode and NCODECS-1 in DL_CMR and in DL_FT, and leaves UL_FT
(R62, R185). -/
def Obligations.ChannelCodecWrite : Prop :=
  ∀ (s : State) (tn : Tn) (ss : Ss) (v : BitVec 32), ∃ t,
    exec (.cfgWr (BitVec.ofNat 16 (0x1000 + 0x40 * (8 * tn.val + ss.val) + 4)) v) s = .next t
      ∧ t = { s with tns := t.tns } ∧ chanOnly tn ss s t
      ∧ t.chan tn ss = { s.chan tn ss with
          dlCmr := BitVec.ofNat 2 (min (v.toNat % 4) (s.chan tn ss).ncodecsM1.toNat)
          dlFt := BitVec.ofNat 2 (min (v.toNat / 65536 % 4) (s.chan tn ss).ncodecsM1.toNat) }

/-- DLQ_PUSH: the four grounds of rejection, each of which only counts; otherwise the payload goes to the tail of
its queue and nothing else changes (R187, R188). -/
def Obligations.QueuePush : Prop :=
  ∀ (s : State) (q : QueueRef) (p : Bytes),
    let open_ := s.clk.clkState = .unsync ∨ s.clk.clkState = .sync
    let tn := queueTn q
    let active := match q with
      | .bcch _ => true
      | .ccch _ => true
      | .sig tn ss => (s.chan tn ss).active
      | .speech tn ss => (s.chan tn ss).active
      | .assoc tn ss => (s.chan tn ss).active
    let room := (s.queue q).length < s.pqDepth
    (¬ (open_ ∧ (s.slot tn).comb ≠ 0 ∧ active = true ∧ room) → exec (.dlqPush q p) s
        = .next { s with disc := { s.disc with dlqReject := satInc s.disc.dlqReject 1 } })
      ∧ (open_ ∧ (s.slot tn).comb ≠ 0 ∧ active = true ∧ room → ∃ t, exec (.dlqPush q p) s = .next t
          ∧ t = { s with tns := t.tns } ∧ slotOnly tn s t
          ∧ match q with
            | .bcch tn => t.slot tn = { s.slot tn with qBcch := (s.slot tn).qBcch ++ [p] }
            | .ccch tn => t.slot tn = { s.slot tn with qCcch := (s.slot tn).qCcch ++ [p] }
            | .sig tn ss => chanOnly tn ss s t
                ∧ t.chan tn ss = { s.chan tn ss with qSig := (s.chan tn ss).qSig ++ [p] }
            | .speech tn ss => chanOnly tn ss s t
                ∧ t.chan tn ss = { s.chan tn ss with qSpeech := (s.chan tn ss).qSpeech ++ [p] }
            | .assoc tn ss => chanOnly tn ss s t
                ∧ t.chan tn ss = { s.chan tn ss with qAssoc := (s.chan tn ss).qAssoc ++ [p] })

/-! ## The downlink -/

/-- ASM_NB's layout bit by bit, the eight default training sequences, t[0] leftmost, EMIT_DL's datagram, and EMIT_SLOT's
assembly by modulation, with the refusal where ASM_8PSK breaks its contract (R105, R215, R216, R217, R218, R376). That
the default holds where no other table is listed is the model's reading (log entry 19). ASM_NB's answer stands in the model's own field
`ret` (log entry 4). -/
def Obligations.BurstAssembly : Prop :=
  (∀ (s : State) (d t : List Bool), d.length = 116 → t.length = 26 →
      ∃ b, exec (.asmNb d t) s = .next { s with ret := .burst b } ∧ b.length = 148
        ∧ ∀ i : Nat, i < 148 → b[i]? =
            if i < 3 then some false else if i < 61 then d[i - 3]? else if i < 87 then t[i - 61]?
            else if i < 145 then d[i - 29]? else some false)
    ∧ (∀ s : State, s.listed.tsc = none →
        let row (k : BitVec 3) (n : Nat) : Prop :=
          s.tscSeq k = (List.range 26).map fun i => n / 2 ^ (25 - i) % 2 == 1
        row 0 0b00100101110000100010010111 ∧ row 1 0b00101101110111100010110111
          ∧ row 2 0b01000011101110100100001110 ∧ row 3 0b01000111101101000100011110
          ∧ row 4 0b00011010111001000001101011 ∧ row 5 0b01001110101100000100111010
          ∧ row 6 0b10100111110110001010011111 ∧ row 7 0b11101111000100101110111100)
    ∧ ∀ (s : State) (tn : Tn) (sn : Fn),
        let record (bits : List Bool) : Bytes :=
          [BitVec.ofNat 8 tn.val, BitVec.ofNat 8 (sn.toNat / 16777216), BitVec.ofNat 8 (sn.toNat / 65536),
            BitVec.ofNat 8 (sn.toNat / 256), BitVec.ofNat 8 sn.toNat, (s.slot tn).txPower]
            ++ bits.map fun x => if x then 1 else 0
        (∀ bits, exec (.emitDl tn sn bits) s = .next { s with out := s.out ++ [⟨.dld, record bits⟩] })
          ∧ (∀ d t b, (s.tscSeq (s.slot tn).tsc) = t → exec (.asmNb d t) s = .next { s with ret := .burst b } →
              exec (.emitSlot tn sn ⟨.gmsk, d⟩) s = .next { s with out := s.out ++ [⟨.dld, record b⟩] })
          ∧ ∀ d, let b := s.asm8psk d (s.slot tn).tsc
              (b.length = 444 →
                exec (.emitSlot tn sn ⟨.psk8, d⟩) s = .next { s with out := s.out ++ [⟨.dld, record b⟩] })
              ∧ (b.length ≠ 444 → exec (.emitSlot tn sn ⟨.psk8, d⟩) s = .refused .psk8Length)

/-- The handlers without a lane: TX_IDLE sends DUMMY_BURST on C0 and nothing elsewhere, and so does a downlink
RACH position; TX_FCCH and TX_SCH always send; a burst of another length is refused
(R241, R242, R244, R254, R376). -/
def Obligations.HandlersWithoutLane : Prop :=
  ∀ (s : State) (tn : Tn) (sn : Fn),
    let sends (i : Instr) (bits : List Bool) : Prop := exec i s = exec (.emitDl tn sn bits) s
      ∧ exec i s = .next { s with out := s.out ++ [⟨.dld, dldRecord tn sn (s.slot tn).txPower bits⟩] }
    (s.cfg.c0 = false → exec (.txIdle tn sn) s = .next s ∧ exec (.txRachAsIdle tn sn) s = .next s)
      ∧ (s.cfg.c0 = true → s.dummyBurst.length = 148 →
          sends (.txIdle tn sn) s.dummyBurst ∧ sends (.txRachAsIdle tn sn) s.dummyBurst)
      ∧ (s.cfg.c0 = true → s.dummyBurst.length ≠ 148 →
          exec (.txIdle tn sn) s = .refused .dummyLength ∧ exec (.txRachAsIdle tn sn) s = .refused .dummyLength)
      ∧ (s.fcchBurst.length = 148 → sends (.txFcch tn sn) s.fcchBurst)
      ∧ (s.fcchBurst.length ≠ 148 → exec (.txFcch tn sn) s = .refused .fcchLength)
      ∧ ((s.schEnc s.cfg.bsic sn).length = 148 → sends (.txSch tn sn) (s.schEnc s.cfg.bsic sn))
      ∧ ((s.schEnc s.cfg.bsic sn).length ≠ 148 → exec (.txSch tn sn) s = .refused .schLength)

/-- TX_DISPATCH: an inactive dedicated position is idle, and every other position runs the handler its type
selects (R103, R211, R214). -/
def Obligations.DownlinkDispatch : Prop :=
  ∀ (s : State) (tn : Tn) (e : Position) (sn : Fn),
    (e.ct ∈ [Ct.sdcch, .sacch, .tchf, .tchh, .pdtch, .ptcch] → (s.chan tn e.ss).active = false →
        exec (.txDispatch tn e sn) s = exec (.txIdle tn sn) s
          ∧ (s.cfg.c0 = false → exec (.txDispatch tn e sn) s = .next s))
      ∧ (e.ct ∈ [Ct.idle, .fcch, .sch, .bcch, .ccch, .rach] ∨ (s.chan tn e.ss).active = true →
        ∃ h, decodeTx e.ct.code tn e.ss e.bid e.facchOk sn = .ok h ∧ exec (.txDispatch tn e sn) s = exec h s
          ∧ (s.listed.lawful = true → ∃ t, exec (.txDispatch tn e sn) s = .next t
              ∧ t = { s with tns := t.tns, out := t.out } ∧ slotOnly tn s t))

/-- SCHED_FN: the scheduling FN is fn + TX_ADV modulo H, and TN 0 to 7 take their turns in ascending order, an
unconfigured one none; with no timeslot configured it changes nothing (R7, R210). -/
def Obligations.SchedulerOrder : Prop :=
  ∀ (s : State) (fn : Fn),
    exec (.schedFn fn) s
        = ([0, 1, 2, 3, 4, 5, 6, 7] : List Tn).foldl
            (thenTimeslot (BitVec.ofNat 22 ((fn.toNat + s.cfg.txAdv.toNat) % 2715648))) (.next s)
      ∧ ((∀ tn, (s.slot tn).comb = 0) → exec (.schedFn fn) s = .next s)
      ∧ (s.listed.lawful = true → ∃ t, exec (.schedFn fn) s = .next t)

/-- TX_BCCH and TX_CCCH at bid 0, and TX_GROUP for them: the head of the queue, or FILLER, is encoded, the slots
stand in the common lane, the first is sent, and nothing else changes (R240, R243, R245, R246). -/
def Obligations.CommonGroupStart : Prop :=
  ∀ (s : State) (tn : Tn) (ss : Ss) (fok : Bool) (sn : Fn), s.listed.lawful = true →
    let start (ct : LaneCt) (d : DlLane) (q : List Bytes) (slot : DlLane → TnState) : Prop :=
      let r := match q with
        | p :: _ => s.encStep ct .data 0 0 p d.ilv
        | [] => s.encStep ct .fill 0 0 (s.filler ct) d.ilv
      ∃ (t : State) (slots : Vector Slot 4),
        exec (.txGroup ct tn ss 0 fok sn) s = .next t ∧ exec (txHandler ct tn ss 0 fok sn) s = .next t
          ∧ slots.toList = r.slots
          ∧ t = { s with
              tns := t.tns
              out := s.out ++ [⟨.dld, dldRecord tn sn (s.slot tn).txPower (s.assemble tn slots[0])⟩] }
          ∧ slotOnly tn s t
          ∧ t.slot tn = slot { slots := slots, valid := true, lastBid := 0, ilv := r.ilv }
    start .bcch (s.slot tn).laneB (s.slot tn).qBcch
        (fun d => { s.slot tn with laneB := d, qBcch := (s.slot tn).qBcch.tail })
      ∧ start .ccch (s.slot tn).laneC (s.slot tn).qCcch
        (fun d => { s.slot tn with laneC := d, qCcch := (s.slot tn).qCcch.tail })

/-- A group start of a dedicated channel: the selection of its type (queued payload, FACCH stealing, FACCH/H
continuation, first and further misses) is encoded, the G slots stand in its lane, the first is sent, and nothing
outside the channel changes (R213, R243, R247 to R253, R255). -/
def Obligations.DedicatedGroupStart : Prop :=
  ∀ (s : State) (ct : LaneCt) (tn : Tn) (ss : Ss) (fok : Bool) (sn : Fn), s.listed.lawful = true →
    ct ≠ .bcch → ct ≠ .ccch →
    let c := s.chan tn ss
    let d := match ct with | .sacch => c.laneA.dl | .ptcch => c.laneA.dl | _ => c.laneM.dl
    let n := match ct with | .tchh => 2 | _ => 4
    let k := takeFrom s ct fok c
    let r := s.encStep ct k.kind k.mode k.cmr k.payload d.ilv
    ∃ (t : State) (slots : Vector Slot 4),
      exec (.txGroup ct tn ss 0 fok sn) s = .next t ∧ exec (txHandler ct tn ss 0 fok sn) s = .next t
        ∧ slots.toList = r.slots ++ d.slots.toList.drop n
        ∧ t = { s with
            tns := t.tns
            out := s.out ++ [⟨.dld, dldRecord tn sn (s.slot tn).txPower (s.assemble tn slots[0])⟩] }
        ∧ chanOnly tn ss s t
        ∧ t.chan tn ss = k.chan.withDl ct { slots := slots, valid := true, lastBid := 0, ilv := r.ilv }

/-- TX_GROUP and the eight handlers past bid 0: slot bid of the lane is sent when its group was started and bid is
beyond the last one sent, and DL_VALID clears with the last burst; otherwise the position is idle (R243). -/
def Obligations.GroupContinuation : Prop :=
  ∀ (s : State) (ct : LaneCt) (tn : Tn) (ss : Ss) (bid : Bid) (fok : Bool) (sn : Fn), bid ≠ 0 →
    let d := s.dlLane (laneRef ct tn ss)
    let goes := d.valid = true ∧ d.lastBid.toNat < bid.toNat
    (¬ goes → exec (.txGroup ct tn ss bid fok sn) s = exec (.txIdle tn sn) s
        ∧ exec (txHandler ct tn ss bid fok sn) s = exec (.txIdle tn sn) s)
      ∧ (goes → s.listed.lawful = true → ∃ t,
          exec (.txGroup ct tn ss bid fok sn) s = .next t ∧ exec (txHandler ct tn ss bid fok sn) s = .next t
            ∧ t = { s with
                tns := t.tns
                out := s.out ++ [⟨.dld, dldRecord tn sn (s.slot tn).txPower (s.assemble tn (d.slotAt bid))⟩] }
            ∧ slotOnly tn s t
            ∧ let d1 := { d with lastBid := bid, valid := decide (bid.toNat + 1 ≠ ct.toCt.groupLen) }
              match ct with
              | .bcch => t.slot tn = { s.slot tn with laneB := d1 }
              | .ccch => t.slot tn = { s.slot tn with laneC := d1 }
              | _ => chanOnly tn ss s t ∧ t.chan tn ss = (s.chan tn ss).withDl ct d1)

/-- DL_MISS: DL_LOSS counts up, saturating; the first miss and every SACCH miss send FILLER, each further TCH miss
BFI of the downlink mode; nothing else changes (R255). Its answer stands in the model's own field `ret`
(log entry 4). -/
def Obligations.DownlinkMiss : Prop :=
  ∀ (s : State) (ct : MissCt) (tn : Tn) (ss : Ss), s.listed.lawful = true →
    let c := s.chan tn ss
    let loss := satInc (match ct with | .sacch => c.laneA.dlLoss | _ => c.laneM.dlLoss) 1
    ∃ t, exec (.dlMiss ct tn ss) s = .next t ∧ t = { s with tns := t.tns, ret := t.ret } ∧ chanOnly tn ss s t
      ∧ t.chan tn ss = (match ct with | .sacch => c.withLossA loss | _ => c.withLossM loss)
      ∧ (ct = .sacch ∨ loss.toNat ≤ 1 → t.ret = .miss .fill (s.filler ct.toLane))
      ∧ (ct ≠ .sacch ∧ 1 < loss.toNat → t.ret = .miss .bfi (s.bfi ct.toLane c.dlFt))

/-- What one SCHED_FN emits: only DLD records, at most one for each timeslot, in ascending timeslot order, none for
a timeslot with COMB 0, all with the one scheduling FN (R219). -/
def Obligations.SchedulerEmission : Prop :=
  ∀ (s t : State) (fn : Fn), exec (.schedFn fn) s = .next t →
    ∃ recs : List Bytes, t.out = s.out ++ recs.map (fun b => ⟨.dld, b⟩)
      ∧ (recs.map fun b => (byteAt b 0).toNat).Pairwise (· < ·)
      ∧ ∀ b ∈ recs, (be32 b 1).toNat = (fn.toNat + s.cfg.txAdv.toNat) % 2715648
          ∧ ∃ tn : Tn, (byteAt b 0).toNat = tn.val ∧ (s.slot tn).comb ≠ 0
            ∧ ((∀ e, s.position (s.slot tn).comb tn (fnAdd fn s.cfg.txAdv.toNat) .dl = some e → e.ct = .idle) →
                s.cfg.c0 = true)

/-- Scheduler isolation: SCHED_FN writes only the downlink side and DLD, and what it does there depends on no clock
register, counter, earlier output or pending event (R220). -/
def Obligations.SchedulerIsolation : Prop :=
  ∀ (s t : State) (fn : Fn), exec (.schedFn fn) s = .next t →
    t = { s with tns := t.tns, out := t.out }
      ∧ (∀ tn, (t.slot tn).withoutDownlink = (s.slot tn).withoutDownlink)
      ∧ ∃ more : List Output, t.out = s.out ++ more ∧ (∀ o ∈ more, o.port = .dld)
        ∧ ∀ (clk : ClockState) (disc : Discards) (out : List Output) (pending : List Event) (ret : Ret),
            exec (.schedFn fn) { s with clk := clk, disc := disc, out := out, pending := pending, ret := ret }
              = .next { t with clk := clk, disc := disc, out := out ++ more, pending := pending, ret := ret }

/-! ## The uplink -/

/-- UL_BURST in both forms: parse, state and COMB are checked in this order, each with its counter, and then
UL_SEQ runs (R102, R280, R377). -/
def Obligations.UplinkAcceptance : Prop :=
  ∀ (s : State) (b : Bytes) (i : Instr) (p : Option (Tn × Fn × Burst)),
    (i = .ulBurstNb b ∧ p = parseUl .gmsk 148 b ∨ i = .ulBurst8psk b ∧ p = parseUl .psk8 444 b) →
    (p = none → exec i s = .next { s with disc := { s.disc with dataMalformed := satInc s.disc.dataMalformed 1 } })
      ∧ ∀ tn fn x, p = some (tn, fn, x) →
        let closed := s.clk.clkState = .closed ∨ s.clk.clkState = .fatal
        (closed → exec i s = .next { s with disc := { s.disc with stateIgnored := satInc s.disc.stateIgnored 1 } })
          ∧ (¬ closed → (s.slot tn).comb = 0 →
              exec i s = .next { s with disc := { s.disc with ulReject := satInc s.disc.ulReject 1 } })
          ∧ (¬ closed → (s.slot tn).comb ≠ 0 → exec i s = exec (.ulSeq tn fn x) s)

/-- UL_SEQ: a stale burst is counted; a gap up to UL_GAP_MAX is filled first; then UL_LAST moves to the burst's FN
and its own position runs (R281). -/
def Obligations.UplinkSequence : Prop :=
  ∀ (s : State) (tn : Tn) (fn : Fn) (x : Burst),
    let u := s.slot tn
    let d := signedDiff fn u.ulLastFn
    let gap := u.ulLastValid = true ∧ 2 ≤ d ∧ d ≤ s.cfg.ulGapMax.toNat
    (u.ulLastValid = true ∧ d ≤ 0 → exec (.ulSeq tn fn x) s
        = .next { s with disc := { s.disc with ulReject := satInc s.disc.ulReject 1 } })
      ∧ ∀ s1, ¬ (u.ulLastValid = true ∧ d ≤ 0) →
          (gap → exec (.ulGap tn u.ulLastFn fn) s = .next s1) → (¬ gap → s1 = s) →
          ∃ s2, s2 = { s1 with tns := s2.tns } ∧ slotOnly tn s1 s2
            ∧ s2.slot tn = { s1.slot tn with ulLastFn := fn, ulLastValid := true }
            ∧ exec (.ulSeq tn fn x) s = exec (.rxPos tn fn (some x)) s2
            ∧ (s.listed.lawful = true → ∃ t, exec (.ulSeq tn fn x) s = .next t)

/-- UL_GAP: each position after the last burst and before the new one runs as MISSING, in FN order; UL_LAST, the
other timeslots and the discard counters keep their values (R282, R283). -/
def Obligations.UplinkGap : Prop :=
  ∀ (s : State) (tn : Tn) (last fn : Fn), last.toNat < 2715648 → fn.toNat < 2715648 →
    (fn = fnInc last → exec (.ulGap tn last fn) s = .next s)
      ∧ (fn ≠ fnInc last → ∀ s1, exec (.rxPos tn (fnInc last) none) s = .next s1 →
          exec (.ulGap tn last fn) s = exec (.ulGap tn (fnInc last) fn) s1)
      ∧ (s.listed.lawful = true → ∃ t, exec (.ulGap tn last fn) s = .next t
          ∧ t = { s with tns := t.tns, out := t.out } ∧ slotOnly tn s t
          ∧ (t.slot tn).ulLastFn = (s.slot tn).ulLastFn ∧ (t.slot tn).ulLastValid = (s.slot tn).ulLastValid)

/-- RX_POS: a MAP result outside (M3) is refused; 8PSK off PDTCH, a type without uplink and an inactive channel
reject a received burst and ignore a MISSING one; an armed channel's lane-M types go to HO_ACCESS; every other
position runs the handler its type selects. A MISSING position is RX_POS of MISSING (R103, R283, R290). -/
def Obligations.UplinkDispatch : Prop :=
  ∀ (s : State) (tn : Tn) (f : Fn) (x : Option Burst),
    let rejected : Prop := (x = none → exec (.rxPos tn f x) s = .next s)
      ∧ (x ≠ none → exec (.rxPos tn f x) s
          = .next { s with disc := { s.disc with ulReject := satInc s.disc.ulReject 1 } })
    exec (.rxMissing tn f) s = exec (.rxPos tn f none) s
      ∧ (s.position (s.slot tn).comb tn f .ul = none → exec (.rxPos tn f x) s = .refused .mapContract)
      ∧ ∀ e, s.position (s.slot tn).comb tn f .ul = some e →
        let c := s.chan tn e.ss
        let psk := ∃ b, x = some b ∧ b.modulation = .psk8
        (psk ∧ e.ct ≠ .pdtch → rejected)
          ∧ (e.ct ∈ [Ct.idle, .fcch, .sch, .bcch, .ccch] → rejected)
          ∧ (e.ct ∈ [Ct.sdcch, .sacch, .tchf, .tchh, .pdtch, .ptcch] → c.active = false → rejected)
          ∧ (¬ (psk ∧ e.ct ≠ .pdtch) → e.ct ∈ [Ct.sdcch, .tchf, .tchh, .pdtch] → c.active = true →
              c.hoArm = true → exec (.rxPos tn f x) s = exec (.hoAccess tn e.ss f x) s)
          ∧ (¬ (psk ∧ e.ct ≠ .pdtch) →
              (e.ct = .rach ∨ c.active = true ∧ (e.ct = .ptcch ∨ e.ct = .sacch
                ∨ e.ct ∈ [Ct.sdcch, .tchf, .tchh, .pdtch] ∧ c.hoArm = false)) →
              ∃ h, decodeRx e.ct.code tn e.ss e.bid f x = .ok h ∧ exec (.rxPos tn f x) s = exec h s
                ∧ (s.listed.lawful = true → ∃ t, exec (.rxPos tn f x) s = .next t))

/-- RX_LANE and the five handlers: a position whose bid is not beyond the last one first closes the open group; a
closed group is opened; the position is stored, a MISSING one without soft values or mask bit; a received SACCH
burst is sampled by the power and then the TA loop; the last bid closes the group
(R284, R285, R286, R290, R291 to R295). -/
def Obligations.GroupPosition : Prop :=
  ∀ (s : State) (ct : UlCt) (tn : Tn) (ss : Ss) (bid : Bid) (f : Fn) (x : Option Burst),
    let l := s.lane tn ss (ulLaneId ct)
    let both (i : Instr → Prop) : Prop := i (.rxLane ct tn ss bid f x) ∧ i (rxHandler ct tn ss bid f x)
    (l.ulOpen = true ∧ bid.toNat ≤ l.ulLastBid.toNat → ∀ s1, exec (.closeGroup ct tn ss) s = .next s1 →
        both fun i => exec i s = exec i s1)
      ∧ (¬ (l.ulOpen = true ∧ bid.toNat ≤ l.ulLastBid.toNat) →
          let l0 : Lane := if l.ulOpen then l else { l with
            ulOpen := true, ulMask := 0, ulLastBid := 0, ulFirstFn := f
            ulSlots := Vector.replicate 4 (List.replicate 148 0), rssiSum := 0, rssiCnt := 0, toaSum := 0
            toaCnt := 0 }
          ∃ s1 s2 : State, s1 = { s with tns := s1.tns } ∧ chanOnly tn ss s s1
            ∧ s1.chan tn ss = (s.chan tn ss).modLane (ulLaneId ct) (fun _ =>
                match x with
                | none => { l0 with ulLastBid := bid }
                | some b => { l0 with
                    ulLastBid := bid
                    ulSlots := l0.ulSlots.set bid.toNat b.soft (by have := bid.isLt; omega)
                    ulMask := l0.ulMask ||| (1#4 <<< bid.toNat)
                    rssiSum := BitVec.ofInt 32 (l0.rssiSum.toInt + b.rssi), rssiCnt := l0.rssiCnt + 1
                    toaSum := BitVec.ofInt 32 (l0.toaSum.toInt + b.toa), toaCnt := l0.toaCnt + 1 })
            ∧ (match x with
                | some b =>
                  if ct = .sacch then
                    thenExec (exec (.pwrSample tn ss b.rssi) s1) (.taSample tn ss b.toa) = .next s2
                  else s2 = s1
                | none => s2 = s1)
            ∧ (bid.toNat + 1 ≠ ct.toCt.groupLen → both fun i => exec i s = .next s2)
            ∧ (bid.toNat + 1 = ct.toCt.groupLen → both fun i => exec i s = exec (.closeGroup ct tn ss) s2
                ∧ (s.listed.lawful = true → ∃ t, exec i s = .next t)))

/-- CLOSE_GROUP: DEC_STEP gets the group's slots and mask, the uplink mode of a TCH and the continuation flag of a
TCH/H; its interleaver state is kept, the group is closed and reported; a result outside its contract is refused
(R287, R376). -/
def Obligations.GroupClose : Prop :=
  ∀ (s : State) (ct : UlCt) (tn : Tn) (ss : Ss),
    let c := s.chan tn ss
    let l := s.lane tn ss (ulLaneId ct)
    let mode := match ct with | .tchf => c.ulFt | .tchh => c.ulFt | _ => 0
    let cont := decide (ct = .tchh) && c.ulFacchOng
    let g := match ct with | .tchh => 2 | _ => 4
    let r := s.decStep ct mode l.ulIlv (l.ulSlots.toList.take g) (l.ulMask.toNat % 2 ^ g) cont
    let legal := r.kind ∈ [CodecKind.data, .speech, .facch] ∧ r.nerr ≤ r.nbits ∧ (r.ftValid = true → r.ft ≤ 3)
      ∧ (r.taValid = true → r.ta ≤ 63) ∧ r.payload.length ≤ 255
    (¬ legal → exec (.closeGroup ct tn ss) s = .refused .decContract)
      ∧ (legal → ∃ s1 t, exec (.closeGroup ct tn ss) s = .next t ∧ exec (.report ct tn ss r cont) s1 = .next t
          ∧ s1 = { s with tns := s1.tns } ∧ chanOnly tn ss s s1
          ∧ s1.chan tn ss
              = (s.chan tn ss).modLane (ulLaneId ct) (fun l => { l with ulIlv := r.ilv, ulOpen := false }))

/-- REPORT: one MEAS_IND and then one DATA_IND, with the averages, the BER and the outcome of the group: EMPTY
without the first burst, BAD for a FACCH/H continuation or a failed decode, else the decoded block under the code of
its type, for a decoder result within its contract (R376). SDCCH and PDTCH change nothing else
(R117, R118, R288, R289, R291, R295, R300 (b)). -/
def Obligations.GroupReport : Prop :=
  ∀ (s : State) (ct : UlCt) (tn : Tn) (ss : Ss) (r : DecResult) (cont : Bool),
    let l := s.lane tn ss (ulLaneId ct)
    let average (sum : BitVec 32) (n : BitVec 8) : Int := if n = 0 then 0 else sum.toInt.tdiv n.toNat
    let bits : Nat := (l.ulMask.getLsbD 0).toNat + (l.ulMask.getLsbD 1).toNat + (l.ulMask.getLsbD 2).toNat
      + (l.ulMask.getLsbD 3).toNat
    let first := l.ulMask.getLsbD 0
    let ber := if first = false ∨ r.nbits = 0 then 0 else 10000 * r.nerr / r.nbits
    let b8 (n : Nat) : Byte := BitVec.ofNat 8 n
    let code := ct.toCt.code
    let meas := recMeasInd (b8 tn.val) (b8 ss.val) (b8 code) (l.ulFirstFn.setWidth 32) (b8 bits)
      (if first then 0 else 1) (BitVec.ofInt 16 (average l.rssiSum l.rssiCnt)) (BitVec.ofNat 16 ber)
      (BitVec.ofInt 16 (average l.toaSum l.toaCnt))
    let ind (ct' kind : Nat) (p : Bytes) :=
      recDataInd (b8 tn.val) (b8 ss.val) (b8 ct') (b8 kind) (l.ulFirstFn.setWidth 32) p
    let kind := match r.kind with | .speech => 1 | .facch => 2 | _ => 0
    let ct' := if r.kind = .facch ∧ ct = .tchf then 9 else if r.kind = .facch ∧ ct = .tchh then 10 else code
    ∃ (t : State) (data : Bytes) (more : List Output), exec (.report ct tn ss r cont) s = .next t
      ∧ t.out = s.out ++ [⟨.hosto, meas⟩, ⟨.hosto, data⟩] ++ more
      ∧ t = { s with tns := t.tns, out := t.out } ∧ chanOnly tn ss s t
      ∧ (first = false → data = ind code 4 [])
      ∧ (first = true → cont = true ∨ r.ok = false → data = ind code 3 [])
      ∧ (first = true → cont = false → r.ok = true → decOk r = true → data = ind ct' kind r.payload)
      ∧ (ct = .sdcch ∨ ct = .pdtch → more = [] ∧ t.tns = s.tns)

/-- The codec law of R10 taken as the premise: a group whose four or two bursts arrived without errors, decoded in a
state that holds what the encoder held, is reported with the payload that was encoded and a BER of 0 (R10, R287, R288).
Which payloads a type carries is left to the codec (log entry 21). -/
def Obligations.CodecRoundTrip : Prop :=
  ∀ (s : State) (terms : CodecTerms) (ct : UlCt) (kind : CodecKind) (cmr : BitVec 2) (p : Bytes) (dl : Ilv) (tn : Tn)
    (ss : Ss), codecLaw s terms → s.listed.lawful = true → kind ≠ .facchCont →
    let c := s.chan tn ss
    let l := s.lane tn ss (ulLaneId ct)
    let mode := match ct with | .tchf => c.ulFt | .tchh => c.ulFt | _ => 0
    let g := match ct with | .tchh => 2 | _ => 4
    let e := s.encStep (ulLaneCt ct) kind mode cmr p dl
    terms.carries ct kind mode p → terms.holds ct dl l.ulIlv → (ct = .tchh → c.ulFacchOng = false) →
    l.ulMask.toNat % 2 ^ g = 2 ^ g - 1 →
    l.ulSlots.toList.take g = e.slots.map (fun sl => delivered (s.assemble tn sl)) →
    let b8 (n : Nat) : Byte := BitVec.ofNat 8 n
    ∃ (t : State) (n : Byte) (rssi toa : BitVec 16) (code kindCode : Nat) (more : List Output),
      exec (.closeGroup ct tn ss) s = .next t ∧ kindCode ≤ 2
        ∧ t.out = s.out ++ [
            ⟨.hosto, recMeasInd (b8 tn.val) (b8 ss.val) (b8 ct.toCt.code) (l.ulFirstFn.setWidth 32) n 0 rssi 0 toa⟩,
            ⟨.hosto, recDataInd (b8 tn.val) (b8 ss.val) (b8 code) (b8 kindCode) (l.ulFirstFn.setWidth 32) p⟩] ++ more

/-- The closed hooks after the two records: SACCH takes over the acknowledged TA and ticks the power loop's clock at
every close; TCH/F and TCH/H note the indicated mode and give the AMR loop its sample with weight 1 or 2; TCH/H
moves its continuation flag (R292, R293, R294). -/
def Obligations.ReportHooks : Prop :=
  ∀ (s : State) (tn : Tn) (ss : Ss) (r : DecResult) (cont : Bool),
    let outcome (l : Lane) : Closed :=
      if l.ulMask.getLsbD 0 = false then .empty else if cont then .cont else if r.ok = false then .bad else .ok
    let ber (l : Lane) := if l.ulMask.getLsbD 0 = false ∨ r.nbits = 0 then 0 else 10000 * r.nerr / r.nbits
    let reported (s1 : State) : Prop := s1 = { s with tns := s1.tns, out := s1.out }
      ∧ (∃ meas data, s1.out = s.out ++ [⟨.hosto, meas⟩, ⟨.hosto, data⟩]) ∧ chanOnly tn ss s s1
    let c := s.chan tn ss
    let oA := outcome c.laneA
    let oM := outcome c.laneM
    let ft := if (oM = .ok ∨ oM = .bad) ∧ r.ftValid = true then BitVec.ofNat 2 r.ft else c.ulFt
    (∃ s1, reported s1
        ∧ s1.chan tn ss = { c with
            ackTa := if oA = .ok ∧ r.taValid = true then BitVec.ofNat 6 r.ta else c.ackTa }
        ∧ exec (.report .sacch tn ss r cont) s = exec (.pwrClock tn ss) s1)
      ∧ (∃ s1, reported s1 ∧ s1.chan tn ss = { c with ulFt := ft }
        ∧ (oM = .bad ∨ oM = .ok ∧ r.kind ≠ .facch →
            exec (.report .tchf tn ss r cont) s = exec (.amrSample tn ss (ber c.laneM) 1) s1)
        ∧ (¬ (oM = .bad ∨ oM = .ok ∧ r.kind ≠ .facch) → exec (.report .tchf tn ss r cont) s = .next s1))
      ∧ ∃ s1, reported s1
        ∧ s1.chan tn ss = { c with
            ulFt := ft
            ulFacchOng := if oM = .empty ∨ oM = .cont then false
              else if oM = .ok ∧ r.kind = .facch then true else c.ulFacchOng }
        ∧ (oM = .bad ∨ oM = .ok ∧ r.kind ≠ .facch →
            exec (.report .tchh tn ss r cont) s = exec (.amrSample tn ss (ber c.laneM) 2) s1)
        ∧ (¬ (oM = .bad ∨ oM = .ok ∧ r.kind ≠ .facch) → exec (.report .tchh tn ss r cont) s = .next s1)

/-- RX_RACH, RX_PTCCH and HO_ACCESS: a MISSING position does nothing, a failed decode is counted, a decoded access
burst is reported with its TOA, BER and RSSI, and a result outside the contract is refused; RX_IDLE rejects a
received burst (R119, R120, R296 to R299, R376). That the contract is checked before `ok` is read, and that the
decoder gets the first 148 soft values of any burst, are the model's readings (log entries 14 and 23). -/
def Obligations.AccessBursts : Prop :=
  ∀ (s : State) (tn : Tn) (ss : Ss) (f : Fn),
    let access (i : Option Burst → Instr) (ind : Burst → RachResult → Nat → Bytes) : Prop :=
      exec (i none) s = .next s
        ∧ ∀ b : Burst,
          let r := s.rachDec (b.soft.take 148)
          let ber := if r.nbits = 0 then 0 else 10000 * r.nerr / r.nbits
          (r.ra > 2047 ∨ r.nerr > r.nbits → exec (i (some b)) s = .refused .rachContract)
            ∧ (r.ra ≤ 2047 → r.nerr ≤ r.nbits → r.ok = false → exec (i (some b)) s
                = .next { s with disc := { s.disc with accessFail := satInc s.disc.accessFail 1 } })
            ∧ (r.ra ≤ 2047 → r.nerr ≤ r.nbits → r.ok = true → exec (i (some b)) s
                = .next { s with out := s.out ++ [⟨.hosto, ind b r ber⟩] })
    let rach (ct : Byte) (b : Burst) (r : RachResult) (ber : Nat) : Bytes :=
      recRachInd (BitVec.ofNat 8 tn.val) ct (f.setWidth 32) (BitVec.ofNat 16 r.ra) (BitVec.ofInt 16 b.toa)
        (BitVec.ofNat 16 ber) (BitVec.ofInt 16 b.rssi)
    access (.rxRach tn f) (rach 13) ∧ access (.rxPtcch tn ss f) (rach 12)
      ∧ access (.hoAccess tn ss f) (fun b r ber =>
          recHoInd (BitVec.ofNat 8 tn.val) (BitVec.ofNat 8 ss.val) (f.setWidth 32) (BitVec.ofNat 16 r.ra)
            (BitVec.ofInt 16 b.toa) (BitVec.ofNat 16 ber) (BitVec.ofInt 16 b.rssi))
      ∧ exec (.rxIdle none) s = .next s
      ∧ ∀ b, exec (.rxIdle (some b)) s
          = .next { s with disc := { s.disc with ulReject := satInc s.disc.ulReject 1 } }

/-- No uplink rule reads LAST_FN, LAST_TS or DEADLINE: with other values in them an uplink instruction does the
same, and leaves them alone (R300 (d)). -/
def Obligations.UplinkIgnoresTiming : Prop :=
  ∀ (i : Instr) (s t : State), isUplink i = true → exec i s = .next t →
    t.clk = s.clk ∧ t.cfg = s.cfg
      ∧ ∀ (lastFn : Fn) (lastTs deadline : Time),
        let other (u : State) : State :=
          { u with clk := { u.clk with lastFn := lastFn, lastTs := lastTs, deadline := deadline } }
        exec i (other s) = .next (other t)

/-! ## The loops -/

/-- PWR_SAMPLE, PWR_CLOCK and PWR_EVAL: the minimum and the count of the samples, the evaluation at every second
clock, the clamped step, the clears, and LOOP_IND exactly on a change; disabled, the first two do nothing
(R122, R331, R332, R333, R340 (d)). -/
def Obligations.PowerLoop : Prop :=
  ∀ (s : State) (tn : Tn) (ss : Ss),
    let c := s.chan tn ss
    let becomes (t : State) (c' : Channel) : Prop := t = { s with tns := t.tns, out := t.out } ∧ chanOnly tn ss s t
      ∧ t.chan tn ss = c'
    let clamp (x lo hi : Int) : Int := min (max x lo) hi
    let diff : Int := if c.pwrCnt = 0 then s.cfg.raiseMax.toNat else s.cfg.pwrTarget.toInt - c.pwrMin.toInt
    let new := clamp (c.msPwr.toInt + clamp diff (-(s.cfg.lowerMax.toNat : Int)) s.cfg.raiseMax.toNat)
      s.cfg.minDbm.toInt s.cfg.maxDbm.toInt
    (s.cfg.pwrLoopEn = false → (∀ rssi, exec (.pwrSample tn ss rssi) s = .next s)
        ∧ exec (.pwrClock tn ss) s = .next s)
      ∧ (s.cfg.pwrLoopEn = true → ∀ rssi : Int, ∃ t, exec (.pwrSample tn ss rssi) s = .next t ∧ t.out = s.out
          ∧ becomes t { c with
              pwrMin := BitVec.ofInt 16 (if c.pwrCnt = 0 then rssi else min c.pwrMin.toInt rssi)
              pwrCnt := satInc c.pwrCnt 1 })
      ∧ (s.cfg.pwrLoopEn = true → ∃ s1, s1.out = s.out ∧ becomes s1 { c with pwrClk := !c.pwrClk }
          ∧ (c.pwrClk = false → exec (.pwrClock tn ss) s = .next s1)
          ∧ (c.pwrClk = true → exec (.pwrClock tn ss) s = exec (.pwrEval tn ss) s1))
      ∧ ∃ t, exec (.pwrEval tn ss) s = .next t
          ∧ becomes t { c with pwrCnt := 0, pwrMin := 0, msPwr := BitVec.ofInt 8 new }
          ∧ (new = c.msPwr.toInt → t.out = s.out)
          ∧ (new ≠ c.msPwr.toInt → t.out = s.out ++ [⟨.hosto, recLoopInd (BitVec.ofNat 8 tn.val)
              (BitVec.ofNat 8 ss.val) 0 (BitVec.ofInt 16 new)⟩])
          ∧ (s.cfg.minDbm.toInt ≤ s.cfg.maxDbm.toInt →
              s.cfg.minDbm.toInt ≤ (t.chan tn ss).msPwr.toInt
                ∧ (t.chan tn ss).msPwr.toInt ≤ s.cfg.maxDbm.toInt)

/-- TA_SAMPLE and TA_EVAL: a sample counts only when the mobile acknowledged the requested TA, the 16th evaluates,
the mean is compared exactly with 90 % of a symbol, the step is one within 0..63, the accumulator clears, and
LOOP_IND goes out exactly on a change (R122, R334, R336, R340 (c), (d)). -/
def Obligations.TimingAdvanceLoop : Prop :=
  ∀ (s : State) (tn : Tn) (ss : Ss),
    let c := s.chan tn ss
    let becomes (t : State) (c' : Channel) : Prop := t = { s with tns := t.tns, out := t.out } ∧ chanOnly tn ss s t
      ∧ t.chan tn ss = c'
    let new : Nat :=
      if 10 * c.taSum.toInt > 36864 ∧ c.rqdTa.toNat < 63 then c.rqdTa.toNat + 1
      else if 10 * c.taSum.toInt < -36864 ∧ 0 < c.rqdTa.toNat then c.rqdTa.toNat - 1 else c.rqdTa.toNat
    (∀ toa, s.cfg.taLoopEn = false ∨ c.ackTa ≠ c.rqdTa → exec (.taSample tn ss toa) s = .next s)
      ∧ (∀ toa, s.cfg.taLoopEn = true → c.ackTa = c.rqdTa → ∃ s1, s1.out = s.out
          ∧ becomes s1 { c with taSum := BitVec.ofInt 32 (c.taSum.toInt + toa), taCnt := c.taCnt + 1 }
          ∧ (c.taCnt ≠ 15 → exec (.taSample tn ss toa) s = .next s1)
          ∧ (c.taCnt = 15 → exec (.taSample tn ss toa) s = exec (.taEval tn ss) s1))
      ∧ ∃ t, exec (.taEval tn ss) s = .next t
          ∧ becomes t { c with rqdTa := BitVec.ofNat 6 new, taSum := 0, taCnt := 0 }
          ∧ (new = c.rqdTa.toNat → t.out = s.out)
          ∧ (new ≠ c.rqdTa.toNat → t.out = s.out ++ [⟨.hosto, recLoopInd (BitVec.ofNat 8 tn.val)
              (BitVec.ofNat 8 ss.val) 1 (BitVec.ofNat 16 new)⟩])

/-- AMR_SAMPLE and AMR_EVAL: nothing while disabled; out of synchronisation the accumulator clears; otherwise the
weighted sample is added and 48 frames evaluate; degrade before upgrade, one mode, the accumulator clears, and
LOOP_IND goes out exactly on a change (R122, R337, R338, R339, R340 (c), (d)). -/
def Obligations.CodecModeLoop : Prop :=
  ∀ (s : State) (tn : Tn) (ss : Ss),
    let c := s.chan tn ss
    let becomes (t : State) (c' : Channel) : Prop := t = { s with tns := t.tns, out := t.out } ∧ chanOnly tn ss s t
      ∧ t.chan tn ss = c'
    let m := c.dlCmr.toNat
    let thr (i : Nat) : Nat := ((c.thr.toList[i]?).getD 0).toNat
    let hyst (i : Nat) : Nat := ((c.hyst.toList[i]?).getD 0).toNat
    let new : Nat :=
      if 0 < m ∧ thr (m - 1) * c.berNum.toNat < c.berSum.toNat then m - 1
      else if m < c.ncodecsM1.toNat ∧ (c.berSum.toNat : Int) < ((thr m : Int) - hyst m) * c.berNum.toNat then m + 1
      else m
    (∀ ber w, c.amrEn = false → exec (.amrSample tn ss ber w) s = .next s)
      ∧ (∀ ber w, c.amrEn = true → c.ulFt ≠ c.dlCmr → ∃ t, exec (.amrSample tn ss ber w) s = .next t
          ∧ t.out = s.out ∧ becomes t { c with berSum := 0, berNum := 0 })
      ∧ (∀ ber w, c.amrEn = true → c.ulFt = c.dlCmr → ∃ s1, s1.out = s.out
          ∧ becomes s1 { c with berSum := c.berSum + BitVec.ofNat 32 (w * ber), berNum := c.berNum + BitVec.ofNat 8 w }
          ∧ ((c.berNum + BitVec.ofNat 8 w).toNat < 48 → exec (.amrSample tn ss ber w) s = .next s1)
          ∧ (48 ≤ (c.berNum + BitVec.ofNat 8 w).toNat →
              exec (.amrSample tn ss ber w) s = exec (.amrEval tn ss) s1))
      ∧ ∃ t, exec (.amrEval tn ss) s = .next t
          ∧ becomes t { c with dlCmr := BitVec.ofNat 2 new, berSum := 0, berNum := 0 }
          ∧ (new = m → t.out = s.out)
          ∧ (new ≠ m → t.out = s.out ++ [⟨.hosto, recLoopInd (BitVec.ofNat 8 tn.val) (BitVec.ofNat 8 ss.val) 2
              (BitVec.ofNat 16 new)⟩])

/-- Sixteen late samples raise the requested TA by exactly one, clear the accumulator and emit one LOOP_IND, and a
seventeenth sample alone changes no TA (R340 (b)). -/
def Obligations.SixteenLateSamples : Prop :=
  ∀ (s : State) (tn : Tn) (ss : Ss) (toas : List Int) (last : Int), toas.length = 16 →
    (∀ v ∈ toas, 2304 < 10 * v ∧ v ≤ 32767) → s.cfg.taLoopEn = true →
    (s.chan tn ss).ackTa = (s.chan tn ss).rqdTa → (s.chan tn ss).rqdTa.toNat < 63 →
    (s.chan tn ss).taCnt = 0 → (s.chan tn ss).taSum = 0 →
    ∃ t u, toas.foldl (fun o v => thenExec o (.taSample tn ss v)) (.next s) = .next t
      ∧ (t.chan tn ss).rqdTa.toNat = (s.chan tn ss).rqdTa.toNat + 1
      ∧ (t.chan tn ss).taCnt = 0 ∧ (t.chan tn ss).taSum = 0 ∧ t.out.length = s.out.length + 1
      ∧ exec (.taSample tn ss last) t = .next u ∧ (u.chan tn ss).rqdTa = (t.chan tn ss).rqdTa ∧ u.out = t.out

/-! ## Output records -/

/-- The emission of each output record: its bytes in the order its rule gives, appended to HOSTO, and nothing else
(R116 to R120, R122, R123). That the emissions are instructions of their own is the model's choice (log entry 3). -/
def Obligations.OutputRecords : Prop :=
  ∀ s : State,
    let hi (v : BitVec 16) : Byte := v.extractLsb' 8 8
    let lo (v : BitVec 16) : Byte := v.extractLsb' 0 8
    let w (v : BitVec 32) : Bytes := [v.extractLsb' 24 8, v.extractLsb' 16 8, v.extractLsb' 8 8, v.extractLsb' 0 8]
    let emits (i : Instr) (b : Bytes) : Prop := exec i s = .next { s with out := s.out ++ [⟨.hosto, b⟩] }
    (∀ a v, emits (.cfgData a v) ([0x81, hi a, lo a] ++ w v))
      ∧ (∀ tn ss ct kind fn p, emits (.dataInd tn ss ct kind fn p)
          ([0x90, tn, ss, ct, kind] ++ w fn ++ [BitVec.ofNat 8 p.length] ++ p))
      ∧ (∀ tn ss ct fn n fl rssi ber toa, emits (.measInd tn ss ct fn n fl rssi ber toa)
          ([0x91, tn, ss, ct] ++ w fn ++ [n, fl, hi rssi, lo rssi, hi ber, lo ber, hi toa, lo toa]))
      ∧ (∀ tn ct fn ra toa ber rssi, emits (.rachInd tn ct fn ra toa ber rssi)
          ([0x92, tn, ct] ++ w fn ++ [hi ra, lo ra, hi toa, lo toa, hi ber, lo ber, hi rssi, lo rssi]))
      ∧ (∀ tn ss fn ra toa ber rssi, emits (.hoInd tn ss fn ra toa ber rssi)
          ([0x93, tn, ss] ++ w fn ++ [hi ra, lo ra, hi toa, lo toa, hi ber, lo ber, hi rssi, lo rssi]))
      ∧ (∀ tn ss which v, emits (.loopInd tn ss which v) [0x94, tn, ss, which, hi v, lo v])
      ∧ ∀ cause, emits (.fatalInd cause) [0xF0, cause]

/-! ## Reset, invariants and progress -/

/-- The reset values the spec states (R36, R37, R72, R400), and every field of a reset lane (R36); TX_ADV, the power
range and the interleaver states have the values of the OPEN parameters (log entry 12). The pending events, the listed
values and `ret` are the model's own fields (log entries 3, 4, 5). -/
def Obligations.ResetValues : Prop :=
  State.reset.clk = { clkState := .closed, armed := false, lastFn := 0, lastTs := 0, deadline := 0, noClk := 0
                      fatalCause := 0, resyncs := 0 }
    ∧ State.reset.cfg = { pwrLoopEn := true, taLoopEn := true, c0 := false, maxSkew := 50, lossFrames := 400
                          txAdv := Config.txAdvReset, ulGapMax := 50, pwrTarget := BitVec.ofInt 8 (-10)
                          raiseMax := 4, lowerMax := 2, minDbm := Config.bandMinDbm, maxDbm := Config.bandMaxDbm
                          bsic := 0 }
    ∧ (∀ k, State.reset.disc.get k = 0) ∧ State.reset.out = []
    ∧ (∀ tn : Tn, (State.reset.slot tn).comb = 0 ∧ (State.reset.slot tn).tsc = 0
        ∧ (State.reset.slot tn).txPower = 0 ∧ (State.reset.slot tn).ulLastFn = 0
        ∧ (State.reset.slot tn).ulLastValid = false
        ∧ (State.reset.slot tn).laneB = DlLane.fresh Config.ilv0
        ∧ (State.reset.slot tn).laneC = DlLane.fresh Config.ilv0)
    ∧ (∀ q, State.reset.queue q = [])
    ∧ ∀ tn ss, State.reset.chan tn ss =
        { active := false, amrEn := false, hoArm := false, ncodecsM1 := 0, dlCmr := 0, ulFt := 0, dlFt := 0
          thr := #v[0, 0, 0], hyst := #v[0, 0, 0], msPwr := 0, rqdTa := 0, ackTa := 0, pwrCnt := 0, pwrMin := 0
          pwrClk := false, taCnt := 0, taSum := 0, berNum := 0, berSum := 0, laneM := Lane.fresh Config.ilv0
          laneA := Lane.fresh Config.ilv0, dlFacchOng := false, ulFacchOng := false, qSig := [], qSpeech := []
          qAssoc := [] }
    ∧ (∀ ilv : Ilv,
        let idle : Slot := { modulation := .gmsk, bits := List.replicate 116 false }
        let d : DlLane := { slots := #v[idle, idle, idle, idle], valid := false, lastBid := 0, ilv := ilv }
        let still : List Int := List.replicate 148 0
        DlLane.fresh ilv = d
          ∧ Lane.fresh ilv = { dl := d, dlLoss := 0, ulSlots := #v[still, still, still, still], ulMask := 0, ulLastBid := 0
                               ulOpen := false, ulIlv := ilv, ulFirstFn := 0, rssiSum := 0, rssiCnt := 0, toaSum := 0
                               toaCnt := 0 })

/-- The state after reset meets the invariant that every step keeps. -/
def Obligations.ResetMeetsInvariant : Prop := State.reset.inv = true

/-- Every step keeps the invariant of the whole state: the timer relation and the armed rule (R25, R26), the fatal
cause (R28), frame numbers below H (R143), modes within the active set (R62), the loop accumulators within their
bounds (R335, R337), the group accumulators equal to the mask's count (R286), queues within PQ_DEPTH (R32) and only
records of a legal length on the output ports (R126, R256). -/
def Obligations.StepKeepsInvariant : Prop :=
  ∀ s t : State, s.inv = true → step s = .next t → t.inv = true

/-- With lawful parameters no instruction is refused in any state: it answers a next state, which keeps the
parameters and the events still pending, and only appends to the output streams (R20, R94, R376). -/
def Obligations.LawfulParametersProgress : Prop :=
  ∀ (i : Instr) (s : State), s.listed.lawful = true →
    ∃ t, exec i s = .next t ∧ t.listed = s.listed ∧ t.pending = s.pending ∧ s.out <+: t.out
end

