-- ==== Sys2Proof/Laws/Contracts.lean ====
section
/-! SUPPORT. What an operation gets from a parameter whose listed values are lawful: every contract of R376 holds,
so no operation is refused. Each lemma is about one parameter. -/

namespace Sys2Proof.Machine

/-- A value found in an association list is one of its values. -/
theorem lookup_all {α β : Type} [BEq α] [LawfulBEq α] {l : List (α × β)} {a : α} {b : β} {p : β → Bool}
    (hall : l.all (fun e => p e.2) = true) (h : l.lookup a = some b) : p b = true := by
  induction l with
  | nil => simp at h
  | cons e rest ih =>
    simp only [List.all_cons, Bool.and_eq_true] at hall
    simp only [List.lookup] at h
    split at h
    · cases h; exact hall.1
    · exact ih hall.2 h

/-- A listed value, or else the default: both lawful. -/
theorem lookup_getD_lawful {α β : Type} [BEq α] [LawfulBEq α] {l : List (α × β)} (a : α) {d : β} {p : β → Bool}
    (hall : l.all (fun e => p e.2) = true) (hd : p d = true) : p ((l.lookup a).getD d) = true := by
  cases h : l.lookup a with
  | none => exact hd
  | some b => exact lookup_all hall h

/-! ## The opaque constants meet their contracts by type -/

theorem ctOf_code (ct : Ct) : ctOf ct.code = some ct := by cases ct <;> rfl

theorem groupLen_pos (ct : Ct) : 0 < ct.groupLen := by cases ct <;> decide

theorem groupLen_le (ct : Ct) : ct.groupLen ≤ 4 := by cases ct <;> decide

theorem positionOf_mapResult (p : Config.LawfulPosition) : (positionOf (mapResult p)).isSome = true := by
  have h1 : p.bid.toNat % p.ct.groupLen < p.ct.groupLen := Nat.mod_lt _ (groupLen_pos _)
  have h2 : p.facchOk.toNat < 2 := by cases p.facchOk <;> decide
  simp [positionOf, mapResult, ctOf_code, h1, h2]

theorem slotOk_lawfulSlot (l : Config.LawfulSlot) : slotOk (lawfulSlot l) = true := by
  cases l <;> simp [lawfulSlot, slotOk]

theorem encOk_encResult (ct : LaneCt) (r : Config.LawfulEnc) : encOk ct (encResult ct r) = true := by
  have h := groupLen_le ct.toCt
  simp only [encOk, encResult, List.length_map, List.length_take, Vector.length_toList, Bool.and_eq_true, beq_iff_eq,
    List.all_eq_true, List.mem_map]
  refine ⟨by omega, ?_⟩
  rintro x ⟨y, -, rfl⟩
  exact slotOk_lawfulSlot y

theorem lawfulBytes_length (p : Config.LawfulPayload) : (lawfulBytes p).length ≤ 255 := by
  simp [lawfulBytes]

theorem decOk_decResult (r : Config.LawfulDec) : decOk (decResult r) = true := by
  have h1 := r.ft.isLt
  have h2 := r.ta.isLt
  have h3 := lawfulBytes_length r.payload
  have h4 : (lawfulKind r.kind == .data || lawfulKind r.kind == .speech || lawfulKind r.kind == .facch) = true := by
    cases r.kind <;> rfl
  simp only [decOk, decResult, h4, Bool.and_eq_true, Bool.or_eq_true]
  exact ⟨⟨⟨⟨trivial, decide_eq_true (by omega)⟩, .inr (decide_eq_true (by omega))⟩, .inr (decide_eq_true (by omega))⟩,
    decide_eq_true h3⟩

theorem rachOk_rachResult (r : Config.LawfulRach) : rachOk (rachResult r) = true := by
  have h := r.ra.isLt
  simp only [rachOk, rachResult, Bool.and_eq_true]
  exact ⟨decide_eq_true (by omega), decide_eq_true (by omega)⟩

/-! ## The parameters of a state whose listed values are lawful -/

/-- The ten clauses of `Listed.lawful`. -/
structure LawfulParts (l : Listed) : Prop where
  map    : l.map.all (fun e => (positionOf e.2).isSome) = true
  enc    : l.enc.all (fun e => encOk e.1.ct e.2) = true
  dec    : l.dec.all (fun e => decOk e.2) = true
  rach   : l.rach.all (fun e => rachOk e.2) = true
  sch    : l.sch.all (fun e => e.2.length == 148) = true
  fcch   : l.fcch.all (fun b => b.length == 148) = true
  dummy  : l.dummy.all (fun b => b.length == 148) = true
  filler : l.filler.all (fun e => decide (e.2.length ≤ 255)) = true
  bfi    : l.bfi.all (fun e => decide (e.2.length ≤ 255)) = true
  psk8   : l.psk8.all (fun e => e.2.length == 444) = true

theorem lawful_parts {l : Listed} (h : l.lawful = true) : LawfulParts l := by
  simp only [Listed.lawful, Bool.and_eq_true] at h
  obtain ⟨⟨⟨⟨⟨⟨⟨⟨⟨h1, h2⟩, h3⟩, h4⟩, h5⟩, h6⟩, h7⟩, h8⟩, h9⟩, h10⟩ := h
  exact ⟨h1, h2, h3, h4, h5, h6, h7, h8, h9, h10⟩

variable {s : State}

theorem lawful_position (h : s.listed.lawful = true) (comb : BitVec 8) (tn : Tn) (fn : Fn) (dir : Dir) :
    ∃ e, positionOf (s.mapOf comb tn fn dir) = some e := by
  have := lookup_getD_lawful (p := fun m => (positionOf m).isSome) ⟨comb, tn, fn, dir⟩ (lawful_parts h).map
    (positionOf_mapResult (Config.map comb tn fn dir))
  exact Option.isSome_iff_exists.1 this

theorem lawful_encStep (h : s.listed.lawful = true) (ct : LaneCt) (kind : CodecKind) (mode cmr : BitVec 2)
    (p : Bytes) (ilv : Ilv) : encOk ct (s.encStep ct kind mode cmr p ilv) = true := by
  unfold State.encStep
  have hall := (lawful_parts h).enc
  generalize hk : (⟨ct, kind, mode, cmr, p, ilv⟩ : EncKey) = k
  have hct : k.ct = ct := by rw [← hk]
  have hd := encOk_encResult ct (Config.encStep ct kind mode cmr p ilv)
  revert hall
  induction s.listed.enc with
  | nil => intro _; exact hd
  | cons e rest ih =>
    intro hall
    simp only [List.all_cons, Bool.and_eq_true] at hall
    simp only [List.lookup]
    split
    · next heq =>
      have : k = e.1 := by simpa using heq
      rw [← hct, this]; exact hall.1
    · exact ih hall.2

theorem lawful_decStep (h : s.listed.lawful = true) (ct : UlCt) (mode : BitVec 2) (ilv : Ilv)
    (slots : List (List Int)) (mask : Nat) (cont : Bool) : decOk (s.decStep ct mode ilv slots mask cont) = true :=
  lookup_getD_lawful _ (lawful_parts h).dec (decOk_decResult _)

theorem lawful_rachDec (h : s.listed.lawful = true) (sb : List Int) : rachOk (s.rachDec sb) = true :=
  lookup_getD_lawful _ (lawful_parts h).rach (rachOk_rachResult _)

theorem lawful_schEnc (h : s.listed.lawful = true) (b : BitVec 6) (fn : Fn) : (s.schEnc b fn).length = 148 := by
  have := lookup_getD_lawful (p := fun x : List Bool => x.length == 148) (b, fn) (lawful_parts h).sch
    (d := (Config.schEnc b fn).toList) (by simp)
  exact eq_of_beq this

theorem lawful_fcchBurst (h : s.listed.lawful = true) : s.fcchBurst.length = 148 := by
  have := (lawful_parts h).fcch
  unfold State.fcchBurst
  cases hl : s.listed.fcch with
  | none => simp
  | some b => rw [hl] at this; simpa using this

theorem lawful_dummyBurst (h : s.listed.lawful = true) : s.dummyBurst.length = 148 := by
  have := (lawful_parts h).dummy
  unfold State.dummyBurst
  cases hl : s.listed.dummy with
  | none => simp
  | some b => rw [hl] at this; simpa using this

theorem lawful_filler (h : s.listed.lawful = true) (ct : LaneCt) : (s.filler ct).length ≤ 255 := by
  have := lookup_getD_lawful (p := fun x : Bytes => decide (x.length ≤ 255)) ct (lawful_parts h).filler
    (d := lawfulBytes (Config.filler ct)) (by simpa using lawfulBytes_length _)
  exact of_decide_eq_true this

theorem lawful_bfi (h : s.listed.lawful = true) (ct : LaneCt) (m : BitVec 2) : (s.bfi ct m).length ≤ 255 := by
  have := lookup_getD_lawful (p := fun x : Bytes => decide (x.length ≤ 255)) (ct, m) (lawful_parts h).bfi
    (d := lawfulBytes (Config.bfi ct m)) (by simpa using lawfulBytes_length _)
  exact of_decide_eq_true this

theorem lawful_asm8psk (h : s.listed.lawful = true) (b : List Bool) (t : BitVec 3) :
    (s.asm8psk b t).length = 444 := by
  have := lookup_getD_lawful (p := fun x : List Bool => x.length == 444) (b, t) (lawful_parts h).psk8
    (d := (Config.asm8psk b t).toList) (by simp)
  exact eq_of_beq this

/-- Nothing listed is lawful, so the state after reset has lawful parameters. -/
theorem lawful_nothing : Listed.nothing.lawful = true := rfl

end Sys2Proof.Machine
end

