-- ==== Sys2Proof/Laws/State.lean ====
section
/-! SUPPORT. One lemma per field per update of the state, and what a timeslot, channel, lane or queue reads after
an update. -/

namespace Sys2Proof.Machine

/-! ### modSlot -/

@[simp] theorem modSlot_clk (s : State) (tn : Tn) (f : TnState → TnState) : (s.modSlot tn f).clk = s.clk := rfl
@[simp] theorem modSlot_cfg (s : State) (tn : Tn) (f : TnState → TnState) : (s.modSlot tn f).cfg = s.cfg := rfl
@[simp] theorem modSlot_disc (s : State) (tn : Tn) (f : TnState → TnState) : (s.modSlot tn f).disc = s.disc := rfl
@[simp] theorem modSlot_out (s : State) (tn : Tn) (f : TnState → TnState) : (s.modSlot tn f).out = s.out := rfl
@[simp] theorem modSlot_pending (s : State) (tn : Tn) (f : TnState → TnState) : (s.modSlot tn f).pending = s.pending := rfl
@[simp] theorem modSlot_ret (s : State) (tn : Tn) (f : TnState → TnState) : (s.modSlot tn f).ret = s.ret := rfl
@[simp] theorem modSlot_listed (s : State) (tn : Tn) (f : TnState → TnState) : (s.modSlot tn f).listed = s.listed := rfl

/-! ### modChan -/

@[simp] theorem modChan_clk (s : State) (tn : Tn) (ss : Ss) (f : Channel → Channel) : (s.modChan tn ss f).clk = s.clk := rfl
@[simp] theorem modChan_cfg (s : State) (tn : Tn) (ss : Ss) (f : Channel → Channel) : (s.modChan tn ss f).cfg = s.cfg := rfl
@[simp] theorem modChan_disc (s : State) (tn : Tn) (ss : Ss) (f : Channel → Channel) : (s.modChan tn ss f).disc = s.disc := rfl
@[simp] theorem modChan_out (s : State) (tn : Tn) (ss : Ss) (f : Channel → Channel) : (s.modChan tn ss f).out = s.out := rfl
@[simp] theorem modChan_pending (s : State) (tn : Tn) (ss : Ss) (f : Channel → Channel) : (s.modChan tn ss f).pending = s.pending := rfl
@[simp] theorem modChan_ret (s : State) (tn : Tn) (ss : Ss) (f : Channel → Channel) : (s.modChan tn ss f).ret = s.ret := rfl
@[simp] theorem modChan_listed (s : State) (tn : Tn) (ss : Ss) (f : Channel → Channel) : (s.modChan tn ss f).listed = s.listed := rfl

/-! ### modLane -/

@[simp] theorem modLane_clk (s : State) (tn : Tn) (ss : Ss) (id : LaneId) (f : Lane → Lane) : (s.modLane tn ss id f).clk = s.clk := rfl
@[simp] theorem modLane_cfg (s : State) (tn : Tn) (ss : Ss) (id : LaneId) (f : Lane → Lane) : (s.modLane tn ss id f).cfg = s.cfg := rfl
@[simp] theorem modLane_disc (s : State) (tn : Tn) (ss : Ss) (id : LaneId) (f : Lane → Lane) : (s.modLane tn ss id f).disc = s.disc := rfl
@[simp] theorem modLane_out (s : State) (tn : Tn) (ss : Ss) (id : LaneId) (f : Lane → Lane) : (s.modLane tn ss id f).out = s.out := rfl
@[simp] theorem modLane_pending (s : State) (tn : Tn) (ss : Ss) (id : LaneId) (f : Lane → Lane) : (s.modLane tn ss id f).pending = s.pending := rfl
@[simp] theorem modLane_ret (s : State) (tn : Tn) (ss : Ss) (id : LaneId) (f : Lane → Lane) : (s.modLane tn ss id f).ret = s.ret := rfl
@[simp] theorem modLane_listed (s : State) (tn : Tn) (ss : Ss) (id : LaneId) (f : Lane → Lane) : (s.modLane tn ss id f).listed = s.listed := rfl

/-! ### emit -/

@[simp] theorem emit_clk (s : State) (p : OutPort) (b : Bytes) : (s.emit p b).clk = s.clk := rfl
@[simp] theorem emit_cfg (s : State) (p : OutPort) (b : Bytes) : (s.emit p b).cfg = s.cfg := rfl
@[simp] theorem emit_disc (s : State) (p : OutPort) (b : Bytes) : (s.emit p b).disc = s.disc := rfl
@[simp] theorem emit_tns (s : State) (p : OutPort) (b : Bytes) : (s.emit p b).tns = s.tns := rfl
@[simp] theorem emit_pending (s : State) (p : OutPort) (b : Bytes) : (s.emit p b).pending = s.pending := rfl
@[simp] theorem emit_ret (s : State) (p : OutPort) (b : Bytes) : (s.emit p b).ret = s.ret := rfl
@[simp] theorem emit_listed (s : State) (p : OutPort) (b : Bytes) : (s.emit p b).listed = s.listed := rfl

/-! ### discard -/

@[simp] theorem discard_clk (s : State) (k : Counter) : (s.discard k).clk = s.clk := rfl
@[simp] theorem discard_cfg (s : State) (k : Counter) : (s.discard k).cfg = s.cfg := rfl
@[simp] theorem discard_tns (s : State) (k : Counter) : (s.discard k).tns = s.tns := rfl
@[simp] theorem discard_out (s : State) (k : Counter) : (s.discard k).out = s.out := rfl
@[simp] theorem discard_pending (s : State) (k : Counter) : (s.discard k).pending = s.pending := rfl
@[simp] theorem discard_ret (s : State) (k : Counter) : (s.discard k).ret = s.ret := rfl
@[simp] theorem discard_listed (s : State) (k : Counter) : (s.discard k).listed = s.listed := rfl

/-! ### rephase -/

@[simp] theorem rephase_cfg (s : State) (base : Time) : (s.rephase base).cfg = s.cfg := rfl
@[simp] theorem rephase_disc (s : State) (base : Time) : (s.rephase base).disc = s.disc := rfl
@[simp] theorem rephase_tns (s : State) (base : Time) : (s.rephase base).tns = s.tns := rfl
@[simp] theorem rephase_out (s : State) (base : Time) : (s.rephase base).out = s.out := rfl
@[simp] theorem rephase_pending (s : State) (base : Time) : (s.rephase base).pending = s.pending := rfl
@[simp] theorem rephase_ret (s : State) (base : Time) : (s.rephase base).ret = s.ret := rfl
@[simp] theorem rephase_listed (s : State) (base : Time) : (s.rephase base).listed = s.listed := rfl

/-! ### modDl -/

@[simp] theorem modDl_clk (s : State) (l : LaneRef) (f : DlLane → DlLane) : (s.modDl l f).clk = s.clk := by cases l <;> rfl
@[simp] theorem modDl_cfg (s : State) (l : LaneRef) (f : DlLane → DlLane) : (s.modDl l f).cfg = s.cfg := by cases l <;> rfl
@[simp] theorem modDl_disc (s : State) (l : LaneRef) (f : DlLane → DlLane) : (s.modDl l f).disc = s.disc := by cases l <;> rfl
@[simp] theorem modDl_out (s : State) (l : LaneRef) (f : DlLane → DlLane) : (s.modDl l f).out = s.out := by cases l <;> rfl
@[simp] theorem modDl_pending (s : State) (l : LaneRef) (f : DlLane → DlLane) : (s.modDl l f).pending = s.pending := by cases l <;> rfl
@[simp] theorem modDl_ret (s : State) (l : LaneRef) (f : DlLane → DlLane) : (s.modDl l f).ret = s.ret := by cases l <;> rfl
@[simp] theorem modDl_listed (s : State) (l : LaneRef) (f : DlLane → DlLane) : (s.modDl l f).listed = s.listed := by cases l <;> rfl

/-! ### setQueue -/

@[simp] theorem setQueue_clk (s : State) (q : QueueRef) (v : List Bytes) : (s.setQueue q v).clk = s.clk := by cases q <;> rfl
@[simp] theorem setQueue_cfg (s : State) (q : QueueRef) (v : List Bytes) : (s.setQueue q v).cfg = s.cfg := by cases q <;> rfl
@[simp] theorem setQueue_disc (s : State) (q : QueueRef) (v : List Bytes) : (s.setQueue q v).disc = s.disc := by cases q <;> rfl
@[simp] theorem setQueue_out (s : State) (q : QueueRef) (v : List Bytes) : (s.setQueue q v).out = s.out := by cases q <;> rfl
@[simp] theorem setQueue_pending (s : State) (q : QueueRef) (v : List Bytes) : (s.setQueue q v).pending = s.pending := by cases q <;> rfl
@[simp] theorem setQueue_ret (s : State) (q : QueueRef) (v : List Bytes) : (s.setQueue q v).ret = s.ret := by cases q <;> rfl
@[simp] theorem setQueue_listed (s : State) (q : QueueRef) (v : List Bytes) : (s.setQueue q v).listed = s.listed := by cases q <;> rfl

@[simp] theorem emit_out (s : State) (p : OutPort) (b : Bytes) : (s.emit p b).out = s.out ++ [⟨p, b⟩] := rfl
@[simp] theorem discard_disc (s : State) (k : Counter) : (s.discard k).disc = s.disc.bump k := rfl
@[simp] theorem emit_slot (s : State) (p : OutPort) (b : Bytes) (tn : Tn) : (s.emit p b).slot tn = s.slot tn := rfl
@[simp] theorem emit_chan (s : State) (p : OutPort) (b : Bytes) (tn : Tn) (ss : Ss) :
    (s.emit p b).chan tn ss = s.chan tn ss := rfl
@[simp] theorem emit_lane (s : State) (p : OutPort) (b : Bytes) (tn : Tn) (ss : Ss) (id : LaneId) :
    (s.emit p b).lane tn ss id = s.lane tn ss id := rfl
@[simp] theorem emit_dlLane (s : State) (p : OutPort) (b : Bytes) (l : LaneRef) :
    (s.emit p b).dlLane l = s.dlLane l := by cases l <;> rfl
@[simp] theorem emit_queue (s : State) (p : OutPort) (b : Bytes) (q : QueueRef) :
    (s.emit p b).queue q = s.queue q := by cases q <;> rfl
@[simp] theorem discard_slot (s : State) (k : Counter) (tn : Tn) : (s.discard k).slot tn = s.slot tn := rfl
@[simp] theorem discard_chan (s : State) (k : Counter) (tn : Tn) (ss : Ss) :
    (s.discard k).chan tn ss = s.chan tn ss := rfl
@[simp] theorem rephase_lastFn (s : State) (b : Time) : (s.rephase b).clk.lastFn = s.clk.lastFn := rfl
@[simp] theorem rephase_clkState (s : State) (b : Time) : (s.rephase b).clk.clkState = s.clk.clkState := rfl
@[simp] theorem rephase_noClk (s : State) (b : Time) : (s.rephase b).clk.noClk = s.clk.noClk := rfl
@[simp] theorem rephase_fatalCause (s : State) (b : Time) : (s.rephase b).clk.fatalCause = s.clk.fatalCause := rfl
@[simp] theorem rephase_resyncs (s : State) (b : Time) : (s.rephase b).clk.resyncs = s.clk.resyncs := rfl
@[simp] theorem rephase_armed (s : State) (b : Time) : (s.rephase b).clk.armed = true := rfl
@[simp] theorem rephase_lastTs (s : State) (b : Time) : (s.rephase b).clk.lastTs = b := rfl
@[simp] theorem rephase_deadline (s : State) (b : Time) :
    (s.rephase b).clk.deadline = b + BitVec.ofNat 64 frameUs := rfl

/-! ### Timeslots, channels and lanes after an update -/

@[simp] theorem slot_modSlot_same (s : State) (tn : Tn) (f : TnState → TnState) :
    (s.modSlot tn f).slot tn = f (s.slot tn) := by
  simp [State.slot, State.modSlot]

theorem slot_modSlot_ne (s : State) {tn t : Tn} (f : TnState → TnState) (h : t ≠ tn) :
    (s.modSlot tn f).slot t = s.slot t := by
  have h' : tn.val ≠ t.val := fun e => h (Fin.ext e.symm)
  simp [State.slot, State.modSlot, Vector.getElem_set_ne, h']

theorem slot_modSlot (s : State) (tn t : Tn) (f : TnState → TnState) :
    (s.modSlot tn f).slot t = if t = tn then f (s.slot tn) else s.slot t := by
  split
  · next h => subst h; simp
  · next h => exact slot_modSlot_ne s f h

@[simp] theorem chan_modChan_same (s : State) (tn : Tn) (ss : Ss) (f : Channel → Channel) :
    (s.modChan tn ss f).chan tn ss = f (s.chan tn ss) := by
  simp [State.chan, State.modChan]

theorem chan_modChan (s : State) (tn t : Tn) (ss u : Ss) (f : Channel → Channel) :
    (s.modChan tn ss f).chan t u = if t = tn ∧ u = ss then f (s.chan tn ss) else s.chan t u := by
  unfold State.chan State.modChan
  rw [slot_modSlot]
  by_cases ht : t = tn
  · subst ht
    by_cases hu : u = ss
    · subst hu; simp
    · have : ss.val ≠ u.val := fun e => hu (Fin.ext e.symm)
      simp [hu, Vector.getElem_set_ne, this]
  · simp [ht]

theorem chan_modChan_ne (s : State) {tn t : Tn} {ss u : Ss} (f : Channel → Channel) (h : ¬ (t = tn ∧ u = ss)) :
    (s.modChan tn ss f).chan t u = s.chan t u := by
  rw [chan_modChan, if_neg h]

/-- A channel update leaves every timeslot's own registers, common lanes and common queues. -/
theorem slot_modChan (s : State) (tn t : Tn) (ss : Ss) (f : Channel → Channel) :
    (s.modChan tn ss f).slot t =
      if t = tn then { s.slot tn with chans := (s.slot tn).chans.set ss.val (f (s.slot tn).chans[ss.val]) }
      else s.slot t := by
  unfold State.modChan
  rw [slot_modSlot]

@[simp] theorem slot_modChan_comb (s : State) (tn t : Tn) (ss : Ss) (f : Channel → Channel) :
    ((s.modChan tn ss f).slot t).comb = (s.slot t).comb := by
  rw [slot_modChan]; split
  · next h => subst h; rfl
  · rfl

@[simp] theorem slot_modChan_txPower (s : State) (tn t : Tn) (ss : Ss) (f : Channel → Channel) :
    ((s.modChan tn ss f).slot t).txPower = (s.slot t).txPower := by
  rw [slot_modChan]; split
  · next h => subst h; rfl
  · rfl

@[simp] theorem slot_modChan_tsc (s : State) (tn t : Tn) (ss : Ss) (f : Channel → Channel) :
    ((s.modChan tn ss f).slot t).tsc = (s.slot t).tsc := by
  rw [slot_modChan]; split
  · next h => subst h; rfl
  · rfl

@[simp] theorem slot_modChan_ulLastFn (s : State) (tn t : Tn) (ss : Ss) (f : Channel → Channel) :
    ((s.modChan tn ss f).slot t).ulLastFn = (s.slot t).ulLastFn := by
  rw [slot_modChan]; split
  · next h => subst h; rfl
  · rfl

@[simp] theorem slot_modChan_ulLastValid (s : State) (tn t : Tn) (ss : Ss) (f : Channel → Channel) :
    ((s.modChan tn ss f).slot t).ulLastValid = (s.slot t).ulLastValid := by
  rw [slot_modChan]; split
  · next h => subst h; rfl
  · rfl

/-- A change of a slot that leaves its channels leaves every channel. -/
theorem chan_modSlot_of_chans (s : State) (tn t : Tn) (u : Ss) (f : TnState → TnState)
    (h : (f (s.slot tn)).chans = (s.slot tn).chans) : (s.modSlot tn f).chan t u = s.chan t u := by
  by_cases e : t = tn
  · subst e
    simp only [State.chan, slot_modSlot_same, h]
  · simp only [State.chan, slot_modSlot_ne s f e]

@[simp] theorem lane_modLane_same (s : State) (tn : Tn) (ss : Ss) (id : LaneId) (f : Lane → Lane) :
    (s.modLane tn ss id f).lane tn ss id = f (s.lane tn ss id) := by
  cases id <;> simp [State.lane, State.modLane, Channel.lane, Channel.modLane]

@[simp] theorem dlLane_modDl_same (s : State) (l : LaneRef) (f : DlLane → DlLane) :
    (s.modDl l f).dlLane l = f (s.dlLane l) := by
  cases l <;> simp [State.dlLane, State.modDl]

@[simp] theorem queue_setQueue_same (s : State) (q : QueueRef) (v : List Bytes) :
    (s.setQueue q v).queue q = v := by
  cases q <;> simp [State.queue, State.setQueue]

@[simp] theorem mapAll8_get (f : α → α) (v : Vector α 8) (i : Nat) (h : i < 8) : (mapAll8 f v)[i] = f v[i] := by
  have : i = 0 ∨ i = 1 ∨ i = 2 ∨ i = 3 ∨ i = 4 ∨ i = 5 ∨ i = 6 ∨ i = 7 := by omega
  rcases this with rfl | rfl | rfl | rfl | rfl | rfl | rfl | rfl <;> rfl

end Sys2Proof.Machine
end

