-- ==== Sys2Proof/Laws/Downlink.lean ====
section
/-! SUPPORT. What the downlink operations can do: each writes its own timeslot's downlink side, appends DLD records,
and reads nothing of the clock unit, the counters, the earlier output or the pending events. -/

namespace Sys2Proof.Machine

/-! ## Updates composed -/

theorem modSlot_id (s : State) (tn : Tn) : (s.modSlot tn fun t => t) = s := by
  simp [State.modSlot, State.slot]

theorem modChan_self (s : State) (tn : Tn) (ss : Ss) : (s.modChan tn ss fun _ => s.chan tn ss) = s := by
  have : (s.slot tn).chans.set ss.val (s.chan tn ss) = (s.slot tn).chans := by simp [State.chan]
  show { s with tns := s.tns.set tn.val { s.slot tn with chans := (s.slot tn).chans.set ss.val (s.chan tn ss) } } = s
  rw [this]
  exact modSlot_id s tn

theorem modSlot_modSlot (s : State) (tn : Tn) (f g : TnState → TnState) :
    (s.modSlot tn f).modSlot tn g = s.modSlot tn (fun t => g (f t)) := by
  simp [State.modSlot, State.slot]

theorem modChan_modChan (s : State) (tn : Tn) (ss : Ss) (f g : Channel → Channel) :
    (s.modChan tn ss f).modChan tn ss g = s.modChan tn ss (fun c => g (f c)) := by
  simp [State.modChan, modSlot_modSlot]

/-- A channel update in terms of the channel it finds. -/
theorem modChan_const (s : State) (tn : Tn) (ss : Ss) (f : Channel → Channel) :
    s.modChan tn ss f = s.modChan tn ss (fun _ => f (s.chan tn ss)) := by
  simp [State.modChan, State.modSlot, State.chan, State.slot]

theorem slotOnly_refl (tn : Tn) (s : State) : slotOnly tn s s := fun _ _ => rfl

theorem slotOnly_trans {tn : Tn} {s t u : State} (h1 : slotOnly tn s t) (h2 : slotOnly tn t u) :
    slotOnly tn s u := fun v hv => (h2 v hv).trans (h1 v hv)

theorem slotOnly_modSlot (tn : Tn) (s : State) (f : TnState → TnState) : slotOnly tn s (s.modSlot tn f) :=
  fun _ h => slot_modSlot_ne s f h

theorem chanOnly_modChan (tn : Tn) (ss : Ss) (s : State) (f : Channel → Channel) :
    chanOnly tn ss s (s.modChan tn ss f) := by
  refine ⟨fun u h => slot_modSlot_ne s _ h, ?_, fun v h => chan_modChan_ne s f (fun e => h e.2)⟩
  simp [slot_modChan]

theorem chanOnly_refl (tn : Tn) (ss : Ss) (s : State) : chanOnly tn ss s s := ⟨fun _ _ => rfl, rfl, fun _ _ => rfl⟩

theorem chanOnly_trans {tn : Tn} {ss : Ss} {s t u : State} (h1 : chanOnly tn ss s t) (h2 : chanOnly tn ss t u) :
    chanOnly tn ss s u := by
  refine ⟨fun v hv => (h2.1 v hv).trans (h1.1 v hv), ?_, fun v hv => (h2.2.2 v hv).trans (h1.2.2 v hv)⟩
  rw [h2.2.1, h1.2.1]

/-- An update of one channel, of which only the timeslots matter. -/
theorem chanOnly_of_tns {tn : Tn} {ss : Ss} {s t u : State} (h : chanOnly tn ss s t) (e : u.tns = t.tns) :
    chanOnly tn ss s u := by
  have h1 : ∀ v, u.slot v = t.slot v := fun v => by simp [State.slot, e]
  have h2 : ∀ v w, u.chan v w = t.chan v w := fun v w => by simp [State.chan, h1]
  exact ⟨fun v hv => by rw [h1, h.1 v hv], by rw [h1]; exact h.2.1, fun v hv => by rw [h2, h.2.2 v hv]⟩

/-! ## The outside of the downlink -/

/-- What no downlink operation reads. -/
structure Outside where
  clk     : ClockState
  disc    : Discards
  out     : List Output
  pending : List Event
  ret     : Ret

/-- A state with another outside. -/
def State.over (s : State) (o : Outside) : State :=
  { s with clk := o.clk, disc := o.disc, out := o.out, pending := o.pending, ret := o.ret }

/-- The outside with records appended to its output. -/
def Outside.app (o : Outside) (more : List Output) : Outside := { o with out := o.out ++ more }

@[simp] theorem app_nil (o : Outside) : o.app [] = o := by simp [Outside.app]
@[simp] theorem app_app (o : Outside) (a b : List Output) : (o.app a).app b = o.app (a ++ b) := by
  simp [Outside.app]

@[simp] theorem over_slot (s : State) (o : Outside) (tn : Tn) : (s.over o).slot tn = s.slot tn := rfl
@[simp] theorem over_chan (s : State) (o : Outside) (tn : Tn) (ss : Ss) :
    (s.over o).chan tn ss = s.chan tn ss := rfl
@[simp] theorem over_queue (s : State) (o : Outside) (q : QueueRef) : (s.over o).queue q = s.queue q := by
  cases q <;> rfl
@[simp] theorem over_dlLane (s : State) (o : Outside) (l : LaneRef) : (s.over o).dlLane l = s.dlLane l := by
  cases l <;> rfl
@[simp] theorem over_lane (s : State) (o : Outside) (tn : Tn) (ss : Ss) (id : LaneId) :
    (s.over o).lane tn ss id = s.lane tn ss id := rfl
@[simp] theorem over_cfg (s : State) (o : Outside) : (s.over o).cfg = s.cfg := rfl
@[simp] theorem over_modSlot (s : State) (o : Outside) (tn : Tn) (f : TnState → TnState) :
    (s.over o).modSlot tn f = (s.modSlot tn f).over o := rfl
@[simp] theorem over_modChan (s : State) (o : Outside) (tn : Tn) (ss : Ss) (f : Channel → Channel) :
    (s.over o).modChan tn ss f = (s.modChan tn ss f).over o := rfl
@[simp] theorem over_modLane (s : State) (o : Outside) (tn : Tn) (ss : Ss) (id : LaneId) (f : Lane → Lane) :
    (s.over o).modLane tn ss id f = (s.modLane tn ss id f).over o := rfl
@[simp] theorem over_modDl (s : State) (o : Outside) (l : LaneRef) (f : DlLane → DlLane) :
    (s.over o).modDl l f = (s.modDl l f).over o := by cases l <;> rfl
@[simp] theorem over_setQueue (s : State) (o : Outside) (q : QueueRef) (v : List Bytes) :
    (s.over o).setQueue q v = (s.setQueue q v).over o := by cases q <;> rfl
@[simp] theorem over_dropHead (s : State) (o : Outside) (q : QueueRef) :
    (s.over o).dropHead q = (s.dropHead q).over o := by simp [State.dropHead]
@[simp] theorem over_filler (s : State) (o : Outside) (ct : LaneCt) : (s.over o).filler ct = s.filler ct := rfl
@[simp] theorem over_bfi (s : State) (o : Outside) (ct : LaneCt) (m : BitVec 2) :
    (s.over o).bfi ct m = s.bfi ct m := rfl
@[simp] theorem over_encStep (s : State) (o : Outside) (ct : LaneCt) (k : CodecKind) (m c : BitVec 2) (p : Bytes)
    (i : Ilv) : (s.over o).encStep ct k m c p i = s.encStep ct k m c p i := rfl
@[simp] theorem over_mapOf (s : State) (o : Outside) (c : BitVec 8) (tn : Tn) (f : Fn) (d : Dir) :
    (s.over o).mapOf c tn f d = s.mapOf c tn f d := rfl
@[simp] theorem over_dummyBurst (s : State) (o : Outside) : (s.over o).dummyBurst = s.dummyBurst := rfl
@[simp] theorem over_fcchBurst (s : State) (o : Outside) : (s.over o).fcchBurst = s.fcchBurst := rfl
@[simp] theorem over_schEnc (s : State) (o : Outside) (b : BitVec 6) (f : Fn) :
    (s.over o).schEnc b f = s.schEnc b f := rfl
@[simp] theorem over_asm8psk (s : State) (o : Outside) (b : List Bool) (t : BitVec 3) :
    (s.over o).asm8psk b t = s.asm8psk b t := rfl
@[simp] theorem over_tscSeq (s : State) (o : Outside) (t : BitVec 3) : (s.over o).tscSeq t = s.tscSeq t := rfl
@[simp] theorem over_emitDl (s : State) (o : Outside) (tn : Tn) (sn : Fn) (bits : List Bool) :
    emitDl tn sn bits (s.over o)
      = (emitDl tn sn bits s).over (o.app [⟨.dld, dldRecord tn sn (s.slot tn).txPower bits⟩]) := rfl

/-! ## What a downlink operation on timeslot tn can do -/

/-- A DLD record of timeslot tn at scheduling FN sn. -/
def isBurstOf (tn : Tn) (sn : Fn) (o : Output) : Prop := ∃ power bits, o = ⟨.dld, dldRecord tn sn power bits⟩

/-- From s to t a downlink operation on timeslot tn appended `more` and changed only the downlink side of tn. -/
structure DlStep (tn : Tn) (s t : State) (more : List Output) : Prop where
  rest   : t = { s with tns := t.tns, out := s.out ++ more }
  others : slotOnly tn s t
  inside : (t.slot tn).withoutDownlink = (s.slot tn).withoutDownlink

theorem DlStep.refl (tn : Tn) (s : State) : DlStep tn s s [] := ⟨by simp, slotOnly_refl tn s, rfl⟩

theorem DlStep.trans {tn : Tn} {s t u : State} {a b : List Output} (h1 : DlStep tn s t a) (h2 : DlStep tn t u b) :
    DlStep tn s u (a ++ b) := by
  refine ⟨?_, slotOnly_trans h1.others h2.others, h2.inside.trans h1.inside⟩
  rw [h2.rest, h1.rest]; simp

/-- A channel update that keeps what stands outside the downlink. -/
theorem DlStep.ofModChan (tn : Tn) (ss : Ss) (s : State) (f : Channel → Channel)
    (h : ∀ c, (f c).withoutDownlink = c.withoutDownlink) : DlStep tn s (s.modChan tn ss f) [] := by
  refine ⟨by simp [State.modChan, State.modSlot], slotOnly_modSlot tn s _, ?_⟩
  have : ((s.slot tn).chans.set ss.val (f (s.slot tn).chans[ss.val])).map Channel.withoutDownlink
      = (s.slot tn).chans.map Channel.withoutDownlink := by
    apply Vector.ext
    intro i hi
    simp only [Vector.getElem_map, Vector.getElem_set]
    split
    · next e => subst e; exact h _
    · rfl
  rw [slot_modChan, if_pos rfl]
  simp only [TnState.withoutDownlink, this]

/-- A timeslot update that keeps what stands outside the downlink. -/
theorem DlStep.ofModSlot (tn : Tn) (s : State) (f : TnState → TnState)
    (h : ∀ t, (f t).withoutDownlink = t.withoutDownlink) : DlStep tn s (s.modSlot tn f) [] :=
  ⟨by simp [State.modSlot], slotOnly_modSlot tn s f, by rw [slot_modSlot_same]; exact h _⟩

/-- The timeslot of a lane. -/
def LaneRef.tn : LaneRef → Tn
  | .comB tn => tn
  | .comC tn => tn
  | .dedM tn _ => tn
  | .dedA tn _ => tn

theorem DlStep.ofModDl (s : State) (l : LaneRef) (f : DlLane → DlLane) : DlStep l.tn s (s.modDl l f) [] :=
  match l with
  | .comB tn => .ofModSlot tn s (fun t => { t with laneB := f t.laneB }) fun _ => rfl
  | .comC tn => .ofModSlot tn s (fun t => { t with laneC := f t.laneC }) fun _ => rfl
  | .dedM tn ss => .ofModChan tn ss s (fun c => { c with laneM := { c.laneM with dl := f c.laneM.dl } }) fun _ => rfl
  | .dedA tn ss => .ofModChan tn ss s (fun c => { c with laneA := { c.laneA with dl := f c.laneA.dl } }) fun _ => rfl

theorem DlStep.ofSetQueue (s : State) (q : QueueRef) (v : List Bytes) : DlStep (queueTn q) s (s.setQueue q v) [] :=
  match q with
  | .bcch tn => .ofModSlot tn s (fun t => { t with qBcch := v }) fun _ => rfl
  | .ccch tn => .ofModSlot tn s (fun t => { t with qCcch := v }) fun _ => rfl
  | .sig tn ss => .ofModChan tn ss s (fun c => { c with qSig := v }) fun _ => rfl
  | .speech tn ss => .ofModChan tn ss s (fun c => { c with qSpeech := v }) fun _ => rfl
  | .assoc tn ss => .ofModChan tn ss s (fun c => { c with qAssoc := v }) fun _ => rfl

theorem DlStep.ofLoss (s : State) (tn : Tn) (ss : Ss) (id : LaneId) (f : Lane → BitVec 8) :
    DlStep tn s (s.modLane tn ss id fun l => { l with dlLoss := f l }) [] := by
  cases id <;> exact .ofModChan _ _ _ _ fun _ => rfl

theorem DlStep.ofEmit (tn : Tn) (sn : Fn) (bits : List Bool) (s : State) :
    DlStep tn s (emitDl tn sn bits s) [⟨.dld, dldRecord tn sn (s.slot tn).txPower bits⟩] :=
  ⟨rfl, fun _ _ => rfl, rfl⟩

/-- A downlink operation on timeslot tn: what a next state of it can be, that its records are bursts of tn at sn,
at most one of them, and that it reads nothing outside. -/
def DlOp (tn : Tn) (sn : Fn) (f : State → Res State) : Prop :=
  ∀ s t, f s = .ok t → ∃ more, DlStep tn s t more ∧ more.length ≤ 1 ∧ (∀ o ∈ more, isBurstOf tn sn o)
    ∧ ∀ o, f (s.over o) = .ok (t.over (o.app more))

theorem DlOp.pure (tn : Tn) (sn : Fn) : DlOp tn sn fun s => .ok s := by
  intro s t h
  cases h
  exact ⟨[], .refl tn s, by simp, by simp, fun o => by simp⟩

/-- EMIT_DL. -/
theorem emitDl_op (tn : Tn) (sn : Fn) (s : State) (bits : List Bool) :
    ∃ more, DlStep tn s (emitDl tn sn bits s) more ∧ more.length ≤ 1 ∧ (∀ o ∈ more, isBurstOf tn sn o)
      ∧ ∀ o, emitDl tn sn bits (s.over o) = (emitDl tn sn bits s).over (o.app more) := by
  refine ⟨_, .ofEmit tn sn bits s, by simp, ?_, fun o => rfl⟩
  intro o ho
  rw [List.mem_singleton] at ho
  exact ⟨_, _, ho⟩

theorem txIdle_op (tn : Tn) (sn : Fn) : DlOp tn sn (txIdle tn sn) := by
  intro s t h
  unfold txIdle at h
  split at h
  · next hc =>
    split at h
    · next hl =>
      cases h
      obtain ⟨more, h1, h2, h3, h4⟩ := emitDl_op tn sn s s.dummyBurst
      exact ⟨more, h1, h2, h3, fun o => by simp [txIdle, hc, hl, ← h4]⟩
    · cases h
  · next hc => cases h; exact ⟨[], .refl tn s, by simp, by simp, fun o => by simp [txIdle, hc]⟩

theorem txFcch_op (tn : Tn) (sn : Fn) : DlOp tn sn (txFcch tn sn) := by
  intro s t h
  unfold txFcch at h
  split at h
  · next hl =>
    cases h
    obtain ⟨more, h1, h2, h3, h4⟩ := emitDl_op tn sn s s.fcchBurst
    exact ⟨more, h1, h2, h3, fun o => by simp [txFcch, hl, ← h4]⟩
  · cases h

theorem txSch_op (tn : Tn) (sn : Fn) : DlOp tn sn (txSch tn sn) := by
  intro s t h
  unfold txSch at h
  split at h
  · next hl =>
    cases h
    obtain ⟨more, h1, h2, h3, h4⟩ := emitDl_op tn sn s (s.schEnc s.cfg.bsic sn)
    exact ⟨more, h1, h2, h3, fun o => by simp [txSch, hl, ← h4]⟩
  · cases h

theorem asmNb_length {d t : List Bool} (hd : d.length = 116) (ht : t.length = 26) : (asmNb d t).length = 148 := by
  simp [asmNb, hd, ht]

theorem tscSeq_length (s : State) (t : BitVec 3) : (s.tscSeq t).length = 26 := by simp [State.tscSeq]

/-- EMIT_SLOT emits exactly the assembled burst, or refuses an 8PSK assembly of another length. -/
theorem emitSlot_ok {tn : Tn} {sn : Fn} {slot : Slot} {s t : State} (h : emitSlot tn sn slot s = .ok t) :
    t = emitDl tn sn (s.assemble tn slot) s ∧ (slot.modulation = .psk8 → (s.assemble tn slot).length = 444) := by
  unfold emitSlot at h
  unfold State.assemble
  split at h
  · next hm => cases h; simp [hm]
  · next hm =>
    split at h
    · next hl => cases h; simp [hm, hl]
    · cases h

theorem emitSlot_over {tn : Tn} {sn : Fn} {slot : Slot} {s : State} {more : List Output} {t : State}
    (h : emitSlot tn sn slot s = .ok t) (hm : t.out = s.out ++ more) (o : Outside) :
    emitSlot tn sn slot (s.over o) = .ok (t.over (o.app more)) := by
  have hmore : ∀ bits, t = emitDl tn sn bits s → more = [⟨.dld, dldRecord tn sn (s.slot tn).txPower bits⟩] := by
    intro bits e
    rw [e] at hm
    exact (List.append_cancel_left hm).symm
  unfold emitSlot at h ⊢
  split at h
  · cases h
    simp [hmore _ rfl]
  · split at h
    · next hl => cases h; simp [hl, hmore _ rfl]
    · cases h

/-! ## Payload selection -/

/-- A selection: the state it leaves and that it reads nothing outside. -/
def SelOp (tn : Tn) (f : State → Res Selected) : Prop :=
  ∀ s x, f s = .ok x → DlStep tn s x.state [] ∧ ∀ o, f (s.over o) = .ok { x with state := x.state.over o }

theorem popOrFill_op (q : QueueRef) (ct : LaneCt) : SelOp (queueTn q) (popOrFill q ct) := by
  intro s x h
  unfold popOrFill at h
  split at h
  · next p rest hq =>
    cases h
    exact ⟨.ofSetQueue s q rest, fun o => by simp [popOrFill, hq]⟩
  · next hq =>
    simp only [fillerOf] at h
    split at h
    · next f hf =>
      cases h
      split at hf
      · next hl => cases hf; exact ⟨.refl _ s, fun o => by simp [popOrFill, hq, fillerOf, hl]⟩
      · cases hf
    · cases h

theorem dlMiss_op {ct : MissCt} {tn : Tn} {ss : Ss} {s : State} {k : CodecKind} {p : Bytes} {t : State}
    (h : dlMiss ct tn ss s = .ok (k, p, t)) :
    DlStep tn s t [] ∧ t = countLoss (missLane ct) tn ss s
      ∧ ∀ o, dlMiss ct tn ss (s.over o) = .ok (k, p, t.over o) := by
  have hs : DlStep tn s (countLoss (missLane ct) tn ss s) [] := .ofLoss s tn ss _ fun l => satAdd l.dlLoss 1
  have ho : ∀ o, countLoss (missLane ct) tn ss (s.over o) = (countLoss (missLane ct) tn ss s).over o := fun o => rfl
  have hb : ∀ o, needsBfi ct tn ss ((countLoss (missLane ct) tn ss s).over o)
      = needsBfi ct tn ss (countLoss (missLane ct) tn ss s) := fun o => rfl
  simp only [dlMiss] at h
  split at h
  · next hn =>
    split at h
    · next hl =>
      cases h
      exact ⟨hs, rfl, fun o => by simp [dlMiss, ho, hb, hn, hl]⟩
    · cases h
  · next hn =>
    simp only [fillerOf] at h
    split at h
    · next f hf =>
      cases h
      split at hf
      · next hl => cases hf; exact ⟨hs, rfl, fun o => by simp [dlMiss, ho, hb, hn, fillerOf, hl]⟩
      · cases hf
    · cases h

theorem missSel_op (ct : MissCt) (tn : Tn) (ss : Ss) (m c : BitVec 2) : SelOp tn (missSel ct tn ss m c) := by
  intro s x h
  unfold missSel at h
  split at h
  · next k p t hd =>
    cases h
    obtain ⟨h1, -, h3⟩ := dlMiss_op hd
    exact ⟨h1, fun o => by simp [missSel, h3]⟩
  · cases h

theorem dlHit_step (id : LaneId) (tn : Tn) (ss : Ss) (s : State) : DlStep tn s (dlHit id tn ss s) [] :=
  .ofLoss s tn ss id fun _ => 0

theorem dlHit_over (id : LaneId) (tn : Tn) (ss : Ss) (s : State) (o : Outside) :
    dlHit id tn ss (s.over o) = (dlHit id tn ss s).over o := rfl

theorem setDlFacch_step (v : Bool) (tn : Tn) (ss : Ss) (s : State) : DlStep tn s (setDlFacch v tn ss s) [] :=
  .ofModChan _ _ _ _ fun _ => rfl

theorem setDlFacch_over (v : Bool) (tn : Tn) (ss : Ss) (s : State) (o : Outside) :
    setDlFacch v tn ss (s.over o) = (setDlFacch v tn ss s).over o := rfl

theorem selSacch_op (tn : Tn) (ss : Ss) : SelOp tn (selSacch tn ss) := by
  intro s x h
  unfold selSacch at h
  split at h
  · next p rest hq =>
    cases h
    exact ⟨(dlHit_step .a tn ss s).trans (.ofSetQueue _ (.assoc tn ss) rest),
      fun o => by simp [selSacch, hq, dlHit_over]⟩
  · next hq =>
    obtain ⟨h1, h2⟩ := missSel_op .sacch tn ss 0 0 s x h
    exact ⟨h1, fun o => by simp only [selSacch, over_queue, hq]; exact h2 o⟩

theorem selSpeech_op (ct : MissCt) (tn : Tn) (ss : Ss) : SelOp tn (selSpeech ct tn ss) := by
  intro s x h
  unfold selSpeech at h
  simp only at h
  split at h
  · next p rest hq =>
    cases h
    exact ⟨(dlHit_step .m tn ss s).trans (.ofSetQueue _ (.speech tn ss) rest),
      fun o => by simp [selSpeech, hq, dlHit_over]⟩
  · next hq =>
    obtain ⟨h1, h2⟩ := missSel_op ct tn ss _ _ s x h
    exact ⟨h1, fun o => by simp [selSpeech, hq, h2]⟩

theorem dropHead_step (s : State) (q : QueueRef) : DlStep (queueTn q) s (s.dropHead q) [] :=
  .ofSetQueue s q _

theorem selTchf_op (tn : Tn) (ss : Ss) : SelOp tn (selTchf tn ss) := by
  intro s x h
  unfold selTchf at h
  simp only at h
  split at h
  · next p rest hq =>
    cases h
    exact ⟨((DlStep.ofSetQueue s (.sig tn ss) rest).trans (dlHit_step .m tn ss _)).trans
      (dropHead_step _ (.speech tn ss)), fun o => by simp [selTchf, hq, dlHit_over]⟩
  · next hq =>
    obtain ⟨h1, h2⟩ := selSpeech_op .tchf tn ss s x h
    exact ⟨h1, fun o => by simp [selTchf, hq, h2]⟩

theorem selTchh_op (tn : Tn) (ss : Ss) (fok : Bool) : SelOp tn (selTchh tn ss fok) := by
  intro s x h
  unfold selTchh at h
  simp only at h
  split at h
  · next hc =>
    cases h
    exact ⟨((setDlFacch_step false tn ss s).trans (dlHit_step .m tn ss _)).trans
      (dropHead_step _ (.speech tn ss)), fun o => by simp [selTchh, hc, dlHit_over, setDlFacch_over]⟩
  · next hc =>
    split at h
    · next p rest hq =>
      cases h
      exact ⟨(((DlStep.ofSetQueue s (.sig tn ss) rest).trans (setDlFacch_step true tn ss _)).trans
        (dlHit_step .m tn ss _)).trans (dropHead_step _ (.speech tn ss)),
        fun o => by simp [selTchh, hc, hq, dlHit_over, setDlFacch_over]⟩
    · next hn =>
      obtain ⟨h1, h2⟩ := selSpeech_op .tchh tn ss s x h
      refine ⟨h1, fun o => ?_⟩
      simp only [selTchh, over_chan, hc, over_queue]
      simp only [Bool.false_eq_true, if_false]
      exact h2 o

theorem select_op (ct : LaneCt) (tn : Tn) (ss : Ss) (fok : Bool) : SelOp tn (select ct tn ss fok) := by
  cases ct
  · exact popOrFill_op (.bcch tn) .bcch
  · exact popOrFill_op (.ccch tn) .ccch
  · exact popOrFill_op (.sig tn ss) .sdcch
  · exact selSacch_op tn ss
  · exact selTchf_op tn ss
  · exact selTchh_op tn ss fok
  · exact popOrFill_op (.sig tn ss) .pdtch
  · exact popOrFill_op (.assoc tn ss) .ptcch

/-! ## TX_GROUP, the dispatch and SCHED_FN -/

theorem laneRef_tn (ct : LaneCt) (tn : Tn) (ss : Ss) : (laneRef ct tn ss).tn = tn := by cases ct <;> rfl

/-- The group start: the lane gets ENC_STEP's slots, which meet their contract. -/
theorem startGroup_ok {ct : LaneCt} {tn : Tn} {ss : Ss} {x : Selected} {t : State}
    (h : startGroup ct tn ss x = .ok t) :
    let r := x.state.encStep ct x.kind x.mode x.cmr x.payload (x.state.dlLane (laneRef ct tn ss)).ilv
    encOk ct r = true ∧ t = x.state.modDl (laneRef ct tn ss) fun d =>
      { d with ilv := r.ilv, slots := overlaySlots d.slots r.slots, valid := true } := by
  simp only [startGroup] at h
  split at h
  · next he => cases h; exact ⟨he, rfl⟩
  · cases h

theorem startGroup_over {ct : LaneCt} {tn : Tn} {ss : Ss} {x : Selected} {t : State}
    (h : startGroup ct tn ss x = .ok t) (o : Outside) :
    startGroup ct tn ss { x with state := x.state.over o } = .ok (t.over o) := by
  obtain ⟨h1, h2⟩ := startGroup_ok h
  simp only [startGroup, over_dlLane, over_encStep, h1, if_true, over_modDl, h2]

theorem sendSlot_op (ct : LaneCt) (tn : Tn) (ss : Ss) (bid : Bid) (sn : Fn) : DlOp tn sn (sendSlot ct tn ss bid sn) := by
  intro s t h
  simp only [sendSlot] at h
  split at h
  · next u hu =>
    cases h
    have h1 : DlStep tn s (s.modDl (laneRef ct tn ss) fun d => { d with lastBid := bid }) [] := by
      have := DlStep.ofModDl s (laneRef ct tn ss) fun d => { d with lastBid := bid }
      rwa [laneRef_tn] at this
    obtain ⟨h2, -⟩ := emitSlot_ok hu
    have h3 : ∀ v : State, DlStep tn v
        (if bid.toNat + 1 = ct.toCt.groupLen then v.modDl (laneRef ct tn ss) fun d => { d with valid := false }
          else v) [] := by
      intro v
      split
      · have := DlStep.ofModDl v (laneRef ct tn ss) fun d => { d with valid := false }
        rwa [laneRef_tn] at this
      · exact .refl tn v
    obtain ⟨more, e1, e2, e3, -⟩ := emitDl_op tn sn (s.modDl (laneRef ct tn ss) fun d => { d with lastBid := bid })
      ((s.modDl (laneRef ct tn ss) fun d => { d with lastBid := bid }).assemble tn
        (((s.modDl (laneRef ct tn ss) fun d => { d with lastBid := bid }).dlLane (laneRef ct tn ss)).slotAt bid))
    rw [← h2] at e1
    refine ⟨[] ++ more ++ [], (h1.trans e1).trans (h3 u), by simpa using e2, by simpa using e3, fun o => ?_⟩
    have hout : u.out = (s.modDl (laneRef ct tn ss) fun d => { d with lastBid := bid }).out ++ more := by
      rw [e1.rest]
    have := emitSlot_over hu hout o
    simp only [sendSlot, over_modDl, over_dlLane, this]
    simp only [List.nil_append, List.append_nil]
    split <;> simp
  · cases h

theorem txGroup_op (ct : LaneCt) (tn : Tn) (ss : Ss) (bid : Bid) (fok : Bool) (sn : Fn) :
    DlOp tn sn (txGroup ct tn ss bid fok sn) := by
  intro s t h
  unfold txGroup at h
  split at h
  · next hb =>
    split at h
    · next x hx =>
      split at h
      · next u hu =>
        obtain ⟨h1, h1'⟩ := select_op ct tn ss fok s x hx
        obtain ⟨-, h2⟩ := startGroup_ok hu
        have h3 : DlStep tn x.state u [] := by
          have := DlStep.ofModDl x.state (laneRef ct tn ss) fun d =>
            { d with
              ilv := (x.state.encStep ct x.kind x.mode x.cmr x.payload (x.state.dlLane (laneRef ct tn ss)).ilv).ilv
              slots := overlaySlots d.slots
                (x.state.encStep ct x.kind x.mode x.cmr x.payload (x.state.dlLane (laneRef ct tn ss)).ilv).slots
              valid := true }
          rw [laneRef_tn] at this
          rw [h2]; exact this
        obtain ⟨more, h4, h5, h6, h7⟩ := sendSlot_op ct tn ss bid sn u t h
        refine ⟨[] ++ [] ++ more, (h1.trans h3).trans h4, by simpa using h5, by simpa using h6, fun o => ?_⟩
        unfold txGroup
        rw [if_pos hb, h1' o]
        simp only [startGroup_over hu o, h7, List.nil_append]
      · cases h
    · cases h
  · next hb =>
    split at h
    · next hc =>
      obtain ⟨more, h4, h5, h6, h7⟩ := sendSlot_op ct tn ss bid sn s t h
      exact ⟨more, h4, h5, h6, fun o => by simp only [txGroup, hb, if_false, over_dlLane, hc, if_true, h7]⟩
    · next hc =>
      obtain ⟨more, h4, h5, h6, h7⟩ := txIdle_op tn sn s t h
      refine ⟨more, h4, h5, h6, fun o => ?_⟩
      simp only [txGroup, hb, if_false, over_dlLane, hc, h7]
      simp

theorem txDispatch_op (tn : Tn) (e : Position) (sn : Fn) : DlOp tn sn (txDispatch tn e sn) := by
  intro s t h
  by_cases hi : (isDedicated e.ct && !(s.chan tn e.ss).active) = true
  · simp only [txDispatch, hi, if_true] at h
    obtain ⟨more, h1, h2, h3, h4⟩ := txIdle_op tn sn s t h
    exact ⟨more, h1, h2, h3, fun o => by simp only [txDispatch, over_chan, hi, if_true, h4]⟩
  · have key : ∀ f : State → Res State, DlOp tn sn f → (∀ u : State,
        (isDedicated e.ct && !(u.chan tn e.ss).active) = false → txDispatch tn e sn u = f u) →
        ∃ more, DlStep tn s t more ∧ more.length ≤ 1 ∧ (∀ o ∈ more, isBurstOf tn sn o)
          ∧ ∀ o, txDispatch tn e sn (s.over o) = .ok (t.over (o.app more)) := by
      intro f hf he
      have hi' : (isDedicated e.ct && !(s.chan tn e.ss).active) = false := by simpa using hi
      rw [he s hi'] at h
      obtain ⟨more, h1, h2, h3, h4⟩ := hf s t h
      exact ⟨more, h1, h2, h3, fun o => by rw [he (s.over o) hi', h4]⟩
    cases hct : e.ct
    · exact key _ (txIdle_op tn sn) fun u hu => by simp only [txDispatch, hu]; simp [hct]
    · exact key _ (txFcch_op tn sn) fun u hu => by simp only [txDispatch, hu]; simp [hct]
    · exact key _ (txSch_op tn sn) fun u hu => by simp only [txDispatch, hu]; simp [hct]
    · exact key _ (txGroup_op .bcch tn 0 e.bid false sn) fun u hu => by simp only [txDispatch, hu]; simp [hct]
    · exact key _ (txGroup_op .ccch tn 0 e.bid false sn) fun u hu => by simp only [txDispatch, hu]; simp [hct]
    · exact key _ (txGroup_op .sdcch tn e.ss e.bid false sn) fun u hu => by simp only [txDispatch, hu]; simp [hct]
    · exact key _ (txGroup_op .sacch tn e.ss e.bid false sn) fun u hu => by simp only [txDispatch, hu]; simp [hct]
    · exact key _ (txGroup_op .tchf tn e.ss e.bid false sn) fun u hu => by simp only [txDispatch, hu]; simp [hct]
    · exact key _ (txGroup_op .tchh tn e.ss e.bid e.facchOk sn) fun u hu => by simp only [txDispatch, hu]; simp [hct]
    · exact key _ (txGroup_op .pdtch tn e.ss e.bid false sn) fun u hu => by simp only [txDispatch, hu]; simp [hct]
    · exact key _ (txGroup_op .ptcch tn e.ss e.bid false sn) fun u hu => by simp only [txDispatch, hu]; simp [hct]
    · exact key _ (txIdle_op tn sn) fun u hu => by simp only [txDispatch, hu]; simp [hct]

/-- One timeslot's turn in SCHED_FN; with COMB 0 it does nothing. -/
theorem schedTn_op (sn : Fn) (tn : Tn) : DlOp tn sn (schedTn sn tn) := by
  intro s t h
  unfold schedTn at h
  split at h
  · next hc => cases h; exact ⟨[], .refl tn s, by simp, by simp, fun o => by simp [schedTn, hc]⟩
  · next hc =>
    split at h
    · next e he =>
      obtain ⟨more, h1, h2, h3, h4⟩ := txDispatch_op tn e sn s t h
      exact ⟨more, h1, h2, h3, fun o => by simp only [schedTn, over_slot, hc, if_false, over_mapOf, he, h4]⟩
    · cases h

end Sys2Proof.Machine
end

