-- ==== Sys2Proof/Laws/Ops.lean ====
section
/-! SUPPORT. One lemma per small shared operation: outcomes, saturating counters, the signed FN difference, the state
checks, the timer conditions, BER and averages. -/

namespace Sys2Proof.Machine

/-! ## Outcomes -/

theorem outcome_next {r : Res State} {t : State} : r.outcome = .next t ↔ r = .ok t := by
  cases r <;> simp [Res.outcome]

theorem outcome_refused {r : Res State} {e : Refusal} : r.outcome = .refused e ↔ r = .error e := by
  cases r <;> simp [Res.outcome]

theorem outcome_ne_fault {r : Res State} {f : Fault} : r.outcome ≠ .fault f := nomatch f

/-! ## Counters and frame numbers -/

/-- A counter counts up by n and stops at its greatest value. -/
theorem satAdd_eq_satInc {w : Nat} (v : BitVec w) (n : Nat) : satAdd v n = satInc v n := by
  unfold satAdd satInc satTo clampInt
  have h : (0 : Int) ≤ 2 ^ w - 1 := by
    have : (1 : Int) ≤ 2 ^ w := one_le_pow₀ (by norm_num)
    omega
  congr 1
  have e : ((2 : Int) ^ w - 1) = ((2 ^ w - 1 : Nat) : Int) := by
    have : 1 ≤ 2 ^ w := Nat.one_le_two_pow
    push_cast [this]; rfl
  rw [e]; omega

theorem sdiff_eq_signedDiff (a b : Fn) : Machine.sdiff a b = signedDiff a b := by
  unfold Machine.sdiff signedDiff fnDist hyperframe; split <;> omega

theorem fnInc_toNat (f : Fn) : (fnInc f).toNat = (f.toNat + 1) % 2715648 := by
  have : (f.toNat + 1) % 2715648 < 2715648 := Nat.mod_lt _ (by norm_num)
  simp [fnInc, hyperframe]; omega

theorem fnAdd_toNat (f : Fn) (n : Nat) : (fnAdd f n).toNat = (f.toNat + n) % 2715648 := by
  have : (f.toNat + n) % 2715648 < 2715648 := Nat.mod_lt _ (by norm_num)
  simp [fnAdd, hyperframe]; omega

/-! ## Conditions -/

theorem dropsRadio_iff (c : ClockState) : c.dropsRadio = true ↔ c.clkState = .closed ∨ c.clkState = .fatal := by
  simp [ClockState.dropsRadio]

theorem tickDue_iff (c : ClockState) (now : Time) :
    c.tickDue now = true ↔ c.clkState = .sync ∧ c.armed = true ∧ c.deadline.toNat ≤ now.toNat := by
  simp [ClockState.tickDue, and_assoc]

theorem continues_iff (l : DlLane) (bid : Bid) :
    l.continues bid = true ↔ l.valid = true ∧ l.lastBid.toNat < bid.toNat := by
  simp [DlLane.continues]

theorem forcesClose_iff (l : Lane) (bid : Bid) :
    l.forcesClose bid = true ↔ l.ulOpen = true ∧ bid.toNat ≤ l.ulLastBid.toNat := by
  simp [Lane.forcesClose]

/-- The refusals of DEC_STEP's contract, clause by clause (R376). -/
theorem decOk_iff (r : DecResult) : decOk r = true ↔
    r.kind ∈ [CodecKind.data, .speech, .facch] ∧ r.nerr ≤ r.nbits ∧ (r.ftValid = true → r.ft ≤ 3)
      ∧ (r.taValid = true → r.ta ≤ 63) ∧ r.payload.length ≤ 255 := by
  have e : ∀ (b : Bool) (p : Prop), (b = false ∨ p) ↔ (b = true → p) := by intro b p; cases b <;> simp
  simp only [decOk, Bool.and_eq_true, Bool.or_eq_true, decide_eq_true_eq, beq_iff_eq, Bool.not_eq_true', e,
    List.mem_cons, List.not_mem_nil, or_false, and_assoc, or_assoc]

theorem rachOk_iff (r : RachResult) : rachOk r = true ↔ r.ra ≤ 2047 ∧ r.nerr ≤ r.nbits := by
  simp [rachOk]

/-! ## Counters of the discards, and quotients -/

theorem berPpt_eq (e n : Nat) : berPpt e n = if n = 0 then 0 else 10000 * e / n := by
  unfold berPpt tdivOr0
  by_cases h : n = 0
  · simp [h]
  · have h' : (n : Int) ≠ 0 := by exact_mod_cast h
    rw [if_neg h', if_neg h, Int.tdiv_eq_ediv_of_nonneg (by positivity)]
    have : ((10000 : Int) * e) / n = ((10000 * e / n : Nat) : Int) := by push_cast; rfl
    rw [this, Int.toNat_natCast]

theorem tdivOr0_eq (a : Int) (n : BitVec 8) : tdivOr0 a n.toNat = if n = 0 then 0 else a.tdiv n.toNat := by
  unfold tdivOr0
  by_cases h : n = 0
  · simp [h]
  · have : ¬ ((n.toNat : Int) = 0) := by
      intro e
      apply h
      apply BitVec.eq_of_toNat_eq
      simpa using e
    rw [if_neg this, if_neg h]

end Sys2Proof.Machine
end

