-- ==== Sys2Proof/Laws/Lawful.lean ====
section
/-! SUPPORT. What the downlink operations answer when the listed parameter values are lawful: equations without a
refusal, which statements about a group start, a continuation and a miss are assembled from. -/

namespace Sys2Proof.Machine

variable {s : State}
theorem emitSlot_total (h : s.listed.lawful = true) (tn : Tn) (sn : Fn) (slot : Slot) :
    emitSlot tn sn slot s = .ok (emitDl tn sn (s.assemble tn slot) s) := by
  unfold emitSlot State.assemble
  cases slot.modulation <;> simp [lawful_asm8psk h]

theorem modDl_modDl (s : State) (l : LaneRef) (f g : DlLane → DlLane) : (s.modDl l f).modDl l g = s.modDl l (fun d => g (f d)) := by
  cases l <;> simp [State.modDl, modSlot_modSlot, modChan_modChan]
theorem txPower_modDl (s : State) (l : LaneRef) (f : DlLane → DlLane) (tn : Tn) : ((s.modDl l f).slot tn).txPower = (s.slot tn).txPower := by
  cases l <;> simp [State.modDl] <;> rw [slot_modSlot] <;> split <;> simp_all
theorem tsc_modDl (s : State) (l : LaneRef) (f : DlLane → DlLane) (tn : Tn) : ((s.modDl l f).slot tn).tsc = (s.slot tn).tsc := by
  cases l <;> simp [State.modDl] <;> rw [slot_modSlot] <;> split <;> simp_all
theorem assemble_modDl (s : State) (l : LaneRef) (f : DlLane → DlLane) (tn : Tn) (slot : Slot) : (s.modDl l f).assemble tn slot = s.assemble tn slot := by
  simp only [State.assemble, tsc_modDl]
  cases slot.modulation <;> simp [State.tscSeq, State.asm8psk]
theorem emitDl_modDl (s : State) (l : LaneRef) (f : DlLane → DlLane) (tn : Tn) (sn : Fn) (b : List Bool) :
   (emitDl tn sn b s).modDl l f = emitDl tn sn b (s.modDl l f) := by
  cases l <;> simp only [emitDl, txPower_modDl] <;> simp [State.modDl, State.modSlot, State.modChan, State.emit, State.slot]

/-- The last three statements of TX_GROUP, when they cannot be refused. -/
theorem sendSlot_eq (h : s.listed.lawful = true) (ct : LaneCt) (tn : Tn) (ss : Ss) (bid : Bid) (sn : Fn) :
    sendSlot ct tn ss bid sn s = .ok (emitDl tn sn (s.assemble tn ((s.dlLane (laneRef ct tn ss)).slotAt bid))
      (s.modDl (laneRef ct tn ss) fun d => { d with lastBid := bid, valid := if bid.toNat + 1 = ct.toCt.groupLen then false else d.valid })) := by
  have h' : (s.modDl (laneRef ct tn ss) fun d => { d with lastBid := bid }).listed.lawful = true := by simpa using h
  simp only [sendSlot, emitSlot_total h']
  simp only [assemble_modDl, dlLane_modDl_same]
  congr 1
  split
  · next hb => rw [emitDl_modDl, modDl_modDl]; rfl
  · rfl

/-- A group start, when it cannot be refused. -/
theorem startGroup_eq (ct tn ss) (x : Selected) (h : x.state.listed.lawful = true) : startGroup ct tn ss x = .ok (x.state.modDl (laneRef ct tn ss) fun d =>
    let r := x.state.encStep ct x.kind x.mode x.cmr x.payload (x.state.dlLane (laneRef ct tn ss)).ilv
    { d with ilv := r.ilv, slots := overlaySlots d.slots r.slots, valid := true }) := by
  simp [startGroup, lawful_encStep h]

/-- TX_GROUP at bid 0, after its selection. -/
theorem txGroup_zero (h : s.listed.lawful = true) {ct tn ss fok sn} {x : Selected} (hx : select ct tn ss fok s = .ok x) (hxl : x.state.listed = s.listed) :
   let r := s.encStep ct x.kind x.mode x.cmr x.payload (x.state.dlLane (laneRef ct tn ss)).ilv
   let slots := overlaySlots (x.state.dlLane (laneRef ct tn ss)).slots r.slots
   txGroup ct tn ss 0 fok sn s = .ok (emitDl tn sn (x.state.assemble tn slots[0]) 
     (x.state.modDl (laneRef ct tn ss) fun _ => { slots := slots, valid := decide (ct.toCt.groupLen ≠ 1), lastBid := 0, ilv := r.ilv })) := by
  have hl : x.state.listed.lawful = true := by rw [hxl]; exact h
  have he : ∀ ct k m c p i, x.state.encStep ct k m c p i = s.encStep ct k m c p i := by intros; simp [State.encStep, hxl]
  simp only [txGroup, if_true, hx, startGroup_eq ct tn ss x hl]
  rw [sendSlot_eq (by simpa using hl)]
  simp only [dlLane_modDl_same, assemble_modDl, modDl_modDl, he]
  congr 1
  congr 1
  cases ct <;> simp [laneRef, State.modDl, State.modSlot, State.modChan, LaneCt.toCt, Ct.groupLen, State.dlLane, State.chan, State.slot]

theorem gl1 (ct : LaneCt) : ct.toCt.groupLen ≠ 1 := by cases ct <;> decide
theorem dlLane_slotAt0 (d : DlLane) : d.slotAt 0 = d.slots[0] := rfl

/-- A miss as a selection, when it cannot be refused. -/
theorem miss_eq (h : s.listed.lawful = true) (ct : MissCt) (tn ss) (m c) : missSel ct tn ss m c s =
   let n := satInc ((s.lane tn ss (missLane ct)).dlLoss) 1
   let st := s.modLane tn ss (missLane ct) fun l => { l with dlLoss := n }
   .ok (if ct ≠ .sacch ∧ 1 < n.toNat then ⟨.bfi, s.bfi ct.toLane (s.chan tn ss).dlFt, m, c, st⟩ else ⟨.fill, s.filler ct.toLane, m, c, st⟩) := by
  have h1 : ∀ c m, (s.bfi c m).length ≤ 255 := lawful_bfi h
  have h2 : ∀ c, (s.filler c).length ≤ 255 := lawful_filler h
  have e1 : countLoss (missLane ct) tn ss s = s.modLane tn ss (missLane ct) fun l => { l with dlLoss := satInc ((s.lane tn ss (missLane ct)).dlLoss) 1 } := by
    unfold countLoss; unfold State.modLane; rw [modChan_const]; conv => rhs; rw [modChan_const]
    simp only [satAdd_eq_satInc]; cases ct <;> rfl
  have e2 : ((countLoss (missLane ct) tn ss s).lane tn ss (missLane ct)).dlLoss = satInc ((s.lane tn ss (missLane ct)).dlLoss) 1 := by
    simp [countLoss, satAdd_eq_satInc]
  have e3 : ∀ c m, (countLoss (missLane ct) tn ss s).bfi c m = s.bfi c m := fun _ _ => rfl
  have e4 : ∀ c, (countLoss (missLane ct) tn ss s).filler c = s.filler c := fun _ => rfl
  have e5 : ((countLoss (missLane ct) tn ss s).chan tn ss).dlFt = (s.chan tn ss).dlFt := by
    cases ct <;> simp [countLoss, State.modLane, missLane, Channel.modLane]
  have hn : needsBfi ct tn ss (countLoss (missLane ct) tn ss s) = decide (ct ≠ .sacch ∧ 1 < (satInc ((s.lane tn ss (missLane ct)).dlLoss) 1).toNat) := by
    simp only [needsBfi, e2]; cases ct <;> simp
  simp only [missSel, dlMiss, hn, e3, e5, h1, if_true, fillerOf, e4, h2]
  by_cases hh : ct ≠ .sacch ∧ 1 < (satInc ((s.lane tn ss (missLane ct)).dlLoss) 1).toNat
  · simp only [decide_eq_true hh, if_true, if_pos hh]; rw [e1]
  · simp only [decide_eq_false hh, if_neg hh]; simp only [Bool.false_eq_true, if_false]; rw [e1]

/-- The selection of a dedicated type changes its own channel as `takeFrom` says. -/
theorem select_eq (h : s.listed.lawful = true) (ct : LaneCt) (tn ss fok) (hb : ct ≠ .bcch) (hc : ct ≠ .ccch) :
   select ct tn ss fok s = .ok (let k := takeFrom s ct fok (s.chan tn ss)
      ⟨k.kind, k.payload, k.mode, k.cmr, s.modChan tn ss fun _ => k.chan⟩) := by
  have h2 : ∀ c, (s.filler c).length ≤ 255 := lawful_filler h
  have sp : ∀ ct', (ct' = .tchf ∨ ct' = .tchh) → selSpeech ct' tn ss s = .ok (let k := speechOrMiss s ct'.toLane (s.chan tn ss)
      ⟨k.kind, k.payload, k.mode, k.cmr, s.modChan tn ss fun _ => k.chan⟩) := by
    intro ct' hct
    have hne : ct' ≠ .sacch ∧ missLane ct' = .m := by rcases hct with rfl | rfl <;> simp [missLane]
    simp only [selSpeech, State.queue, speechOrMiss]
    cases hq : (s.chan tn ss).qSpeech with
    | cons v rest => 
      simp only [State.setQueue, dlHit, State.modLane, modChan_modChan, Channel.modLane, Channel.withLossM]
      congr 2
    | nil =>
      simp only [miss_eq h, hne]
      simp only [State.lane, Channel.lane, State.modLane, Channel.modLane, Channel.withLossM]
      by_cases hn : 1 < (satInc (s.chan tn ss).laneM.dlLoss 1).toNat
      · simp only [hn, and_true, ne_eq, if_true, hne.1, not_false_eq_true]; congr 2
      · simp only [hn, and_false, if_false]; congr 2
  cases ct
  · exact absurd rfl hb
  · exact absurd rfl hc
  · simp only [select, popOrFill, State.queue, takeFrom, fillerOf, h2, if_true]
    cases hq : (s.chan tn ss).qSig with
    | cons v rest => simp only [State.setQueue]; congr 2
    | nil => simp [modChan_self]
  · simp only [select, selSacch, State.queue, takeFrom]
    cases hq : (s.chan tn ss).qAssoc with
    | cons v rest => simp only [State.setQueue, dlHit, State.modLane, modChan_modChan, Channel.modLane, Channel.withLossA]; congr 2
    | nil =>
      simp only [miss_eq h]; simp [missLane, MissCt.toLane, State.lane, Channel.lane, State.modLane, Channel.modLane, Channel.withLossA]
      rw [modChan_const]
  · simp only [select, selTchf, State.queue, takeFrom]
    cases hq : (s.chan tn ss).qSig with
    | cons v rest => 
      simp only [State.dropHead, State.queue, State.setQueue, dlHit, State.modLane, modChan_modChan, Channel.modLane, Channel.withLossM]
      congr 2; rw [modChan_const]; simp
    | nil => exact sp _ (.inl rfl)
  · simp only [select, selTchh, takeFrom]
    cases ho : (s.chan tn ss).dlFacchOng
    · simp only [Bool.false_eq_true, if_false, State.queue]
      cases fok
      · exact sp .tchh (.inr rfl)
      · cases hq : (s.chan tn ss).qSig with
        | nil => exact sp .tchh (.inr rfl)
        | cons v rest => 
          simp only [State.dropHead, State.queue, State.setQueue, setDlFacch, dlHit, State.modLane, modChan_modChan, Channel.modLane, Channel.withLossM]
          congr 2; rw [modChan_const]; simp
    · simp only [if_true]
      simp only [State.dropHead, State.queue, State.setQueue, setDlFacch, dlHit, State.modLane, modChan_modChan, Channel.modLane, Channel.withLossM]
      congr 2; rw [modChan_const]; simp
  · simp only [select, popOrFill, State.queue, takeFrom, fillerOf, h2, if_true]
    cases hq : (s.chan tn ss).qSig with
    | cons v rest => simp only [State.setQueue]; congr 2
    | nil => simp [modChan_self]
  · simp only [select, popOrFill, State.queue, takeFrom, fillerOf, h2, if_true]
    cases hq : (s.chan tn ss).qAssoc with
    | cons v rest => simp only [State.setQueue]; congr 2
    | nil => simp [modChan_self]

theorem assemble_modChan (s : State) (tn u : Tn) (ss : Ss) (f : Channel → Channel) (slot : Slot) :
    (s.modChan tn ss f).assemble u slot = s.assemble u slot := by
  simp only [State.assemble, slot_modChan_tsc]
  rfl

/-- The slots of a lane after a group start: the new ones, then the old ones past them (R243). -/
theorem overlaySlots_toList (old : Vector Slot 4) (new : List Slot) (h : new.length ≤ 4) :
    (overlaySlots old new).toList = new ++ old.toList.drop new.length := by
  have ho : old.toList = [old[0], old[1], old[2], old[3]] := by
    apply List.ext_getElem
    · simp
    · intro i h1 h2
      simp only [List.length_cons, List.length_nil] at h2
      interval_cases i <;> rfl
  rw [ho]
  match new, h with
  | [], _ => rfl
  | [a], _ => rfl
  | [a, b], _ => rfl
  | [a, b, c], _ => rfl
  | [a, b, c, d], _ => rfl

theorem chanOnly_emit {tn : Tn} {ss : Ss} {s t : State} {p : OutPort} {b : Bytes} (h : chanOnly tn ss s t) :
    chanOnly tn ss s (t.emit p b) := chanOnly_of_tns h rfl

theorem chanOnly_modDl (s : State) {ct : LaneCt} (tn : Tn) (ss : Ss) (f : DlLane → DlLane) (hb : ct ≠ .bcch)
    (hc : ct ≠ .ccch) : chanOnly tn ss s (s.modDl (laneRef ct tn ss) f) := by
  cases ct
  · exact absurd rfl hb
  · exact absurd rfl hc
  all_goals exact chanOnly_modChan tn ss s _

theorem chanOnly_modLane (s : State) (tn : Tn) (ss : Ss) (id : LaneId) (f : Lane → Lane) :
    chanOnly tn ss s (s.modLane tn ss id f) := chanOnly_modChan tn ss s _

/-! ## No refusal -/

theorem txIdle_total (h : s.listed.lawful = true) (tn sn) : ∃ t, txIdle tn sn s = .ok t := by
  unfold txIdle; simp only [lawful_dummyBurst h, if_true]; split <;> exact ⟨_, rfl⟩

theorem select_total (h : s.listed.lawful = true) (ct tn ss fok) : ∃ x, select ct tn ss fok s = .ok x := by
  by_cases hb : ct = .bcch
  · subst hb; simp only [select, popOrFill]; split
    · exact ⟨_, rfl⟩
    · simp only [fillerOf, lawful_filler h, if_true]; exact ⟨_, rfl⟩
  by_cases hc : ct = .ccch
  · subst hc; simp only [select, popOrFill]; split
    · exact ⟨_, rfl⟩
    · simp only [fillerOf, lawful_filler h, if_true]; exact ⟨_, rfl⟩
  exact ⟨_, select_eq h ct tn ss fok hb hc⟩

theorem txGroup_total (h : s.listed.lawful = true) (ct tn ss bid fok sn) : ∃ t, txGroup ct tn ss bid fok sn s = .ok t := by
  by_cases hb : bid = 0
  · subst hb
    obtain ⟨x, hx⟩ := select_total h ct tn ss fok
    have := (select_op ct tn ss fok s x hx).1.rest
    exact ⟨_, txGroup_zero h hx (by rw [this])⟩
  · unfold txGroup; rw [if_neg hb]; split
    · exact ⟨_, sendSlot_eq h _ _ _ _ _⟩
    · exact txIdle_total h tn sn

theorem txDispatch_total (h : s.listed.lawful = true) (tn e sn) : ∃ t, txDispatch tn e sn s = .ok t := by
  unfold txDispatch; split
  · exact txIdle_total h tn sn
  · split
    · exact txIdle_total h tn sn
    · exact ⟨_, by simp only [txFcch, lawful_fcchBurst h, if_true]; rfl⟩
    · exact ⟨_, by simp only [txSch, lawful_schEnc h, if_true]; rfl⟩
    all_goals first | exact txGroup_total h _ _ _ _ _ _ | exact txIdle_total h tn sn

theorem schedTn_total (h : s.listed.lawful = true) (tn sn) : ∃ t, schedTn sn tn s = .ok t := by
  unfold schedTn; split
  · exact ⟨_, rfl⟩
  · obtain ⟨e, he⟩ := lawful_position h (s.slot tn).comb tn sn .dl
    rw [he]; exact txDispatch_total h tn e sn

/-! ## Frames counted by calls of SCHED_FN (R150, R154, R159) -/

/-- Calling SCHED_FN k times is the loop of CATCH_UP and TICK_PRODUCE. -/
theorem scheduleFrames_eq_produce (k : Nat) : ∀ s : State, scheduleFrames k s = (produce k s).outcome := by
  induction k with
  | zero => intro s; rfl
  | succ k ih =>
    intro s
    show (match (schedFn (fnInc s.clk.lastFn) { s with clk := { s.clk with lastFn := fnInc s.clk.lastFn } }).outcome
      with | .next t => scheduleFrames k t | .fault f => .fault f | .refused r => .refused r) = _
    simp only [produce]
    cases schedFn (fnInc s.clk.lastFn) { s with clk := { s.clk with lastFn := fnInc s.clk.lastFn } } with
    | ok u => exact ih u
    | error e => rfl

/-! ## Delivery without errors (R10, R104) -/

/-- The datagram conversion gives back the soft values of a reception without errors. -/
theorem delivered_eq (bits : List Bool) : delivered bits = hardSoft bits := by
  simp only [delivered, hardSoft, List.map_map]
  apply List.map_congr_left
  intro b _
  cases b <;> decide

end Sys2Proof.Machine
end

