-- ==== Sys2Proof/Laws/PerInstr.lean ====
section
/-! SUPPORT. One lemma per instruction: the event that carries a well-formed instruction has a length its port allows
(R102, R109 to R123, R126). An instruction without an encoding of its own (R124) is carried by none. -/

namespace Sys2Proof

/-- A length that R126 allows on the event's port. A reserved host record may have any length (R121), a clock
datagram is checked by its own grammar (R101). -/
def legalLength (e : Event) : Bool :=
  match e.port with
  | .clk => true
  | .uld => e.bytes.length == 156 || e.bytes.length == 452
  | .host => decide (e.bytes.length ∈ [1, 3, 7]) || decide (5 ≤ e.bytes.length ∧ e.bytes.length ≤ 260)
      || decide (decodeHost e.bytes = .hostReserved e.bytes)
  | .timer => e.bytes.isEmpty
  | .hosto => decide (e.bytes.length ∈ [2, 6, 7, 15, 16]) || decide (10 ≤ e.bytes.length ∧ e.bytes.length ≤ 265)

end Sys2Proof

/-- The family: a well-formed instruction's event has a legal length. -/
def Sys2Proof.Laws.EncodedLength.Statement (i : Sys2Proof.Instr) : Prop :=
  Sys2Proof.WellFormed i = true → ∀ e, Sys2Proof.encode i = some e → Sys2Proof.legalLength e = true

namespace Sys2Proof.Laws.EncodedLength

/-- An instruction without an encoding. -/
theorem of_none {i : Sys2Proof.Instr} (h : Sys2Proof.encode i = none) : Statement i := by
  intro _ e he
  rw [h] at he
  cases he

end Sys2Proof.Laws.EncodedLength

theorem Sys2Proof.Laws.EncodedLength.clkInd (bytes : Sys2Proof.Bytes) (now : Sys2Proof.Time) :
    Sys2Proof.Laws.EncodedLength.Statement (.clkInd bytes now) := by
  intro _ e he
  cases he
  rfl

theorem Sys2Proof.Laws.EncodedLength.ulBurstNb (bytes : Sys2Proof.Bytes) :
    Sys2Proof.Laws.EncodedLength.Statement (.ulBurstNb bytes) := by
  intro h e he
  cases he
  simp_all [Sys2Proof.legalLength, Sys2Proof.WellFormed]

theorem Sys2Proof.Laws.EncodedLength.ulBurst8psk (bytes : Sys2Proof.Bytes) :
    Sys2Proof.Laws.EncodedLength.Statement (.ulBurst8psk bytes) := by
  intro h e he
  cases he
  simp_all [Sys2Proof.legalLength, Sys2Proof.WellFormed]

theorem Sys2Proof.Laws.EncodedLength.linkOpen :
    Sys2Proof.Laws.EncodedLength.Statement .linkOpen := by
  intro _ e he
  cases he
  rfl

theorem Sys2Proof.Laws.EncodedLength.linkClose :
    Sys2Proof.Laws.EncodedLength.Statement .linkClose := by
  intro _ e he
  cases he
  rfl

theorem Sys2Proof.Laws.EncodedLength.cfgRd (addr : BitVec 16) :
    Sys2Proof.Laws.EncodedLength.Statement (.cfgRd addr) := by
  intro _ e he
  cases he
  rfl

theorem Sys2Proof.Laws.EncodedLength.cfgWr (addr : BitVec 16) (value : BitVec 32) :
    Sys2Proof.Laws.EncodedLength.Statement (.cfgWr addr value) := by
  intro _ e he
  cases he
  rfl

theorem Sys2Proof.Laws.EncodedLength.dlqPush (q : Sys2Proof.QueueRef) (payload : Sys2Proof.Bytes) :
    Sys2Proof.Laws.EncodedLength.Statement (.dlqPush q payload) := by
  intro h e he
  cases he
  have h : payload.length ≤ 255 := of_decide_eq_true h
  have hl : (0x20 :: Sys2Proof.queueBytes q ++ BitVec.ofNat 8 payload.length :: payload).length = 5 + payload.length := by
    cases q <;> simp [Sys2Proof.queueBytes] <;> omega
  simp only [Sys2Proof.legalLength, hl, Bool.or_eq_true, decide_eq_true_eq]
  exact .inl (.inr (by omega))

theorem Sys2Proof.Laws.EncodedLength.hostReserved (bytes : Sys2Proof.Bytes) :
    Sys2Proof.Laws.EncodedLength.Statement (.hostReserved bytes) := by
  intro h e he
  cases he
  simp_all [Sys2Proof.legalLength, Sys2Proof.WellFormed]

theorem Sys2Proof.Laws.EncodedLength.tick (now : Sys2Proof.Time) :
    Sys2Proof.Laws.EncodedLength.Statement (.tick now) := by
  intro _ e he
  cases he
  rfl

theorem Sys2Proof.Laws.EncodedLength.anchor (fn : Sys2Proof.Fn) (now : Sys2Proof.Time) :
    Sys2Proof.Laws.EncodedLength.Statement (.anchor fn now) := Sys2Proof.Laws.EncodedLength.of_none rfl

theorem Sys2Proof.Laws.EncodedLength.clkApply (fn : Sys2Proof.Fn) (now : Sys2Proof.Time) :
    Sys2Proof.Laws.EncodedLength.Statement (.clkApply fn now) := Sys2Proof.Laws.EncodedLength.of_none rfl

theorem Sys2Proof.Laws.EncodedLength.resync (fn : Sys2Proof.Fn) (now : Sys2Proof.Time) :
    Sys2Proof.Laws.EncodedLength.Statement (.resync fn now) := Sys2Proof.Laws.EncodedLength.of_none rfl

theorem Sys2Proof.Laws.EncodedLength.delay (k : Nat) (now : Sys2Proof.Time) :
    Sys2Proof.Laws.EncodedLength.Statement (.delay k now) := Sys2Proof.Laws.EncodedLength.of_none rfl

theorem Sys2Proof.Laws.EncodedLength.catchUp (fn : Sys2Proof.Fn) (now : Sys2Proof.Time) :
    Sys2Proof.Laws.EncodedLength.Statement (.catchUp fn now) := Sys2Proof.Laws.EncodedLength.of_none rfl

theorem Sys2Proof.Laws.EncodedLength.tickLiveness (now : Sys2Proof.Time) :
    Sys2Proof.Laws.EncodedLength.Statement (.tickLiveness now) := Sys2Proof.Laws.EncodedLength.of_none rfl

theorem Sys2Proof.Laws.EncodedLength.tickStall (now : Sys2Proof.Time) :
    Sys2Proof.Laws.EncodedLength.Statement (.tickStall now) := Sys2Proof.Laws.EncodedLength.of_none rfl

theorem Sys2Proof.Laws.EncodedLength.tickProduce (k : Nat) :
    Sys2Proof.Laws.EncodedLength.Statement (.tickProduce k) := Sys2Proof.Laws.EncodedLength.of_none rfl

theorem Sys2Proof.Laws.EncodedLength.fatal (cause : Sys2Proof.FatalCause) :
    Sys2Proof.Laws.EncodedLength.Statement (.fatal cause) := Sys2Proof.Laws.EncodedLength.of_none rfl

theorem Sys2Proof.Laws.EncodedLength.schedFn (fn : Sys2Proof.Fn) :
    Sys2Proof.Laws.EncodedLength.Statement (.schedFn fn) := Sys2Proof.Laws.EncodedLength.of_none rfl

theorem Sys2Proof.Laws.EncodedLength.txDispatch (tn : Sys2Proof.Tn) (e : Sys2Proof.Position) (s : Sys2Proof.Fn) :
    Sys2Proof.Laws.EncodedLength.Statement (.txDispatch tn e s) := Sys2Proof.Laws.EncodedLength.of_none rfl

theorem Sys2Proof.Laws.EncodedLength.txIdle (tn : Sys2Proof.Tn) (s : Sys2Proof.Fn) :
    Sys2Proof.Laws.EncodedLength.Statement (.txIdle tn s) := Sys2Proof.Laws.EncodedLength.of_none rfl

theorem Sys2Proof.Laws.EncodedLength.txFcch (tn : Sys2Proof.Tn) (s : Sys2Proof.Fn) :
    Sys2Proof.Laws.EncodedLength.Statement (.txFcch tn s) := Sys2Proof.Laws.EncodedLength.of_none rfl

theorem Sys2Proof.Laws.EncodedLength.txSch (tn : Sys2Proof.Tn) (s : Sys2Proof.Fn) :
    Sys2Proof.Laws.EncodedLength.Statement (.txSch tn s) := Sys2Proof.Laws.EncodedLength.of_none rfl

theorem Sys2Proof.Laws.EncodedLength.txBcch (tn : Sys2Proof.Tn) (bid : Sys2Proof.Bid) (s : Sys2Proof.Fn) :
    Sys2Proof.Laws.EncodedLength.Statement (.txBcch tn bid s) := Sys2Proof.Laws.EncodedLength.of_none rfl

theorem Sys2Proof.Laws.EncodedLength.txCcch (tn : Sys2Proof.Tn) (bid : Sys2Proof.Bid) (s : Sys2Proof.Fn) :
    Sys2Proof.Laws.EncodedLength.Statement (.txCcch tn bid s) := Sys2Proof.Laws.EncodedLength.of_none rfl

theorem Sys2Proof.Laws.EncodedLength.txSdcch (tn : Sys2Proof.Tn) (ss : Sys2Proof.Ss) (bid : Sys2Proof.Bid) (s : Sys2Proof.Fn) :
    Sys2Proof.Laws.EncodedLength.Statement (.txSdcch tn ss bid s) := Sys2Proof.Laws.EncodedLength.of_none rfl

theorem Sys2Proof.Laws.EncodedLength.txSacch (tn : Sys2Proof.Tn) (ss : Sys2Proof.Ss) (bid : Sys2Proof.Bid) (s : Sys2Proof.Fn) :
    Sys2Proof.Laws.EncodedLength.Statement (.txSacch tn ss bid s) := Sys2Proof.Laws.EncodedLength.of_none rfl

theorem Sys2Proof.Laws.EncodedLength.txTchf (tn : Sys2Proof.Tn) (ss : Sys2Proof.Ss) (bid : Sys2Proof.Bid) (s : Sys2Proof.Fn) :
    Sys2Proof.Laws.EncodedLength.Statement (.txTchf tn ss bid s) := Sys2Proof.Laws.EncodedLength.of_none rfl

theorem Sys2Proof.Laws.EncodedLength.txTchh (tn : Sys2Proof.Tn) (ss : Sys2Proof.Ss) (bid : Sys2Proof.Bid) (facchOk : Bool) (s : Sys2Proof.Fn) :
    Sys2Proof.Laws.EncodedLength.Statement (.txTchh tn ss bid facchOk s) := Sys2Proof.Laws.EncodedLength.of_none rfl

theorem Sys2Proof.Laws.EncodedLength.txPdtch (tn : Sys2Proof.Tn) (ss : Sys2Proof.Ss) (bid : Sys2Proof.Bid) (s : Sys2Proof.Fn) :
    Sys2Proof.Laws.EncodedLength.Statement (.txPdtch tn ss bid s) := Sys2Proof.Laws.EncodedLength.of_none rfl

theorem Sys2Proof.Laws.EncodedLength.txPtcch (tn : Sys2Proof.Tn) (ss : Sys2Proof.Ss) (bid : Sys2Proof.Bid) (s : Sys2Proof.Fn) :
    Sys2Proof.Laws.EncodedLength.Statement (.txPtcch tn ss bid s) := Sys2Proof.Laws.EncodedLength.of_none rfl

theorem Sys2Proof.Laws.EncodedLength.txRachAsIdle (tn : Sys2Proof.Tn) (s : Sys2Proof.Fn) :
    Sys2Proof.Laws.EncodedLength.Statement (.txRachAsIdle tn s) := Sys2Proof.Laws.EncodedLength.of_none rfl

theorem Sys2Proof.Laws.EncodedLength.txGroup (ct : Sys2Proof.LaneCt) (tn : Sys2Proof.Tn) (ss : Sys2Proof.Ss) (bid : Sys2Proof.Bid) (facchOk : Bool) (s : Sys2Proof.Fn) :
    Sys2Proof.Laws.EncodedLength.Statement (.txGroup ct tn ss bid facchOk s) := Sys2Proof.Laws.EncodedLength.of_none rfl

theorem Sys2Proof.Laws.EncodedLength.dlMiss (ct : Sys2Proof.MissCt) (tn : Sys2Proof.Tn) (ss : Sys2Proof.Ss) :
    Sys2Proof.Laws.EncodedLength.Statement (.dlMiss ct tn ss) := Sys2Proof.Laws.EncodedLength.of_none rfl

theorem Sys2Proof.Laws.EncodedLength.emitSlot (tn : Sys2Proof.Tn) (s : Sys2Proof.Fn) (slot : Sys2Proof.Slot) :
    Sys2Proof.Laws.EncodedLength.Statement (.emitSlot tn s slot) := Sys2Proof.Laws.EncodedLength.of_none rfl

theorem Sys2Proof.Laws.EncodedLength.asmNb (d : List Bool) (t : List Bool) :
    Sys2Proof.Laws.EncodedLength.Statement (.asmNb d t) := Sys2Proof.Laws.EncodedLength.of_none rfl

theorem Sys2Proof.Laws.EncodedLength.emitDl (tn : Sys2Proof.Tn) (s : Sys2Proof.Fn) (bits : List Bool) :
    Sys2Proof.Laws.EncodedLength.Statement (.emitDl tn s bits) := Sys2Proof.Laws.EncodedLength.of_none rfl

theorem Sys2Proof.Laws.EncodedLength.ulSeq (tn : Sys2Proof.Tn) (fn : Sys2Proof.Fn) (x : Sys2Proof.Burst) :
    Sys2Proof.Laws.EncodedLength.Statement (.ulSeq tn fn x) := Sys2Proof.Laws.EncodedLength.of_none rfl

theorem Sys2Proof.Laws.EncodedLength.ulGap (tn : Sys2Proof.Tn) (last : Sys2Proof.Fn) (fn : Sys2Proof.Fn) :
    Sys2Proof.Laws.EncodedLength.Statement (.ulGap tn last fn) := Sys2Proof.Laws.EncodedLength.of_none rfl

theorem Sys2Proof.Laws.EncodedLength.rxPos (tn : Sys2Proof.Tn) (f : Sys2Proof.Fn) (x : Option Sys2Proof.Burst) :
    Sys2Proof.Laws.EncodedLength.Statement (.rxPos tn f x) := Sys2Proof.Laws.EncodedLength.of_none rfl

theorem Sys2Proof.Laws.EncodedLength.rxLane (ct : Sys2Proof.UlCt) (tn : Sys2Proof.Tn) (ss : Sys2Proof.Ss) (bid : Sys2Proof.Bid) (f : Sys2Proof.Fn) (x : Option Sys2Proof.Burst) :
    Sys2Proof.Laws.EncodedLength.Statement (.rxLane ct tn ss bid f x) := Sys2Proof.Laws.EncodedLength.of_none rfl

theorem Sys2Proof.Laws.EncodedLength.closeGroup (ct : Sys2Proof.UlCt) (tn : Sys2Proof.Tn) (ss : Sys2Proof.Ss) :
    Sys2Proof.Laws.EncodedLength.Statement (.closeGroup ct tn ss) := Sys2Proof.Laws.EncodedLength.of_none rfl

theorem Sys2Proof.Laws.EncodedLength.report (ct : Sys2Proof.UlCt) (tn : Sys2Proof.Tn) (ss : Sys2Proof.Ss) (r : Sys2Proof.DecResult) (cont : Bool) :
    Sys2Proof.Laws.EncodedLength.Statement (.report ct tn ss r cont) := Sys2Proof.Laws.EncodedLength.of_none rfl

theorem Sys2Proof.Laws.EncodedLength.rxMissing (tn : Sys2Proof.Tn) (f : Sys2Proof.Fn) :
    Sys2Proof.Laws.EncodedLength.Statement (.rxMissing tn f) := Sys2Proof.Laws.EncodedLength.of_none rfl

theorem Sys2Proof.Laws.EncodedLength.rxIdle (x : Option Sys2Proof.Burst) :
    Sys2Proof.Laws.EncodedLength.Statement (.rxIdle x) := Sys2Proof.Laws.EncodedLength.of_none rfl

theorem Sys2Proof.Laws.EncodedLength.rxSdcch (tn : Sys2Proof.Tn) (ss : Sys2Proof.Ss) (bid : Sys2Proof.Bid) (f : Sys2Proof.Fn) (x : Option Sys2Proof.Burst) :
    Sys2Proof.Laws.EncodedLength.Statement (.rxSdcch tn ss bid f x) := Sys2Proof.Laws.EncodedLength.of_none rfl

theorem Sys2Proof.Laws.EncodedLength.rxSacch (tn : Sys2Proof.Tn) (ss : Sys2Proof.Ss) (bid : Sys2Proof.Bid) (f : Sys2Proof.Fn) (x : Option Sys2Proof.Burst) :
    Sys2Proof.Laws.EncodedLength.Statement (.rxSacch tn ss bid f x) := Sys2Proof.Laws.EncodedLength.of_none rfl

theorem Sys2Proof.Laws.EncodedLength.rxTchf (tn : Sys2Proof.Tn) (ss : Sys2Proof.Ss) (bid : Sys2Proof.Bid) (f : Sys2Proof.Fn) (x : Option Sys2Proof.Burst) :
    Sys2Proof.Laws.EncodedLength.Statement (.rxTchf tn ss bid f x) := Sys2Proof.Laws.EncodedLength.of_none rfl

theorem Sys2Proof.Laws.EncodedLength.rxTchh (tn : Sys2Proof.Tn) (ss : Sys2Proof.Ss) (bid : Sys2Proof.Bid) (f : Sys2Proof.Fn) (x : Option Sys2Proof.Burst) :
    Sys2Proof.Laws.EncodedLength.Statement (.rxTchh tn ss bid f x) := Sys2Proof.Laws.EncodedLength.of_none rfl

theorem Sys2Proof.Laws.EncodedLength.rxPdtch (tn : Sys2Proof.Tn) (ss : Sys2Proof.Ss) (bid : Sys2Proof.Bid) (f : Sys2Proof.Fn) (x : Option Sys2Proof.Burst) :
    Sys2Proof.Laws.EncodedLength.Statement (.rxPdtch tn ss bid f x) := Sys2Proof.Laws.EncodedLength.of_none rfl

theorem Sys2Proof.Laws.EncodedLength.rxPtcch (tn : Sys2Proof.Tn) (ss : Sys2Proof.Ss) (f : Sys2Proof.Fn) (x : Option Sys2Proof.Burst) :
    Sys2Proof.Laws.EncodedLength.Statement (.rxPtcch tn ss f x) := Sys2Proof.Laws.EncodedLength.of_none rfl

theorem Sys2Proof.Laws.EncodedLength.rxRach (tn : Sys2Proof.Tn) (f : Sys2Proof.Fn) (x : Option Sys2Proof.Burst) :
    Sys2Proof.Laws.EncodedLength.Statement (.rxRach tn f x) := Sys2Proof.Laws.EncodedLength.of_none rfl

theorem Sys2Proof.Laws.EncodedLength.hoAccess (tn : Sys2Proof.Tn) (ss : Sys2Proof.Ss) (f : Sys2Proof.Fn) (x : Option Sys2Proof.Burst) :
    Sys2Proof.Laws.EncodedLength.Statement (.hoAccess tn ss f x) := Sys2Proof.Laws.EncodedLength.of_none rfl

theorem Sys2Proof.Laws.EncodedLength.pwrSample (tn : Sys2Proof.Tn) (ss : Sys2Proof.Ss) (rssi : Int) :
    Sys2Proof.Laws.EncodedLength.Statement (.pwrSample tn ss rssi) := Sys2Proof.Laws.EncodedLength.of_none rfl

theorem Sys2Proof.Laws.EncodedLength.pwrClock (tn : Sys2Proof.Tn) (ss : Sys2Proof.Ss) :
    Sys2Proof.Laws.EncodedLength.Statement (.pwrClock tn ss) := Sys2Proof.Laws.EncodedLength.of_none rfl

theorem Sys2Proof.Laws.EncodedLength.pwrEval (tn : Sys2Proof.Tn) (ss : Sys2Proof.Ss) :
    Sys2Proof.Laws.EncodedLength.Statement (.pwrEval tn ss) := Sys2Proof.Laws.EncodedLength.of_none rfl

theorem Sys2Proof.Laws.EncodedLength.taSample (tn : Sys2Proof.Tn) (ss : Sys2Proof.Ss) (toa : Int) :
    Sys2Proof.Laws.EncodedLength.Statement (.taSample tn ss toa) := Sys2Proof.Laws.EncodedLength.of_none rfl

theorem Sys2Proof.Laws.EncodedLength.taEval (tn : Sys2Proof.Tn) (ss : Sys2Proof.Ss) :
    Sys2Proof.Laws.EncodedLength.Statement (.taEval tn ss) := Sys2Proof.Laws.EncodedLength.of_none rfl

theorem Sys2Proof.Laws.EncodedLength.amrSample (tn : Sys2Proof.Tn) (ss : Sys2Proof.Ss) (ber : Nat) (w : Nat) :
    Sys2Proof.Laws.EncodedLength.Statement (.amrSample tn ss ber w) := Sys2Proof.Laws.EncodedLength.of_none rfl

theorem Sys2Proof.Laws.EncodedLength.amrEval (tn : Sys2Proof.Tn) (ss : Sys2Proof.Ss) :
    Sys2Proof.Laws.EncodedLength.Statement (.amrEval tn ss) := Sys2Proof.Laws.EncodedLength.of_none rfl

theorem Sys2Proof.Laws.EncodedLength.cfgData (addr : BitVec 16) (value : BitVec 32) :
    Sys2Proof.Laws.EncodedLength.Statement (.cfgData addr value) := by
  intro _ e he
  cases he
  rfl

theorem Sys2Proof.Laws.EncodedLength.dataInd (tn ss ct kind : Sys2Proof.Byte) (fn : BitVec 32) (payload : Sys2Proof.Bytes) :
    Sys2Proof.Laws.EncodedLength.Statement (.dataInd tn ss ct kind fn payload) := by
  intro h e he
  cases he
  have h : payload.length ≤ 255 := by
    simp only [Sys2Proof.WellFormed, Bool.and_eq_true, decide_eq_true_eq] at h
    exact h.1.2
  have hl : (Sys2Proof.recDataInd tn ss ct kind fn payload).length = 10 + payload.length := by
    simp [Sys2Proof.recDataInd, Sys2Proof.bytes32]
    omega
  simp only [Sys2Proof.legalLength, hl, Bool.or_eq_true, decide_eq_true_eq]
  exact .inr (by omega)

theorem Sys2Proof.Laws.EncodedLength.measInd (tn ss ct : Sys2Proof.Byte) (fn : BitVec 32) (nbursts flags : Sys2Proof.Byte) (rssi ber toa : BitVec 16) :
    Sys2Proof.Laws.EncodedLength.Statement (.measInd tn ss ct fn nbursts flags rssi ber toa) := by
  intro _ e he
  cases he
  rfl

theorem Sys2Proof.Laws.EncodedLength.rachInd (tn ct : Sys2Proof.Byte) (fn : BitVec 32) (ra toa ber rssi : BitVec 16) :
    Sys2Proof.Laws.EncodedLength.Statement (.rachInd tn ct fn ra toa ber rssi) := by
  intro _ e he
  cases he
  rfl

theorem Sys2Proof.Laws.EncodedLength.hoInd (tn ss : Sys2Proof.Byte) (fn : BitVec 32) (ra toa ber rssi : BitVec 16) :
    Sys2Proof.Laws.EncodedLength.Statement (.hoInd tn ss fn ra toa ber rssi) := by
  intro _ e he
  cases he
  rfl

theorem Sys2Proof.Laws.EncodedLength.loopInd (tn ss which : Sys2Proof.Byte) (value : BitVec 16) :
    Sys2Proof.Laws.EncodedLength.Statement (.loopInd tn ss which value) := by
  intro _ e he
  cases he
  rfl

theorem Sys2Proof.Laws.EncodedLength.fatalInd (cause : Sys2Proof.Byte) :
    Sys2Proof.Laws.EncodedLength.Statement (.fatalInd cause) := by
  intro _ e he
  cases he
  rfl
end

