-- ==== Sys2Proof/Laws/Uplink.lean ====
section
/-! SUPPORT. What the loops and the uplink operations can do: each writes its own timeslot and the discard counters,
appends HOSTO records, reads no timing register, and is not refused when the parameters are lawful. -/

namespace Sys2Proof.Machine

/-! ## What an uplink operation on timeslot tn can do -/

/-- The registers no uplink rule reads (R300 (d)). -/
structure Timing where
  lastFn   : Fn
  lastTs   : Time
  deadline : Time

/-- A state with other timing registers. -/
def State.retime (s : State) (o : Timing) : State :=
  { s with clk := { s.clk with lastFn := o.lastFn, lastTs := o.lastTs, deadline := o.deadline } }

/-- From s to t an uplink operation on timeslot tn appended HOSTO records, counted, and wrote tn, of which it left
the configuration, the last burst's FN and the common lanes and queues. -/
structure UlStep (tn : Tn) (s t : State) : Prop where
  rest   : t = { s with tns := t.tns, out := t.out, disc := t.disc }
  emits  : ∃ more, t.out = s.out ++ more ∧ ∀ o ∈ more, o.port = .hosto
  others : slotOnly tn s t
  inside : t.slot tn = { s.slot tn with chans := (t.slot tn).chans }

theorem UlStep.refl (tn : Tn) (s : State) : UlStep tn s s := ⟨rfl, ⟨[], by simp, by simp⟩, slotOnly_refl tn s, rfl⟩

theorem UlStep.trans {tn : Tn} {s t u : State} (h1 : UlStep tn s t) (h2 : UlStep tn t u) : UlStep tn s u := by
  obtain ⟨a, ha, ha'⟩ := h1.emits
  obtain ⟨b, hb, hb'⟩ := h2.emits
  refine ⟨by rw [h2.rest, h1.rest], ⟨a ++ b, by rw [hb, ha, List.append_assoc], ?_⟩,
    slotOnly_trans h1.others h2.others, by rw [h2.inside, h1.inside]⟩
  intro o ho
  rcases List.mem_append.1 ho with h | h
  · exact ha' o h
  · exact hb' o h

theorem UlStep.listed {tn : Tn} {s t : State} (h : UlStep tn s t) : t.listed = s.listed := by rw [h.rest]

theorem UlStep.clk {tn : Tn} {s t : State} (h : UlStep tn s t) : t.clk = s.clk := by rw [h.rest]

theorem UlStep.cfg {tn : Tn} {s t : State} (h : UlStep tn s t) : t.cfg = s.cfg := by rw [h.rest]

theorem UlStep.ofModChan (tn : Tn) (ss : Ss) (s : State) (f : Channel → Channel) :
    UlStep tn s (s.modChan tn ss f) :=
  ⟨by simp [State.modChan, State.modSlot], ⟨[], by simp, by simp⟩, slotOnly_modSlot tn s _,
    by rw [slot_modChan, if_pos rfl]⟩

theorem UlStep.ofModLane (tn : Tn) (ss : Ss) (id : LaneId) (s : State) (f : Lane → Lane) :
    UlStep tn s (s.modLane tn ss id f) := .ofModChan tn ss s _

theorem UlStep.ofEmit (tn : Tn) (s : State) (b : Bytes) : UlStep tn s (s.emit .hosto b) :=
  ⟨rfl, ⟨_, rfl, by simp⟩, fun _ _ => rfl, rfl⟩

theorem UlStep.ofDiscard (tn : Tn) (s : State) (k : Counter) : UlStep tn s (s.discard k) :=
  ⟨rfl, ⟨[], by simp, by simp⟩, fun _ _ => rfl, rfl⟩

/-- An uplink operation that is never refused: what it can do, and that it reads no timing register. -/
def UlFn (tn : Tn) (f : State → State) : Prop :=
  ∀ s, UlStep tn s (f s) ∧ ∀ o, f (s.retime o) = (f s).retime o

/-- An uplink operation: what a next state of it can be, that it reads no timing register, and that lawful parameters
let it run. -/
structure UlOp (tn : Tn) (f : State → Res State) : Prop where
  step  : ∀ s t, f s = .ok t → UlStep tn s t
  time  : ∀ s o, f (s.retime o) = (f s).map fun t => t.retime o
  total : ∀ s, s.listed.lawful = true → ∃ t, f s = .ok t

theorem UlFn.op {tn : Tn} {f : State → State} (h : UlFn tn f) : UlOp tn fun s => .ok (f s) :=
  ⟨fun s t e => by cases e; exact (h s).1, fun s o => by simp [(h s).2, Except.map], fun s _ => ⟨_, rfl⟩⟩

theorem UlFn.comp {tn : Tn} {f g : State → State} (hf : UlFn tn f) (hg : UlFn tn g) : UlFn tn fun s => g (f s) :=
  fun s => ⟨(hf s).1.trans (hg _).1, fun o => (congrArg g ((hf s).2 o)).trans ((hg _).2 o)⟩

theorem UlFn.id (tn : Tn) : UlFn tn fun s => s := fun s => ⟨.refl tn s, fun _ => rfl⟩

theorem UlFn.ofModChan (tn : Tn) (ss : Ss) (f : Channel → Channel) : UlFn tn fun s => s.modChan tn ss f :=
  fun s => ⟨.ofModChan tn ss s f, fun _ => rfl⟩

theorem UlFn.ofModLane (tn : Tn) (ss : Ss) (id : LaneId) (f : Lane → Lane) : UlFn tn fun s => s.modLane tn ss id f :=
  fun s => ⟨.ofModLane tn ss id s f, fun _ => rfl⟩

theorem UlFn.ofDiscard (tn : Tn) (k : Counter) : UlFn tn fun s => s.discard k :=
  fun s => ⟨.ofDiscard tn s k, fun _ => rfl⟩

theorem UlFn.ite {tn : Tn} {f g : State → State} (c : State → Bool) (hc : ∀ s o, c (s.retime o) = c s)
    (hf : UlFn tn f) (hg : UlFn tn g) : UlFn tn fun s => if c s then f s else g s := by
  intro s
  constructor
  · show UlStep tn s (if c s then f s else g s)
    cases c s
    · exact (hg s).1
    · exact (hf s).1
  · intro o
    show (if c (s.retime o) then f (s.retime o) else g (s.retime o)) = (if c s then f s else g s).retime o
    rw [hc]
    cases c s
    · exact (hg s).2 o
    · exact (hf s).2 o

theorem UlFn.congr {tn : Tn} {f g : State → State} (h : UlFn tn f) (e : ∀ s, g s = f s) : UlFn tn g := by
  have : g = f := funext e
  rw [this]; exact h

@[simp] theorem retime_slot (s : State) (o : Timing) (tn : Tn) : (s.retime o).slot tn = s.slot tn := rfl
@[simp] theorem retime_chan (s : State) (o : Timing) (tn : Tn) (ss : Ss) :
    (s.retime o).chan tn ss = s.chan tn ss := rfl
@[simp] theorem retime_lane (s : State) (o : Timing) (tn : Tn) (ss : Ss) (id : LaneId) :
    (s.retime o).lane tn ss id = s.lane tn ss id := rfl
@[simp] theorem retime_cfg (s : State) (o : Timing) : (s.retime o).cfg = s.cfg := rfl
@[simp] theorem retime_listed (s : State) (o : Timing) : (s.retime o).listed = s.listed := rfl
@[simp] theorem retime_modSlot (s : State) (o : Timing) (tn : Tn) (f : TnState → TnState) :
    (s.retime o).modSlot tn f = (s.modSlot tn f).retime o := rfl
@[simp] theorem retime_modChan (s : State) (o : Timing) (tn : Tn) (ss : Ss) (f : Channel → Channel) :
    (s.retime o).modChan tn ss f = (s.modChan tn ss f).retime o := rfl
@[simp] theorem retime_emit (s : State) (o : Timing) (p : OutPort) (b : Bytes) :
    (s.retime o).emit p b = (s.emit p b).retime o := rfl
@[simp] theorem retime_emitLoop (s : State) (o : Timing) (tn : Tn) (ss : Ss) (w : LoopKind) (v : Int) :
    (s.retime o).emitLoop tn ss w v = (s.emitLoop tn ss w v).retime o := rfl

/-- An operation chosen by something the timing registers do not reach. -/
theorem UlFn.dep {tn : Tn} {β : Type} (k : State → β) (hk : ∀ s o, k (s.retime o) = k s) {f : β → State → State}
    (hf : ∀ b, UlFn tn (f b)) : UlFn tn fun s => f (k s) s :=
  fun s => ⟨(hf (k s) s).1, fun o => by
    show f (k (s.retime o)) (s.retime o) = _
    rw [hk]
    exact (hf (k s) s).2 o⟩

/-- A choice that is the same in every state. -/
theorem UlFn.cond {tn : Tn} {f g : State → State} (c : Prop) [Decidable c] (hf : UlFn tn f) (hg : UlFn tn g) :
    UlFn tn fun s => if c then f s else g s := by
  by_cases h : c
  · simp only [if_pos h]; exact hf
  · simp only [if_neg h]; exact hg

theorem UlFn.ofEmit (tn : Tn) (b : Bytes) : UlFn tn fun s => s.emit .hosto b := fun s => ⟨.ofEmit tn s b, fun _ => rfl⟩

/-! ## The loops (45_loops.md) -/

theorem emitLoop_fn (tn u : Tn) (ss : Ss) (w : LoopKind) (v : Int) : UlFn tn fun s => s.emitLoop u ss w v :=
  .ofEmit tn _

theorem pwrSample_fn (tn : Tn) (ss : Ss) (rssi : Int) : UlFn tn (pwrSample tn ss rssi) :=
  .ite (fun s => s.cfg.pwrLoopEn) (fun _ _ => rfl) (.ofModChan tn ss fun c => c.pwrSample rssi) (.id tn)

theorem pwrEval_fn (tn : Tn) (ss : Ss) : UlFn tn (pwrEval tn ss) :=
  .dep (fun s => (s.cfg, s.chan tn ss)) (fun _ _ => rfl) fun b =>
    .cond (pwrNewOf b.1 b.2 = b.2.msPwr.toInt) (.ofModChan tn ss fun c => { c with pwrCnt := 0, pwrMin := 0 })
      (((UlFn.ofModChan tn ss fun c => { c with pwrCnt := 0, pwrMin := 0 }).comp
        (.ofModChan tn ss fun c => { c with msPwr := BitVec.ofInt 8 (pwrNewOf b.1 b.2) })).comp
          (emitLoop_fn tn tn ss .pwr (pwrNewOf b.1 b.2)))

theorem pwrClock_fn (tn : Tn) (ss : Ss) : UlFn tn (pwrClock tn ss) :=
  .ite (fun s => s.cfg.pwrLoopEn) (fun _ _ => rfl)
    ((UlFn.ofModChan tn ss fun c => { c with pwrClk := !c.pwrClk }).comp
      (.ite (fun s => (s.chan tn ss).pwrClk) (fun _ _ => rfl) (.id tn) (pwrEval_fn tn ss))) (.id tn)

theorem taEval_fn (tn : Tn) (ss : Ss) : UlFn tn (taEval tn ss) :=
  .dep (fun s => s.chan tn ss) (fun _ _ => rfl) fun b =>
    .cond (taNewOf b = b.rqdTa) (.ofModChan tn ss fun c => { c with rqdTa := taNewOf b, taSum := 0, taCnt := 0 })
      ((UlFn.ofModChan tn ss fun c => { c with rqdTa := taNewOf b, taSum := 0, taCnt := 0 }).comp
        (emitLoop_fn tn tn ss .ta (taNewOf b).toNat))

theorem taSample_fn (tn : Tn) (ss : Ss) (toa : Int) : UlFn tn (taSample tn ss toa) := by
  have h1 : UlFn tn fun s => if (s.chan tn ss).taCnt = 16 then taEval tn ss s else s :=
    (UlFn.ite (fun s => decide ((s.chan tn ss).taCnt = 16)) (fun _ _ => rfl) (taEval_fn tn ss) (.id tn)).congr
      fun s => by simp
  have h2 := UlFn.ite (fun s => decide (s.cfg.taLoopEn = true ∧ (s.chan tn ss).ackTa = (s.chan tn ss).rqdTa))
    (fun _ _ => rfl)
    ((UlFn.ofModChan tn ss fun c => { c with
      taSum := BitVec.ofInt 32 (c.taSum.toInt + toa), taCnt := c.taCnt + 1 }).comp h1) (UlFn.id tn)
  refine h2.congr fun s => ?_
  simp only [taSample, decide_eq_true_eq]

theorem amrEval_fn (tn : Tn) (ss : Ss) : UlFn tn (amrEval tn ss) :=
  .dep (fun s => s.chan tn ss) (fun _ _ => rfl) fun b =>
    .cond (amrNewOf b = b.dlCmr) (.ofModChan tn ss fun c => { c with dlCmr := amrNewOf b, berSum := 0, berNum := 0 })
      ((UlFn.ofModChan tn ss fun c => { c with dlCmr := amrNewOf b, berSum := 0, berNum := 0 }).comp
        (emitLoop_fn tn tn ss .cmr (amrNewOf b).toNat))

theorem amrSample_fn (tn : Tn) (ss : Ss) (ber w : Nat) : UlFn tn (amrSample tn ss ber w) := by
  have h1 : UlFn tn fun s => if 48 ≤ (s.chan tn ss).berNum.toNat then amrEval tn ss s else s :=
    (UlFn.ite (fun s => decide (48 ≤ (s.chan tn ss).berNum.toNat)) (fun _ _ => rfl) (amrEval_fn tn ss) (.id tn)).congr
      fun s => by simp
  exact UlFn.ite (fun s => (s.chan tn ss).amrEn) (fun _ _ => rfl)
    (.ite (fun s => (s.chan tn ss).amrSynced) (fun _ _ => rfl)
      ((UlFn.ofModChan tn ss fun c => { c with
        berSum := c.berSum + BitVec.ofNat 32 (w * ber), berNum := c.berNum + BitVec.ofNat 8 w }).comp h1)
      (.ofModChan tn ss fun c => { c with berSum := 0, berNum := 0 })) (.id tn)

/-! ## Groups (R284 to R295) -/

theorem noteFt_fn (r : DecResult) (tn : Tn) (ss : Ss) : UlFn tn (noteFt r tn ss) :=
  .ite (fun _ => r.ftValid) (fun _ _ => rfl) (.ofModChan tn ss fun c => { c with ulFt := BitVec.ofNat 2 r.ft }) (.id tn)

theorem setUlFacch_fn (v : Bool) (tn : Tn) (ss : Ss) : UlFn tn (setUlFacch v tn ss) := .ofModChan tn ss _

theorem closedSacch_fn (o : Closed) (r : DecResult) (tn : Tn) (ss : Ss) : UlFn tn (closedSacch o r tn ss) := by
  unfold closedSacch
  by_cases h : o = .ok ∧ r.taValid = true
  · simp only [if_pos h]; exact (UlFn.ofModChan tn ss _).comp (pwrClock_fn tn ss)
  · simp only [if_neg h]; exact (UlFn.id tn).comp (pwrClock_fn tn ss)

theorem closedTchf_fn (o : Closed) (r : DecResult) (ber : Nat) (tn : Tn) (ss : Ss) :
    UlFn tn (closedTchf o r ber tn ss) := by
  unfold closedTchf
  have h1 : UlFn tn fun s => if o = .ok ∨ o = .bad then noteFt r tn ss s else s := by
    by_cases h : o = .ok ∨ o = .bad
    · simp only [if_pos h]; exact noteFt_fn r tn ss
    · simp only [if_neg h]; exact .id tn
  by_cases h : o = .bad ∨ (o = .ok ∧ r.kind ≠ .facch)
  · simp only [if_pos h]; exact h1.comp (amrSample_fn tn ss ber 1)
  · simp only [if_neg h]; exact h1

theorem closedTchh_fn (o : Closed) (r : DecResult) (ber : Nat) (tn : Tn) (ss : Ss) :
    UlFn tn (closedTchh o r ber tn ss) := by
  unfold closedTchh
  cases o
  · exact setUlFacch_fn false tn ss
  · exact setUlFacch_fn false tn ss
  · exact (noteFt_fn r tn ss).comp (amrSample_fn tn ss ber 2)
  · by_cases h : r.kind = .facch
    · simp only [if_pos h]; exact (noteFt_fn r tn ss).comp (setUlFacch_fn true tn ss)
    · simp only [if_neg h]; exact (noteFt_fn r tn ss).comp (amrSample_fn tn ss ber 2)

theorem closedHook_fn (ct : UlCt) (o : Closed) (r : DecResult) (ber : Nat) (tn : Tn) (ss : Ss) :
    UlFn tn (closedHook ct o r ber tn ss) := by
  unfold closedHook
  cases ct
  · exact .id tn
  · exact closedSacch_fn o r tn ss
  · exact closedTchf_fn o r ber tn ss
  · exact closedTchh_fn o r ber tn ss
  · exact .id tn

theorem burstHook_fn (ct : UlCt) (x : Burst) (tn : Tn) (ss : Ss) : UlFn tn (burstHook ct x tn ss) := by
  unfold burstHook
  cases ct
  · exact .id tn
  · exact (pwrSample_fn tn ss x.rssi).comp (taSample_fn tn ss x.toa)
  · exact .id tn
  · exact .id tn
  · exact .id tn

/-- The two records of REPORT, before its hook. -/
def reportRecords (ct : UlCt) (tn : Tn) (ss : Ss) (r : DecResult) (cont : Bool) (s : State) : State :=
  let l := s.lane tn ss (ulLaneId ct)
  let o := outcomeOf l r cont
  let s1 := s.emitMeas tn ss ct.toCt.code l.ulFirstFn (popcount4 l.ulMask) (o == .empty) l.rssiAvg
    (if o = .empty then 0 else berPpt r.nerr r.nbits) l.toaAvg
  match o with
  | .empty => s1.emitData tn ss ct.toCt.code .empty l.ulFirstFn []
  | .cont => s1.emitData tn ss ct.toCt.code .bad l.ulFirstFn []
  | .bad => s1.emitData tn ss ct.toCt.code .bad l.ulFirstFn []
  | .ok => s1.emitData tn ss (dataCode ct r.kind) (indKindOf r.kind) l.ulFirstFn r.payload

/-- REPORT is its two records and then the hook of its type. -/
theorem report_eq (ct : UlCt) (tn : Tn) (ss : Ss) (r : DecResult) (cont : Bool) (s : State) :
    report ct tn ss r cont s = closedHook ct (outcomeOf (s.lane tn ss (ulLaneId ct)) r cont) r
      (if outcomeOf (s.lane tn ss (ulLaneId ct)) r cont = .empty then 0 else berPpt r.nerr r.nbits) tn ss
      (reportRecords ct tn ss r cont s) := rfl

theorem reportRecords_fn (ct : UlCt) (tn : Tn) (ss : Ss) (r : DecResult) (cont : Bool) :
    UlFn tn (reportRecords ct tn ss r cont) := by
  intro s
  constructor
  · simp only [reportRecords]
    split <;> exact (UlStep.ofEmit tn s _).trans (.ofEmit tn _ _)
  · intro o
    simp only [reportRecords]
    show (match outcomeOf (s.lane tn ss (ulLaneId ct)) r cont with
      | .empty => _ | .cont => _ | .bad => _ | .ok => _) = _
    split <;> rfl

theorem report_fn (ct : UlCt) (tn : Tn) (ss : Ss) (r : DecResult) (cont : Bool) : UlFn tn (report ct tn ss r cont) := by
  intro s
  constructor
  · rw [report_eq]; exact (reportRecords_fn ct tn ss r cont s).1.trans (closedHook_fn _ _ _ _ _ _ _).1
  · intro o
    rw [report_eq, report_eq, (reportRecords_fn ct tn ss r cont s).2 o, ← (closedHook_fn _ _ _ _ _ _ _).2 o]
    rfl

theorem closeGroup_op (ct : UlCt) (tn : Tn) (ss : Ss) : UlOp tn (closeGroup ct tn ss) := by
  constructor
  · intro s t h
    simp only [closeGroup] at h
    split at h
    · cases h; exact (UlStep.ofModLane tn ss _ s _).trans (report_fn ct tn ss _ _ _).1
    · cases h
  · intro s o
    simp only [closeGroup]
    show (if decOk (decodeGroup ct tn ss s) then _ else _) = _
    split
    · simp only [Except.map]
      rw [← (report_fn ct tn ss _ _ _).2 o]
      rfl
    · rfl
  · intro s h
    have : decOk (decodeGroup ct tn ss s) = true := lawful_decStep h _ _ _ _ _ _
    exact ⟨_, by simp only [closeGroup, this, if_true]; rfl⟩

theorem UlOp.congr {tn : Tn} {f g : State → Res State} (h : UlOp tn f) (e : ∀ s, g s = f s) : UlOp tn g := by
  have : g = f := funext e
  rw [this]; exact h

/-- An operation followed by another. -/
theorem UlOp.seq {tn : Tn} {f g : State → Res State} (hf : UlOp tn f) (hg : UlOp tn g) :
    UlOp tn fun s => match f s with | .ok u => g u | .error e => .error e := by
  constructor
  · intro s t h
    split at h
    · next u hu => exact (hf.step s u hu).trans (hg.step u t h)
    · cases h
  · intro s o
    rw [hf.time]
    cases h : f s with
    | ok u => simp only [Except.map]; exact hg.time u o
    | error e => rfl
  · intro s h
    obtain ⟨u, hu⟩ := hf.total s h
    obtain ⟨t, ht⟩ := hg.total u (by rw [(hf.step s u hu).listed]; exact h)
    exact ⟨t, by rw [hu]; exact ht⟩

/-- A choice on something the timing registers do not reach. -/
theorem UlOp.ite {tn : Tn} {f g : State → Res State} (c : State → Bool) (hc : ∀ s o, c (s.retime o) = c s)
    (hf : UlOp tn f) (hg : UlOp tn g) : UlOp tn fun s => if c s then f s else g s := by
  constructor
  · intro s t h
    split at h
    · exact hf.step s t h
    · exact hg.step s t h
  · intro s o
    rw [hc]
    split
    · exact hf.time s o
    · exact hg.time s o
  · intro s h
    split
    · exact hf.total s h
    · exact hg.total s h

theorem forceClose_op (ct : UlCt) (tn : Tn) (ss : Ss) (bid : Bid) : UlOp tn (forceClose ct tn ss bid) :=
  .ite (fun s => (s.lane tn ss (ulLaneId ct)).forcesClose bid) (fun _ _ => rfl) (closeGroup_op ct tn ss) (UlFn.id tn).op

theorem takePosition_fn (ct : UlCt) (tn : Tn) (ss : Ss) (bid : Bid) (f : Fn) (x : Option Burst) :
    UlFn tn (takePosition ct tn ss bid f x) := by
  cases x with
  | none => exact .ofModLane tn ss _ _
  | some b => exact (UlFn.ofModLane tn ss (ulLaneId ct) fun l => l.accept bid f (some b)).comp (burstHook_fn ct b tn ss)

theorem rxLane_op (ct : UlCt) (tn : Tn) (ss : Ss) (bid : Bid) (f : Fn) (x : Option Burst) :
    UlOp tn (rxLane ct tn ss bid f x) := by
  have h2 : UlOp tn fun s => if bid.toNat + 1 = ct.toCt.groupLen then closeGroup ct tn ss s else .ok s := by
    by_cases h : bid.toNat + 1 = ct.toCt.groupLen
    · simp only [if_pos h]; exact closeGroup_op ct tn ss
    · simp only [if_neg h]; exact (UlFn.id tn).op
  have h1 := (forceClose_op ct tn ss bid).seq ((takePosition_fn ct tn ss bid f x).op.seq h2)
  refine h1.congr fun s => ?_
  unfold rxLane
  cases forceClose ct tn ss bid s <;> rfl

/-! ## Access bursts, idle positions and the dispatch (R283, R296 to R299) -/

theorem accessBurst_op (tn : Tn) (ind : RachResult → Burst → State → State) (x : Option Burst)
    (hi : ∀ r b, UlFn tn (ind r b)) : UlOp tn (accessBurst ind x) := by
  cases x with
  | none => exact (UlFn.id tn).op
  | some b =>
    constructor
    · intro s t h
      simp only [accessBurst] at h
      split at h
      · cases h
        split
        · exact (hi _ _ s).1
        · exact .ofDiscard _ _ _
      · cases h
    · intro s o
      simp only [accessBurst]
      show (if rachOk (s.rachDec (b.soft.take 148)) then
        Except.ok (if (s.rachDec (b.soft.take 148)).ok then ind (s.rachDec (b.soft.take 148)) b (s.retime o) else _)
        else _) = _
      split
      · simp only [Except.map]
        split
        · rw [(hi _ _ s).2 o]
        · rfl
      · rfl
    · intro s h
      exact ⟨_, by simp only [accessBurst, lawful_rachDec h, if_true]; rfl⟩

theorem rxRach_op (tn : Tn) (f : Fn) (x : Option Burst) : UlOp tn (rxRach tn f x) :=
  accessBurst_op tn (fun r b s => s.emitRach tn Ct.rach.code f r b) x fun _ _ => .ofEmit tn _

theorem rxPtcch_op (tn : Tn) (f : Fn) (x : Option Burst) : UlOp tn (rxPtcch tn f x) :=
  accessBurst_op tn (fun r b s => s.emitRach tn Ct.ptcch.code f r b) x fun _ _ => .ofEmit tn _

theorem hoAccess_op (tn : Tn) (ss : Ss) (f : Fn) (x : Option Burst) : UlOp tn (hoAccess tn ss f x) :=
  accessBurst_op tn (fun r b s => s.emitHo tn ss f r b) x fun _ _ => .ofEmit tn _

theorem rxIdle_fn (tn : Tn) (x : Option Burst) : UlFn tn (rxIdle x) := by
  cases x with
  | none => exact .id tn
  | some b => exact .ofDiscard tn .ulReject

theorem rxGroup_op (ct : UlCt) (tn : Tn) (ss : Ss) (bid : Bid) (f : Fn) (x : Option Burst) :
    UlOp tn (rxGroup ct tn ss bid f x) :=
  .ite (fun s => (s.chan tn ss).hoArm && ct != .sacch) (fun _ _ => rfl) (hoAccess_op tn ss f x)
    (rxLane_op ct tn ss bid f x)

theorem rxDispatch_op (tn : Tn) (e : Position) (f : Fn) (x : Option Burst) : UlOp tn (rxDispatch tn e f x) := by
  have hr : UlOp tn fun s => .ok (s.discard .ulReject) := (UlFn.ofDiscard tn .ulReject).op
  have hi : UlOp tn fun s => .ok (rxIdle x s) := (rxIdle_fn tn x).op
  have hact : ∀ g, UlOp tn g → UlOp tn fun s => if (s.chan tn e.ss).active then g s else .ok (rxIdle x s) :=
    fun g hg => .ite (fun s => (s.chan tn e.ss).active) (fun _ _ => rfl) hg hi
  by_cases hp : (isPsk8 x && e.ct != .pdtch) = true
  · exact hr.congr fun s => by unfold rxDispatch; rw [if_pos hp]
  · cases hct : e.ct
    · exact hi.congr fun s => by unfold rxDispatch; rw [if_neg hp, hct]
    · exact hi.congr fun s => by unfold rxDispatch; rw [if_neg hp, hct]
    · exact hi.congr fun s => by unfold rxDispatch; rw [if_neg hp, hct]
    · exact hi.congr fun s => by unfold rxDispatch; rw [if_neg hp, hct]
    · exact hi.congr fun s => by unfold rxDispatch; rw [if_neg hp, hct]
    · exact (hact _ (rxGroup_op .sdcch tn e.ss e.bid f x)).congr fun s => by unfold rxDispatch; rw [if_neg hp, hct]
    · exact (hact _ (rxGroup_op .sacch tn e.ss e.bid f x)).congr fun s => by unfold rxDispatch; rw [if_neg hp, hct]
    · exact (hact _ (rxGroup_op .tchf tn e.ss e.bid f x)).congr fun s => by unfold rxDispatch; rw [if_neg hp, hct]
    · exact (hact _ (rxGroup_op .tchh tn e.ss e.bid f x)).congr fun s => by unfold rxDispatch; rw [if_neg hp, hct]
    · exact (hact _ (rxGroup_op .pdtch tn e.ss e.bid f x)).congr fun s => by unfold rxDispatch; rw [if_neg hp, hct]
    · exact (hact _ (rxPtcch_op tn f x)).congr fun s => by unfold rxDispatch; rw [if_neg hp, hct]
    · exact (rxRach_op tn f x).congr fun s => by unfold rxDispatch; rw [if_neg hp, hct]

theorem rxPos_op (tn : Tn) (f : Fn) (x : Option Burst) : UlOp tn (rxPos tn f x) := by
  constructor
  · intro s t h
    unfold rxPos at h
    split at h
    · exact (rxDispatch_op tn _ f x).step s t h
    · cases h
  · intro s o
    have hm : (s.retime o).mapOf ((s.retime o).slot tn).comb tn f .ul = s.mapOf (s.slot tn).comb tn f .ul := rfl
    unfold rxPos
    rw [hm]
    cases positionOf (s.mapOf (s.slot tn).comb tn f .ul) with
    | some e => exact (rxDispatch_op tn e f x).time s o
    | none => rfl
  · intro s h
    obtain ⟨e, he⟩ := lawful_position h (s.slot tn).comb tn f .ul
    unfold rxPos
    rw [he]
    exact (rxDispatch_op tn e f x).total s h

/-- The MISSING positions of a gap, one after the other. -/
theorem missingRun_op (tn : Tn) (n : Nat) : ∀ f : Fn, UlOp tn (missingRun tn n f) := by
  induction n with
  | zero => intro f; exact (UlFn.id tn).op
  | succ n ih => intro f; exact (rxPos_op tn f none).seq (ih (fnInc f))

/-! ## The counters: no loop and no group counts a discard, and a MISSING position counts none (R282, R283) -/

theorem pwrSample_disc (tn : Tn) (ss : Ss) (rssi : Int) (s : State) : (pwrSample tn ss rssi s).disc = s.disc := by
  unfold pwrSample; split <;> rfl

theorem pwrEval_disc (tn : Tn) (ss : Ss) (s : State) : (pwrEval tn ss s).disc = s.disc := by
  simp only [pwrEval]; split <;> rfl

theorem pwrClock_disc (tn : Tn) (ss : Ss) (s : State) : (pwrClock tn ss s).disc = s.disc := by
  unfold pwrClock
  split
  · simp only []
    split
    · rfl
    · exact pwrEval_disc tn ss _
  · rfl

theorem taEval_disc (tn : Tn) (ss : Ss) (s : State) : (taEval tn ss s).disc = s.disc := by
  simp only [taEval]; split <;> rfl

theorem taSample_disc (tn : Tn) (ss : Ss) (toa : Int) (s : State) : (taSample tn ss toa s).disc = s.disc := by
  simp only [taSample]
  split
  · split
    · exact taEval_disc tn ss _
    · rfl
  · rfl

theorem amrEval_disc (tn : Tn) (ss : Ss) (s : State) : (amrEval tn ss s).disc = s.disc := by
  simp only [amrEval]; split <;> rfl

theorem amrSample_disc (tn : Tn) (ss : Ss) (ber w : Nat) (s : State) : (amrSample tn ss ber w s).disc = s.disc := by
  simp only [amrSample]
  split
  · split
    · split
      · exact amrEval_disc tn ss _
      · rfl
    · rfl
  · rfl

theorem noteFt_disc (r : DecResult) (tn : Tn) (ss : Ss) (s : State) : (noteFt r tn ss s).disc = s.disc := by
  unfold noteFt; split <;> rfl

theorem closedHook_disc (ct : UlCt) (o : Closed) (r : DecResult) (ber : Nat) (tn : Tn) (ss : Ss) (s : State) :
    (closedHook ct o r ber tn ss s).disc = s.disc := by
  cases ct
  · rfl
  · show (closedSacch o r tn ss s).disc = _
    rw [closedSacch, pwrClock_disc]
    split <;> rfl
  · show (closedTchf o r ber tn ss s).disc = _
    simp only [closedTchf]
    split
    · rw [amrSample_disc]
      split
      · exact noteFt_disc r tn ss s
      · rfl
    · split
      · exact noteFt_disc r tn ss s
      · rfl
  · show (closedTchh o r ber tn ss s).disc = _
    cases o
    · rfl
    · rfl
    · exact (amrSample_disc tn ss ber 2 _).trans (noteFt_disc r tn ss s)
    · simp only [closedTchh]
      split
      · exact noteFt_disc r tn ss s
      · exact (amrSample_disc tn ss ber 2 _).trans (noteFt_disc r tn ss s)
  · rfl

theorem report_disc (ct : UlCt) (tn : Tn) (ss : Ss) (r : DecResult) (cont : Bool) (s : State) :
    (report ct tn ss r cont s).disc = s.disc := by
  rw [report_eq, closedHook_disc]
  simp only [reportRecords]
  split <;> rfl

theorem closeGroup_disc {ct : UlCt} {tn : Tn} {ss : Ss} {s t : State} (h : closeGroup ct tn ss s = .ok t) :
    t.disc = s.disc := by
  simp only [closeGroup] at h
  split at h
  · cases h; exact report_disc ct tn ss _ _ _
  · cases h

theorem takePosition_disc (ct : UlCt) (tn : Tn) (ss : Ss) (bid : Bid) (f : Fn) (x : Option Burst) (s : State) :
    (takePosition ct tn ss bid f x s).disc = s.disc := by
  cases x with
  | none => rfl
  | some b =>
    cases ct
    · rfl
    · exact (taSample_disc tn ss b.toa _).trans (pwrSample_disc tn ss b.rssi _)
    · rfl
    · rfl
    · rfl

/-- A group position counts no discard, received or MISSING. -/
theorem rxLane_disc {ct : UlCt} {tn : Tn} {ss : Ss} {bid : Bid} {f : Fn} {x : Option Burst} {s t : State}
    (h : rxLane ct tn ss bid f x s = .ok t) : t.disc = s.disc := by
  unfold rxLane at h
  cases hc : forceClose ct tn ss bid s with
  | error e => rw [hc] at h; cases h
  | ok u =>
    have hu : u.disc = s.disc := by
      unfold forceClose at hc
      split at hc
      · exact closeGroup_disc hc
      · cases hc; rfl
    rw [hc] at h
    simp only at h
    split at h
    · rw [closeGroup_disc h, takePosition_disc, hu]
    · cases h; rw [takePosition_disc, hu]

/-- A MISSING position counts no discard (R283). -/
theorem rxPos_missing_disc {tn : Tn} {f : Fn} {s t : State} (h : rxPos tn f none s = .ok t) : t.disc = s.disc := by
  unfold rxPos at h
  split at h
  · next e _ =>
    have hg : ∀ ct, (if (s.chan tn e.ss).active then rxGroup ct tn e.ss e.bid f none s else .ok (rxIdle none s)) = .ok t →
        t.disc = s.disc := by
      intro ct h
      split at h
      · unfold rxGroup at h
        split at h
        · cases h; rfl
        · exact rxLane_disc h
      · cases h; rfl
    unfold rxDispatch at h
    rw [if_neg (by simp [isPsk8])] at h
    simp only at h
    cases hct : e.ct <;> rw [hct] at h <;> simp only at h
    case sdcch => exact hg _ h
    case sacch => exact hg _ h
    case tchf => exact hg _ h
    case tchh => exact hg _ h
    case pdtch => exact hg _ h
    case ptcch => split at h <;> cases h <;> rfl
    all_goals (cases h; rfl)
  · cases h

/-- A gap counts no discard (R282). -/
theorem missingRun_disc {tn : Tn} (n : Nat) : ∀ {f : Fn} {s t : State}, missingRun tn n f s = .ok t → t.disc = s.disc := by
  induction n with
  | zero => intro f s t h; cases h; rfl
  | succ n ih =>
    intro f s t h
    simp only [missingRun] at h
    split at h
    · next u hu => rw [ih h, rxPos_missing_disc hu]
    · cases h

end Sys2Proof.Machine
end

