-- ==== Sys2Proof/Tests/Slice0.lean ====
section
/-! SUPPORT. The model's own tests: an ill-formed term for each check of WellFormed, words written out from
30_encoding.md, one or two small steps per instruction with the results of 95_test_vectors.md, and a state that meets
the hypotheses of each statement. Each expected result is the spec's; the number of its vector stands in the docstring. -/

namespace Sys2Proof.Tests

set_option Elab.async false

open Sys2Proof Sys2Proof.Machine

/-! ## Helpers -/

/-- A next state that passes a check. -/
def ok (o : Host.Outcome State Fault Refusal) (p : State → Bool) : Bool :=
  match o with
  | .next s => p s
  | .fault _ => false
  | .refused _ => false

/-- A refusal for the reason given. -/
def refusedFor (o : Host.Outcome State Fault Refusal) (r : Refusal) : Bool :=
  match o with
  | .refused r' => r' == r
  | .next _ => false
  | .fault _ => false

/-- The state after reset with the interleaver state and PQ_DEPTH of 95_test_vectors.md 1.2 listed. -/
def base : State :=
  { State.reset with
    tns := Vector.replicate 8 (TnState.powerOn ⟨[]⟩)
    cfg := { State.reset.cfg with txAdv := 0, minDbm := 5, maxDbm := 33 }
    listed := { Listed.nothing with ilv0 := some ⟨[]⟩, pqDepth := some 3 } }

/-- The clock unit in another state. -/
def State.inClk (s : State) (c : ClkState) : State := { s with clk := { s.clk with clkState := c } }

/-- SYNC at LAST_FN f with the phase t. -/
def syncAt (f : Fn) (t : Time) : State :=
  { base with clk := { base.clk with
      clkState := .sync, armed := true, lastFn := f, lastTs := t, deadline := t + 4615 } }

/-- FATAL with cause 1. -/
def fatalState : State := { base with clk := { base.clk with clkState := .fatal, fatalCause := 1 } }

/-- A change of the global configuration. -/
def State.modCfg (s : State) (f : GlobalCfg → GlobalCfg) : State := { s with cfg := f s.cfg }

/-- A change of the listed values. -/
def State.modListed (s : State) (f : Listed → Listed) : State := { s with listed := f s.listed }

/-- Timeslot tn with the combination given and channel 0 active. -/
def State.slotOn (s : State) (tn : Tn) (comb : BitVec 8) : State :=
  (s.modSlot tn fun t => { t with comb := comb }).modChan tn 0 fun c => { c with active := true }

/-- One MAP value listed. -/
def State.withMap (s : State) (comb : BitVec 8) (tn : Tn) (fn : Fn) (dir : Dir) (ct bid facchOk : Nat) : State :=
  State.modListed s fun l => { l with map := (⟨comb, tn, fn, dir⟩, ⟨ct, 0, bid, facchOk⟩) :: l.map }

/-- A reset channel of `base`. -/
def chan0 : Channel := Channel.powerOn ⟨[]⟩

/-- A received burst of 148 zero soft bits (R104). -/
def burst (rssi toa : Int) : Burst :=
  { rssi := rssi, toa := toa, soft := List.replicate 148 127, modulation := .gmsk }

/-- An 8PSK burst. -/
def burst8 : Burst := { rssi := -16, toa := 0, soft := List.replicate 444 127, modulation := .psk8 }

/-- A decoded block without errors. -/
def decoded (kind : CodecKind) (p : Bytes) : DecResult :=
  { ilv := ⟨[]⟩, ok := true, kind := kind, payload := p, nerr := 0, nbits := 456, ftValid := false, ft := 0
    taValid := false, ta := 0 }

/-- The key DEC_STEP is asked under for a group whose slots are `slots`. -/
def decKey (ct : UlCt) (slots : List (List Int)) (mask : Nat) : DecKey :=
  { ct := ct, mode := 0, ilv := ⟨[]⟩, slots := slots, mask := mask, cont := false }

/-- Four all-zero GMSK slots as ENC_STEP's answer. -/
def enc4 : EncResult := { ilv := ⟨[true]⟩, slots := List.replicate 4 ⟨.gmsk, List.replicate 116 true⟩ }

/-- An uplink datagram of n soft bytes 0x00 (E20). -/
def datagram (tn : Byte) (fn : BitVec 32) (n : Nat) : Bytes :=
  tn :: bytes32 fn ++ [0x10, 0x00, 0xF0] ++ List.replicate n 0

/-- "IND CLOCK " and the text given. -/
def clkText (t : Bytes) : Bytes := [0x49, 0x4E, 0x44, 0x20, 0x43, 0x4C, 0x4F, 0x43, 0x4B, 0x20] ++ t

/-! ## WellFormed refuses an ill-formed term of each check -/

theorem test_wf_ulNb : WellFormed (.ulBurstNb (List.replicate 155 0)) = false := by decide +kernel
theorem test_wf_ul8 : WellFormed (.ulBurst8psk (List.replicate 451 0)) = false := by decide +kernel
theorem test_wf_push : WellFormed (.dlqPush (.bcch 0) (List.replicate 256 0)) = false := by decide +kernel
theorem test_wf_reserved : WellFormed (.hostReserved [0x01]) = false := by decide
theorem test_wf_fn :
    WellFormed (.anchor 2715648 0) = false ∧ WellFormed (.clkApply 2715648 0) = false
      ∧ WellFormed (.resync 2715648 0) = false ∧ WellFormed (.catchUp 2715648 0) = false
      ∧ WellFormed (.schedFn 2715648) = false ∧ WellFormed (.txIdle 0 2715648) = false
      ∧ WellFormed (.txFcch 0 2715648) = false ∧ WellFormed (.txSch 0 2715648) = false
      ∧ WellFormed (.txBcch 0 0 2715648) = false ∧ WellFormed (.txCcch 0 0 2715648) = false
      ∧ WellFormed (.txSdcch 0 0 0 2715648) = false ∧ WellFormed (.txSacch 0 0 0 2715648) = false
      ∧ WellFormed (.txTchf 0 0 0 2715648) = false ∧ WellFormed (.txPdtch 0 0 0 2715648) = false
      ∧ WellFormed (.txPtcch 0 0 0 2715648) = false ∧ WellFormed (.txRachAsIdle 0 2715648) = false
      ∧ WellFormed (.ulGap 0 0 2715648) = false ∧ WellFormed (.rxMissing 0 2715648) = false := by decide
theorem test_wf_delay : WellFormed (.delay 0 0) = false ∧ WellFormed (.delay 65536 0) = false := by decide
theorem test_wf_produce : WellFormed (.tickProduce 0) = false := by decide
theorem test_wf_dispatch : WellFormed (.txDispatch 0 ⟨.tchh, 0, 2, false⟩ 0) = false := by decide
theorem test_wf_txTchh : WellFormed (.txTchh 0 0 2 false 0) = false := by decide
theorem test_wf_txGroup : WellFormed (.txGroup .tchh 0 0 2 false 0) = false := by decide
theorem test_wf_slot : WellFormed (.emitSlot 0 0 ⟨.gmsk, List.replicate 115 true⟩) = false := by decide
theorem test_wf_asm : WellFormed (.asmNb (List.replicate 116 true) (List.replicate 25 true)) = false := by decide
theorem test_wf_emitDl : WellFormed (.emitDl 0 0 (List.replicate 147 true)) = false := by decide +kernel
theorem test_wf_burst :
    WellFormed (.ulSeq 0 0 { burst 129 0 with rssi := 129 }) = false ∧ WellFormed (.rxPos 0 0 (some (burst 0 32768))) = false
      ∧ WellFormed (.rxIdle (some { burst 0 0 with soft := [128] })) = false
      ∧ WellFormed (.rxRach 0 0 (some { burst 0 0 with modulation := .psk8 })) = false
      ∧ WellFormed (.rxPtcch 0 0 0 (some (burst (-128) 0))) = false
      ∧ WellFormed (.hoAccess 0 0 0 (some (burst 0 (-32769)))) = false
      ∧ WellFormed (.rxSdcch 0 0 0 2715648 none) = false ∧ WellFormed (.rxSacch 0 0 0 2715648 none) = false
      ∧ WellFormed (.rxTchf 0 0 0 2715648 none) = false ∧ WellFormed (.rxPdtch 0 0 0 2715648 none) = false := by
  decide +kernel
theorem test_wf_rxLane : WellFormed (.rxLane .tchh 0 0 2 0 none) = false ∧ WellFormed (.rxTchh 0 0 2 0 none) = false := by
  decide
theorem test_wf_report :
    WellFormed (.report .tchf 0 0 (decoded .data []) true) = false
      ∧ WellFormed (.report .tchf 0 0 (decoded .fill []) false) = false := by decide
theorem test_wf_samples :
    WellFormed (.pwrSample 0 0 129) = false ∧ WellFormed (.taSample 0 0 32768) = false
      ∧ WellFormed (.amrSample 0 0 10001 1) = false ∧ WellFormed (.amrSample 0 0 0 3) = false := by decide
theorem test_wf_cfgData : WellFormed (.cfgData 5 0) = false := by decide
theorem test_wf_dataInd :
    WellFormed (.dataInd 8 0 7 0 0 []) = false ∧ WellFormed (.dataInd 0 8 7 0 0 []) = false
      ∧ WellFormed (.dataInd 0 0 12 0 0 []) = false ∧ WellFormed (.dataInd 0 0 7 5 0 []) = false
      ∧ WellFormed (.dataInd 0 0 7 0 2715648 []) = false ∧ WellFormed (.dataInd 0 0 7 3 0 [1]) = false
      ∧ WellFormed (.dataInd 0 0 7 0 0 (List.replicate 256 0)) = false := by
  decide +kernel
theorem test_wf_measInd :
    WellFormed (.measInd 0 0 9 0 4 0 0 0 0) = false ∧ WellFormed (.measInd 0 0 7 0 5 0 0 0 0) = false
      ∧ WellFormed (.measInd 0 0 7 0 4 2 0 0 0) = false ∧ WellFormed (.measInd 0 0 7 0 4 0 0 10001 0) = false := by decide
theorem test_wf_access :
    WellFormed (.rachInd 0 5 0 0 0 0 0) = false ∧ WellFormed (.rachInd 0 13 0 2048 0 0 0) = false
      ∧ WellFormed (.hoInd 0 0 0 2048 0 0 0) = false ∧ WellFormed (.hoInd 0 8 0 0 0 0 0) = false := by decide
theorem test_wf_loopInd : WellFormed (.loopInd 0 0 3 0) = false := by decide
theorem test_wf_fatalInd : WellFormed (.fatalInd 0) = false ∧ WellFormed (.fatalInd 4) = false := by decide

/-! ## Words written out from 30_encoding.md -/

/-- R111, R112: the opcode alone. -/
theorem test_decode_link : decodeTableWord 8 0x01 = some .linkOpen ∧ decodeTableWord 8 0x02 = some .linkClose := by decide
/-- E42: `10 00 04`. -/
theorem test_decode_cfgRd : decodeTableWord 24 0x040010 = some (.cfgRd 4) := by decide
/-- E45: `11 00 14 00 00 00 14`. -/
theorem test_decode_cfgWr : decodeTableWord 56 0x14000000140011 = some (.cfgWr 0x14 20) := by decide
/-- E47: `20 00 00 00 02 01 02`, and a queue of a dedicated channel. -/
theorem test_decode_push :
    decodeHost [0x20, 0, 0, 0, 2, 1, 2] = .dlqPush (.bcch 0) [1, 2]
      ∧ decodeHost [0x20, 7, 4, 6, 0] = .dlqPush (.assoc 7 6) [] := by decide
/-- E41, E43, E46, E48 to E54. -/
theorem test_decode_reserved :
    ([[1, 0], [0x10, 0], [0x11, 0, 0x14, 0, 0, 0x14], [0x20, 0, 0, 0, 3, 1, 2], [0x20, 8, 0, 0, 0], [0x20, 0, 5, 0, 0],
      [0x20, 0, 1, 1, 0], [0x20, 0, 2, 8, 0], [], [0x00], [0x03], [0x12], [0x21], [0x81], [0xF0], [0xFF]] : List Bytes).all
      (fun b => decodeHost b == .hostReserved b) = true := by decide
/-- E1 to E6: valid clock datagrams. -/
theorem test_decode_clk :
    parseClk (clkText [0x31, 0x30, 0x30]) = some 100
      ∧ parseClk (clkText [0x30, 0x30, 0x30, 0x30, 0x31, 0x30, 0x31]) = some 101
      ∧ parseClk (clkText [0x32, 0x37, 0x31, 0x35, 0x36, 0x34, 0x37]) = some 2715647
      ∧ parseClk (clkText [0x31, 0x30, 0x30, 0, 0, 0]) = some 100 := by decide
/-- E3, E5, E7, E9, E10, E13: malformed clock datagrams. -/
theorem test_decode_clk_malformed :
    ([[0x30, 0x30, 0x30, 0x30, 0x30, 0x31, 0x30, 0x31], [0x32, 0x37, 0x31, 0x35, 0x36, 0x34, 0x38],
      [0x31, 0x30, 0x30, 0x20], [], [0x2D, 0x35], [0x31, 0x78]] : List Bytes).all
      (fun t => (parseClk (clkText t)).isNone) = true := by decide
/-- E20 to E25, E33. -/
theorem test_decode_ul :
    parseUl .gmsk 148 (datagram 0 12 148) = some (0, 12, burst (-16) 240)
      ∧ (parseUl .gmsk 148 (datagram 7 0x00296FFF 148)).isSome = true
      ∧ (parseUl .psk8 444 (datagram 0 12 444)).isSome = true := by decide +kernel
/-- E31, E32: TN 8, FN H. -/
theorem test_decode_ul_malformed :
    parseUl .gmsk 148 (datagram 8 12 148) = none ∧ parseUl .gmsk 148 (datagram 0 0x00297000 148) = none := by decide +kernel
/-- E26: soft bytes 0x00, 0x7F, 0xFE, 0xFF. -/
theorem test_decode_soft : ([0x00, 0x7F, 0xFE, 0xFF] : Bytes).map softOf = [127, 0, -127, -127] := by decide
/-- R109: a timer expiry has no bytes. -/
theorem test_decode_tick : decodeEvent ⟨.timer, 6615, []⟩ = .ok (.tick 6615) := by rfl
/-- R116 to R123: one record of each output opcode. -/
theorem test_decode_outputs :
    decodeOutput [0x81, 0, 4, 0, 0, 0, 3] = some (.cfgData 4 3)
      ∧ decodeOutput [0x90, 0, 0, 7, 4, 0, 0, 0, 12, 0] = some (.dataInd 0 0 7 4 12 [])
      ∧ decodeOutput [0x91, 0, 0, 6, 0, 0, 0, 12, 4, 0, 0xFF, 0xF0, 0, 0, 0, 0xF0] = some (.measInd 0 0 6 12 4 0 0xFFF0 0 0xF0)
      ∧ decodeOutput [0x92, 1, 0x0D, 0, 0, 0, 0x33, 1, 0xA5, 2, 0, 0, 0, 0xFF, 0xC4]
        = some (.rachInd 1 13 51 0x1A5 512 0 0xFFC4)
      ∧ decodeOutput [0x93, 0, 0, 0, 0, 0, 0x0D, 0, 5, 2, 0, 0, 0, 0xFF, 0xC4] = some (.hoInd 0 0 13 5 512 0 0xFFC4)
      ∧ decodeOutput [0x94, 0, 0, 1, 0, 1] = some (.loopInd 0 0 1 1)
      ∧ decodeOutput [0xF0, 2] = some (.fatalInd 2) := by decide
/-- R103: a handler for each code MAP may return, in each direction; codes 9, 10, 14, 15 have none. -/
theorem test_decode_ct :
    decodeTx 2 1 0 0 false 51 = .ok (.txSch 1 51) ∧ decodeTx 8 0 3 1 true 5 = .ok (.txTchh 0 3 1 true 5)
      ∧ decodeRx 6 0 1 2 12 none = .ok (.rxSacch 0 1 2 12 none) ∧ decodeRx 13 1 0 0 51 none = .ok (.rxRach 1 51 none)
      ∧ [9, 10, 14, 15].all (fun c => ctOf c == none) = true := ⟨rfl, rfl, rfl, rfl, rfl⟩

/-! ## The clock unit (95_test_vectors.md 3.4) -/

/-- UNSYNC. -/
def unsync : State := State.inClk base .unsync

/-- The phase of a clock unit: LAST_FN, LAST_TS, DEADLINE, NO_CLK. -/
def phase (s : State) : Nat × Nat × Nat × Nat :=
  (s.clk.lastFn.toNat, s.clk.lastTs.toNat, s.clk.deadline.toNat, s.clk.noClk.toNat)

/-- SYNC with NO_CLK n. -/
def syncNo (f : Fn) (t : Time) (n : BitVec 16) : State :=
  let s := syncAt f t
  { s with clk := { s.clk with noClk := n } }

/-- K2. -/
theorem test_clkInd :
    ok (exec (.clkInd (clkText [0x38, 0x30]) 1000) unsync)
      (fun t => t.clk.clkState == .sync && t.clk.armed && phase t == (80, 1000, 5615, 0)) = true := by decide +kernel
/-- F4, E9. -/
theorem test_clkInd_dropped :
    ok (exec (.clkInd (clkText [0x35]) 0) fatalState) (fun t => t.disc.stateIgnored == 1 && t.clk == fatalState.clk) = true
      ∧ ok (exec (.clkInd (clkText []) 0) fatalState) (fun t => t.disc.clkMalformed == 1) = true := by decide +kernel
/-- K1, F1. -/
theorem test_linkOpen :
    ok (exec .linkOpen (State.slotOn base 0 1)) (fun t =>
        t.clk.statusWord == 1 && (t.slot 0).comb == 0 && !(t.chan 0 0).active) = true
      ∧ ok (exec .linkOpen fatalState) (fun t => t.clk.statusWord == 0x13) = true := by decide +kernel
/-- F2. -/
theorem test_linkClose : ok (exec .linkClose fatalState) (fun t => t.clk.statusWord == 0x10) = true := by decide +kernel
/-- K3, K4. -/
theorem test_tick :
    ok (exec (.tick 20000) (syncAt 100 6615)) (fun t => phase t == (102, 15845, 20460, 2)) = true
      ∧ ok (exec (.tick 231750) (syncAt 500 1000)) (fun t => phase t == (550, 231750, 236365, 50)) = true := by
  decide +kernel
/-- K5, K6. -/
theorem test_tick_fatal :
    ok (exec (.tick 231751) (syncAt 500 1000)) (fun t =>
        t.clk.statusWord == 0x23 && phase t == (500, 1000, 236365, 50) && t.out == [⟨.hosto, [0xF0, 2]⟩]) = true
      ∧ ok (exec (.tick 5615) (syncNo 500 1000 400)) (fun t =>
        t.clk.statusWord == 0x13 && t.out == [⟨.hosto, [0xF0, 1]⟩]) = true := by decide +kernel
/-- K2: the anchor alone does not move the state. -/
theorem test_anchor :
    ok (exec (.anchor 80 1000) unsync) (fun t => phase t == (80, 1000, 5615, 0) && t.clk.clkState == .unsync) = true := by
  decide +kernel
/-- K13, K15. -/
theorem test_clkApply :
    ok (exec (.clkApply 151 7000) (syncAt 100 0)) (fun t => phase t == (151, 7000, 11615, 0) && t.clk.resyncs == 1) = true
      ∧ ok (exec (.clkApply 49 7000) (syncAt 100 0)) (fun t => t.clk.lastFn == 49 && t.clk.resyncs == 1) = true := by
  decide +kernel
/-- W2. -/
theorem test_resync :
    ok (exec (.resync 2000 24000) (syncNo 1003 23145 1)) (fun t =>
      phase t == (2000, 24000, 28615, 1) && t.clk.resyncs == 1) = true := by decide +kernel
/-- K8. -/
theorem test_delay :
    ok (exec (.delay 2 9300) (syncAt 1002 9230)) (fun t => phase t == (1002, 18530, 23145, 0)) = true := by decide +kernel
/-- W1, and K11 across the wrap. -/
theorem test_catchUp :
    ok (exec (.catchUp 100 2000) (syncAt 80 1000)) (fun t => phase t == (100, 2000, 6615, 0)) = true
      ∧ ok (exec (.catchUp 5 100) (syncAt 2715640 0)) (fun t => phase t == (5, 100, 4715, 0)) = true := by decide +kernel
/-- K6, K7. -/
theorem test_tickLiveness :
    ok (exec (.tickLiveness 5615) (syncNo 500 1000 400)) (fun t => t.clk.statusWord == 0x13) = true
      ∧ ok (exec (.tickLiveness 5615) (syncNo 500 1000 399)) (fun t =>
        t.clk.statusWord == 6 && phase t == (500, 1000, 10230, 400)) = true := by decide +kernel
/-- K5, K4, and R153's other stall. -/
theorem test_tickStall :
    ok (exec (.tickStall 231751) (syncAt 500 1000)) (fun t => t.clk.statusWord == 0x23) = true
      ∧ ok (exec (.tickStall 231750) (syncAt 500 1000)) (fun t => t.clk.statusWord == 6) = true
      ∧ ok (exec (.tickStall 999) (syncAt 500 1000)) (fun t => t.clk.statusWord == 0x33) = true := by decide +kernel
/-- K3. -/
theorem test_tickProduce :
    ok (exec (.tickProduce 2) (syncAt 100 6615)) (fun t => t.clk.lastFn == 102 && t.clk.lastTs == 15845) = true := by
  decide +kernel
/-- K5. -/
theorem test_fatal :
    ok (exec (.fatal .stallLate) (syncAt 500 1000)) (fun t =>
      t.clk.statusWord == 0x23 && t.out == [⟨.hosto, [0xF0, 2]⟩]) = true := by decide +kernel

/-! ## The configuration port (95_test_vectors.md 3.5) -/

/-- E42, E44, and ID and the reserved 0x54. -/
theorem test_cfgRd :
    ok (exec (.cfgRd 4) base) (fun t => t.out == [⟨.hosto, [0x81, 0, 4, 0, 0, 0, 3]⟩]) = true
      ∧ ok (exec (.cfgRd 0) base) (fun t => t.out == [⟨.hosto, [0x81, 0, 0, 0, 0, 0, 1]⟩]) = true
      ∧ ok (exec (.cfgRd 0x54) base) (fun t => t.out == [⟨.hosto, [0x81, 0, 0x54, 0, 0, 0, 0]⟩]) = true
      ∧ ok (exec (.cfgRd 5) base) (fun t => t.out == [] && t.disc.hostMalformed == 1) = true := by decide +kernel
/-- Several instructions one after another. -/
def runAll (s : State) (is : List Instr) : Host.Outcome State Fault Refusal := is.foldl thenExec (.next s)
/-- G2, G4, G8. -/
theorem test_cfgWr :
    ok (runAll base [.cfgWr 4 0xFFFFFFFF, .cfgRd 4]) (fun t => t.out == [⟨.hosto, [0x81, 0, 4, 0, 0, 0, 7]⟩]) = true
      ∧ ok (runAll base [.cfgWr 0x1000 0x21, .cfgWr 0x1004 0x00030003, .cfgRd 0x1004])
        (fun t => t.out == [⟨.hosto, [0x81, 0x10, 4, 0, 2, 0, 2]⟩]) = true
      ∧ ok (runAll base [.cfgWr 0x1018 0x3F, .cfgWr 0x1000 1, .cfgRd 0x1018])
        (fun t => t.out == [⟨.hosto, [0x81, 0x10, 0x18, 0, 0, 0x3F, 0x3F]⟩]) = true := by decide +kernel
/-- G6. -/
theorem test_cfgWr_comb :
    ok (exec (.cfgWr 0x100 2) (State.slotOn base 0 1)) (fun t =>
      (t.slot 0).comb == 2 && !(t.chan 0 0).active && !(t.slot 0).ulLastValid) = true := by decide +kernel
/-- Q3, Q4, Q5. -/
theorem test_dlqPush :
    ok (exec (.dlqPush (.speech 0 0) [0xAA]) (State.inClk (base.modSlot 0 fun t => { t with comb := 1 }) .unsync))
        (fun t => t.disc.dlqReject == 1) = true
      ∧ ok (runAll (State.inClk (State.slotOn base 0 1) .unsync) (List.replicate 5 (.dlqPush (.speech 0 0) [0xAA])))
        (fun t => (t.chan 0 0).qSpeech == List.replicate 4 [0xAA] && t.disc.dlqReject == 1) = true := by decide +kernel
/-- E54, F8. -/
theorem test_hostReserved :
    ok (exec (.hostReserved [0x03]) base) (fun t => t.disc.hostMalformed == 1) = true
      ∧ ok (exec (.hostReserved []) { base with disc := { base.disc with hostMalformed := 255 } })
        (fun t => t.disc.hostMalformed == 255) = true := by decide +kernel

/-! ## The downlink (95_test_vectors.md 3.6) -/

/-- The one DLD record of a header and 148 equal bits. -/
def dld (h : Bytes) (b : Byte) : List Output := [⟨.dld, h ++ List.replicate 148 b⟩]
/-- C0 1 with a DUMMY_BURST of ones and an FCCH_BURST of zeros. -/
def carrier : State :=
  State.modListed (State.modCfg base fun g => { g with c0 := true }) fun l =>
    { l with dummy := some (List.replicate 148 true), fcch := some (List.replicate 148 false) }
/-- The keys of ENC_STEP listed, each answering four slots of ones. -/
def State.withEnc (s : State) (ks : List EncKey) : State :=
  State.modListed s fun l => { l with enc := ks.map fun k => (k, enc4) }
/-- The two answers of ENC_STEP for a TCH/H, of two slots. -/
def State.withEncH (s : State) (ks : List EncKey) : State :=
  State.modListed s fun l => { l with enc := ks.map fun k => (k, { enc4 with slots := enc4.slots.take 2 }) }
/-- ENC_STEP's key in mode 0. -/
def encKey (ct : LaneCt) (k : CodecKind) (p : Bytes) : EncKey :=
  { ct := ct, kind := k, mode := 0, cmr := 0, payload := p, ilv := ⟨[]⟩ }
/-- FILLER 0x2B and BFI 0x00 of every type used. -/
def State.withFill (s : State) : State :=
  State.modListed s fun l =>
    { l with
      filler := [.bcch, .ccch, .sdcch, .sacch, .tchf, .tchh, .pdtch, .ptcch].map fun c => (c, [0x2B])
      bfi := [((.tchf, 0), [0]), ((.tchh, 0), [0])] }
/-- COMB 1 on TN 0 with channel 0 active. -/
def tch : State := State.inClk (State.slotOn base 0 1) .unsync
/-- A change of channel 0 of TN 0 of `tch`. -/
def tchWith (f : Channel → Channel) : State := tch.modChan 0 0 f
/-- The burst ASM_NB makes of 116 ones and TSC 0 (S17). -/
def nb0 : Bytes :=
  [0, 0, 0] ++ List.replicate 58 1
    ++ [0, 0, 1, 0, 0, 1, 0, 1, 1, 1, 0, 0, 0, 0, 1, 0, 0, 0, 1, 0, 0, 1, 0, 1, 1, 1] ++ List.replicate 58 1 ++ [0, 0, 0]

/-- S19: TN 0 first, then TN 5. -/
theorem test_schedFn :
    ok (exec (.schedFn 25)
        (State.withMap (State.withMap (State.slotOn (State.slotOn carrier 0 1) 5 1) 1 0 25 .dl 0 0 0) 1 5 25 .dl 0 0 0))
      (fun t => t.out == dld [0, 0, 0, 0, 25, 0] 1 ++ dld [5, 0, 0, 0, 25, 0] 1) = true := by decide +kernel
/-- X1 to X5: a MAP result outside (M3), and the nearest one within. -/
theorem test_schedFn_map :
    let s (m : MapResult) := State.modListed (State.slotOn base 0 1) fun l => { l with map := [(⟨1, 0, 0, .dl⟩, m)] }
    [⟨9, 0, 0, 0⟩, ⟨14, 0, 0, 0⟩, ⟨8, 0, 2, 0⟩, ⟨7, 8, 0, 0⟩, ⟨8, 0, 0, 2⟩].all
        (fun m => refusedFor (exec (.schedFn 0) (s m)) .mapContract) = true
      ∧ [⟨7, 1, 0, 0⟩, ⟨13, 0, 0, 0⟩, ⟨8, 1, 1, 0⟩, ⟨7, 7, 0, 0⟩, ⟨8, 1, 0, 1⟩].all
        (fun m => ok (exec (.schedFn 0) (s m)) fun t => t.out == []) = true := by decide +kernel
/-- S4: an inactive channel. -/
theorem test_txDispatch :
    ok (exec (.txDispatch 3 ⟨.tchf, 0, 0, false⟩ 26) carrier) (fun t => t.out == dld [3, 0, 0, 0, 26, 0] 1) = true
      ∧ ok (exec (.txDispatch 1 ⟨.fcch, 0, 0, false⟩ 0) carrier) (fun t => t.out == dld [1, 0, 0, 0, 0, 0] 0) = true := by
  decide +kernel
/-- S2, S3. -/
theorem test_txIdle :
    ok (exec (.txIdle 3 25) carrier) (fun t => t.out == dld [3, 0, 0, 0, 25, 0] 1) = true
      ∧ ok (exec (.txIdle 3 25) base) (fun t => t.out == []) = true := by decide +kernel
/-- S5: no C0 test. -/
theorem test_txFcch :
    ok (exec (.txFcch 1 0) (State.modCfg carrier fun g => { g with c0 := false }))
      (fun t => t.out == dld [1, 0, 0, 0, 0, 0] 0) = true := by decide +kernel
/-- S6, X15. -/
theorem test_txSch :
    let s (n : Nat) := State.modListed (State.modCfg base fun g => { g with bsic := 63 }) fun l =>
      { l with sch := [((63, 1), List.replicate n true)] }
    ok (exec (.txSch 1 1) (s 148)) (fun t => t.out == dld [1, 0, 0, 0, 1, 0] 1) = true
      ∧ refusedFor (exec (.txSch 1 1) (s 147)) .schLength = true := by decide +kernel
/-- S7, S8. -/
theorem test_txBcch :
    ok (runAll (State.withFill (State.withEnc base [encKey .bcch .fill [0x2B]]))
        [.txBcch 1 0 2, .txBcch 1 1 3, .txBcch 1 2 4, .txBcch 1 3 5])
      (fun t => t.out == ([2, 3, 4, 5] : Bytes).map (fun f => ⟨.dld, [1, 0, 0, 0, f, 0] ++ nb0⟩)
        && !(t.slot 1).laneB.valid) = true
      ∧ ok (exec (.txBcch 1 1 3) base) (fun t => t.out == []) = true := by decide +kernel
/-- S9, for the queue of CCCH. -/
theorem test_txCcch :
    ok (exec (.txCcch 1 0 6) ((State.withEnc base [encKey .ccch .data [7]]).setQueue (.ccch 1) [[7]]))
      (fun t => (t.slot 1).qCcch == [] && (t.slot 1).laneC.valid && t.out.length == 1) = true := by decide +kernel
/-- R247: queue M_SIG, else FILLER. -/
theorem test_txSdcch :
    ok (exec (.txSdcch 0 0 0 6) (State.withEnc (tchWith fun c => { c with qSig := [[7]] }) [encKey .sdcch .data [7]]))
      (fun t => (t.chan 0 0).qSig == [] && (t.chan 0 0).laneM.dl.ilv == ⟨[true]⟩) = true := by decide +kernel
/-- S10: FILLER at every miss, DL_LOSS counts. -/
theorem test_txSacch :
    ok (runAll (State.withFill (State.withEnc tch
          [encKey .sacch .fill [0x2B], { encKey .sacch .fill [0x2B] with ilv := ⟨[true]⟩ }]))
        [.txSacch 0 0 0 12, .txSacch 0 0 0 116, .cfgRd 0x1034])
      (fun t => t.out.getLast? == some ⟨.hosto, [0x81, 0x10, 0x34, 0, 2, 2, 0]⟩) = true := by decide +kernel
/-- S11: FACCH first, the speech frame dropped. -/
theorem test_txTchf :
    ok (exec (.txTchf 0 0 0 0)
        (State.withEnc (tchWith fun c => { c with qSig := [[9]], qSpeech := [[1], [2]] }) [encKey .tchf .facch [9]]))
      (fun t => (t.chan 0 0).qSig == [] && (t.chan 0 0).qSpeech == [[2]]) = true := by decide +kernel
/-- S13: FILLER at the first miss, BFI at the second. -/
theorem test_txTchf_miss :
    ok (runAll (State.withFill (State.withEnc tch
          [encKey .tchf .fill [0x2B], { encKey .tchf .bfi [0] with ilv := ⟨[true]⟩ }]))
        [.txTchf 0 0 0 8, .txTchf 0 0 0 13]) (fun t => (t.chan 0 0).laneM.dlLoss == 2) = true := by decide +kernel
/-- S14, S15. -/
theorem test_txTchh :
    let s := State.withEncH (tchWith fun c => { c with qSig := [[9]], qSpeech := [[1]] })
      [encKey .tchh .speech [1], encKey .tchh .facch [9]]
    ok (exec (.txTchh 0 0 0 false 2) s) (fun t => (t.chan 0 0).qSig == [[9]] && (t.chan 0 0).qSpeech == []) = true
      ∧ ok (exec (.txTchh 0 0 0 true 4) s) (fun t =>
        (t.chan 0 0).qSig == [] && (t.chan 0 0).qSpeech == [] && (t.chan 0 0).dlFacchOng) = true := by decide +kernel
/-- S16: the continuation of a FACCH/H. -/
theorem test_txTchh_cont :
    ok (exec (.txTchh 0 0 0 false 6)
        (State.withEncH (tchWith fun c => { c with dlFacchOng := true }) [encKey .tchh .facchCont []]))
      (fun t => !(t.chan 0 0).dlFacchOng && (t.chan 0 0).laneM.dl.valid) = true := by decide +kernel
/-- R252: queue M_SIG. -/
theorem test_txPdtch :
    ok (exec (.txPdtch 0 0 0 6) (State.withEnc (tchWith fun c => { c with qSig := [[7]] }) [encKey .pdtch .data [7]]))
      (fun t => (t.chan 0 0).qSig == [] && (t.chan 0 0).laneM.dl.valid) = true := by decide +kernel
/-- R253: queue A, lane A. -/
theorem test_txPtcch :
    ok (exec (.txPtcch 0 0 0 6) (State.withEnc (tchWith fun c => { c with qAssoc := [[7]] }) [encKey .ptcch .data [7]]))
      (fun t => (t.chan 0 0).qAssoc == [] && (t.chan 0 0).laneA.dl.valid) = true := by decide +kernel
/-- R254, as S2. -/
theorem test_txRachAsIdle :
    ok (exec (.txRachAsIdle 3 25) carrier) (fun t => t.out == dld [3, 0, 0, 0, 25, 0] 1) = true := by decide +kernel
/-- X6, X7, X8: what ENC_STEP may not answer. -/
theorem test_txGroup_refused :
    let s (sl : List Slot) := State.modListed (State.withFill tch) fun l =>
      { l with enc := [(encKey .tchf .fill [0x2B], { enc4 with slots := sl })] }
    ok (exec (.txGroup .tchf 0 0 0 false 0) (s enc4.slots)) (fun t => t.out.length == 1) = true
      ∧ [enc4.slots.take 3, enc4.slots.take 3 ++ [⟨.gmsk, List.replicate 115 true⟩],
        enc4.slots.take 3 ++ [⟨.psk8, List.replicate 347 true⟩]].all
        (fun sl => refusedFor (exec (.txGroup .tchf 0 0 0 false 0) (s sl)) .encContract) = true := by decide +kernel
/-- S13, S10. -/
theorem test_dlMiss :
    ok (exec (.dlMiss .tchf 0 0) (State.withFill tch)) (fun t =>
        t.ret == .miss .fill [0x2B] && (t.chan 0 0).laneM.dlLoss == 1) = true
      ∧ ok (runAll (State.withFill tch) [.dlMiss .tchf 0 0, .dlMiss .tchf 0 0]) (fun t => t.ret == .miss .bfi [0]) = true
      ∧ ok (runAll (State.withFill tch) [.dlMiss .sacch 0 0, .dlMiss .sacch 0 0])
        (fun t => t.ret == .miss .fill [0x2B] && (t.chan 0 0).laneA.dlLoss == 2) = true := by decide +kernel
/-- S17, X16. -/
theorem test_emitSlot :
    ok (exec (.emitSlot 0 0 ⟨.gmsk, List.replicate 116 true⟩) base)
        (fun t => t.out == [⟨.dld, [0, 0, 0, 0, 0, 0] ++ nb0⟩]) = true
      ∧ refusedFor (exec (.emitSlot 0 0 ⟨.psk8, [true]⟩) (State.modListed base fun l =>
        { l with psk8 := [(([true], 0), List.replicate 443 false)] })) .psk8Length = true := by decide +kernel
/-- S17. -/
theorem test_asmNb :
    ok (exec (.asmNb (List.replicate 116 true) (Config.tscDefault[0]).toList) base)
      (fun t => t.ret == .burst (nb0.map fun b => b == 1) && t.out == []) = true := by decide +kernel
/-- P5: the header carries TX_POWER and the FN, most significant byte first. -/
theorem test_emitDl :
    ok (exec (.emitDl 0 2715647 (List.replicate 148 true)) (base.modSlot 0 fun t => { t with txPower := 0x20 }))
      (fun t => t.out == dld [0, 0, 0x29, 0x6F, 0xFF, 0x20] 1) = true := by decide +kernel

/-! ## The uplink (95_test_vectors.md 3.7 and P7) -/

/-- `tch` with the last burst at f. -/
def lastAt (f : Fn) : State := tch.modSlot 0 fun t => { t with ulLastFn := f, ulLastValid := true }
/-- The state of lane M of an open group. -/
def openLane (mask : BitVec 4) (last : Bid) (n : Nat) (toa : Int) (f : Fn) : Lane :=
  { Lane.fresh ⟨[]⟩ with
    ulOpen := true, ulMask := mask, ulLastBid := last, ulFirstFn := f, rssiSum := BitVec.ofInt 32 (-64 * n)
    rssiCnt := BitVec.ofNat 8 n, toaSum := BitVec.ofInt 32 toa, toaCnt := BitVec.ofNat 8 n }
/-- Channel 0 with that lane M. -/
def withOpen (l : Lane) : State := tchWith fun c => { c with laneM := l }
/-- One DEC_STEP answer listed. -/
def State.withDec (s : State) (k : DecKey) (r : DecResult) : State := State.modListed s fun l => { l with dec := (k, r) :: l.dec }
/-- Four empty slots. -/
def zeros : List (List Int) := List.replicate 4 (List.replicate 148 0)
/-- One received slot. -/
def ones : List Int := List.replicate 148 127

/-- U10, U6, E31. -/
theorem test_ulBurstNb :
    ok (exec (.ulBurstNb (datagram 0 0 148)) (State.inClk tch .closed)) (fun t => t.disc.stateIgnored == 1) = true
      ∧ ok (exec (.ulBurstNb (datagram 1 0 148)) tch) (fun t => t.disc.ulReject == 1) = true
      ∧ ok (exec (.ulBurstNb (datagram 8 0 148)) tch) (fun t => t.disc.dataMalformed == 1) = true := by decide +kernel
/-- P7 row 1: the first burst opens the group. -/
theorem test_ulBurstNb_group :
    ok (exec (.ulBurstNb (datagram 0 0 148)) (State.withMap tch 1 0 0 .ul 7 0 0)) (fun t =>
      (t.slot 0).ulLastValid && (t.chan 0 0).laneM.ulOpen && (t.chan 0 0).laneM.ulMask == 1
        && (t.chan 0 0).laneM.rssiSum.toInt == -16 && (t.chan 0 0).laneM.toaSum.toInt == 240 && t.out == []) = true := by
  decide +kernel
/-- U9: 8PSK off PDTCH. -/
theorem test_ulBurst8psk :
    ok (exec (.ulBurst8psk (datagram 0 0 444)) (State.withMap tch 1 0 0 .ul 7 0 0)) (fun t =>
      t.disc.ulReject == 1 && (t.slot 0).ulLastValid && !(t.chan 0 0).laneM.ulOpen) = true := by decide +kernel
/-- U1, U5, U2, U4. -/
theorem test_ulSeq :
    ok (exec (.ulSeq 0 12 (burst 0 0)) (lastAt 12)) (fun t => t.disc.ulReject == 1) = true
      ∧ ok (exec (.ulSeq 0 99 (burst 0 0)) (lastAt 100)) (fun t => t.disc.ulReject == 1) = true
      ∧ ok (exec (.ulSeq 0 13 (burst 0 0)) (State.withMap (lastAt 12) 1 0 13 .ul 7 0 0)) (fun t =>
        (t.slot 0).ulLastFn == 13 && (t.chan 0 0).laneM.ulMask == 1) = true
      ∧ ok (exec (.ulSeq 0 0 (burst 0 0)) (State.withMap (lastAt 2715647) 1 0 0 .ul 7 0 0)) (fun t =>
        (t.slot 0).ulLastFn == 0 && (t.chan 0 0).laneM.ulMask == 1) = true := by decide +kernel
/-- P7 row 3: the position at fn 2 is MISSING. -/
theorem test_ulGap :
    ok (exec (.ulGap 0 1 3) (State.withMap (withOpen (openLane 3 1 2 48 0)) 1 0 2 .ul 7 2 0))
      (fun t => (t.chan 0 0).laneM.ulLastBid == 2 && (t.chan 0 0).laneM.ulMask == 3) = true := by decide +kernel
/-- U7, U8. -/
theorem test_rxPos :
    ok (exec (.rxPos 0 25 (some (burst 0 0))) (State.withMap tch 1 0 25 .ul 0 0 0)) (fun t => t.disc.ulReject == 1) = true
      ∧ ok (exec (.rxPos 0 0 (some (burst 0 0)))
          (State.withMap (tchWith fun c => { c with active := false }) 1 0 0 .ul 7 0 0))
        (fun t => t.disc.ulReject == 1 && !(t.chan 0 0).laneM.ulOpen) = true := by decide +kernel
/-- P7 row 3: the burst at bid 3 closes the group with mask 1011. -/
theorem test_rxLane :
    ok (exec (.rxLane .tchf 0 0 3 3 (some (burst (-64) 48)))
        (State.withDec (withOpen (openLane 3 1 2 48 0)) (decKey .tchf (zeros.take 3 ++ [ones]) 11)
          { decoded .speech [0x5A] with nerr := 12, nbits := 244 }))
      (fun t => t.out == [⟨.hosto, [0x91, 0, 0, 7, 0, 0, 0, 0, 3, 0, 0xFF, 0xC0, 1, 0xEB, 0, 0x20]⟩,
        ⟨.hosto, [0x90, 0, 0, 7, 1, 0, 0, 0, 0, 1, 0x5A]⟩] && !(t.chan 0 0).laneM.ulOpen) = true := by decide +kernel
/-- P7 row 9: the forced close of a group with mask 0011, and the next one opened. -/
theorem test_rxLane_forced :
    ok (exec (.rxLane .tchf 0 0 0 60 (some (burst (-64) 0)))
        (State.withDec (withOpen (openLane 3 1 2 0 8)) (decKey .tchf zeros 3)
          { decoded .speech [] with ok := false, nerr := 100, nbits := 244 }))
      (fun t => t.out == [⟨.hosto, [0x91, 0, 0, 7, 0, 0, 0, 8, 2, 0, 0xFF, 0xC0, 0x10, 2, 0, 0]⟩,
        ⟨.hosto, [0x90, 0, 0, 7, 3, 0, 0, 0, 8, 0]⟩] && (t.chan 0 0).laneM.ulOpen
        && (t.chan 0 0).laneM.ulFirstFn == 60 && (t.chan 0 0).laneM.ulMask == 1) = true := by decide +kernel
/-- A group of mask 1 whose DEC_STEP answers r. -/
def closing (r : DecResult) : State :=
  State.withDec (withOpen (openLane 1 3 1 0 0)) (decKey .tchf zeros 1) r
/-- The nearest accepted answers of X9 to X13. -/
theorem test_closeGroup :
    [{ decoded .data [] with nerr := 456 }, { decoded .data [] with ftValid := true, ft := 3 },
      { decoded .data [] with taValid := true, ta := 63 }, decoded .data [], decoded .data (List.replicate 255 0)].all
      (fun r => ok (exec (.closeGroup .tchf 0 0) (closing r)) fun t =>
        !(t.chan 0 0).laneM.ulOpen && t.out.length == 2) = true := by decide +kernel
/-- X9 to X13. -/
theorem test_closeGroup_refused :
    [{ decoded .data [] with nerr := 457 }, { decoded .data [] with ftValid := true, ft := 4 },
      { decoded .data [] with taValid := true, ta := 64 }, decoded .fill [], decoded .data (List.replicate 256 0)].all
      (fun r => refusedFor (exec (.closeGroup .tchf 0 0) (closing r)) .decContract) = true := by decide +kernel
/-- P7 row 6: mask 1110 is EMPTY. -/
theorem test_report :
    ok (exec (.report .tchf 0 0 { decoded .speech [1] with nerr := 9 } false) (withOpen (openLane 14 3 3 0 4)))
      (fun t => t.out == [⟨.hosto, [0x91, 0, 0, 7, 0, 0, 0, 4, 3, 1, 0xFF, 0xC0, 0, 0, 0, 0]⟩,
        ⟨.hosto, [0x90, 0, 0, 7, 4, 0, 0, 0, 4, 0]⟩]) = true := by decide +kernel
/-- R288: a FACCH block of a TCH/F goes out under code 9 with kind 2. -/
theorem test_report_facch :
    ok (exec (.report .tchf 0 0 (decoded .facch [7]) false) (withOpen (openLane 15 3 4 0 4)))
      (fun t => t.out.drop 1 == [⟨.hosto, [0x90, 0, 0, 9, 2, 0, 0, 0, 4, 1, 7]⟩]) = true := by decide +kernel
/-- P7 row 4: MISSING at fn 4 opens the group, mask bit 0 stays 0. -/
theorem test_rxMissing :
    ok (exec (.rxMissing 0 4) (State.withMap tch 1 0 4 .ul 7 0 0)) (fun t =>
      (t.chan 0 0).laneM.ulOpen && (t.chan 0 0).laneM.ulMask == 0 && (t.chan 0 0).laneM.ulFirstFn == 4) = true := by
  decide +kernel
/-- U8, R299. -/
theorem test_rxIdle :
    ok (exec (.rxIdle (some (burst 0 0))) base) (fun t => t.disc.ulReject == 1) = true
      ∧ ok (exec (.rxIdle none) base) (fun t => t == base) = true := by decide +kernel
/-- R291: lane M. -/
theorem test_rxSdcch :
    ok (exec (.rxSdcch 0 0 0 6 (some (burst 3 0))) tch) (fun t => (t.chan 0 0).laneM.ulMask == 1 && (t.chan 0 0).pwrCnt == 0)
      = true := by decide +kernel
/-- P4 burst 0: lane A and both loops' samples. -/
theorem test_rxSacch :
    ok (exec (.rxSacch 0 0 0 12 (some (burst (-16) 240))) tch) (fun t =>
      (t.chan 0 0).laneA.ulMask == 1 && (t.chan 0 0).pwrCnt == 1 && (t.chan 0 0).pwrMin.toInt == -16
        && (t.chan 0 0).taCnt == 1 && (t.chan 0 0).taSum == 240) = true := by decide +kernel
/-- P7 row 2. -/
theorem test_rxTchf :
    ok (exec (.rxTchf 0 0 1 1 (some (burst (-64) 32))) (withOpen (openLane 1 0 1 16 0)))
      (fun t => (t.chan 0 0).laneM.ulMask == 3 && (t.chan 0 0).laneM.toaSum == 48) = true := by decide +kernel
/-- R294: the group of a TCH/H has two bursts. -/
theorem test_rxTchh :
    ok (exec (.rxTchh 0 0 1 1 (some (burst (-64) 0)))
        (State.withDec (withOpen (openLane 1 0 1 0 0)) (decKey .tchh [List.replicate 148 0, ones] 3) (decoded .facch [7])))
      (fun t => (t.chan 0 0).ulFacchOng && t.out.drop 1 == [⟨.hosto, [0x90, 0, 0, 10, 2, 0, 0, 0, 0, 1, 7]⟩]) = true := by
  decide +kernel
/-- R295: PDTCH takes 8PSK. -/
theorem test_rxPdtch :
    ok (exec (.rxPdtch 0 0 0 6 (some burst8)) tch) (fun t =>
      (t.chan 0 0).laneM.ulMask == 1 && (t.chan 0 0).laneM.ulSlots[0].length == 444) = true := by decide +kernel
/-- One RACH_DEC answer listed for `burst`. -/
def State.withRach (s : State) (r : RachResult) : State := State.modListed s fun l => { l with rach := [(ones, r)] }
/-- U15's record under code 12 (R297). -/
theorem test_rxPtcch :
    ok (exec (.rxPtcch 1 0 51 (some (burst (-60) 512))) (State.withRach base ⟨true, 0x1A5, 0, 36⟩))
      (fun t => t.out == [⟨.hosto, [0x92, 1, 12, 0, 0, 0, 0x33, 1, 0xA5, 2, 0, 0, 0, 0xFF, 0xC4]⟩]) = true := by
  decide +kernel
/-- U15, U16, X14. -/
theorem test_rxRach :
    let go (r : RachResult) := exec (.rxRach 1 51 (some (burst (-60) 512))) (State.withRach base r)
    ok (go ⟨true, 0x1A5, 0, 36⟩)
        (fun t => t.out == [⟨.hosto, [0x92, 1, 13, 0, 0, 0, 0x33, 1, 0xA5, 2, 0, 0, 0, 0xFF, 0xC4]⟩]) = true
      ∧ ok (go ⟨true, 3, 9, 36⟩)
        (fun t => t.out == [⟨.hosto, [0x92, 1, 13, 0, 0, 0, 0x33, 0, 3, 2, 0, 9, 0xC4, 0xFF, 0xC4]⟩]) = true
      ∧ ok (go ⟨true, 2047, 36, 36⟩) (fun t => t.out.length == 1) = true
      ∧ refusedFor (go ⟨true, 2048, 0, 36⟩) .rachContract = true := by decide +kernel
/-- U12, U13. -/
theorem test_hoAccess :
    let go (b : Bool) := exec (.hoAccess 0 0 13 (some (burst (-60) 512))) (State.withRach tch ⟨b, 5, 0, 36⟩)
    ok (go true) (fun t =>
        t.out == [⟨.hosto, [0x93, 0, 0, 0, 0, 0, 13, 0, 5, 2, 0, 0, 0, 0xFF, 0xC4]⟩] && t.tns == tch.tns) = true
      ∧ ok (go false) (fun t => t.disc.accessFail == 1 && t.out == []) = true := by decide +kernel

/-! ## The loops (95_test_vectors.md 3.8) -/

/-- MS_PWR 20 with one sample. -/
def pwr (ms : BitVec 8) (cnt : BitVec 8) (min : Int) : State :=
  tchWith fun c => { c with msPwr := ms, pwrCnt := cnt, pwrMin := BitVec.ofInt 16 min }
/-- P4, L9. -/
theorem test_pwrSample :
    ok (exec (.pwrSample 0 0 (-16)) (pwr 20 2 (-5))) (fun t =>
        (t.chan 0 0).pwrCnt == 3 && (t.chan 0 0).pwrMin.toInt == -16) = true
      ∧ ok (exec (.pwrSample 0 0 (-16)) (State.modCfg (pwr 20 2 (-5)) fun g => { g with pwrLoopEn := false }))
        (fun t => (t.chan 0 0).pwrCnt == 2) = true := by decide +kernel
/-- L10. -/
theorem test_pwrClock :
    ok (exec (.pwrClock 0 0) (pwr 20 1 (-16))) (fun t => (t.chan 0 0).pwrClk && t.out == []) = true
      ∧ ok (runAll (pwr 20 1 (-16)) [.pwrClock 0 0, .pwrClock 0 0]) (fun t =>
        !(t.chan 0 0).pwrClk && t.out == [⟨.hosto, [0x94, 0, 0, 0, 0, 0x18]⟩]) = true := by decide +kernel
/-- L1 to L7: MS_PWR, PWR_CNT, PWR_MIN, the new MS_PWR. -/
theorem test_pwrEval :
    ([(20, 0, 0, 24), (20, 1, -16, 24), (20, 1, -5, 18), (20, 1, -10, 20), (31, 1, -16, 33), (33, 1, -16, 33),
      (40, 1, -10, 33)] : List (Nat × Nat × Int × Nat)).all (fun q =>
      ok (exec (.pwrEval 0 0) (pwr (BitVec.ofNat 8 q.1) (BitVec.ofNat 8 q.2.1) q.2.2.1)) fun t =>
        (t.chan 0 0).msPwr.toNat == q.2.2.2 && (t.chan 0 0).pwrCnt == 0
          && t.out == (if q.1 = q.2.2.2 then [] else [⟨.hosto, [0x94, 0, 0, 0, 0, BitVec.ofNat 8 q.2.2.2]⟩])) = true := by
  decide +kernel
/-- L8: a range whose MIN is above its MAX. -/
theorem test_pwrEval_range :
    ok (exec (.pwrEval 0 0) (State.modCfg (pwr 20 1 (-10)) fun g => { g with minDbm := 20, maxDbm := 10 }))
      (fun t => (t.chan 0 0).msPwr == 10) = true := by decide +kernel
/-- A TA accumulator. -/
def taAt (rqd ack : BitVec 6) (cnt : BitVec 5) (sum : Int) : State :=
  tchWith fun c => { c with rqdTa := rqd, ackTa := ack, taCnt := cnt, taSum := BitVec.ofInt 32 sum }
/-- W5, L17. -/
theorem test_taSample :
    ok (exec (.taSample 0 0 240) (taAt 0 0 15 3600)) (fun t =>
        (t.chan 0 0).rqdTa == 1 && (t.chan 0 0).taCnt == 0 && t.out == [⟨.hosto, [0x94, 0, 0, 1, 0, 1]⟩]) = true
      ∧ ok (exec (.taSample 0 0 240) (taAt 1 0 0 0)) (fun t => (t.chan 0 0).taCnt == 0 && t.out == []) = true
      ∧ ok (exec (.taSample 0 0 240) (taAt 1 1 0 0)) (fun t => (t.chan 0 0).taCnt == 1 && (t.chan 0 0).taSum == 240)
        = true := by decide +kernel
/-- L11 to L16: RQD_TA, TA_SUM, the new RQD_TA. -/
theorem test_taEval :
    ([(5, 3686, 5), (5, 3687, 6), (5, -3687, 4), (5, -3686, 5), (63, 3840, 63), (0, -4000, 0)] : List (Nat × Int × Nat)).all
      (fun q => ok (exec (.taEval 0 0) (taAt (BitVec.ofNat 6 q.1) 0 16 q.2.1)) fun t =>
        (t.chan 0 0).rqdTa.toNat == q.2.2 && (t.chan 0 0).taSum == 0 && (t.chan 0 0).taCnt == 0) = true := by decide +kernel
/-- The setup of the AMR vectors, with DL_CMR, UL_FT and the accumulator given. -/
def amr (cmr ft : BitVec 2) (num : BitVec 8) (sum : BitVec 32) : State :=
  tchWith fun c => { c with
    amrEn := true, ncodecsM1 := 3, dlCmr := cmr, ulFt := ft, berNum := num, berSum := sum
    thr := #v[300, 200, 100], hyst := #v[30, 30, 30] }
/-- A1, A8, A9, A10. -/
theorem test_amrSample :
    ok (exec (.amrSample 0 0 201 1) (amr 2 2 47 9447)) (fun t =>
        (t.chan 0 0).dlCmr == 1 && (t.chan 0 0).berNum == 0 && t.out == [⟨.hosto, [0x94, 0, 0, 2, 0, 1]⟩]) = true
      ∧ ok (exec (.amrSample 0 0 201 1) (amr 2 1 10 100)) (fun t => (t.chan 0 0).berNum == 0 && (t.chan 0 0).berSum == 0)
        = true
      ∧ ok (exec (.amrSample 0 0 150 2) (amr 2 2 44 0)) (fun t => (t.chan 0 0).berNum == 46 && (t.chan 0 0).berSum == 300)
        = true
      ∧ ok (exec (.amrSample 0 0 150 2) (tchWith id)) (fun t => (t.chan 0 0).berNum == 0) = true := by decide +kernel
/-- A1 to A6: DL_CMR, BER_SUM, the new DL_CMR. -/
theorem test_amrEval :
    ([(2, 9648, 1), (2, 9600, 2), (2, 3360, 2), (2, 3312, 3), (3, 0, 3), (0, 480000, 0)] : List (Nat × Nat × Nat)).all
      (fun q => ok (exec (.amrEval 0 0) (amr (BitVec.ofNat 2 q.1) 0 48 (BitVec.ofNat 32 q.2.1))) fun t =>
        (t.chan 0 0).dlCmr.toNat == q.2.2 && (t.chan 0 0).berSum == 0 && (t.chan 0 0).berNum == 0) = true := by
  decide +kernel

/-! ## The output records: the bytes of `test_decode_outputs` and of P4, P7, U12, U15 -/

theorem test_outputs :
    ([(.cfgData 4 3, [0x81, 0, 4, 0, 0, 0, 3]), (.dataInd 0 0 7 4 4 [], [0x90, 0, 0, 7, 4, 0, 0, 0, 4, 0]),
      (.measInd 0 0 7 4 3 1 0xFFC0 0 0, [0x91, 0, 0, 7, 0, 0, 0, 4, 3, 1, 0xFF, 0xC0, 0, 0, 0, 0]),
      (.rachInd 1 13 51 0x1A5 512 0 0xFFC4, [0x92, 1, 13, 0, 0, 0, 0x33, 1, 0xA5, 2, 0, 0, 0, 0xFF, 0xC4]),
      (.hoInd 0 0 13 5 512 0 0xFFC4, [0x93, 0, 0, 0, 0, 0, 13, 0, 5, 2, 0, 0, 0, 0xFF, 0xC4]),
      (.loopInd 0 0 1 1, [0x94, 0, 0, 1, 0, 1]), (.fatalInd 2, [0xF0, 2])] : List (Instr × Bytes)).all
      (fun q => ok (exec q.1 base) fun t => t.out == [⟨.hosto, q.2⟩]) = true := by decide +kernel

/-! ## Each statement's hypotheses are met: one theorem for each, with the boundary of each clause -/

/-- The outcome is a next state. -/
def goes (o : Host.Outcome State Fault Refusal) : Bool := ok o fun _ => true
/-- The decoder reads i from e. -/
def reads (e : Event) (i : Instr) : Bool :=
  match decodeEvent e with
  | .ok j => j == i
  | .error _ => false
/-- `s` with one pending event. -/
def State.with1 (s : State) (p : Port) (now : Time) (b : Bytes) : State := { s with pending := [⟨p, now, b⟩] }

theorem witness_decodeOfEncode :
    ([.clkInd [] 0, .ulBurstNb (datagram 0 12 148), .ulBurst8psk (datagram 7 12 444), .linkOpen, .linkClose, .cfgRd 0xFFFF,
      .cfgWr 0x1018 0xFFFFFFFF, .dlqPush (.assoc 7 7) (List.replicate 255 1), .dlqPush (.ccch 7) [], .hostReserved [],
      .tick 6615, .cfgData 0xFFFC 1, .dataInd 7 7 10 2 2715647 (List.replicate 255 1), .measInd 7 7 11 2715647 4 1 1 10000 1,
      .rachInd 7 12 0 2047 0 10000 0, .hoInd 7 7 0 2047 0 0 0, .loopInd 7 7 2 0xFFFF, .fatalInd 3] : List Instr).all
      (fun i => WellFormed i && (encode i).isSome) = true := by decide +kernel
theorem witness_encodeOfDecode :
    reads ⟨.host, 9, [0x11, 0, 0x14, 0, 0, 0, 0x14]⟩ (.cfgWr 0x14 20) = true ∧ isInputPort .host = true
      ∧ reads ⟨.hosto, 9, [0xF0, 2]⟩ (.fatalInd 2) = true := by decide +kernel
theorem witness_uplinkDatagramFields : (2715647 : Fn).toNat < 2715648 := by decide
theorem witness_stepRunsDecoded :
    reads ⟨.host, 0, [0x01]⟩ .linkOpen = true ∧ base.pending = []
      ∧ ([155, 157, 451, 453] : List Nat).all (fun n => decide ((List.replicate n (0 : Byte)).length ≠ 156)
        && decide ((List.replicate n (0 : Byte)).length ≠ 452)) = true
      ∧ decodeTableWord 8 0x01 = some .linkOpen := by decide +kernel
theorem witness_linkOpen : fatalState.clk.clkState ≠ .closed ∧ base.clk.clkState = .closed := by decide +kernel
theorem witness_linkClose : base.clk.clkState = .closed ∧ (syncAt 1 0).clk.clkState ≠ .closed := by decide +kernel
theorem witness_clockIndication :
    parseClk (clkText [0x31, 0x78]) = none ∧ parseClk (clkText [0x38, 0x30]) = some 80
      ∧ base.clk.clkState = .closed ∧ fatalState.clk.clkState = .fatal ∧ unsync.clk.clkState = .unsync
      ∧ (syncAt 80 0).clk.clkState = .sync := by decide +kernel
theorem witness_clockApply :
    unsync.clk.clkState = .unsync ∧ (syncAt 100 0).clk.clkState = .sync ∧ (syncAt 100 0).cfg.maxSkew.toNat = 50
      ∧ signedDiff 151 100 = 51 ∧ signedDiff 49 100 = -51 ∧ signedDiff 50 100 = -50 ∧ signedDiff 99 100 = -1
      ∧ signedDiff 100 100 = 0 ∧ signedDiff 150 100 = 50 := by decide +kernel
theorem witness_catchUp :
    (2715647 : Fn).toNat < 2715648 ∧ (syncAt 2715647 0).clk.lastFn = 2715647
      ∧ goes (exec (.schedFn 0) { syncAt 2715647 0 with clk := { (syncAt 2715647 0).clk with lastFn := 0 } }) = true
      ∧ (syncAt 2715647 0).listed.lawful = true := by decide +kernel
/-- A SYNC state whose last frame lies ahead of its deadline: a stall back (R153), in no run but within the type. -/
def behind : State := { syncAt 5 9000 with clk := { (syncAt 5 9000).clk with deadline := 100 } }
theorem witness_tickOrder :
    ¬ ((syncAt 500 1000).clk.deadline.toNat ≤ (5614 : Time).toNat) ∧ unsync.clk.clkState ≠ .sync
      ∧ (syncAt 500 1000).clk.tickDue 5615 = true
      ∧ (countExpirations 5615 (syncNo 500 1000 400)).clockLost = true
      ∧ (countExpirations 5615 (syncNo 500 1000 399)).clockLost = false
      ∧ (syncAt 500 1000).stalled 231751 = some .stallLate ∧ behind.clk.tickDue 200 = true
      ∧ behind.stalled 200 = some .stallBack ∧ (syncAt 500 1000).stalled 231750 = none := by decide +kernel
theorem witness_tickProduces :
    let s := syncAt 500 1000
    s.clk.lastFn.toNat < 2715648
      ∧ goes (exec (.schedFn 501) { s with clk := { s.clk with lastFn := 501, lastTs := s.clk.lastTs + 4615 } }) = true
      ∧ s.listed.lawful = true ∧ s.clk.clkState = .sync ∧ s.clk.armed = true
      ∧ s.clk.deadline.toNat ≤ (231750 : Time).toNat ∧ s.clk.lastTs.toNat ≤ (231750 : Time).toNat
      ∧ (231750 : Time).toNat - s.clk.lastTs.toNat ≤ s.cfg.maxSkew.toNat * 4615
      ∧ s.clk.noClk.toNat + (1 + ((231750 : Time).toNat - s.clk.deadline.toNat) / 4615) ≤ s.cfg.lossFrames.toNat := by
  decide +kernel
theorem witness_fatalEntry :
    (syncNo 500 1000 400).clk.deadline.toNat ≤ (5615 : Time).toNat
      ∧ (countExpirations 5615 (syncNo 500 1000 400)).clk.noClk.toNat = 401
      ∧ (countExpirations 5615 (syncNo 500 1000 399)).clk.noClk.toNat = 400
      ∧ (syncAt 500 1000).clk.elapsed 231751 = 50 * 4615 + 1 ∧ (syncAt 500 1000).clk.elapsed 999 = -1
      ∧ (syncAt 500 1000).clk.elapsed 1000 = 0 ∧ (syncAt 500 1000).clk.elapsed 231750 = 50 * 4615 := by decide +kernel
theorem witness_clockStateTransitions :
    isInputPort .host = true ∧ isInputPort .clk = true ∧ isInputPort .timer = true
      ∧ ok (step (State.with1 base .host 0 [0x01])) (fun t => t.clk.clkState == .unsync) = true
      ∧ ok (step (State.with1 unsync .clk 0 (clkText [0x35]))) (fun t => t.clk.clkState == .sync) = true
      ∧ ok (step (State.with1 (syncAt 500 1000) .timer 231751 [])) (fun t => t.clk.clkState == .fatal) = true
      ∧ ok (step (State.with1 fatalState .host 0 [0x02])) (fun t => t.clk.clkState == .closed) = true := by decide +kernel
theorem witness_inFatal :
    fatalState.clk.clkState = .fatal ∧ (parseClk (clkText [0x35])).isSome = true ∧ parseClk [] = none
      ∧ (parseUl .gmsk 148 (datagram 0 0 148)).isSome = true ∧ parseUl .gmsk 148 [] = none
      ∧ (parseUl .psk8 444 (datagram 0 0 444)).isSome = true ∧ parseUl .psk8 444 [] = none
      ∧ reads ⟨.host, 0, [0x10, 0, 8]⟩ (.cfgRd 8) = true ∧ goes (exec (.cfgRd 8) fatalState) = true
      ∧ (0xFFFC : BitVec 16).toNat % 4 = 0 ∧ (0x0009 : BitVec 16).toNat % 4 ≠ 0 := by decide +kernel
theorem witness_resyncIdempotent :
    (syncAt 100 0).clk.clkState = .sync
      ∧ (signedDiff 151 (syncAt 100 0).clk.lastFn).natAbs > (syncAt 100 0).cfg.maxSkew.toNat := by decide +kernel
theorem witness_malformedOnlyCounts :
    parseClk (clkText []) = none ∧ parseUl .gmsk 148 (datagram 8 0 148) = none
      ∧ parseUl .psk8 444 (datagram 8 0 148) = none ∧ decodeHost [0x03] = .hostReserved [0x03] := by decide +kernel
theorem witness_tickWorkBound :
    ok (exec (.clkInd (clkText [0x31, 0x35, 0x30]) 9) (syncAt 100 0)) (fun t => t.clk.lastFn == 150) = true ∧
    clockInv (syncAt 500 1000).clk = true ∧ (syncAt 500 1000).clk.lastTs.toNat + 4615 < 2 ^ 64
      ∧ (syncAt 500 1000).clk.clkState = .sync ∧ (syncAt 500 1000).clk.deadline.toNat ≤ (231750 : Time).toNat
      ∧ ok (exec (.tick 231750) (syncAt 500 1000)) (fun t => t.clk.clkState == .sync) = true
      ∧ ok (exec (.tick 231751) (syncAt 500 1000)) (fun t => t.clk.clkState == .fatal) = true := by decide +kernel
theorem witness_readSlotAndChannelRegisters :
    ([0x054, 0x0FC, 0x120, 0x13C, 0x180, 0xFFC, 0x103C, 0x1FFC, 0x2000, 0xFFFC] : List Nat).all (fun a =>
        a < 65536 && a % 4 == 0 && (decide (0x054 ≤ a ∧ a < 0x100) || decide (0x120 ≤ a ∧ a < 0x140)
          || decide (0x180 ≤ a ∧ a < 0x1000) || decide (0x1000 ≤ a ∧ a < 0x2000 ∧ a % 0x40 = 0x3C) || decide (0x2000 ≤ a)))
      = true ∧ (5 : BitVec 16).toNat % 4 ≠ 0 := by decide +kernel
theorem witness_writeIgnored :
    ([0x054, 0x0FC, 0x120, 0x13C, 0x140, 0xFFC, 0x101C, 0x103C, 0x1FFC, 0x2000, 0xFFFC] : List Nat).all (fun a =>
        a % 4 == 0 && (decide (0x054 ≤ a ∧ a < 0x100) || decide (0x120 ≤ a ∧ a < 0x1000)
          || decide (0x1000 ≤ a ∧ a < 0x2000 ∧ 0x1C ≤ a % 0x40) || decide (0x2000 ≤ a))) = true
      ∧ (5 : BitVec 16).toNat % 4 ≠ 0 := by decide +kernel
theorem witness_writeIdempotent : (0x1000 : BitVec 16).toNat % 4 = 0 := by decide
theorem witness_timeslotConfigWrite :
    BitVec.extractLsb' 0 8 (0x00200701 : BitVec 32) = (tch.slot 0).comb
      ∧ BitVec.extractLsb' 0 8 (0x00200702 : BitVec 32) ≠ (tch.slot 0).comb := by decide +kernel
theorem witness_channelControlWrite :
    (0x21 : BitVec 32).getLsbD 0 = (tch.chan 0 0).active
      ∧ ((base.chan 0 0).active = false ∧ (0x21 : BitVec 32).getLsbD 0 = true)
      ∧ ((tch.chan 0 0).active = true ∧ (0x20 : BitVec 32).getLsbD 0 = false) := by decide +kernel
/-- M_SPEECH of channel 0 with n payloads. -/
def queued (n : Nat) : State := tchWith fun c => { c with qSpeech := List.replicate n [0xAA] }
theorem witness_queuePush :
    ¬ (base.clk.clkState = .unsync ∨ base.clk.clkState = .sync) ∧ unsync.clk.clkState = .unsync
      ∧ (unsync.slot 0).comb = 0 ∧ (tch.slot 0).comb ≠ 0 ∧ (tch.chan 0 1).active = false
      ∧ ¬ (((queued 4).queue (.speech 0 0)).length < (queued 4).pqDepth)
      ∧ (queued 3).clk.clkState = .unsync ∧ ((queued 3).slot 0).comb ≠ 0 ∧ ((queued 3).chan 0 0).active = true
      ∧ ((queued 3).queue (.speech 0 0)).length < (queued 3).pqDepth := by decide +kernel
/-- ASM_8PSK of an empty slot listed with n bits. -/
def psk8At (n : Nat) : State := State.modListed base fun l => { l with psk8 := [(([], 0), List.replicate n false)] }
theorem witness_burstAssembly :
    base.listed.tsc = none ∧ (List.replicate 116 true).length = 116 ∧ (base.tscSeq 0).length = 26
      ∧ ok (exec (.asmNb (List.replicate 116 true) (base.tscSeq 0)) base)
        (fun t => t.ret == .burst (asmNb (List.replicate 116 true) (base.tscSeq 0))) = true
      ∧ ((psk8At 444).asm8psk [] 0).length = 444 ∧ ((psk8At 443).asm8psk [] 0).length ≠ 444 := by decide +kernel
/-- The carrier with bursts of n bits. -/
def carrierN (n : Nat) : State :=
  State.modListed carrier fun l =>
    { l with dummy := some (List.replicate n true), fcch := some (List.replicate n true)
             sch := [((0, 1), List.replicate n true)] }
theorem witness_handlersWithoutLane :
    base.cfg.c0 = false ∧ (carrierN 148).cfg.c0 = true ∧ (carrierN 148).dummyBurst.length = 148
      ∧ (carrierN 147).cfg.c0 = true ∧ (carrierN 147).dummyBurst.length ≠ 148 ∧ (carrierN 148).fcchBurst.length = 148
      ∧ (carrierN 147).fcchBurst.length ≠ 148 ∧ ((carrierN 148).schEnc (carrierN 148).cfg.bsic 1).length = 148
      ∧ ((carrierN 147).schEnc (carrierN 147).cfg.bsic 1).length ≠ 148 := by decide +kernel
theorem witness_downlinkDispatch :
    Ct.tchf ∈ [Ct.sdcch, .sacch, .tchf, .tchh, .pdtch, .ptcch] ∧ (base.chan 0 0).active = false ∧ base.cfg.c0 = false
      ∧ Ct.rach ∈ [Ct.idle, .fcch, .sch, .bcch, .ccch, .rach] ∧ (tch.chan 0 0).active = true
      ∧ tch.listed.lawful = true := by decide +kernel
theorem witness_schedulerOrder : (∀ tn, (base.slot tn).comb = 0) ∧ tch.listed.lawful = true := by decide +kernel
theorem witness_commonGroupStart : (State.withFill (State.withEnc tch [encKey .bcch .fill [0x2B]])).listed.lawful = true := by
  decide +kernel
theorem witness_dedicatedGroupStart :
    (State.withFill (State.withEncH tch [encKey .tchh .speech [1]])).listed.lawful = true
      ∧ LaneCt.tchh ≠ .bcch ∧ LaneCt.tchh ≠ .ccch := by decide +kernel
/-- A started downlink group of lane M, sent up to bid b. -/
def started (b : Bid) : State :=
  tchWith fun c => { c with laneM := { c.laneM with dl := { c.laneM.dl with valid := true, lastBid := b } } }
theorem witness_groupContinuation :
    (1 : Bid) ≠ 0 ∧ ((started 1).dlLane (laneRef .tchf 0 0)).continues 1 = false
      ∧ (tch.dlLane (laneRef .tchf 0 0)).continues 1 = false ∧ ((started 0).dlLane (laneRef .tchf 0 0)).continues 1 = true
      ∧ ((started 2).dlLane (laneRef .tchf 0 0)).continues 3 = true ∧ (started 0).listed.lawful = true := by decide +kernel
theorem witness_downlinkMiss :
    (State.withFill tch).listed.lawful = true ∧ (satInc (0 : BitVec 8) 1).toNat = 1 ∧ (satInc (1 : BitVec 8) 1).toNat = 2
      ∧ ((State.withFill tch).chan 0 0).laneM.dlLoss = 0 := by decide +kernel
/-- Two timeslots whose position at 25 is IDLE, on C0. -/
def idlePair : State :=
  State.withMap (State.withMap (State.slotOn (State.slotOn carrier 0 1) 5 1) 1 0 25 .dl 0 0 0) 1 5 25 .dl 0 0 0
theorem witness_schedulerEmission : ok (exec (.schedFn 25) idlePair) (fun t => t.out.length == 2) = true := by decide +kernel
theorem witness_schedulerIsolation : ok (exec (.schedFn 25) idlePair) (fun t => t.clk == idlePair.clk) = true := by
  decide +kernel
theorem witness_uplinkAcceptance :
    parseUl .gmsk 148 (datagram 0 0x00297000 148) = none ∧ parseUl .gmsk 148 (datagram 0 12 148) = some (0, 12, burst (-16) 240)
      ∧ fatalState.clk.clkState = .fatal ∧ tch.clk.clkState = .unsync ∧ (tch.slot 1).comb = 0 ∧ (tch.slot 0).comb ≠ 0 := by
  decide +kernel
theorem witness_uplinkSequence :
    ((lastAt 12).slot 0).ulLastValid = true ∧ signedDiff 12 12 = 0 ∧ signedDiff 13 12 = 1 ∧ signedDiff 14 12 = 2
      ∧ signedDiff 62 12 = 50 ∧ signedDiff 63 12 = 51 ∧ (lastAt 12).cfg.ulGapMax.toNat = 50
      ∧ (tch.slot 0).ulLastValid = false
      ∧ goes (exec (.ulGap 0 12 14) (State.withMap (lastAt 12) 1 0 13 .ul 0 0 0)) = true
      ∧ (lastAt 12).listed.lawful = true := by decide +kernel
theorem witness_uplinkGap :
    (2715647 : Fn).toNat < 2715648 ∧ (0 : Fn) = fnInc 2715647 ∧ (14 : Fn) ≠ fnInc 12
      ∧ goes (exec (.rxPos 0 13 none) (State.withMap tch 1 0 13 .ul 7 1 0)) = true
      ∧ (State.withMap tch 1 0 13 .ul 7 1 0).listed.lawful = true := by decide +kernel
/-- The UL position of code ct listed at fn 0 for TN 0. -/
def ulAt (ct : Nat) : State := State.withMap (tchWith fun c => { c with hoArm := ct == 5 }) 1 0 0 .ul ct 0 0
theorem witness_uplinkDispatch :
    (ulAt 14).position 1 0 0 .ul = none ∧ (ulAt 7).position 1 0 0 .ul = some ⟨.tchf, 0, 0, false⟩
      ∧ burst8.modulation = .psk8 ∧ (ulAt 0).position 1 0 0 .ul = some ⟨.idle, 0, 0, false⟩
      ∧ (base.chan 0 0).active = false ∧ (ulAt 5).position 1 0 0 .ul = some ⟨.sdcch, 0, 0, false⟩
      ∧ ((ulAt 5).chan 0 0).hoArm = true ∧ ((ulAt 7).chan 0 0).hoArm = false ∧ ((ulAt 7).chan 0 0).active = true
      ∧ (ulAt 13).position 1 0 0 .ul = some ⟨.rach, 0, 0, false⟩ ∧ (ulAt 7).listed.lawful = true := by decide +kernel
theorem witness_groupPosition :
    ((withOpen (openLane 3 1 2 0 8)).lane 0 0 (ulLaneId .tchf)).forcesClose 1 = true
      ∧ goes (exec (.closeGroup .tchf 0 0)
        (State.withDec (withOpen (openLane 3 1 2 0 8)) (decKey .tchf zeros 3) (decoded .data []))) = true
      ∧ ((withOpen (openLane 3 1 2 0 8)).lane 0 0 (ulLaneId .tchf)).forcesClose 2 = false
      ∧ (tch.lane 0 0 (ulLaneId .tchf)).forcesClose 0 = false ∧ (2 : Bid).toNat + 1 ≠ UlCt.tchf.toCt.groupLen
      ∧ (3 : Bid).toNat + 1 = UlCt.tchf.toCt.groupLen ∧ tch.listed.lawful = true := by decide +kernel
theorem witness_groupClose :
    let r : DecResult := { decoded .data (List.replicate 255 0) with
      nerr := 456, ftValid := true, ft := 3, taValid := true, ta := 63 }
    (closing r).decStep .tchf 0 ⟨[]⟩ zeros 1 false = r ∧ decOk r = true
      ∧ (closing { r with ta := 64 }).decStep .tchf 0 ⟨[]⟩ zeros 1 false = { r with ta := 64 }
      ∧ decOk { r with ta := 64 } = false := by decide +kernel
theorem witness_groupReport :
    ((withOpen (openLane 14 3 3 0 4)).lane 0 0 (ulLaneId .tchf)).ulMask.getLsbD 0 = false
      ∧ ((withOpen (openLane 15 3 4 0 4)).lane 0 0 (ulLaneId .tchf)).ulMask.getLsbD 0 = true
      ∧ { decoded .data [] with ok := false }.ok = false ∧ (decoded .facch []).ok = true
      ∧ [CodecKind.data, .speech, .facch].all (fun k => decOk (decoded k [])) = true := by decide +kernel
/-- A codec of one payload: SDCCH carries [0x2B] in DATA, and both interleaver states stay empty. -/
def oneWord : CodecTerms :=
  { holds := fun _ dl ul => dl = ⟨[]⟩ ∧ ul = ⟨[]⟩
    carries := fun ct kind mode p => ct = .sdcch ∧ kind = .data ∧ mode = 0 ∧ p = [0x2B] }
/-- The four bursts of that payload as they arrive. -/
def arrived : List (List Int) := List.replicate 4 (delivered (nb0.map (· == 1)))
/-- That codec listed, and the group of the payload complete in the SDCCH lane. -/
def roundTrip : State :=
  State.modListed (withOpen { openLane 15 3 4 0 8 with ulSlots := Vector.replicate 4 (delivered (nb0.map (· == 1))) }) fun l => { l with
    enc := [0, 1, 2, 3].map fun cmr =>
      (⟨.sdcch, .data, 0, cmr, [0x2B], ⟨[]⟩⟩, { enc4 with ilv := ⟨[]⟩ })
    dec := [(decKey .sdcch arrived 15, decoded .data [0x2B])] }
theorem roundTrip_law : codecLaw roundTrip oneWord := by
  rintro ct kind mode cmr p dl ul tn - ⟨rfl, rfl, rfl, rfl⟩ ⟨rfl, rfl⟩
  revert cmr tn
  decide +kernel
theorem witness_codecRoundTrip :
    codecLaw roundTrip oneWord ∧ roundTrip.listed.lawful = true ∧ oneWord.carries .sdcch .data 0 [0x2B]
      ∧ oneWord.holds .sdcch ⟨[]⟩ (roundTrip.lane 0 0 .m).ulIlv ∧ (roundTrip.lane 0 0 .m).ulMask.toNat % 2 ^ 4 = 2 ^ 4 - 1
      ∧ (roundTrip.lane 0 0 .m).ulSlots.toList.take 4
        = (roundTrip.encStep .sdcch .data 0 0 [0x2B] ⟨[]⟩).slots.map fun sl => delivered (roundTrip.assemble 0 sl) :=
  ⟨roundTrip_law, by decide +kernel, ⟨rfl, rfl, rfl, rfl⟩, ⟨rfl, by decide +kernel⟩, by decide +kernel, by decide +kernel⟩
theorem witness_reportHooks :
    let l := (withOpen (openLane 15 3 4 0 4)).lane 0 0 .m
    outcomeOf l { decoded .speech [] with ok := false } false = .bad
      ∧ (outcomeOf l (decoded .speech []) false = .ok ∧ (decoded .speech []).kind ≠ .facch)
      ∧ outcomeOf l (decoded .speech []) true = .cont ∧ (decoded .facch []).kind = .facch
      ∧ outcomeOf (tch.lane 0 0 .m) (decoded .speech []) false = .empty := by decide +kernel
theorem witness_accessBursts :
    let r (x : RachResult) := (State.withRach tch x).rachDec ((burst 0 0).soft.take 148)
    (r ⟨true, 2048, 0, 36⟩).ra > 2047 ∧ (r ⟨true, 0, 37, 36⟩).nerr > (r ⟨true, 0, 37, 36⟩).nbits
      ∧ r ⟨false, 2047, 36, 36⟩ = ⟨false, 2047, 36, 36⟩ ∧ r ⟨true, 2047, 36, 36⟩ = ⟨true, 2047, 36, 36⟩ := by decide +kernel
theorem witness_uplinkIgnoresTiming :
    isUplink (.rxIdle (some (burst 0 0))) = true ∧ goes (exec (.rxIdle (some (burst 0 0))) tch) = true
      ∧ isUplink (.ulBurstNb (datagram 0 0 148)) = true
      ∧ goes (exec (.ulBurstNb (datagram 0 0 148)) (State.withMap tch 1 0 0 .ul 7 0 0)) = true := by decide +kernel
theorem witness_powerLoop :
    (State.modCfg tch fun g => { g with pwrLoopEn := false }).cfg.pwrLoopEn = false ∧ tch.cfg.pwrLoopEn = true
      ∧ (tch.chan 0 0).pwrClk = false ∧ ((tchWith fun c => { c with pwrClk := true }).chan 0 0).pwrClk = true
      ∧ pwrNewOf (pwr 20 1 (-10)).cfg ((pwr 20 1 (-10)).chan 0 0) = 20
      ∧ pwrNewOf (pwr 20 1 (-16)).cfg ((pwr 20 1 (-16)).chan 0 0) = 24
      ∧ tch.cfg.minDbm.toInt ≤ tch.cfg.maxDbm.toInt := by decide +kernel
theorem witness_timingAdvanceLoop :
    ((taAt 1 0 0 0).chan 0 0).ackTa ≠ ((taAt 1 0 0 0).chan 0 0).rqdTa ∧ tch.cfg.taLoopEn = true
      ∧ ((taAt 63 63 15 0).chan 0 0).ackTa = ((taAt 63 63 15 0).chan 0 0).rqdTa
      ∧ ((taAt 63 63 15 0).chan 0 0).taCnt = 15 ∧ ((taAt 0 0 14 0).chan 0 0).taCnt ≠ 15
      ∧ taNewOf ((taAt 5 5 16 3686).chan 0 0) = 5 ∧ taNewOf ((taAt 5 5 16 3687).chan 0 0) = 6 := by decide +kernel
theorem witness_codecModeLoop :
    (tch.chan 0 0).amrEn = false ∧ ((amr 2 1 0 0).chan 0 0).amrEn = true
      ∧ ((amr 2 1 0 0).chan 0 0).ulFt ≠ ((amr 2 1 0 0).chan 0 0).dlCmr
      ∧ ((amr 2 2 46 0).chan 0 0).ulFt = ((amr 2 2 46 0).chan 0 0).dlCmr
      ∧ (((amr 2 2 46 0).chan 0 0).berNum + BitVec.ofNat 8 1).toNat < 48
      ∧ 48 ≤ (((amr 2 2 46 0).chan 0 0).berNum + BitVec.ofNat 8 2).toNat
      ∧ amrNewOf ((amr 2 2 48 9600).chan 0 0) = 2 ∧ amrNewOf ((amr 2 2 48 9601).chan 0 0) = 1 := by decide +kernel
theorem witness_sixteenLateSamples :
    (List.replicate 16 (231 : Int)).length = 16 ∧ (∀ v ∈ List.replicate 16 (231 : Int), 2304 < 10 * v ∧ v ≤ 32767)
      ∧ tch.cfg.taLoopEn = true ∧ ((taAt 62 62 0 0).chan 0 0).ackTa = ((taAt 62 62 0 0).chan 0 0).rqdTa
      ∧ ((taAt 62 62 0 0).chan 0 0).rqdTa.toNat < 63 ∧ ((taAt 62 62 0 0).chan 0 0).taCnt = 0
      ∧ ((taAt 62 62 0 0).chan 0 0).taSum = 0 := by decide +kernel
theorem witness_stepKeepsInvariant :
    (State.with1 (syncAt 500 1000) .timer 231750 []).inv = true
      ∧ ok (step (State.with1 (syncAt 500 1000) .timer 231750 [])) (fun t => t.clk.lastFn == 550) = true := by decide +kernel
theorem witness_lawfulParametersProgress :
    base.listed.lawful = true ∧ (State.withRach (State.withFill idlePair) ⟨true, 2047, 36, 36⟩).listed.lawful = true := by
  decide +kernel

end Sys2Proof.Tests
end

/-! SUPPORT. The family of 00_scope.md: what one step does with the next pending event, and what a closed group
reports when its decoder gives back the payload that was encoded. -/

namespace Sys2Proof

/-- A table word has an instruction exactly where its event decodes to it. -/
theorem decodeTableWord_eq_some_iff {nbits w : Nat} {i : Instr} :
    decodeTableWord nbits w = some i ↔ decodeEvent (tableEvent nbits w) = .ok i := by
  unfold decodeTableWord
  cases decodeEvent (tableEvent nbits w) <;> simp

/-- The two lengths of an uplink datagram are the only ones that decode (R102, R124). -/
theorem decodeEvent_uld_of_length_ne {e : Event} (hport : e.port = .uld) (hnb : e.bytes.length ≠ 156)
    (h8psk : e.bytes.length ≠ 452) : decodeEvent e = .error .uldLength := by
  unfold decodeEvent
  rw [hport]
  simp only [if_neg hnb, if_neg h8psk]

end Sys2Proof

namespace Sys2Proof.Machine

/-! ## The step (R4, R87, R124) -/

theorem step_of_no_pending {s : State} (hp : s.pending = []) : step s = .next s := by
  unfold step
  rw [hp]

theorem step_of_decodes {s : State} {e : Event} {rest : List Event} {i : Instr} (hp : s.pending = e :: rest)
    (hd : decodeEvent e = .ok i) : step s = exec i { s with pending := rest } := by
  unfold step
  rw [hp]
  simp only [hd]

theorem step_of_rejected {s : State} {e : Event} {rest : List Event} {r : Reject} (hp : s.pending = e :: rest)
    (hd : decodeEvent e = .error r) : step s = .next (rejectEvent r { s with pending := rest }) := by
  unfold step
  rw [hp]
  simp only [hd]

/-- The counter of malformed data counts an uplink datagram of another length (R102, R375). -/
theorem rejectEvent_uldLength (s : State) :
    rejectEvent .uldLength s
      = { s with disc := { s.disc with dataMalformed := satInc s.disc.dataMalformed 1 } } := by
  rw [← satAdd_eq_satInc]
  rfl

/-- With the word's event taken again, the state is the one the word was put into. -/
theorem step_withFetchWord {s : State} {nbits w : Nat} {i : Instr} (hd : decodeTableWord nbits w = some i) :
    step (s.withFetchWord nbits w) = exec i s :=
  step_of_decodes (s := s.withFetchWord nbits w) rfl (decodeTableWord_eq_some_iff.1 hd)

/-- Settles O7, by the case of the next pending event: none, one that decodes, one that is rejected. -/
theorem stepRunsDecoded : Obligations.StepRunsDecoded := by
  refine ⟨fun s e rest i hp hd => step_of_decodes hp hd, fun s hp => step_of_no_pending hp, ?_,
    fun s nbits w i hd => step_withFetchWord hd⟩
  intro s e rest hp hport hnb h8psk
  rw [step_of_rejected hp (decodeEvent_uld_of_length_ne hport hnb h8psk), rejectEvent_uldLength]

/-! ## CLOSE_GROUP and REPORT of a decoded group (R287, R288) -/

theorem closeGroup_of_decOk {ct : UlCt} {tn : Tn} {ss : Ss} {s : State} (h : decOk (decodeGroup ct tn ss s) = true) :
    closeGroup ct tn ss s = .ok (report ct tn ss (decodeGroup ct tn ss s) (contOf ct (s.chan tn ss))
      (s.modLane tn ss (ulLaneId ct) fun l => { l with ulIlv := (decodeGroup ct tn ss s).ilv, ulOpen := false })) := by
  unfold closeGroup
  exact if_pos h

theorem outcomeOf_eq_ok_iff {l : Lane} {r : DecResult} {cont : Bool} :
    outcomeOf l r cont = .ok ↔ l.ulMask.getLsbD 0 = true ∧ cont = false ∧ r.ok = true := by
  unfold outcomeOf
  cases l.ulMask.getLsbD 0 <;> cases cont <;> cases r.ok <;> simp

/-- The two records of a decoded block, the first without the EMPTY flag; its hook emits after them. -/
theorem report_out_of_ok {ct : UlCt} {tn : Tn} {ss : Ss} {r : DecResult} {cont : Bool} {s : State}
    (ho : outcomeOf (s.lane tn ss (ulLaneId ct)) r cont = .ok) :
    let l := s.lane tn ss (ulLaneId ct)
    ∃ more, (report ct tn ss r cont s).out = s.out ++ [
      ⟨.hosto, recMeasInd (idx8 tn) (idx8 ss) (BitVec.ofNat 8 ct.toCt.code) (fn32 l.ulFirstFn)
        (BitVec.ofNat 8 (popcount4 l.ulMask)) 0 (s16 l.rssiAvg) (u16 (berPpt r.nerr r.nbits)) (s16 l.toaAvg)⟩,
      ⟨.hosto, recDataInd (idx8 tn) (idx8 ss) (BitVec.ofNat 8 (dataCode ct r.kind)) (indKindOf r.kind).code
        (fn32 l.ulFirstFn) r.payload⟩] ++ more := by
  intro l
  obtain ⟨more, hmore, -⟩ := (closedHook_fn ct (outcomeOf l r cont) r
    (if outcomeOf l r cont = .empty then 0 else berPpt r.nerr r.nbits) tn ss
    (reportRecords ct tn ss r cont s)).1.emits
  refine ⟨more, ?_⟩
  rw [report_eq, hmore]
  simp only [reportRecords, ho, State.emitData, State.emitMeas, emit_out, List.append_assoc]
  rfl

theorem berPpt_no_errors (n : Nat) : berPpt 0 n = 0 := by
  simp [berPpt_eq]

/-- The kinds of DEC_STEP's contract are the DATA_IND kinds 0, 1 and 2 (R107, R376). -/
theorem indKindOf_code_of_decOk {r : DecResult} (h : decOk r = true) :
    ∃ k : Nat, k ≤ 2 ∧ (indKindOf r.kind).code = BitVec.ofNat 8 k := by
  obtain ⟨hkind, -⟩ := (decOk_iff r).1 h
  simp only [List.mem_cons, List.not_mem_nil, or_false] at hkind
  rcases hkind with hk | hk | hk <;> rw [hk]
  · exact ⟨0, by decide, rfl⟩
  · exact ⟨1, by decide, rfl⟩
  · exact ⟨2, by decide, rfl⟩

/-- A group with all its bursts has its first one. -/
theorem ulMask_first_of_full {m : BitVec 4} {g : Nat} (hg : 0 < g) (h : m.toNat % 2 ^ g = 2 ^ g - 1) :
    m.getLsbD 0 = true := by
  have hfirst : (m.toNat % 2 ^ g).testBit 0 = true := by
    rw [h, Nat.testBit_two_pow_sub_one]
    exact decide_eq_true hg
  rw [Nat.testBit_mod_two_pow] at hfirst
  exact (Bool.and_eq_true_iff.1 hfirst).2

/-! ## The codec law at the close of a group (R10, R287) -/

/-- DEC_STEP at the close of a complete group that arrived without errors gives the payload encoded, by the law. -/
theorem decodeGroup_of_codecLaw {s : State} {terms : CodecTerms} {ct : UlCt} {kind : CodecKind} {cmr : BitVec 2}
    {p : Bytes} {dl : Ilv} {tn : Tn} {ss : Ss} (hlaw : codecLaw s terms) (hkind : kind ≠ .facchCont)
    (hcarries : terms.carries ct kind (decMode ct (s.chan tn ss)) p)
    (hholds : terms.holds ct dl (s.lane tn ss (ulLaneId ct)).ulIlv) (hcont : contOf ct (s.chan tn ss) = false)
    (hmask : (s.lane tn ss (ulLaneId ct)).ulMask.toNat % 2 ^ ct.toCt.groupLen = 2 ^ ct.toCt.groupLen - 1)
    (hslots : (s.lane tn ss (ulLaneId ct)).ulSlots.toList.take ct.toCt.groupLen
      = (s.encStep (ulLaneCt ct) kind (decMode ct (s.chan tn ss)) cmr p dl).slots.map
          fun sl => delivered (s.assemble tn sl)) :
    (decodeGroup ct tn ss s).ok = true ∧ (decodeGroup ct tn ss s).payload = p
      ∧ (decodeGroup ct tn ss s).nerr = 0 := by
  have hresult : decodeGroup ct tn ss s
      = s.decStep ct (decMode ct (s.chan tn ss)) (s.lane tn ss (ulLaneId ct)).ulIlv
          ((s.encStep (ulLaneCt ct) kind (decMode ct (s.chan tn ss)) cmr p dl).slots.map
            fun sl => delivered (s.assemble tn sl)) (2 ^ ct.toCt.groupLen - 1) false := by
    rw [← hslots, ← hmask, ← hcont]
    rfl
  rw [hresult]
  exact hlaw ct kind _ cmr p dl _ tn hkind hcarries hholds

/-- A complete group that decodes without an error is reported with its payload and a BER of 0. -/
theorem execCloseGroup_reports {s : State} {ct : UlCt} {tn : Tn} {ss : Ss}
    (hlegal : decOk (decodeGroup ct tn ss s) = true) (hok : (decodeGroup ct tn ss s).ok = true)
    (hnerr : (decodeGroup ct tn ss s).nerr = 0) (hcont : contOf ct (s.chan tn ss) = false)
    (hfirst : (s.lane tn ss (ulLaneId ct)).ulMask.getLsbD 0 = true) :
    let l := s.lane tn ss (ulLaneId ct)
    let r := decodeGroup ct tn ss s
    ∃ (t : State) (more : List Output), exec (.closeGroup ct tn ss) s = .next t
      ∧ t.out = s.out ++ [
          ⟨.hosto, recMeasInd (idx8 tn) (idx8 ss) (BitVec.ofNat 8 ct.toCt.code) (fn32 l.ulFirstFn)
            (BitVec.ofNat 8 (popcount4 l.ulMask)) 0 (s16 l.rssiAvg) 0 (s16 l.toaAvg)⟩,
          ⟨.hosto, recDataInd (idx8 tn) (idx8 ss) (BitVec.ofNat 8 (dataCode ct r.kind)) (indKindOf r.kind).code
            (fn32 l.ulFirstFn) r.payload⟩] ++ more := by
  intro l r
  have houtcome : outcomeOf ((s.modLane tn ss (ulLaneId ct) fun l => { l with ulIlv := r.ilv, ulOpen := false }).lane
      tn ss (ulLaneId ct)) r (contOf ct (s.chan tn ss)) = .ok := by
    rw [lane_modLane_same]
    exact outcomeOf_eq_ok_iff.2 ⟨hfirst, hcont, hok⟩
  obtain ⟨more, hmore⟩ := report_out_of_ok houtcome
  rw [lane_modLane_same, hnerr, berPpt_no_errors] at hmore
  exact ⟨_, more, outcome_next.2 (closeGroup_of_decOk hlegal), hmore⟩

/-- Settles O48: the law gives DEC_STEP's answer, and REPORT passes it on. -/
theorem codecRoundTrip : Obligations.CodecRoundTrip := by
  intro s terms ct kind cmr p dl tn ss hlaw hlawful hkind c l mode g e hcarries hholds hfacch hmask hslots b8
  have hmode : mode = decMode ct c := by cases ct <;> rfl
  have hgroup : g = ct.toCt.groupLen := by cases ct <;> rfl
  have hcont : contOf ct c = false := by
    by_cases hct : ct = .tchh
    · simp [contOf, hfacch hct]
    · simp [contOf, hct]
  have hlegal : decOk (decodeGroup ct tn ss s) = true := lawful_decStep hlawful _ _ _ _ _ _
  have hfirst : l.ulMask.getLsbD 0 = true := ulMask_first_of_full (hgroup ▸ groupLen_pos ct.toCt) hmask
  obtain ⟨hok, hpayload, hnerr⟩ := decodeGroup_of_codecLaw (cmr := cmr) hlaw hkind (hmode ▸ hcarries) hholds hcont
    (hgroup ▸ hmask) (by rw [← hgroup, ← hmode]; exact hslots)
  obtain ⟨kindCode, hle, hcode⟩ := indKindOf_code_of_decOk hlegal
  obtain ⟨t, more, hexec, hout⟩ := execCloseGroup_reports hlegal hok hnerr hcont hfirst
  rw [hpayload, hcode] at hout
  exact ⟨t, BitVec.ofNat 8 (popcount4 l.ulMask), s16 l.rssiAvg, s16 l.toaAvg,
    dataCode ct (decodeGroup ct tn ss s).kind, kindCode, more, hexec, hle, hout⟩

end Sys2Proof.Machine

/-! SUPPORT. The family of 10_state.md: the invariant of the whole state in its parts, what each operation does to it,
what one event does to it and to CLK_STATE, the registers that the configuration port reads and leaves, and the values
of power-on reset. -/

namespace Sys2Proof.Machine

/-! ## The invariant in its parts -/

/-- The bounds of the clock unit that `clockInv` checks (R25, R26, R28, R143). -/
structure ClockBounds (c : ClockState) : Prop where
  armedOnlyInSync : c.armed = true → c.clkState = .sync
  syncTimer       : c.clkState = .sync → c.armed = true ∧ c.deadline = c.lastTs + BitVec.ofNat 64 frameUs
  causeRange      : c.fatalCause.toNat ≤ 3
  causeInFatal    : c.clkState = .fatal → c.fatalCause ≠ 0
  causeInSession  : c.clkState = .unsync ∨ c.clkState = .sync → c.fatalCause = 0
  lastFn          : c.lastFn.toNat < hyperframe

theorem clockInv_iff {c : ClockState} : clockInv c = true ↔ ClockBounds c := by
  have himp : ∀ (b : Bool) (p : Prop), (b = false ∨ p) ↔ (b = true → p) := by intro b p; cases b <;> simp
  simp only [clockInv, Bool.and_eq_true, Bool.or_eq_true, Bool.not_eq_true', beq_iff_eq, bne_iff_ne, decide_eq_true_eq,
    himp]
  constructor
  · rintro ⟨⟨⟨⟨⟨harmed, hsync⟩, hrange⟩, hfatal⟩, hsession⟩, hfn⟩
    exact ⟨harmed, fun h => hsync.resolve_left (not_not_intro h), hrange,
      fun h => hfatal.resolve_left (not_not_intro h), fun h => hsession.resolve_left fun hn => h.elim hn.1 hn.2, hfn⟩
  · rintro ⟨harmed, hsync, hrange, hfatal, hsession, hfn⟩
    exact ⟨⟨⟨⟨⟨harmed, Decidable.not_or_of_imp hsync⟩, hrange⟩, Decidable.not_or_of_imp hfatal⟩,
      by rw [← not_or]; exact Decidable.not_or_of_imp hsession⟩, hfn⟩

/-- The bounds of a channel's loop and codec registers that `loopInv` checks (R62, R331, R335, R337). -/
structure LoopBounds (c : Channel) : Prop where
  dlCmr  : c.dlCmr.toNat ≤ c.ncodecsM1.toNat
  dlFt   : c.dlFt.toNat ≤ c.ncodecsM1.toNat
  pwrMin : -127 ≤ c.pwrMin.toInt ∧ c.pwrMin.toInt ≤ 128
  taCnt  : c.taCnt.toNat < 16
  taSum  : -32768 * (c.taCnt.toNat : Int) ≤ c.taSum.toInt ∧ c.taSum.toInt ≤ 32767 * c.taCnt.toNat
  berNum : c.berNum.toNat < 48
  berSum : c.berSum.toNat ≤ 10000 * c.berNum.toNat

theorem loopInv_iff {c : Channel} : loopInv c = true ↔ LoopBounds c := by
  simp only [loopInv, Bool.and_eq_true, decide_eq_true_eq]
  constructor
  · rintro ⟨⟨⟨⟨⟨⟨hcmr, hft⟩, hpwr⟩, hcnt⟩, hta⟩, hnum⟩, hber⟩
    exact ⟨hcmr, hft, hpwr, hcnt, hta, hnum, hber⟩
  · rintro ⟨hcmr, hft, hpwr, hcnt, hta, hnum, hber⟩
    exact ⟨⟨⟨⟨⟨⟨hcmr, hft⟩, hpwr⟩, hcnt⟩, hta⟩, hnum⟩, hber⟩

/-- The bounds of a dedicated lane that `laneInv` checks (R31, R286). -/
structure LaneBounds (l : Lane) : Prop where
  dl      : dlInv l.dl = true
  ulSlots : l.ulSlots.toList.all softOk = true
  rssiCnt : l.rssiCnt.toNat = popcount4 l.ulMask
  toaCnt  : l.toaCnt.toNat = popcount4 l.ulMask
  ulMask  : l.ulMask.toNat < 2 ^ (l.ulLastBid.toNat + 1)
  rssiSum : -127 * (l.rssiCnt.toNat : Int) ≤ l.rssiSum.toInt ∧ l.rssiSum.toInt ≤ 128 * l.rssiCnt.toNat
  toaSum  : -32768 * (l.toaCnt.toNat : Int) ≤ l.toaSum.toInt ∧ l.toaSum.toInt ≤ 32767 * l.toaCnt.toNat
  firstFn : l.ulFirstFn.toNat < hyperframe

theorem laneInv_iff {l : Lane} : laneInv l = true ↔ LaneBounds l := by
  simp only [laneInv, Bool.and_eq_true, decide_eq_true_eq, beq_iff_eq]
  constructor
  · rintro ⟨⟨⟨⟨⟨⟨⟨hdl, hslots⟩, hrc⟩, htc⟩, hmask⟩, hrs⟩, hts⟩, hfn⟩
    exact ⟨hdl, hslots, hrc, htc, hmask, hrs, hts, hfn⟩
  · rintro ⟨hdl, hslots, hrc, htc, hmask, hrs, hts, hfn⟩
    exact ⟨⟨⟨⟨⟨⟨⟨hdl, hslots⟩, hrc⟩, htc⟩, hmask⟩, hrs⟩, hts⟩, hfn⟩

/-- A channel within the invariant: its loops, its lanes and its queues. -/
structure ChanBounds (depth : Nat) (c : Channel) : Prop where
  loops   : LoopBounds c
  laneM   : LaneBounds c.laneM
  laneA   : LaneBounds c.laneA
  qSig    : queueInv depth c.qSig = true
  qSpeech : queueInv depth c.qSpeech = true
  qAssoc  : queueInv depth c.qAssoc = true

theorem chanInv_iff {depth : Nat} {c : Channel} : chanInv depth c = true ↔ ChanBounds depth c := by
  simp only [chanInv, Bool.and_eq_true, loopInv_iff, laneInv_iff]
  constructor
  · rintro ⟨⟨⟨⟨⟨hloops, hm⟩, ha⟩, hsig⟩, hspeech⟩, hassoc⟩
    exact ⟨hloops, hm, ha, hsig, hspeech, hassoc⟩
  · rintro ⟨hloops, hm, ha, hsig, hspeech, hassoc⟩
    exact ⟨⟨⟨⟨⟨hloops, hm⟩, ha⟩, hsig⟩, hspeech⟩, hassoc⟩

/-- A timeslot within the invariant. -/
structure SlotBounds (depth : Nat) (t : TnState) : Prop where
  ulLastFn : t.ulLastFn.toNat < hyperframe
  laneB    : dlInv t.laneB = true
  laneC    : dlInv t.laneC = true
  qBcch    : queueInv depth t.qBcch = true
  qCcch    : queueInv depth t.qCcch = true
  chans    : ∀ ss : Ss, ChanBounds depth t.chans[ss.val]

/-- What every entry of a vector of eight satisfies, by index. -/
theorem all_toList_iff {α : Type} {p : α → Bool} {v : Vector α 8} :
    v.toList.all p = true ↔ ∀ i : Fin 8, p v[i.val] = true := by
  rw [List.all_eq_true]
  constructor
  · intro h i
    exact h _ (Vector.mem_toList_iff.2 (Vector.getElem_mem i.isLt))
  · intro h x hx
    obtain ⟨i, hi, rfl⟩ := Vector.getElem_of_mem (Vector.mem_toList_iff.1 hx)
    exact h ⟨i, hi⟩

theorem slotInv_iff {depth : Nat} {t : TnState} : slotInv depth t = true ↔ SlotBounds depth t := by
  simp only [slotInv, Bool.and_eq_true, decide_eq_true_eq, all_toList_iff, chanInv_iff]
  constructor
  · rintro ⟨⟨⟨⟨⟨hfn, hb⟩, hc⟩, hqb⟩, hqc⟩, hchans⟩
    exact ⟨hfn, hb, hc, hqb, hqc, hchans⟩
  · rintro ⟨hfn, hb, hc, hqb, hqc, hchans⟩
    exact ⟨⟨⟨⟨⟨hfn, hb⟩, hc⟩, hqb⟩, hqc⟩, hchans⟩

/-- The invariant of everything but the clock unit: the timeslots and the records emitted. -/
structure DataInv (s : State) : Prop where
  slots : ∀ tn, SlotBounds s.pqDepth (s.slot tn)
  out   : ∀ o ∈ s.out, recordOk o = true

theorem inv_iff {s : State} : s.inv = true ↔ ClockBounds s.clk ∧ DataInv s := by
  simp only [State.inv, Bool.and_eq_true, clockInv_iff, all_toList_iff, slotInv_iff]
  rw [List.all_eq_true]
  constructor
  · rintro ⟨⟨hclk, hslots⟩, hout⟩
    exact ⟨hclk, hslots, hout⟩
  · rintro ⟨hclk, hslots, hout⟩
    exact ⟨⟨hclk, hslots⟩, hout⟩

/-! ## The invariant under the operations on the state -/

variable {s t : State} {tn : Tn} {ss : Ss}

/-- The clock unit, the counters and the configuration do not enter it. -/
theorem DataInv.congr (h : DataInv s) (htns : t.tns = s.tns) (hout : t.out = s.out) (hlisted : t.listed = s.listed) :
    DataInv t := by
  have hdepth : t.pqDepth = s.pqDepth := by simp only [State.pqDepth, hlisted]
  have hslot : ∀ tn, t.slot tn = s.slot tn := fun tn => by simp only [State.slot, htns]
  exact ⟨fun tn => by rw [hdepth, hslot]; exact h.slots tn, by rw [hout]; exact h.out⟩

theorem DataInv.emit (h : DataInv s) {p : OutPort} {b : Bytes} (hrec : recordOk ⟨p, b⟩ = true) :
    DataInv (s.emit p b) := by
  refine ⟨h.slots, fun o ho => ?_⟩
  rcases List.mem_append.1 ho with ho | ho
  · exact h.out o ho
  · rw [List.mem_singleton.1 ho]; exact hrec

theorem DataInv.discard (h : DataInv s) (k : Counter) : DataInv (s.discard k) := h.congr rfl rfl rfl

theorem DataInv.modSlot (h : DataInv s) {f : TnState → TnState} (hf : SlotBounds s.pqDepth (f (s.slot tn))) :
    DataInv (s.modSlot tn f) := by
  refine ⟨fun u => ?_, h.out⟩
  rw [slot_modSlot]
  split
  · exact hf
  · exact h.slots u

theorem DataInv.chan (h : DataInv s) (tn : Tn) (ss : Ss) : ChanBounds s.pqDepth (s.chan tn ss) := (h.slots tn).chans ss

theorem SlotBounds.setChan {depth : Nat} {t : TnState} {c : Channel} (h : SlotBounds depth t)
    (hc : ChanBounds depth c) : SlotBounds depth { t with chans := t.chans.set ss.val c } :=
  { h with
    chans := fun u => by
      simp only [Vector.getElem_set]
      split
      · exact hc
      · exact h.chans u }

theorem DataInv.modChan (h : DataInv s) {f : Channel → Channel} (hf : ChanBounds s.pqDepth (f (s.chan tn ss))) :
    DataInv (s.modChan tn ss f) := h.modSlot ((h.slots tn).setChan hf)

theorem ChanBounds.lane {depth : Nat} {c : Channel} (h : ChanBounds depth c) (id : LaneId) : LaneBounds (c.lane id) :=
  match id with
  | .m => h.laneM
  | .a => h.laneA

theorem ChanBounds.modLane {depth : Nat} {c : Channel} {id : LaneId} {f : Lane → Lane} (h : ChanBounds depth c)
    (hf : LaneBounds (f (c.lane id))) : ChanBounds depth (c.modLane id f) := by
  cases id with
  | m => exact { h with loops := { h.loops with }, laneM := hf }
  | a => exact { h with loops := { h.loops with }, laneA := hf }

theorem DataInv.lane (h : DataInv s) (tn : Tn) (ss : Ss) (id : LaneId) : LaneBounds (s.lane tn ss id) :=
  (h.chan tn ss).lane id

theorem DataInv.modLane (h : DataInv s) {id : LaneId} {f : Lane → Lane} (hf : LaneBounds (f (s.lane tn ss id))) :
    DataInv (s.modLane tn ss id f) := h.modChan ((h.chan tn ss).modLane hf)

theorem DataInv.dlLane (h : DataInv s) (l : LaneRef) : dlInv (s.dlLane l) = true := by
  cases l with
  | comB tn => exact (h.slots tn).laneB
  | comC tn => exact (h.slots tn).laneC
  | dedM tn ss => exact (h.chan tn ss).laneM.dl
  | dedA tn ss => exact (h.chan tn ss).laneA.dl

/-- The downlink fields of one of a channel's lanes replaced. -/
theorem ChanBounds.withDl {depth : Nat} {c : Channel} (h : ChanBounds depth c) (id : LaneId) {d : DlLane}
    (hd : dlInv d = true) : ChanBounds depth (c.modLane id fun l => { l with dl := d }) :=
  h.modLane { h.lane id with dl := hd }

theorem DataInv.modDl (h : DataInv s) {l : LaneRef} {f : DlLane → DlLane} (hf : dlInv (f (s.dlLane l)) = true) :
    DataInv (s.modDl l f) := by
  cases l with
  | comB tn => exact h.modSlot (f := fun t => { t with laneB := f t.laneB }) { h.slots tn with laneB := hf }
  | comC tn => exact h.modSlot (f := fun t => { t with laneC := f t.laneC }) { h.slots tn with laneC := hf }
  | dedM tn ss =>
    exact h.modChan (f := fun c => { c with laneM := { c.laneM with dl := f c.laneM.dl } })
      ((h.chan tn ss).withDl .m hf)
  | dedA tn ss =>
    exact h.modChan (f := fun c => { c with laneA := { c.laneA with dl := f c.laneA.dl } })
      ((h.chan tn ss).withDl .a hf)

theorem DataInv.queue (h : DataInv s) (q : QueueRef) : queueInv s.pqDepth (s.queue q) = true := by
  cases q with
  | bcch tn => exact (h.slots tn).qBcch
  | ccch tn => exact (h.slots tn).qCcch
  | sig tn ss => exact (h.chan tn ss).qSig
  | speech tn ss => exact (h.chan tn ss).qSpeech
  | assoc tn ss => exact (h.chan tn ss).qAssoc

theorem ChanBounds.withQueues {depth : Nat} {c : Channel} {sig speech assoc : List Bytes} (h : ChanBounds depth c)
    (hsig : queueInv depth sig = true) (hspeech : queueInv depth speech = true) (hassoc : queueInv depth assoc = true) :
    ChanBounds depth { c with qSig := sig, qSpeech := speech, qAssoc := assoc } :=
  { h with loops := { h.loops with }, qSig := hsig, qSpeech := hspeech, qAssoc := hassoc }

theorem DataInv.setQueue (h : DataInv s) (q : QueueRef) {v : List Bytes} (hv : queueInv s.pqDepth v = true) :
    DataInv (s.setQueue q v) := by
  cases q with
  | bcch tn => exact h.modSlot (f := fun t => { t with qBcch := v }) { h.slots tn with qBcch := hv }
  | ccch tn => exact h.modSlot (f := fun t => { t with qCcch := v }) { h.slots tn with qCcch := hv }
  | sig tn ss =>
    have hc := h.chan tn ss
    exact h.modChan (f := fun c => { c with qSig := v }) (hc.withQueues hv hc.qSpeech hc.qAssoc)
  | speech tn ss =>
    have hc := h.chan tn ss
    exact h.modChan (f := fun c => { c with qSpeech := v }) (hc.withQueues hc.qSig hv hc.qAssoc)
  | assoc tn ss =>
    have hc := h.chan tn ss
    exact h.modChan (f := fun c => { c with qAssoc := v }) (hc.withQueues hc.qSig hc.qSpeech hv)

theorem queueInv_iff {depth : Nat} {q : List Bytes} :
    queueInv depth q = true ↔ q.length ≤ depth ∧ ∀ p ∈ q, p.length ≤ 255 := by
  simp [queueInv]

theorem queueInv_tail {depth : Nat} {q : List Bytes} (h : queueInv depth q = true) : queueInv depth q.tail = true := by
  obtain ⟨hlen, hall⟩ := queueInv_iff.1 h
  exact queueInv_iff.2 ⟨by rw [List.length_tail]; omega, fun p hp => hall p (List.mem_of_mem_tail hp)⟩

theorem DataInv.dropHead (h : DataInv s) (q : QueueRef) : DataInv (s.dropHead q) :=
  h.setQueue q (queueInv_tail (h.queue q))

theorem DataInv.popQueue (h : DataInv s) {q : QueueRef} {p : Bytes} {rest : List Bytes} (hq : s.queue q = p :: rest) :
    queueInv s.pqDepth rest = true := by
  have := queueInv_tail (h.queue q)
  rwa [hq] at this

end Sys2Proof.Machine

namespace Sys2Proof.Machine

/-! ## The records a step emits have a legal form (R105, R116 to R123, R126) -/

/-- The four bytes of a field, most significant first, read back (R6, R82). -/
theorem be32_of_bytes32 (a : Byte) (v : BitVec 32) (rest : Bytes) : be32 (a :: bytes32 v ++ rest) 1 = v := by
  apply BitVec.eq_of_toNat_eq
  have hv := v.isLt
  simp only [be32, byteAt, bytes32, List.cons_append, List.nil_append, List.getElem?_cons_succ, List.getElem?_cons_zero,
    Option.getD_some, BitVec.toNat_ofNat]
  omega

theorem bitByte_zero_or_one (b : Bool) : (bitByte b == 0 || bitByte b == 1) = true := by cases b <;> rfl

theorem recordOk_dldRecord (tn : Tn) {sn : Fn} (power : Byte) {bits : List Bool} (hsn : sn.toNat < hyperframe)
    (hbits : bits.length = 148 ∨ bits.length = 444) : recordOk ⟨.dld, dldRecord tn sn power bits⟩ = true := by
  have htn : (byteAt (dldRecord tn sn power bits) 0).toNat < 8 := by
    have := tn.isLt
    simp only [byteAt, dldRecord, List.cons_append, List.getElem?_cons_zero, Option.getD_some, BitVec.toNat_ofNat]
    omega
  have hfn : be32 (dldRecord tn sn power bits) 1 = fn32 sn := be32_of_bytes32 _ _ _
  have hfn32 : (fn32 sn).toNat = sn.toNat := by
    have := sn.isLt
    simp only [fn32, BitVec.toNat_setWidth]
    omega
  have hlen : (dldRecord tn sn power bits).length = 6 + bits.length := by
    simp [dldRecord, bytes32]; omega
  have hall : ((dldRecord tn sn power bits).drop 6).all (fun b => b == 0 || b == 1) = true := by
    simp only [dldRecord, bytes32, List.cons_append, List.nil_append, List.drop_succ_cons, List.drop_zero, List.all_map,
      Function.comp_def, bitByte_zero_or_one, List.all_eq_true, implies_true]
  simp only [recordOk, hlen, hfn, hfn32, hall, decide_eq_true htn, decide_eq_true hsn, Bool.and_true, Bool.or_eq_true,
    beq_iff_eq]
  omega

theorem recordOk_cfgData (a : BitVec 16) (v : BitVec 32) : recordOk ⟨.hosto, recCfgData a v⟩ = true := rfl

theorem recordOk_dataInd (tn ss ct kind : Byte) (fn : BitVec 32) {p : Bytes} (hp : p.length ≤ 255) :
    recordOk ⟨.hosto, recDataInd tn ss ct kind fn p⟩ = true := by
  have hlen : (recDataInd tn ss ct kind fn p).length = 10 + p.length := by
    simp [recDataInd, bytes32]; omega
  have hcount : (byteAt (recDataInd tn ss ct kind fn p) 9).toNat = p.length := by
    simp only [byteAt, recDataInd, bytes32, List.cons_append, List.nil_append, List.getElem?_cons_succ,
      List.getElem?_cons_zero, Option.getD_some, BitVec.toNat_ofNat]
    omega
  have hop : (byteAt (recDataInd tn ss ct kind fn p) 0).toNat = 0x90 := rfl
  simp only [recordOk, decodeOutput, hop, hlen, hcount, if_true, Option.isSome_some]

theorem recordOk_measInd (tn ss ct : Byte) (fn : BitVec 32) (n flags : Byte) (rssi ber toa : BitVec 16) :
    recordOk ⟨.hosto, recMeasInd tn ss ct fn n flags rssi ber toa⟩ = true := rfl

theorem recordOk_rachInd (tn ct : Byte) (fn : BitVec 32) (ra toa ber rssi : BitVec 16) :
    recordOk ⟨.hosto, recRachInd tn ct fn ra toa ber rssi⟩ = true := rfl

theorem recordOk_hoInd (tn ss : Byte) (fn : BitVec 32) (ra toa ber rssi : BitVec 16) :
    recordOk ⟨.hosto, recHoInd tn ss fn ra toa ber rssi⟩ = true := rfl

theorem recordOk_loopInd (tn ss which : Byte) (v : BitVec 16) :
    recordOk ⟨.hosto, recLoopInd tn ss which v⟩ = true := rfl

theorem recordOk_fatalInd (cause : Byte) : recordOk ⟨.hosto, recFatalInd cause⟩ = true := rfl

/-! ## The downlink keeps the invariant (43_sched_downlink.md) -/

variable {s t : State} {tn : Tn} {ss : Ss} {sn : Fn}

theorem DataInv.emitDl (h : DataInv s) (tn : Tn) (hsn : sn.toNat < hyperframe) {bits : List Bool}
    (hbits : bits.length = 148 ∨ bits.length = 444) : DataInv (emitDl tn sn bits s) :=
  h.emit (recordOk_dldRecord tn _ hsn hbits)

/-- A slot of the contract's length is assembled into a burst of 148 or 444 bits (R215, R216). -/
theorem emitSlot_keeps (h : DataInv s) (hsn : sn.toNat < hyperframe) {slot : Slot} (hslot : slotOk slot = true)
    (he : emitSlot tn sn slot s = .ok t) : DataInv t := by
  obtain ⟨rfl, hpsk8⟩ := emitSlot_ok he
  apply h.emitDl tn hsn
  cases hmod : slot.modulation with
  | gmsk =>
    have hbits : slot.bits.length = 116 := by simpa only [slotOk, hmod, beq_iff_eq] using hslot
    left
    simp only [State.assemble, hmod]
    exact asmNb_length hbits (tscSeq_length s _)
  | psk8 => exact .inr (hpsk8 hmod)

theorem txIdle_keeps (h : DataInv s) (hsn : sn.toNat < hyperframe) (he : txIdle tn sn s = .ok t) : DataInv t := by
  unfold txIdle at he
  split at he
  · split at he
    · next hlen => cases he; exact h.emitDl tn hsn (.inl hlen)
    · cases he
  · cases he; exact h

theorem txFcch_keeps (h : DataInv s) (hsn : sn.toNat < hyperframe) (he : txFcch tn sn s = .ok t) : DataInv t := by
  unfold txFcch at he
  split at he
  · next hlen => cases he; exact h.emitDl tn hsn (.inl hlen)
  · cases he

theorem txSch_keeps (h : DataInv s) (hsn : sn.toNat < hyperframe) (he : txSch tn sn s = .ok t) : DataInv t := by
  unfold txSch at he
  split at he
  · next hlen => cases he; exact h.emitDl tn hsn (.inl hlen)
  · cases he

/-! ### Payload selection -/

theorem LaneBounds.withLoss {l : Lane} (h : LaneBounds l) (n : BitVec 8) : LaneBounds { l with dlLoss := n } :=
  { h with }

theorem DataInv.dlHit (h : DataInv s) (id : LaneId) (tn : Tn) (ss : Ss) : DataInv (dlHit id tn ss s) :=
  h.modLane ((h.lane tn ss id).withLoss 0)

theorem DataInv.countLoss (h : DataInv s) (id : LaneId) (tn : Tn) (ss : Ss) : DataInv (countLoss id tn ss s) :=
  h.modLane ((h.lane tn ss id).withLoss _)

theorem DataInv.setDlFacch (h : DataInv s) (v : Bool) (tn : Tn) (ss : Ss) : DataInv (setDlFacch v tn ss s) :=
  h.modChan (f := fun c => { c with dlFacchOng := v }) { h.chan tn ss with loops := { (h.chan tn ss).loops with } }

/-- A selection that keeps the invariant. -/
def KeepsSel (f : State → Res Selected) : Prop := ∀ s x, DataInv s → f s = .ok x → DataInv x.state

theorem popOrFill_keeps (q : QueueRef) (ct : LaneCt) : KeepsSel (popOrFill q ct) := by
  intro s x h he
  unfold popOrFill at he
  split at he
  · next hq => cases he; exact h.setQueue q (h.popQueue hq)
  · split at he
    · cases he; exact h
    · cases he

theorem missSel_keeps (ct : MissCt) (tn : Tn) (ss : Ss) (mode cmr : BitVec 2) :
    KeepsSel (missSel ct tn ss mode cmr) := by
  intro s x h he
  unfold missSel at he
  split at he
  · next hmiss =>
    cases he
    obtain ⟨-, hstate, -⟩ := dlMiss_op hmiss
    rw [hstate]
    exact h.countLoss _ tn ss
  · cases he

theorem selSacch_keeps (tn : Tn) (ss : Ss) : KeepsSel (selSacch tn ss) := by
  intro s x h he
  unfold selSacch at he
  split at he
  · next hq => cases he; exact (h.dlHit .a tn ss).setQueue (.assoc tn ss) (h.popQueue hq)
  · exact missSel_keeps .sacch tn ss 0 0 s x h he

theorem selSpeech_keeps (ct : MissCt) (tn : Tn) (ss : Ss) : KeepsSel (selSpeech ct tn ss) := by
  intro s x h he
  simp only [selSpeech] at he
  split at he
  · next hq => cases he; exact (h.dlHit .m tn ss).setQueue (.speech tn ss) (h.popQueue hq)
  · exact missSel_keeps ct tn ss _ _ s x h he

theorem selTchf_keeps (tn : Tn) (ss : Ss) : KeepsSel (selTchf tn ss) := by
  intro s x h he
  simp only [selTchf] at he
  split at he
  · next hq => cases he; exact ((h.setQueue (.sig tn ss) (h.popQueue hq)).dlHit .m tn ss).dropHead (.speech tn ss)
  · exact selSpeech_keeps .tchf tn ss s x h he

theorem selTchh_keeps (tn : Tn) (ss : Ss) (facchOk : Bool) : KeepsSel (selTchh tn ss facchOk) := by
  intro s x h he
  simp only [selTchh] at he
  split at he
  · cases he; exact ((h.setDlFacch false tn ss).dlHit .m tn ss).dropHead (.speech tn ss)
  · split at he
    · next hq =>
      cases he
      exact (((h.setQueue (.sig tn ss) (h.popQueue hq)).setDlFacch true tn ss).dlHit .m tn ss).dropHead (.speech tn ss)
    · exact selSpeech_keeps .tchh tn ss s x h he

theorem select_keeps (ct : LaneCt) (tn : Tn) (ss : Ss) (facchOk : Bool) : KeepsSel (select ct tn ss facchOk) := by
  cases ct with
  | bcch => exact popOrFill_keeps (.bcch tn) .bcch
  | ccch => exact popOrFill_keeps (.ccch tn) .ccch
  | sdcch => exact popOrFill_keeps (.sig tn ss) .sdcch
  | sacch => exact selSacch_keeps tn ss
  | tchf => exact selTchf_keeps tn ss
  | tchh => exact selTchh_keeps tn ss facchOk
  | pdtch => exact popOrFill_keeps (.sig tn ss) .pdtch
  | ptcch => exact popOrFill_keeps (.assoc tn ss) .ptcch

/-! ### TX_GROUP, the dispatch and SCHED_FN -/

theorem dlInv_iff {l : DlLane} : dlInv l = true ↔ ∀ slot ∈ l.slots.toList, slotOk slot = true := by
  simp only [dlInv, List.all_eq_true]

/-- ENC_STEP's slots over a lane's old ones: each is of its contract's length (R243, R376). -/
theorem overlaySlots_slotOk {ct : LaneCt} {old : Vector Slot 4} {r : EncResult}
    (hold : ∀ slot ∈ old.toList, slotOk slot = true) (hr : encOk ct r = true) :
    ∀ slot ∈ (overlaySlots old r.slots).toList, slotOk slot = true := by
  obtain ⟨hlen, hall⟩ := Bool.and_eq_true_iff.1 hr
  have hle : r.slots.length ≤ 4 := by rw [beq_iff_eq.1 hlen]; exact groupLen_le _
  intro slot hslot
  rw [overlaySlots_toList old r.slots hle] at hslot
  rcases List.mem_append.1 hslot with hnew | hkept
  · exact List.all_eq_true.1 hall slot hnew
  · exact hold slot (List.mem_of_mem_drop hkept)

theorem startGroup_keeps {ct : LaneCt} {x : Selected} (h : DataInv x.state) (he : startGroup ct tn ss x = .ok t) :
    DataInv t := by
  obtain ⟨henc, rfl⟩ := startGroup_ok he
  exact h.modDl (dlInv_iff.2 (overlaySlots_slotOk (dlInv_iff.1 (h.dlLane _)) henc))

theorem slotAt_slotOk {l : DlLane} (h : dlInv l = true) (bid : Bid) : slotOk (l.slotAt bid) = true :=
  dlInv_iff.1 h _ (Vector.mem_toList_iff.2 (Vector.getElem_mem _))

theorem sendSlot_keeps {ct : LaneCt} {bid : Bid} (h : DataInv s) (hsn : sn.toNat < hyperframe)
    (he : sendSlot ct tn ss bid sn s = .ok t) : DataInv t := by
  have hbid : DataInv (s.modDl (laneRef ct tn ss) fun d => { d with lastBid := bid }) := h.modDl (h.dlLane _)
  simp only [sendSlot] at he
  split at he
  · next u hu =>
    have hsent : DataInv u := emitSlot_keeps hbid hsn (slotAt_slotOk (hbid.dlLane _) bid) hu
    cases he
    split
    · exact hsent.modDl (hsent.dlLane _)
    · exact hsent
  · cases he

theorem txGroup_keeps {ct : LaneCt} {bid : Bid} {facchOk : Bool} (h : DataInv s) (hsn : sn.toNat < hyperframe)
    (he : txGroup ct tn ss bid facchOk sn s = .ok t) : DataInv t := by
  unfold txGroup at he
  split at he
  · split at he
    · next x hx =>
      split at he
      · next u hu => exact sendSlot_keeps (startGroup_keeps (select_keeps ct tn ss facchOk s x h hx) hu) hsn he
      · cases he
    · cases he
  · split at he
    · exact sendSlot_keeps h hsn he
    · exact txIdle_keeps h hsn he

theorem txDispatch_keeps {e : Position} (h : DataInv s) (hsn : sn.toNat < hyperframe)
    (he : txDispatch tn e sn s = .ok t) : DataInv t := by
  unfold txDispatch at he
  split at he
  · exact txIdle_keeps h hsn he
  · cases hct : e.ct <;> rw [hct] at he <;> dsimp only at he
    case idle => exact txIdle_keeps h hsn he
    case fcch => exact txFcch_keeps h hsn he
    case sch => exact txSch_keeps h hsn he
    case rach => exact txIdle_keeps h hsn he
    all_goals exact txGroup_keeps h hsn he

theorem schedTn_keeps (h : DataInv s) (hsn : sn.toNat < hyperframe) (he : schedTn sn tn s = .ok t) : DataInv t := by
  unfold schedTn at he
  split at he
  · cases he; exact h
  · split at he
    · exact txDispatch_keeps h hsn he
    · cases he

theorem schedTns_keeps (hsn : sn.toNat < hyperframe) (tns : List Tn) :
    ∀ {s : State}, DataInv s → schedTns sn tns s = .ok t → DataInv t := by
  induction tns with
  | nil => intro s h he; cases he; exact h
  | cons tn rest ih =>
    intro s h he
    simp only [schedTns] at he
    split at he
    · next u hu => exact ih (schedTn_keeps h hsn hu) he
    · cases he

theorem fnAdd_lt (f : Fn) (n : Nat) : (fnAdd f n).toNat < hyperframe := by
  rw [fnAdd_toNat]
  exact Nat.mod_lt _ (by decide)

theorem fnInc_lt (f : Fn) : (fnInc f).toNat < hyperframe := by
  rw [fnInc_toNat]
  exact Nat.mod_lt _ (by decide)

theorem schedFn_keeps {fn : Fn} (h : DataInv s) (he : schedFn fn s = .ok t) : DataInv t :=
  schedTns_keeps (fnAdd_lt _ _) allTns h he

/-- The frames of a catch-up or a TICK, one after the other. -/
theorem produce_keeps (k : Nat) : ∀ {s : State}, DataInv s → produce k s = .ok t → DataInv t := by
  induction k with
  | zero => intro s h he; cases he; exact h
  | succ k ih =>
    intro s h he
    simp only [produce] at he
    split at he
    · next u hu =>
      have hnext : DataInv { s with clk := { s.clk with lastFn := fnInc s.clk.lastFn } } := h.congr rfl rfl rfl
      exact ih (schedFn_keeps hnext hu) he
    · cases he

end Sys2Proof.Machine

namespace Sys2Proof.Machine

/-! ## The loops keep the invariant (45_loops.md) -/

variable {s t : State} {tn : Tn} {ss : Ss}

/-- A sum that stays in a signed field of 32 bits. -/
theorem toInt_ofInt_32 {x : Int} (hlo : -2147483648 ≤ x) (hhi : x < 2147483648) : (BitVec.ofInt 32 x).toInt = x :=
  BitVec.toInt_ofInt_eq_self (by decide) hlo hhi

/-- A power sample in its signed field of 16 bits. -/
theorem toInt_ofInt_16 {x : Int} (hlo : -32768 ≤ x) (hhi : x < 32768) : (BitVec.ofInt 16 x).toInt = x :=
  BitVec.toInt_ofInt_eq_self (by decide) hlo hhi

/-- From c to d only loop and codec registers changed, and their bounds are kept. -/
structure LoopUpdate (c d : Channel) : Prop where
  laneM   : d.laneM = c.laneM
  laneA   : d.laneA = c.laneA
  qSig    : d.qSig = c.qSig
  qSpeech : d.qSpeech = c.qSpeech
  qAssoc  : d.qAssoc = c.qAssoc
  bounds  : LoopBounds c → LoopBounds d

theorem LoopUpdate.lane {c d : Channel} (h : LoopUpdate c d) (id : LaneId) : d.lane id = c.lane id :=
  match id with
  | .m => h.laneM
  | .a => h.laneA

theorem LoopUpdate.chanBounds {depth : Nat} {c d : Channel} (h : LoopUpdate c d) (hc : ChanBounds depth c) :
    ChanBounds depth d where
  loops := h.bounds hc.loops
  laneM := h.laneM ▸ hc.laneM
  laneA := h.laneA ▸ hc.laneA
  qSig := h.qSig ▸ hc.qSig
  qSpeech := h.qSpeech ▸ hc.qSpeech
  qAssoc := h.qAssoc ▸ hc.qAssoc

/-- The registers without a bound of their own may take any value. -/
theorem LoopUpdate.unbounded (c : Channel) (ft : BitVec 2) (ack : BitVec 6) (pwr : BitVec 8) (clk facch : Bool) :
    LoopUpdate c { c with ulFt := ft, ackTa := ack, msPwr := pwr, pwrClk := clk, ulFacchOng := facch } :=
  ⟨rfl, rfl, rfl, rfl, rfl, fun h => { h with }⟩

/-- From s to t an operation of the loops kept the invariant and wrote no lane. -/
structure LoopStep (s t : State) : Prop where
  keeps : DataInv s → DataInv t
  lane  : ∀ tn ss id, t.lane tn ss id = s.lane tn ss id

theorem LoopStep.refl (s : State) : LoopStep s s := ⟨fun h => h, fun _ _ _ => rfl⟩

theorem LoopStep.trans {u : State} (h1 : LoopStep s t) (h2 : LoopStep t u) : LoopStep s u :=
  ⟨fun h => h2.keeps (h1.keeps h), fun tn ss id => (h2.lane tn ss id).trans (h1.lane tn ss id)⟩

theorem LoopStep.ofModChan {f : Channel → Channel} (hf : LoopUpdate (s.chan tn ss) (f (s.chan tn ss))) :
    LoopStep s (s.modChan tn ss f) := by
  refine ⟨fun h => h.modChan (hf.chanBounds (h.chan tn ss)), fun u v id => ?_⟩
  simp only [State.lane, chan_modChan]
  split
  · next h => rw [h.1, h.2]; exact hf.lane id
  · rfl

theorem LoopStep.emit (h : LoopStep s t) {b : Bytes} (hb : recordOk ⟨.hosto, b⟩ = true) :
    LoopStep s (t.emit .hosto b) := ⟨fun hs => (h.keeps hs).emit hb, h.lane⟩

theorem LoopStep.emitLoop (h : LoopStep s t) (tn : Tn) (ss : Ss) (w : LoopKind) (v : Int) :
    LoopStep s (t.emitLoop tn ss w v) := h.emit (recordOk_loopInd _ _ _ _)

/-- A loop indication that is emitted or not. -/
theorem LoopStep.ite_emitLoop {p : Prop} [Decidable p] (h : LoopStep s t) (tn : Tn) (ss : Ss) (w : LoopKind) (v : Int) :
    LoopStep s (if p then t else t.emitLoop tn ss w v) := by
  split
  · exact h
  · exact h.emitLoop tn ss w v

/-! ### Power (R331 to R333) -/

/-- A power sample within its range keeps the range (R331). -/
theorem LoopUpdate.setPwr (c : Channel) (n : BitVec 8) {p : BitVec 16}
    (hp : -127 ≤ c.pwrMin.toInt ∧ c.pwrMin.toInt ≤ 128 → -127 ≤ p.toInt ∧ p.toInt ≤ 128) :
    LoopUpdate c { c with pwrMin := p, pwrCnt := n } :=
  ⟨rfl, rfl, rfl, rfl, rfl, fun h => { h with pwrMin := hp h.pwrMin }⟩

theorem LoopUpdate.pwrSample (c : Channel) {rssi : Int} (hlo : -127 ≤ rssi) (hhi : rssi ≤ 128) :
    LoopUpdate c (c.pwrSample rssi) := by
  refine .setPwr c _ fun hold => ?_
  rw [toInt_ofInt_16 (by split <;> omega) (by split <;> omega)]
  split <;> omega

theorem pwrSample_step (tn : Tn) (ss : Ss) {rssi : Int} (hlo : -127 ≤ rssi) (hhi : rssi ≤ 128) (s : State) :
    LoopStep s (pwrSample tn ss rssi s) := by
  unfold Machine.pwrSample
  split
  · exact .ofModChan (.pwrSample _ hlo hhi)
  · exact .refl s

theorem pwrEval_step (tn : Tn) (ss : Ss) (s : State) : LoopStep s (pwrEval tn ss s) := by
  have hclear : LoopStep s (s.modChan tn ss fun c => { c with pwrCnt := 0, pwrMin := 0 }) :=
    .ofModChan (.setPwr _ _ fun _ => by decide)
  simp only [pwrEval]
  split
  · exact hclear
  · exact (hclear.trans (.ofModChan (.unbounded _ _ _ _ _ _))).emitLoop tn ss _ _

theorem pwrClock_step (tn : Tn) (ss : Ss) (s : State) : LoopStep s (pwrClock tn ss s) := by
  have hflip : LoopStep s (s.modChan tn ss fun c => { c with pwrClk := !c.pwrClk }) :=
    .ofModChan (.unbounded _ _ _ _ _ _)
  simp only [pwrClock]
  split
  · split
    · exact hflip
    · exact hflip.trans (pwrEval_step tn ss _)
  · exact .refl s

/-! ### Timing advance (R334 to R336) -/

/-- TA_SAMPLE's accumulation (R334). -/
def Channel.addToa (c : Channel) (toa : Int) : Channel :=
  { c with taSum := BitVec.ofInt 32 (c.taSum.toInt + toa), taCnt := c.taCnt + 1 }

/-- A sample that does not complete the sixteen. -/
theorem LoopUpdate.addToa (c : Channel) {toa : Int} (hlo : -32768 ≤ toa) (hhi : toa ≤ 32767)
    (hcnt : (c.addToa toa).taCnt ≠ 16) : LoopUpdate c (c.addToa toa) := by
  refine ⟨rfl, rfl, rfl, rfl, rfl, fun h => ?_⟩
  obtain ⟨hold, hold'⟩ := h.taSum
  have hlt := h.taCnt
  have hnext : (c.addToa toa).taCnt.toNat = c.taCnt.toNat + 1 := by
    simp only [Channel.addToa, BitVec.toNat_add]; simp; omega
  have hne : (c.addToa toa).taCnt.toNat ≠ 16 := fun e => hcnt (BitVec.eq_of_toNat_eq e)
  have hsum : (c.addToa toa).taSum.toInt = c.taSum.toInt + toa := toInt_ofInt_32 (by omega) (by omega)
  exact { h with taCnt := by omega, taSum := by rw [hsum, hnext]; push_cast; omega }

theorem LoopUpdate.clearToa (c : Channel) (ta : BitVec 6) :
    LoopUpdate c { c with rqdTa := ta, taSum := 0, taCnt := 0 } := by
  refine ⟨rfl, rfl, rfl, rfl, rfl, fun h => ?_⟩
  have hcnt : (0#5).toNat < 16 := by decide
  have hsum : -32768 * ((0#5).toNat : Int) ≤ (0#32).toInt ∧ (0#32).toInt ≤ 32767 * ((0#5).toNat : Int) := by decide
  exact { h with taCnt := hcnt, taSum := hsum }

/-- TA_EVAL clears the accumulator, so it may follow a sample that completes the sixteen. -/
theorem taEval_step (s : State) {f : Channel → Channel}
    (hf : LoopUpdate (s.chan tn ss) { f (s.chan tn ss) with
      rqdTa := taNewOf (f (s.chan tn ss)), taSum := 0, taCnt := 0 }) :
    LoopStep s (taEval tn ss (s.modChan tn ss f)) := by
  simp only [taEval, modChan_modChan, chan_modChan_same]
  exact (LoopStep.ofModChan hf).ite_emitLoop tn ss _ _

theorem taSample_step (tn : Tn) (ss : Ss) {toa : Int} (hlo : -32768 ≤ toa) (hhi : toa ≤ 32767) (s : State) :
    LoopStep s (taSample tn ss toa s) := by
  simp only [taSample]
  split
  · change LoopStep s (if ((s.modChan tn ss fun c => c.addToa toa).chan tn ss).taCnt = 16
      then taEval tn ss (s.modChan tn ss fun c => c.addToa toa) else s.modChan tn ss fun c => c.addToa toa)
    rw [chan_modChan_same]
    split
    · exact taEval_step s (.clearToa _ _)
    · next hcnt => exact .ofModChan (.addToa _ hlo hhi hcnt)
  · exact .refl s

/-! ### AMR codec mode (R337 to R339) -/

/-- AMR_SAMPLE's accumulation (R338). -/
def Channel.addBer (c : Channel) (ber w : Nat) : Channel :=
  { c with berSum := c.berSum + BitVec.ofNat 32 (w * ber), berNum := c.berNum + BitVec.ofNat 8 w }

/-- A sample that does not complete the 48 frames. -/
theorem LoopUpdate.addBer (c : Channel) {ber w : Nat} (hber : ber ≤ 10000) (hw : w = 1 ∨ w = 2)
    (hnum : ¬ 48 ≤ (c.addBer ber w).berNum.toNat) : LoopUpdate c (c.addBer ber w) := by
  refine ⟨rfl, rfl, rfl, rfl, rfl, fun h => ?_⟩
  have hlt := h.berNum
  have hold := h.berSum
  have hprod : w * ber ≤ 10000 * w := by rw [Nat.mul_comm]; exact Nat.mul_le_mul_right w hber
  have hnext : (c.addBer ber w).berNum.toNat = c.berNum.toNat + w := by
    simp only [Channel.addBer, BitVec.toNat_add, BitVec.toNat_ofNat]; omega
  have hsum : (c.addBer ber w).berSum.toNat = c.berSum.toNat + w * ber := by
    simp only [Channel.addBer, BitVec.toNat_add, BitVec.toNat_ofNat]; omega
  exact { h with berNum := by omega, berSum := by rw [hsum, hnext]; omega }

/-- One step of the mode stays within the active set (R62, R339). -/
theorem amrNewOf_le {c : Channel} (h : c.dlCmr.toNat ≤ c.ncodecsM1.toNat) : (amrNewOf c).toNat ≤ c.ncodecsM1.toNat := by
  have hcodecs := c.ncodecsM1.isLt
  simp only [amrNewOf]
  split
  · next hdown =>
    obtain ⟨hpos, -⟩ := hdown
    simp only [BitVec.toNat_sub]; simp; omega
  · split
    · next hup =>
      obtain ⟨hlt, -⟩ := hup
      simp only [BitVec.toNat_add]; simp; omega
    · exact h

theorem LoopUpdate.clearBer (c : Channel) {m : BitVec 2}
    (hm : c.dlCmr.toNat ≤ c.ncodecsM1.toNat → m.toNat ≤ c.ncodecsM1.toNat) :
    LoopUpdate c { c with dlCmr := m, berSum := 0, berNum := 0 } := by
  refine ⟨rfl, rfl, rfl, rfl, rfl, fun h => ?_⟩
  have hnum : (0#8).toNat < 48 := by decide
  have hsum : (0#32).toNat ≤ 10000 * (0#8).toNat := by decide
  exact { h with dlCmr := hm h.dlCmr, berNum := hnum, berSum := hsum }

/-- AMR_EVAL clears the accumulator, so it may follow a sample that completes the 48 frames. -/
theorem amrEval_step (s : State) {f : Channel → Channel}
    (hf : LoopUpdate (s.chan tn ss) { f (s.chan tn ss) with
      dlCmr := amrNewOf (f (s.chan tn ss)), berSum := 0, berNum := 0 }) :
    LoopStep s (amrEval tn ss (s.modChan tn ss f)) := by
  simp only [amrEval, modChan_modChan, chan_modChan_same]
  exact (LoopStep.ofModChan hf).ite_emitLoop tn ss _ _

theorem amrSample_step (tn : Tn) (ss : Ss) {ber w : Nat} (hber : ber ≤ 10000) (hw : w = 1 ∨ w = 2) (s : State) :
    LoopStep s (amrSample tn ss ber w s) := by
  simp only [amrSample]
  split
  · split
    · change LoopStep s (if 48 ≤ ((s.modChan tn ss fun c => c.addBer ber w).chan tn ss).berNum.toNat
        then amrEval tn ss (s.modChan tn ss fun c => c.addBer ber w) else s.modChan tn ss fun c => c.addBer ber w)
      rw [chan_modChan_same]
      split
      · exact amrEval_step s (.clearBer _ (amrNewOf_le (c := (s.chan tn ss).addBer ber w)))
      · next hnum => exact .ofModChan (.addBer _ hber hw hnum)
    · exact .ofModChan (.clearBer _ id)
  · exact .refl s

/-! ### The hooks (R292 to R294) -/

theorem noteFt_step (r : DecResult) (tn : Tn) (ss : Ss) (s : State) : LoopStep s (noteFt r tn ss s) := by
  unfold noteFt
  split
  · exact .ofModChan (.unbounded _ _ _ _ _ _)
  · exact .refl s

theorem setUlFacch_step (v : Bool) (tn : Tn) (ss : Ss) (s : State) : LoopStep s (setUlFacch v tn ss s) :=
  .ofModChan (.unbounded _ _ _ _ _ _)

theorem closedSacch_step (o : Closed) (r : DecResult) (tn : Tn) (ss : Ss) (s : State) :
    LoopStep s (closedSacch o r tn ss s) := by
  unfold closedSacch
  split
  · have hack : LoopStep s (s.modChan tn ss fun c => { c with ackTa := BitVec.ofNat 6 r.ta }) :=
      .ofModChan (.unbounded _ _ _ _ _ _)
    exact hack.trans (pwrClock_step tn ss _)
  · exact pwrClock_step tn ss s

theorem closedTchf_step (o : Closed) (r : DecResult) {ber : Nat} (hber : ber ≤ 10000) (tn : Tn) (ss : Ss) (s : State) :
    LoopStep s (closedTchf o r ber tn ss s) := by
  have hnote : LoopStep s (if o = .ok ∨ o = .bad then noteFt r tn ss s else s) := by
    split
    · exact noteFt_step r tn ss s
    · exact .refl s
  simp only [closedTchf]
  generalize (if o = .ok ∨ o = .bad then noteFt r tn ss s else s) = u at hnote
  split
  · exact hnote.trans (amrSample_step tn ss hber (.inl rfl) u)
  · exact hnote

theorem closedTchh_step (o : Closed) (r : DecResult) {ber : Nat} (hber : ber ≤ 10000) (tn : Tn) (ss : Ss) (s : State) :
    LoopStep s (closedTchh o r ber tn ss s) := by
  have hnote := noteFt_step r tn ss s
  have hsample := hnote.trans (amrSample_step tn ss hber (.inr rfl) _)
  cases o with
  | cont => exact setUlFacch_step false tn ss s
  | empty => exact setUlFacch_step false tn ss s
  | bad => exact hsample
  | ok =>
    simp only [closedTchh]
    split
    · exact hnote.trans (setUlFacch_step true tn ss _)
    · exact hsample

theorem closedHook_step (ct : UlCt) (o : Closed) (r : DecResult) {ber : Nat} (hber : ber ≤ 10000) (tn : Tn) (ss : Ss)
    (s : State) : LoopStep s (closedHook ct o r ber tn ss s) := by
  cases ct with
  | sacch => exact closedSacch_step o r tn ss s
  | tchf => exact closedTchf_step o r hber tn ss s
  | tchh => exact closedTchh_step o r hber tn ss s
  | sdcch => exact .refl s
  | pdtch => exact .refl s

/-- The ranges of a received burst's measurements (R104). -/
theorem burstOk_ranges {b : Burst} (h : burstOk b = true) :
    -127 ≤ b.rssi ∧ b.rssi ≤ 128 ∧ -32768 ≤ b.toa ∧ b.toa ≤ 32767 := by
  simp only [burstOk, Bool.and_eq_true, decide_eq_true_eq] at h
  exact h.1.1

/-- Its soft values are such as a lane stores (R31, R104). -/
theorem softOk_of_burstOk {b : Burst} (h : burstOk b = true) : softOk b.soft = true := by
  simp only [burstOk, Bool.and_eq_true, beq_iff_eq] at h
  obtain ⟨⟨-, hsoft⟩, hlen⟩ := h
  have hlen' : b.soft.length = 148 ∨ b.soft.length = 444 := by
    rw [hlen]
    cases b.modulation
    · exact .inl rfl
    · exact .inr rfl
  simpa only [softOk, hsoft, Bool.and_true, Bool.or_eq_true, beq_iff_eq] using hlen'

theorem burstHook_step (ct : UlCt) {b : Burst} (hb : burstOk b = true) (tn : Tn) (ss : Ss) (s : State) :
    LoopStep s (burstHook ct b tn ss s) := by
  obtain ⟨hrlo, hrhi, htlo, hthi⟩ := burstOk_ranges hb
  cases ct with
  | sacch => exact (pwrSample_step tn ss hrlo hrhi s).trans (taSample_step tn ss htlo hthi _)
  | tchf => exact .refl s
  | tchh => exact .refl s
  | sdcch => exact .refl s
  | pdtch => exact .refl s

end Sys2Proof.Machine

namespace Sys2Proof.Machine

/-! ## The uplink keeps the invariant (44_sched_uplink.md) -/

variable {s t : State} {tn : Tn} {ss : Ss} {ct : UlCt} {bid : Bid} {f : Fn} {x : Option Burst}

/-! ### REPORT and CLOSE_GROUP (R287, R288) -/

theorem berPpt_le {nerr nbits : Nat} (h : nerr ≤ nbits) : berPpt nerr nbits ≤ 10000 := by
  rw [berPpt_eq]
  split
  · omega
  · exact Nat.div_le_of_le_mul (by rw [Nat.mul_comm nbits]; exact Nat.mul_le_mul_left _ h)

theorem LoopStep.emitMeas (h : LoopStep s t) {tn : Tn} {ss : Ss} {code n ber : Nat} {fn : Fn} {empty : Bool}
    {rssi toa : Int} : LoopStep s (t.emitMeas tn ss code fn n empty rssi ber toa) := h.emit (recordOk_measInd ..)

theorem LoopStep.emitData (h : LoopStep s t) {tn : Tn} {ss : Ss} {code : Nat} {k : IndKind} {fn : Fn} {p : Bytes}
    (hp : p.length ≤ 255) : LoopStep s (t.emitData tn ss code k fn p) := h.emit (recordOk_dataInd _ _ _ _ _ hp)

theorem reportRecords_step (ct : UlCt) (tn : Tn) (ss : Ss) {r : DecResult} (hr : r.payload.length ≤ 255) (cont : Bool)
    (s : State) : LoopStep s (reportRecords ct tn ss r cont s) := by
  have hempty : ([] : Bytes).length ≤ 255 := Nat.zero_le _
  simp only [reportRecords]
  split
  · exact (LoopStep.refl s).emitMeas.emitData hempty
  · exact (LoopStep.refl s).emitMeas.emitData hempty
  · exact (LoopStep.refl s).emitMeas.emitData hempty
  · exact (LoopStep.refl s).emitMeas.emitData hr

theorem report_step (ct : UlCt) (tn : Tn) (ss : Ss) {r : DecResult} (hr : decOk r = true) (cont : Bool) (s : State) :
    LoopStep s (report ct tn ss r cont s) := by
  obtain ⟨-, hnerr, -, -, hpayload⟩ := (decOk_iff r).1 hr
  rw [report_eq]
  refine (reportRecords_step ct tn ss hpayload cont s).trans (closedHook_step ct _ r ?_ tn ss _)
  split
  · omega
  · exact berPpt_le hnerr

theorem LaneBounds.close {l : Lane} (h : LaneBounds l) (ilv : Ilv) :
    LaneBounds { l with ulIlv := ilv, ulOpen := false } := { h with }

/-- A group that closes keeps the invariant, and its lane stands closed. -/
theorem closeGroup_keeps (h : DataInv s) (he : closeGroup ct tn ss s = .ok t) :
    DataInv t ∧ (t.lane tn ss (ulLaneId ct)).ulOpen = false := by
  simp only [closeGroup] at he
  split at he
  · next hr =>
    cases he
    have hreport := report_step ct tn ss hr (contOf ct (s.chan tn ss))
      (s.modLane tn ss (ulLaneId ct) fun l => { l with ulIlv := (decodeGroup ct tn ss s).ilv, ulOpen := false })
    exact ⟨hreport.keeps (h.modLane ((h.lane tn ss _).close _)), by rw [hreport.lane, lane_modLane_same]⟩
  · cases he

/-! ### A position stored in its group (R284 to R286) -/

/-- A bit above the mask is new: it counts one more burst (R286). -/
theorem setMask_above {m : BitVec 4} {bid : Bid} (h : m.toNat < 2 ^ bid.toNat) :
    popcount4 (setMask m bid) = popcount4 m + 1 ∧ (setMask m bid).toNat < 2 ^ (bid.toNat + 1) := by
  revert m bid
  decide

theorem popcount4_le (m : BitVec 4) : popcount4 m ≤ 4 := by
  revert m
  decide

/-- The soft slots of a reset or newly opened group (R36, R285). -/
theorem softOk_still : (Vector.replicate 4 (List.replicate 148 (0 : Int))).toList.all softOk = true := by
  rw [List.all_eq_true]
  intro v hv
  rw [(Vector.mem_replicate.1 (Vector.mem_toList_iff.1 hv)).2]
  simp only [softOk, List.length_replicate, List.all_replicate]
  decide

theorem LaneBounds.openGroup {l : Lane} (h : LaneBounds l) (hf : f.toNat < hyperframe) :
    LaneBounds (l.openGroup f) where
  dl := h.dl
  ulSlots := softOk_still
  rssiCnt := by simp only [Lane.openGroup]; decide
  toaCnt := by simp only [Lane.openGroup]; decide
  ulMask := by simp only [Lane.openGroup]; decide
  rssiSum := by simp only [Lane.openGroup]; decide
  toaSum := by simp only [Lane.openGroup]; decide
  firstFn := hf

theorem LaneBounds.storeMissing {l : Lane} (h : LaneBounds l) (hmask : l.ulMask.toNat < 2 ^ bid.toNat) :
    LaneBounds { l with ulLastBid := bid } :=
  { h with ulMask := hmask.trans (Nat.pow_lt_pow_right (by decide) (Nat.lt_succ_self _)) }

/-- A received burst counts once in the mask and in both accumulators, whose sums stay within their bounds. -/
theorem LaneBounds.storeBurst {l : Lane} {b : Burst} (h : LaneBounds l) (hmask : l.ulMask.toNat < 2 ^ bid.toNat)
    (hb : burstOk b = true) : LaneBounds (l.store bid (some b)) := by
  obtain ⟨hrlo, hrhi, htlo, hthi⟩ := burstOk_ranges hb
  obtain ⟨hcount, hbelow⟩ := setMask_above hmask
  have hle := popcount4_le (setMask l.ulMask bid)
  obtain ⟨hrs, hrs'⟩ := h.rssiSum
  obtain ⟨hts, hts'⟩ := h.toaSum
  have hrc := h.rssiCnt
  have htc := h.toaCnt
  have hrssiCnt : (l.rssiCnt + 1).toNat = l.rssiCnt.toNat + 1 := by
    rw [BitVec.toNat_add]; simp; omega
  have htoaCnt : (l.toaCnt + 1).toNat = l.toaCnt.toNat + 1 := by
    rw [BitVec.toNat_add]; simp; omega
  have hrssi : (BitVec.ofInt 32 (l.rssiSum.toInt + b.rssi)).toInt = l.rssiSum.toInt + b.rssi :=
    toInt_ofInt_32 (by omega) (by omega)
  have htoa : (BitVec.ofInt 32 (l.toaSum.toInt + b.toa)).toInt = l.toaSum.toInt + b.toa :=
    toInt_ofInt_32 (by omega) (by omega)
  have hslots : ∀ v ∈ (l.ulSlots.set bid.toNat b.soft (by have := bid.isLt; omega)).toList, softOk v = true := by
    intro v hv
    obtain ⟨i, hi, rfl⟩ := Vector.getElem_of_mem (Vector.mem_toList_iff.1 hv)
    rw [Vector.getElem_set]
    split
    · exact softOk_of_burstOk hb
    · exact List.all_eq_true.1 h.ulSlots _ (Vector.mem_toList_iff.2 (Vector.getElem_mem hi))
  simp only [Lane.store]
  exact { h with
    ulSlots := List.all_eq_true.2 hslots
    rssiCnt := by rw [hrssiCnt, hcount, hrc]
    toaCnt := by rw [htoaCnt, hcount, htc]
    ulMask := hbelow
    rssiSum := by rw [hrssi, hrssiCnt]; push_cast; omega
    toaSum := by rw [htoa, htoaCnt]; push_cast; omega }

theorem LaneBounds.store {l : Lane} (h : LaneBounds l) (hmask : l.ulMask.toNat < 2 ^ bid.toNat) (hx : posOk x = true) :
    LaneBounds (l.store bid x) :=
  match x, hx with
  | none, _ => h.storeMissing hmask
  | some _, hb => h.storeBurst hmask hb

/-- Where the forced close has been made, the position lies past every burst of the group (R284). -/
theorem LaneBounds.accept {l : Lane} (h : LaneBounds l) (hclose : l.forcesClose bid = false) (hf : f.toNat < hyperframe)
    (hx : posOk x = true) : LaneBounds (l.accept bid f x) := by
  unfold Lane.accept
  split
  · next hopen =>
    have hlater : l.ulLastBid.toNat < bid.toNat := by
      by_contra hle
      rw [(forcesClose_iff l bid).2 ⟨hopen, Nat.le_of_not_lt hle⟩] at hclose
      cases hclose
    exact h.store (h.ulMask.trans_le (Nat.pow_le_pow_right (by decide) hlater)) hx
  · exact (h.openGroup hf).store (Nat.two_pow_pos _) hx

/-! ### RX_LANE (R284) -/

theorem forceClose_keeps (h : DataInv s) (he : forceClose ct tn ss bid s = .ok t) :
    DataInv t ∧ (t.lane tn ss (ulLaneId ct)).forcesClose bid = false := by
  unfold forceClose at he
  split at he
  · obtain ⟨hdata, hclosed⟩ := closeGroup_keeps h he
    exact ⟨hdata, by simp only [Lane.forcesClose, hclosed, Bool.false_and]⟩
  · next hc => cases he; exact ⟨h, Bool.eq_false_iff.2 hc⟩

theorem takePosition_keeps (h : DataInv s) (hclose : (s.lane tn ss (ulLaneId ct)).forcesClose bid = false)
    (hf : f.toNat < hyperframe) (hx : posOk x = true) : DataInv (takePosition ct tn ss bid f x s) := by
  have hstored : DataInv (s.modLane tn ss (ulLaneId ct) fun l => l.accept bid f x) :=
    h.modLane ((h.lane tn ss _).accept hclose hf hx)
  cases x with
  | none => exact hstored
  | some b => exact (burstHook_step ct hx tn ss _).keeps hstored

theorem rxLane_keeps (h : DataInv s) (hf : f.toNat < hyperframe) (hx : posOk x = true)
    (he : rxLane ct tn ss bid f x s = .ok t) : DataInv t := by
  unfold rxLane at he
  split at he
  · cases he
  · next u hu =>
    obtain ⟨hdata, hclose⟩ := forceClose_keeps h hu
    have htaken := takePosition_keeps hdata hclose hf hx
    simp only at he
    split at he
    · exact (closeGroup_keeps htaken he).1
    · cases he; exact htaken

/-! ### Access bursts, idle positions and the dispatch (R283, R296 to R299) -/

theorem accessBurst_keeps {ind : RachResult → Burst → State → State} (hind : ∀ r b, DataInv (ind r b s))
    (h : DataInv s) (he : accessBurst ind x s = .ok t) : DataInv t := by
  cases x with
  | none => cases he; exact h
  | some b =>
    simp only [accessBurst] at he
    split at he
    · cases he
      split
      · exact hind _ b
      · exact h.discard _
    · cases he

theorem rxRach_keeps (h : DataInv s) (he : rxRach tn f x s = .ok t) : DataInv t :=
  accessBurst_keeps (fun _ _ => h.emit (recordOk_rachInd ..)) h he

theorem rxPtcch_keeps (h : DataInv s) (he : rxPtcch tn f x s = .ok t) : DataInv t :=
  accessBurst_keeps (fun _ _ => h.emit (recordOk_rachInd ..)) h he

theorem hoAccess_keeps (h : DataInv s) (he : hoAccess tn ss f x s = .ok t) : DataInv t :=
  accessBurst_keeps (fun _ _ => h.emit (recordOk_hoInd ..)) h he

theorem rxIdle_keeps (h : DataInv s) (x : Option Burst) : DataInv (rxIdle x s) := by
  unfold rxIdle
  split
  · exact h.discard _
  · exact h

theorem rxGroup_keeps (h : DataInv s) (hf : f.toNat < hyperframe) (hx : posOk x = true)
    (he : rxGroup ct tn ss bid f x s = .ok t) : DataInv t := by
  unfold rxGroup at he
  split at he
  · exact hoAccess_keeps h he
  · exact rxLane_keeps h hf hx he

theorem rxDispatch_keeps {e : Position} (h : DataInv s) (hf : f.toNat < hyperframe) (hx : posOk x = true)
    (he : rxDispatch tn e f x s = .ok t) : DataInv t := by
  have hgroup : ∀ ct, (if (s.chan tn e.ss).active then rxGroup ct tn e.ss e.bid f x s else .ok (rxIdle x s)) = .ok t →
      DataInv t := by
    intro ct hg
    split at hg
    · exact rxGroup_keeps h hf hx hg
    · cases hg; exact rxIdle_keeps h x
  unfold rxDispatch at he
  split at he
  · cases he; exact h.discard _
  · cases hct : e.ct <;> rw [hct] at he <;> dsimp only at he
    case sdcch => exact hgroup _ he
    case sacch => exact hgroup _ he
    case tchf => exact hgroup _ he
    case tchh => exact hgroup _ he
    case pdtch => exact hgroup _ he
    case rach => exact rxRach_keeps h he
    case ptcch =>
      split at he
      · exact rxPtcch_keeps h he
      · cases he; exact rxIdle_keeps h x
    all_goals
      cases he
      exact rxIdle_keeps h x

theorem rxPos_keeps (h : DataInv s) (hf : f.toNat < hyperframe) (hx : posOk x = true) (he : rxPos tn f x s = .ok t) :
    DataInv t := by
  unfold rxPos at he
  split at he
  · exact rxDispatch_keeps h hf hx he
  · cases he

/-! ### Sequence and acceptance (R280 to R282) -/

theorem missingRun_keeps (n : Nat) : ∀ {f : Fn} {s : State}, DataInv s → f.toNat < hyperframe →
    missingRun tn n f s = .ok t → DataInv t := by
  induction n with
  | zero => intro f s h hf he; cases he; exact h
  | succ n ih =>
    intro f s h hf he
    simp only [missingRun] at he
    split at he
    · next u hu => exact ih (rxPos_keeps h hf rfl hu) (fnInc_lt f) he
    · cases he

theorem DataInv.noteUl (h : DataInv s) (tn : Tn) (hf : f.toNat < hyperframe) : DataInv (noteUl tn f s) :=
  h.modSlot (f := fun t => { t with ulLastFn := f, ulLastValid := true }) { h.slots tn with ulLastFn := hf }

/-- What UL_SEQ can do: reject a stale burst, or fill the gap, note the burst's FN and process its position. -/
theorem ulSeq_cases {fn : Fn} {b : Burst} (he : ulSeq tn fn b s = .ok t) :
    t = s.discard .ulReject ∨ ∃ n last u, missingRun tn n (fnInc last) s = .ok u
      ∧ rxPos tn fn (some b) (noteUl tn fn u) = .ok t := by
  simp only [ulSeq] at he
  split at he
  · cases he; exact .inl rfl
  · split at he
    · next u hu =>
      right
      split at hu
      · exact ⟨_, _, u, hu, he⟩
      · cases hu; exact ⟨0, 0, s, rfl, he⟩
    · cases he

theorem ulSeq_keeps {fn : Fn} {b : Burst} (h : DataInv s) (hf : fn.toNat < hyperframe) (hb : burstOk b = true)
    (he : ulSeq tn fn b s = .ok t) : DataInv t := by
  obtain rfl | ⟨n, last, u, hgap, hpos⟩ := ulSeq_cases he
  · exact h.discard _
  · exact rxPos_keeps (x := some b) ((missingRun_keeps n h (fnInc_lt last) hgap).noteUl tn hf) hf hb hpos

theorem ulSeq_clk {fn : Fn} {b : Burst} (he : ulSeq tn fn b s = .ok t) : t.clk = s.clk := by
  obtain rfl | ⟨n, last, u, hgap, hpos⟩ := ulSeq_cases he
  · exact discard_clk s _
  · calc t.clk = (noteUl tn fn u).clk := ((rxPos_op tn fn (some b)).step _ t hpos).clk
      _ = u.clk := rfl
      _ = s.clk := ((missingRun_op tn n (fnInc last)).step s u hgap).clk

/-- What UL_BURST can do with a datagram: count it, or take its burst into UL_SEQ. -/
theorem ulBurst_cases {p : Option (Tn × Fn × Burst)} (he : ulBurst p s = .ok t) :
    (∃ k, t = s.discard k) ∨ ∃ tn fn b, p = some (tn, fn, b) ∧ ulSeq tn fn b s = .ok t := by
  unfold ulBurst at he
  split at he
  · cases he; exact .inl ⟨_, rfl⟩
  · split at he
    · cases he; exact .inl ⟨_, rfl⟩
    · split at he
      · cases he; exact .inl ⟨_, rfl⟩
      · exact .inr ⟨_, _, _, rfl, he⟩

theorem softOf_range (v : Byte) : -127 ≤ softOf v ∧ softOf v ≤ 127 := by
  have hlt := v.isLt
  unfold softOf
  split
  · omega
  · next hne =>
    have : v.toNat ≠ 255 := fun e => hne (BitVec.eq_of_toNat_eq e)
    omega

/-- The number of soft bits of a burst (R102). -/
def softBits : Modulation → Nat
  | .gmsk => 148
  | .psk8 => 444

theorem burstOk_of {b : Burst} (hranges : -127 ≤ b.rssi ∧ b.rssi ≤ 128 ∧ -32768 ≤ b.toa ∧ b.toa ≤ 32767)
    (hsoft : ∀ v ∈ b.soft, -127 ≤ v ∧ v ≤ 127) (hlen : b.soft.length = softBits b.modulation) : burstOk b = true := by
  have hall : (b.soft.all fun v => decide (-127 ≤ v ∧ v ≤ 127)) = true :=
    List.all_eq_true.2 fun v hv => decide_eq_true (hsoft v hv)
  unfold burstOk
  rw [decide_eq_true hranges, hall, hlen]
  cases b.modulation <;> rfl

/-- A datagram of the length its modulation gives holds a burst within the ranges of R104. -/
theorem parseUl_ok {m : Modulation} {n : Nat} (hn : n = softBits m) {bytes : Bytes}
    {fn : Fn} {b : Burst} (hp : parseUl m n bytes = some (tn, fn, b)) : fn.toNat < hyperframe ∧ burstOk b = true := by
  unfold parseUl at hp
  split at hp
  · next hvalid =>
    have hlen := hvalid.1
    have hfn := hvalid.2.2
    cases hp
    have hrssi := (byteAt bytes 5).toInt_lt
    have hrssi' := (byteAt bytes 5).le_toInt
    have htoa := (be16 bytes 6).toInt_lt
    have htoa' := (be16 bytes 6).le_toInt
    refine ⟨?_, burstOk_of ?_ ?_ ?_⟩
    · rw [BitVec.toNat_ofNat]; exact (Nat.mod_le _ _).trans_lt hfn
    · dsimp only; omega
    · intro v hv
      obtain ⟨byte, -, rfl⟩ := List.mem_map.1 hv
      exact softOf_range byte
    · rw [List.length_map, List.length_drop, hlen, ← hn]; omega
  · cases hp

theorem ulBurst_keeps {m : Modulation} {n : Nat} (hn : n = softBits m) {bytes : Bytes}
    (h : DataInv s) (he : ulBurst (parseUl m n bytes) s = .ok t) : DataInv t := by
  obtain ⟨k, rfl⟩ | ⟨tn, fn, b, hp, hseq⟩ := ulBurst_cases he
  · exact h.discard k
  · obtain ⟨hf, hb⟩ := parseUl_ok hn hp
    exact ulSeq_keeps h hf hb hseq

theorem ulBurst_clk {p : Option (Tn × Fn × Burst)} (he : ulBurst p s = .ok t) : t.clk = s.clk := by
  obtain ⟨k, rfl⟩ | ⟨tn, fn, b, -, hseq⟩ := ulBurst_cases he
  · exact discard_clk s k
  · exact ulSeq_clk hseq

end Sys2Proof.Machine

namespace Sys2Proof.Machine

variable {s t : State}

/-! ## The clock unit (40_clock_sync.md) -/

/-- SCHED_FN leaves the clock unit (R220). -/
theorem schedTns_clk {sn : Fn} (tns : List Tn) : ∀ {s : State}, schedTns sn tns s = .ok t → t.clk = s.clk := by
  induction tns with
  | nil => intro s he; cases he; rfl
  | cons tn rest ih =>
    intro s he
    simp only [schedTns] at he
    split at he
    · next u hu =>
      obtain ⟨more, hstep, -⟩ := schedTn_op sn tn s u hu
      rw [ih he, hstep.rest]
    · cases he

theorem schedFn_clk {fn : Fn} (he : schedFn fn s = .ok t) : t.clk = s.clk := schedTns_clk allTns he

/-- Frames produced change LAST_FN alone of the clock unit, and it stays below H. -/
theorem produce_clk (k : Nat) : ∀ {s : State}, produce k s = .ok t →
    t.clk = { s.clk with lastFn := t.clk.lastFn }
      ∧ (s.clk.lastFn.toNat < hyperframe → t.clk.lastFn.toNat < hyperframe) := by
  induction k with
  | zero => intro s he; cases he; exact ⟨rfl, id⟩
  | succ k ih =>
    intro s he
    simp only [produce] at he
    split at he
    · next u hu =>
      obtain ⟨hclk, hfn⟩ := ih he
      have hu' := schedFn_clk hu
      rw [hu'] at hclk hfn
      exact ⟨hclk, fun _ => hfn (fnInc_lt _)⟩
    · cases he

theorem ClockBounds.ofSync {c : ClockState} (hstate : c.clkState = .sync) (harmed : c.armed = true)
    (hdeadline : c.deadline = c.lastTs + BitVec.ofNat 64 frameUs) (hcause : c.fatalCause = 0)
    (hfn : c.lastFn.toNat < hyperframe) : ClockBounds c where
  armedOnlyInSync := fun _ => hstate
  syncTimer := fun _ => ⟨harmed, hdeadline⟩
  causeRange := by rw [hcause]; decide
  causeInFatal := fun h => by rw [hstate] at h; cases h
  causeInSession := fun _ => hcause
  lastFn := hfn

/-- What every correction in SYNC leaves: the timer armed one frame after LAST_TS (R26), CLK_STATE and FATAL_CAUSE
kept, and LAST_FN below H. -/
structure Rephased (s t : State) : Prop where
  clkState   : t.clk.clkState = s.clk.clkState
  fatalCause : t.clk.fatalCause = s.clk.fatalCause
  armed      : t.clk.armed = true
  deadline   : t.clk.deadline = t.clk.lastTs + BitVec.ofNat 64 frameUs
  lastFn     : s.clk.lastFn.toNat < hyperframe → t.clk.lastFn.toNat < hyperframe

theorem resync_rephased {fn : Fn} (hfn : fn.toNat < hyperframe) (now : Time) (s : State) :
    Rephased s (resync fn now s) := ⟨rfl, rfl, rfl, rfl, fun _ => hfn⟩

theorem delay_rephased (k : Nat) (now : Time) (s : State) : Rephased s (delay k now s) := ⟨rfl, rfl, rfl, rfl, id⟩

theorem catchUp_rephased {fn : Fn} {now : Time} (he : catchUp fn now s = .ok t) : Rephased s t := by
  unfold catchUp at he
  split at he
  · next u hu =>
    obtain ⟨hclk, hfn⟩ := produce_clk _ hu
    cases he
    refine ⟨?_, ?_, rfl, rfl, hfn⟩
    · rw [rephase_clkState, hclk]
    · rw [rephase_fatalCause, hclk]
  · cases he

/-- CLK_APPLY: the anchor that enters SYNC, or a correction that keeps CLK_STATE (R147). -/
theorem clkApply_cases {fn : Fn} {now : Time} (hfn : fn.toNat < hyperframe) (he : clkApply fn now s = .ok t) :
    (s.clk.clkState = .unsync ∧ t.clk = { (anchor fn now s).clk with clkState := .sync, noClk := 0 })
      ∨ (s.clk.clkState ≠ .unsync ∧ Rephased (clearNoClk s) t) := by
  unfold clkApply at he
  split at he
  · next hstate => cases he; exact .inl ⟨hstate, rfl⟩
  · next hstate =>
    refine .inr ⟨hstate, ?_⟩
    dsimp only at he
    split at he
    · cases he; exact resync_rephased hfn now _
    · split at he
      · cases he; exact delay_rephased _ now _
      · exact catchUp_rephased he

theorem clkApply_clock {fn : Fn} {now : Time} (h : ClockBounds s.clk) (hfn : fn.toNat < hyperframe)
    (hdrops : s.clk.dropsRadio = false) (he : clkApply fn now s = .ok t) : ClockBounds t.clk := by
  obtain ⟨hstate, hclk⟩ | ⟨hstate, hphase⟩ := clkApply_cases hfn he
  · rw [hclk]
    exact .ofSync rfl rfl rfl (h.causeInSession (.inl hstate)) hfn
  · have hsync : s.clk.clkState = .sync := by
      cases hs : s.clk.clkState with
      | sync => rfl
      | unsync => exact absurd hs hstate
      | closed => simp [ClockState.dropsRadio, hs] at hdrops
      | fatal => simp [ClockState.dropsRadio, hs] at hdrops
    exact .ofSync (hphase.clkState.trans hsync) hphase.armed hphase.deadline
      (hphase.fatalCause.trans (h.causeInSession (.inr hsync))) (hphase.lastFn h.lastFn)

theorem clkApply_keeps {fn : Fn} {now : Time} (h : DataInv s) (he : clkApply fn now s = .ok t) : DataInv t := by
  have hclear : DataInv (clearNoClk s) := h.congr rfl rfl rfl
  unfold clkApply at he
  split at he
  · cases he; exact h.congr rfl rfl rfl
  · dsimp only at he
    split at he
    · cases he; exact hclear.congr rfl rfl rfl
    · split at he
      · cases he; exact hclear.congr rfl rfl rfl
      · unfold catchUp at he
        split at he
        · next u hu => cases he; exact (produce_keeps _ hclear hu).congr rfl rfl rfl
        · cases he

/-- The frame number of a valid clock datagram is below H (R101). -/
theorem parseClk_lt {b : Bytes} {fn : Fn} (hp : parseClk b = some fn) : fn.toNat < hyperframe := by
  unfold parseClk at hp
  dsimp only at hp
  split at hp
  · next hvalid =>
    obtain ⟨-, -, -, -, hlt⟩ := hvalid
    cases hp
    rw [BitVec.toNat_ofNat]
    exact (Nat.mod_le _ _).trans_lt hlt
  · cases hp

/-- CLK_IND: counted, or applied outside CLOSED and FATAL (R145). -/
theorem clkInd_cases {b : Bytes} {now : Time} (he : clkInd b now s = .ok t) :
    (∃ k, t = s.discard k)
      ∨ ∃ fn, parseClk b = some fn ∧ s.clk.dropsRadio = false ∧ clkApply fn now s = .ok t := by
  unfold clkInd at he
  split at he
  · cases he; exact .inl ⟨_, rfl⟩
  · next fn hp =>
    split at he
    · cases he; exact .inl ⟨_, rfl⟩
    · next hdrops => exact .inr ⟨fn, hp, Bool.eq_false_iff.2 hdrops, he⟩

/-- TICK: no event where it is not due, else the fatal entry or its frames (R151 to R154). -/
theorem tick_cases {now : Time} (he : tick now s = .ok t) :
    t = s ∨ s.clk.tickDue now = true ∧ ((∃ c, t = raiseFatal c (countExpirations now s))
      ∨ tickProduce (s.clk.expirations now) (countExpirations now s) = .ok t) := by
  unfold tick at he
  split at he
  · next hdue =>
    refine .inr ⟨hdue, ?_⟩
    dsimp only at he
    split at he
    · cases he; exact .inl ⟨_, rfl⟩
    · split at he
      · cases he; exact .inl ⟨_, rfl⟩
      · exact .inr he
  · cases he; exact .inl rfl

theorem tickProduce_clk {k : Nat} (he : tickProduce k s = .ok t) :
    t.clk = { s.clk with lastFn := t.clk.lastFn, lastTs := s.clk.lastTs + BitVec.ofNat 64 (k * frameUs) }
      ∧ (s.clk.lastFn.toNat < hyperframe → t.clk.lastFn.toNat < hyperframe) := by
  unfold tickProduce at he
  split at he
  · next u hu =>
    obtain ⟨hclk, hfn⟩ := produce_clk k hu
    cases he
    exact ⟨by rw [hclk], hfn⟩
  · cases he

/-- The codes of the three causes (R28). -/
theorem fatalCode_range (c : FatalCause) : (fatalCode c).toNat ≤ 3 ∧ fatalCode c ≠ 0 := by
  cases c <;> decide

theorem raiseFatal_clock (c : FatalCause) (hfn : s.clk.lastFn.toNat < hyperframe) :
    ClockBounds (raiseFatal c s).clk where
  armedOnlyInSync := nofun
  syncTimer := nofun
  causeRange := (fatalCode_range c).1
  causeInFatal := fun _ => (fatalCode_range c).2
  causeInSession := fun h => h.elim nofun nofun
  lastFn := hfn

theorem tick_clock {now : Time} (h : ClockBounds s.clk) (he : tick now s = .ok t) : ClockBounds t.clk := by
  obtain rfl | ⟨hdue, ⟨c, rfl⟩ | hframes⟩ := tick_cases he
  · exact h
  · exact raiseFatal_clock c h.lastFn
  · obtain ⟨hsync, harmed, -⟩ := (tickDue_iff _ _).1 hdue
    obtain ⟨-, hdeadline⟩ := h.syncTimer hsync
    obtain ⟨hclk, hfn⟩ := tickProduce_clk hframes
    rw [hclk]
    refine .ofSync hsync harmed ?_ (h.causeInSession (.inr hsync)) (hfn h.lastFn)
    simp only [countExpirations, hdeadline]
    exact add_right_comm _ _ _

theorem tick_keeps {now : Time} (h : DataInv s) (he : tick now s = .ok t) : DataInv t := by
  have hcount : DataInv (countExpirations now s) := h.congr rfl rfl rfl
  obtain rfl | ⟨-, ⟨c, rfl⟩ | hframes⟩ := tick_cases he
  · exact h
  · have hclk : DataInv { countExpirations now s with
        clk := { (countExpirations now s).clk with armed := false, clkState := .fatal, fatalCause := fatalCode c } } :=
      hcount.congr rfl rfl rfl
    exact hclk.emit (recordOk_fatalInd _)
  · unfold tickProduce at hframes
    split at hframes
    · next u hu => cases hframes; exact (produce_keeps _ hcount hu).congr rfl rfl rfl
    · cases hframes

/-! ## LINK_OPEN and LINK_CLOSE (R141, R142) -/

theorem dlInv_fresh (ilv : Ilv) : dlInv (DlLane.fresh ilv) = true := by
  refine dlInv_iff.2 fun slot hslot => ?_
  rw [(Vector.mem_replicate.1 (Vector.mem_toList_iff.1 hslot)).2]
  simp only [slotOk, List.length_replicate, beq_self_eq_true]

theorem LaneBounds.fresh (ilv : Ilv) : LaneBounds (Lane.fresh ilv) where
  dl := dlInv_fresh ilv
  ulSlots := softOk_still
  rssiCnt := by simp only [Lane.fresh]; decide
  toaCnt := by simp only [Lane.fresh]; decide
  ulMask := by simp only [Lane.fresh]; decide
  rssiSum := by simp only [Lane.fresh]; decide
  toaSum := by simp only [Lane.fresh]; decide
  firstFn := by simp only [Lane.fresh]; decide

theorem LoopBounds.resetAcc {c : Channel} (h : LoopBounds c) : LoopBounds c.resetAcc where
  dlCmr := h.dlCmr
  dlFt := h.dlFt
  pwrMin := by simp only [Channel.resetAcc]; decide
  taCnt := by simp only [Channel.resetAcc]; decide
  taSum := by simp only [Channel.resetAcc]; decide
  berNum := by simp only [Channel.resetAcc]; decide
  berSum := by simp only [Channel.resetAcc]; decide

section channelResets
variable {depth : Nat} {c : Channel}

theorem ChanBounds.resetLanes (h : ChanBounds depth c) (ilv : Ilv) : ChanBounds depth (c.resetLanes ilv) :=
  { h with loops := { h.loops with }, laneM := .fresh ilv, laneA := .fresh ilv }

theorem ChanBounds.resetAcc (h : ChanBounds depth c) : ChanBounds depth c.resetAcc :=
  { h with loops := h.loops.resetAcc }

theorem queueInv_nil (depth : Nat) : queueInv depth [] = true := queueInv_iff.2 ⟨Nat.zero_le _, nofun⟩

theorem ChanBounds.flush (h : ChanBounds depth c) : ChanBounds depth c.flush :=
  h.withQueues (queueInv_nil _) (queueInv_nil _) (queueInv_nil _)

theorem ChanBounds.takeDown (h : ChanBounds depth c) (ilv : Ilv) : ChanBounds depth (c.takeDown ilv) :=
  { ((h.resetLanes ilv).resetAcc).flush with loops := { (((h.resetLanes ilv).resetAcc).flush).loops with } }

end channelResets

theorem SlotBounds.takeDown {depth : Nat} {u : TnState} (h : SlotBounds depth u) (ilv : Ilv) :
    SlotBounds depth (u.takeDown ilv) where
  ulLastFn := h.ulLastFn
  laneB := dlInv_fresh ilv
  laneC := dlInv_fresh ilv
  qBcch := queueInv_nil _
  qCcch := queueInv_nil _
  chans := fun ss => by
    simp only [TnState.takeDown, mapAll8_get]
    exact (h.chans ss).takeDown ilv

theorem SlotBounds.openSlot {depth : Nat} {u : TnState} (h : SlotBounds depth u) (ilv : Ilv) :
    SlotBounds depth (openSlot ilv u) :=
  { h.takeDown ilv with ulLastFn := (by decide : (0#22).toNat < hyperframe) }

theorem linkOpen_keeps (h : DataInv s) : DataInv (linkOpen s) := by
  unfold linkOpen
  split
  · refine ⟨fun tn => ?_, h.out⟩
    simp only [State.slot, mapAll8_get]
    exact (h.slots tn).openSlot _
  · exact h

theorem linkOpen_clock (h : ClockBounds s.clk) : ClockBounds (linkOpen s).clk := by
  unfold linkOpen
  split
  · exact ⟨nofun, nofun, (by decide : (0#4).toNat ≤ 3), nofun, fun _ => rfl, (by decide : (0#22).toNat < hyperframe)⟩
  · exact h

theorem tearDown_keeps (h : DataInv s) : DataInv (tearDown s) := by
  unfold tearDown
  split
  · exact h
  · exact h.congr rfl rfl rfl

theorem tearDown_clock (h : ClockBounds s.clk) : ClockBounds (tearDown s).clk := by
  unfold tearDown
  split
  · exact h
  · exact ⟨nofun, nofun, h.causeRange, nofun, fun hs => hs.elim nofun nofun, h.lastFn⟩

/-! ## The configuration port (41_config_port.md) -/

/-- A clamped mode is within the active set (R184, D55). -/
theorem clampMode_le (v n : BitVec 2) : (clampMode v n).toNat ≤ n.toNat := by
  unfold clampMode
  split
  · assumption
  · exact le_rfl

theorem ChanBounds.writeChCtrl {depth : Nat} {c : Channel} (h : ChanBounds depth c) (ilv : Ilv) (v : BitVec 32) :
    ChanBounds depth (writeChCtrl ilv c v) := by
  have hfields : ChanBounds depth { c with
      active := bitOf v 0, amrEn := bitOf v 1, hoArm := bitOf v 2, ncodecsM1 := v.extractLsb' 4 2
      dlCmr := clampMode c.dlCmr (v.extractLsb' 4 2), dlFt := clampMode c.dlFt (v.extractLsb' 4 2) } :=
    { h with loops := { h.loops with dlCmr := clampMode_le _ _, dlFt := clampMode_le _ _ } }
  unfold Machine.writeChCtrl
  dsimp only
  split
  · exact (hfields.resetLanes ilv).resetAcc
  · split
    · exact ((hfields.resetLanes ilv).resetAcc).flush
    · exact hfields

theorem ChanBounds.writeChan {depth : Nat} {c : Channel} (h : ChanBounds depth c) (ilv : Ilv) (v : BitVec 32)
    (r : CReg) : ChanBounds depth (writeChan ilv c v r) := by
  cases r with
  | chCtrl => exact h.writeChCtrl ilv v
  | chCodec => exact { h with loops := { h.loops with dlCmr := clampMode_le _ _, dlFt := clampMode_le _ _ } }
  | amrT0 => exact { h with loops := { h.loops with } }
  | amrT1 => exact { h with loops := { h.loops with } }
  | amrT2 => exact { h with loops := { h.loops with } }
  | msPwr => exact { h with loops := { h.loops with } }
  | ta => exact { h with loops := { h.loops with } }
  | _ => exact h

theorem SlotBounds.writeSlot {depth : Nat} {u : TnState} (h : SlotBounds depth u) (ilv : Ilv) (v : BitVec 32)
    (r : TReg) : SlotBounds depth (writeSlot ilv u v r) := by
  cases r with
  | tnCfg =>
    have hfields : SlotBounds depth { u with
        comb := v.extractLsb' 0 8, tsc := v.extractLsb' 8 3, txPower := v.extractLsb' 16 8 } := { h with }
    unfold Machine.writeSlot
    dsimp only
    split
    · exact hfields
    · exact { hfields.takeDown ilv with }
  | ulLast => exact h
  | comq => exact h

theorem memWrite_keeps (h : DataInv s) (a : BitVec 16) (v : BitVec 32) : DataInv (memWrite s a v) := by
  unfold memWrite
  split
  · next r _ =>
    cases r with
    | glob r => exact h.congr rfl rfl rfl
    | slot r tn => exact h.modSlot (f := fun t => writeSlot s.ilv0 t v r) ((h.slots tn).writeSlot _ v r)
    | chan r tn ss => exact h.modChan (f := fun c => writeChan s.ilv0 c v r) ((h.chan tn ss).writeChan _ v r)
  · exact h

theorem memWrite_clk (s : State) (a : BitVec 16) (v : BitVec 32) : (memWrite s a v).clk = s.clk := by
  unfold memWrite
  split
  · next r _ => cases r <;> rfl
  · rfl

theorem dlqPush_keeps (h : DataInv s) (q : QueueRef) {p : Bytes} (hp : p.length ≤ 255) : DataInv (dlqPush q p s) := by
  unfold dlqPush
  split
  · exact h.discard _
  · next haccept =>
    have hroom : (s.queue q).length < s.pqDepth := by
      simp only [dlqRejected, Bool.or_eq_true, decide_eq_true_eq, not_or] at haccept
      omega
    obtain ⟨-, hall⟩ := queueInv_iff.1 (h.queue q)
    refine h.setQueue q (queueInv_iff.2 ⟨by rw [List.length_append]; exact hroom, fun x hx => ?_⟩)
    rcases List.mem_append.1 hx with hold | hnew
    · exact hall x hold
    · rw [List.mem_singleton.1 hnew]; exact hp

theorem dlqPush_clk (q : QueueRef) (p : Bytes) (s : State) : (dlqPush q p s).clk = s.clk := by
  unfold dlqPush
  split
  · exact discard_clk s _
  · exact setQueue_clk s q _

end Sys2Proof.Machine

namespace Sys2Proof

/-! ## What the decoder reads from a host or output record (R110 to R123) -/

/-- The instructions of the host port; a queued payload has at most the 255 bytes its length field can count (R115). -/
theorem decodeHost_cases (b : Bytes) :
    decodeHost b = .linkOpen ∨ decodeHost b = .linkClose ∨ (∃ a, decodeHost b = .cfgRd a)
      ∨ (∃ a v, decodeHost b = .cfgWr a v) ∨ (∃ q p, p.length ≤ 255 ∧ decodeHost b = .dlqPush q p)
      ∨ decodeHost b = .hostReserved b := by
  unfold decodeHost
  split
  · split <;> simp
  · split <;> simp
  · split <;> simp
  · split <;> simp
  · split
    · next q _ =>
      split
      · next hlen =>
        have hp : (b.drop 5).length ≤ 255 := by
          have := (byteAt b 4).isLt
          rw [List.length_drop]
          omega
        exact .inr (.inr (.inr (.inr (.inl ⟨q, b.drop 5, hp, rfl⟩))))
      · simp
    · simp
  · simp

namespace Machine

variable {s t : State}

/-- An output record taken as an event emits a record of a legal form (R116 to R123, R126). -/
theorem exec_of_decodeOutput {b : Bytes} {i : Instr} (hd : decodeOutput b = some i) (s : State) :
    ∃ r, recordOk ⟨.hosto, r⟩ = true ∧ exec i s = .next (s.emit .hosto r) := by
  unfold decodeOutput at hd
  split at hd
  · obtain ⟨-, ⟨⟩⟩ := Option.ite_none_right_eq_some.1 hd
    exact ⟨_, recordOk_cfgData _ _, rfl⟩
  · obtain ⟨hlen, ⟨⟩⟩ := Option.ite_none_right_eq_some.1 hd
    have hpayload : (b.drop 10).length ≤ 255 := by
      have := (byteAt b 9).isLt
      rw [List.length_drop]
      omega
    exact ⟨_, recordOk_dataInd _ _ _ _ _ hpayload, rfl⟩
  · obtain ⟨-, ⟨⟩⟩ := Option.ite_none_right_eq_some.1 hd
    exact ⟨_, recordOk_measInd .., rfl⟩
  · obtain ⟨-, ⟨⟩⟩ := Option.ite_none_right_eq_some.1 hd
    exact ⟨_, recordOk_rachInd .., rfl⟩
  · obtain ⟨-, ⟨⟩⟩ := Option.ite_none_right_eq_some.1 hd
    exact ⟨_, recordOk_hoInd .., rfl⟩
  · obtain ⟨-, ⟨⟩⟩ := Option.ite_none_right_eq_some.1 hd
    exact ⟨_, recordOk_loopInd .., rfl⟩
  · obtain ⟨-, ⟨⟩⟩ := Option.ite_none_right_eq_some.1 hd
    exact ⟨_, recordOk_fatalInd _, rfl⟩
  · cases hd

/-! ## One event keeps the invariant -/

theorem inv_discard (hs : s.inv = true) (k : Counter) : (s.discard k).inv = true := by
  obtain ⟨hclk, hdata⟩ := inv_iff.1 hs
  exact inv_iff.2 ⟨by rw [discard_clk]; exact hclk, hdata.discard k⟩

theorem inv_emit (hs : s.inv = true) {p : OutPort} {b : Bytes} (hb : recordOk ⟨p, b⟩ = true) :
    (s.emit p b).inv = true := by
  obtain ⟨hclk, hdata⟩ := inv_iff.1 hs
  exact inv_iff.2 ⟨hclk, hdata.emit hb⟩

theorem clkInd_inv {b : Bytes} {now : Time} (hs : s.inv = true) (he : clkInd b now s = .ok t) : t.inv = true := by
  obtain ⟨hclk, hdata⟩ := inv_iff.1 hs
  obtain ⟨k, rfl⟩ | ⟨fn, hp, hdrops, happly⟩ := clkInd_cases he
  · exact inv_discard hs k
  · exact inv_iff.2 ⟨clkApply_clock hclk (parseClk_lt hp) hdrops happly, clkApply_keeps hdata happly⟩

theorem tick_inv {now : Time} (hs : s.inv = true) (he : tick now s = .ok t) : t.inv = true := by
  obtain ⟨hclk, hdata⟩ := inv_iff.1 hs
  exact inv_iff.2 ⟨tick_clock hclk he, tick_keeps hdata he⟩

theorem ulBurst_inv {m : Modulation} {n : Nat} (hn : n = softBits m) {b : Bytes} (hs : s.inv = true)
    (he : ulBurst (parseUl m n b) s = .ok t) : t.inv = true := by
  obtain ⟨hclk, hdata⟩ := inv_iff.1 hs
  exact inv_iff.2 ⟨by rw [ulBurst_clk he]; exact hclk, ulBurst_keeps hn hdata he⟩

/-- The instructions of the host port answer a next state, which keeps the invariant. -/
theorem decodeHost_inv {b : Bytes} (hs : s.inv = true) (he : exec (decodeHost b) s = .next t) : t.inv = true := by
  obtain ⟨hclk, hdata⟩ := inv_iff.1 hs
  obtain hi | hi | ⟨a, hi⟩ | ⟨a, v, hi⟩ | ⟨q, p, hp, hi⟩ | hi := decodeHost_cases b <;> rw [hi] at he <;> cases he
  · exact inv_iff.2 ⟨linkOpen_clock hclk, linkOpen_keeps hdata⟩
  · exact inv_iff.2 ⟨tearDown_clock hclk, tearDown_keeps hdata⟩
  · split
    · exact inv_emit hs (recordOk_cfgData _ _)
    · exact inv_discard hs _
  · split
    · exact inv_iff.2 ⟨by rw [memWrite_clk]; exact hclk, memWrite_keeps hdata a v⟩
    · exact inv_discard hs _
  · exact inv_iff.2 ⟨by rw [dlqPush_clk]; exact hclk, dlqPush_keeps hdata q hp⟩
  · exact inv_discard hs _

/-- A decoded event, by its port (R124). -/
theorem exec_inv_of_decodes {e : Event} {i : Instr} (hd : decodeEvent e = .ok i) (hs : s.inv = true)
    (he : exec i s = .next t) : t.inv = true := by
  unfold decodeEvent at hd
  cases hport : e.port <;> rw [hport] at hd <;> dsimp only at hd
  case clk => cases hd; exact clkInd_inv hs (outcome_next.1 he)
  case uld =>
    split at hd
    · cases hd; exact ulBurst_inv rfl hs (outcome_next.1 he)
    · split at hd
      · cases hd; exact ulBurst_inv rfl hs (outcome_next.1 he)
      · cases hd
  case host => cases hd; exact decodeHost_inv hs he
  case timer =>
    split at hd
    · cases hd; exact tick_inv hs (outcome_next.1 he)
    · cases hd
  case hosto =>
    split at hd
    · next j hj =>
      cases hd
      obtain ⟨r, hr, hexec⟩ := exec_of_decodeOutput hj s
      rw [hexec] at he
      cases he
      exact inv_emit hs hr
    · cases hd

theorem rejectEvent_inv (r : Reject) (hs : s.inv = true) : (rejectEvent r s).inv = true := by
  cases r with
  | uldLength => exact inv_discard hs _
  | timerBytes => exact hs
  | outputRecord => exact hs
  | reservedCt => exact hs

/-- Settles O59, by the next pending event: none, one that decodes, by its port, and one that is rejected. -/
theorem stepKeepsInvariant : Obligations.StepKeepsInvariant := by
  intro s t hs he
  cases hp : s.pending with
  | nil =>
    rw [step_of_no_pending hp] at he
    cases he
    exact hs
  | cons e rest =>
    have htaken : ({ s with pending := rest } : State).inv = true := by
      obtain ⟨hclk, hdata⟩ := inv_iff.1 hs
      exact inv_iff.2 ⟨hclk, hdata.congr rfl rfl rfl⟩
    cases hd : decodeEvent e with
    | ok i =>
      rw [step_of_decodes hp hd] at he
      exact exec_inv_of_decodes hd htaken he
    | error r =>
      rw [step_of_rejected hp hd] at he
      cases he
      exact rejectEvent_inv r htaken

/-! ## What moves CLK_STATE (R22, R372, R374) -/

theorem linkOpen_clkState (h : (linkOpen s).clk.clkState ≠ s.clk.clkState) :
    s.clk.clkState = .closed ∧ (linkOpen s).clk.clkState = .unsync := by
  unfold linkOpen at h ⊢
  split
  · next hclosed => exact ⟨hclosed, rfl⟩
  · next hopen => rw [if_neg hopen] at h; exact absurd rfl h

theorem tearDown_clkState (s : State) : (tearDown s).clk.clkState = .closed := by
  unfold tearDown
  split
  · assumption
  · rfl

theorem clkInd_clkState {b : Bytes} {now : Time} (he : clkInd b now s = .ok t) (h : t.clk.clkState ≠ s.clk.clkState) :
    s.clk.clkState = .unsync ∧ t.clk.clkState = .sync ∧ (parseClk b).isSome = true := by
  obtain ⟨k, rfl⟩ | ⟨fn, hp, -, happly⟩ := clkInd_cases he
  · exact absurd rfl h
  · obtain ⟨hstate, hclk⟩ | ⟨-, hphase⟩ := clkApply_cases (parseClk_lt hp) happly
    · exact ⟨hstate, by rw [hclk], by rw [hp]; rfl⟩
    · exact absurd hphase.clkState h

theorem tick_clkState {now : Time} (he : tick now s = .ok t) (h : t.clk.clkState ≠ s.clk.clkState) :
    s.clk.clkState = .sync ∧ t.clk.clkState = .fatal ∧ s.clk.armed = true ∧ s.clk.deadline.toNat ≤ now.toNat := by
  obtain rfl | ⟨hdue, ⟨c, rfl⟩ | hframes⟩ := tick_cases he
  · exact absurd rfl h
  · obtain ⟨hsync, harmed, hdeadline⟩ := (tickDue_iff _ _).1 hdue
    exact ⟨hsync, rfl, harmed, hdeadline⟩
  · rw [(tickProduce_clk hframes).1] at h
    exact absurd rfl h

/-- On the host port only the two link records reach CLK_STATE. -/
theorem decodeHost_clkState {b : Bytes} (he : exec (decodeHost b) s = .next t)
    (h : t.clk.clkState ≠ s.clk.clkState) :
    (s.clk.clkState = .closed ∧ t.clk.clkState = .unsync ∧ decodeHost b = .linkOpen)
      ∨ (t.clk.clkState = .closed ∧ decodeHost b = .linkClose) := by
  obtain hi | hi | ⟨a, hi⟩ | ⟨a, v, hi⟩ | ⟨q, p, -, hi⟩ | hi := decodeHost_cases b <;> rw [hi] at he <;> cases he
  · obtain ⟨hclosed, hunsync⟩ := linkOpen_clkState h
    exact .inl ⟨hclosed, hunsync, hi⟩
  · exact .inr ⟨tearDown_clkState s, hi⟩
  · refine absurd ?_ h
    split <;> rfl
  · refine absurd ?_ h
    split
    · rw [memWrite_clk]
    · rfl
  · exact absurd (by rw [dlqPush_clk]) h
  · exact absurd rfl h

theorem rejectEvent_clk (r : Reject) (s : State) : (rejectEvent r s).clk = s.clk := by
  cases r with
  | uldLength => exact discard_clk s _
  | timerBytes => rfl
  | outputRecord => rfl
  | reservedCt => rfl

/-- Settles O17, by the port of the event. -/
theorem clockStateTransitions : Obligations.ClockStateTransitions := by
  intro s t e rest hp hin he hmoved
  cases hd : decodeEvent e with
  | error r =>
    rw [step_of_rejected hp hd] at he
    cases he
    exact absurd (by rw [rejectEvent_clk]) hmoved
  | ok i =>
    rw [step_of_decodes hp hd] at he
    cases hport : e.port <;> rw [hport] at hin <;> simp only [decodeEvent, hport] at hd
    case clk =>
      cases hd
      obtain ⟨hunsync, hsync, hvalid⟩ := clkInd_clkState (outcome_next.1 he) hmoved
      exact .inr (.inl ⟨hunsync, hsync, rfl, hvalid⟩)
    case uld =>
      have hclk : t.clk = s.clk := by
        split at hd
        · cases hd; exact ulBurst_clk (s := { s with pending := rest }) (outcome_next.1 he)
        · split at hd
          · cases hd; exact ulBurst_clk (s := { s with pending := rest }) (outcome_next.1 he)
          · cases hd
      exact absurd (by rw [hclk]) hmoved
    case host =>
      cases hd
      obtain ⟨hclosed, hunsync, hi⟩ | ⟨hclosed, hi⟩ := decodeHost_clkState he hmoved
      · exact .inl ⟨hclosed, hunsync, by rw [hi]⟩
      · exact .inr (.inr (.inr ⟨hclosed, by rw [hi]⟩))
    case timer =>
      split at hd
      · cases hd
        obtain ⟨hsync, hfatal, harmed, hdeadline⟩ := tick_clkState (outcome_next.1 he) hmoved
        exact .inr (.inr (.inl ⟨hsync, hfatal, rfl, harmed, hdeadline⟩))
      · cases hd
    case hosto => cases hin

end Machine
end Sys2Proof

namespace Sys2Proof.Machine

/-! ## The addresses of the registers (R41 to R71, R85) -/

theorem gregAt_addr (r : GReg) : gregAt r.addr = some r := by cases r <;> rfl

theorem addr_of_gregAt {n : Nat} {r : GReg} (h : gregAt n = some r) : r.addr = n := by
  unfold gregAt at h
  split at h <;> cases h <;> rfl

theorem cregAt_offset (r : CReg) : cregAt r.offset = some r := by cases r <;> rfl

theorem offset_of_cregAt {n : Nat} {r : CReg} (h : cregAt n = some r) : r.offset = n := by
  unfold cregAt at h
  split at h <;> cases h <;> rfl

/-- The global registers stand at word addresses up to DISCARDS2 (R57). -/
theorem GReg.addr_range (r : GReg) : r.addr ≤ 0x50 ∧ r.addr % 4 = 0 := by cases r <;> decide

/-- The channel registers stand at word offsets up to QSTAT (R70). -/
theorem CReg.offset_range (r : CReg) : r.offset ≤ 0x38 ∧ r.offset % 4 = 0 := by cases r <;> decide

theorem glob_addr_toNat (r : GReg) : (Reg.glob r).addr.toNat = r.addr := by
  have := r.addr_range
  simp only [Reg.addr, BitVec.toNat_ofNat]
  omega

theorem slot_addr_toNat (r : TReg) (tn : Tn) : (Reg.slot r tn).addr.toNat = r.base + 4 * tn.val := by
  have := tn.isLt
  have hbase : r.base ≤ 0x160 := by cases r <;> decide
  simp only [Reg.addr, BitVec.toNat_ofNat]
  omega

/-- A word address in a register's row of eight is that of the timeslot it counts. -/
theorem slot_addr_at (r : TReg) {n : Nat} (hlo : r.base ≤ n) (hhi : n < r.base + 0x20) (hword : n % 4 = 0) :
    (Reg.slot r (Fin.ofNat 8 ((n - r.base) / 4))).addr.toNat = n := by
  have hbase : r.base % 4 = 0 := by cases r <;> rfl
  rw [slot_addr_toNat, Fin.val_ofNat]
  omega

theorem chan_addr_toNat (r : CReg) (tn : Tn) (ss : Ss) :
    (Reg.chan r tn ss).addr.toNat = 0x1000 + 0x40 * (8 * tn.val + ss.val) + r.offset := by
  have := r.offset_range
  have := tn.isLt
  have := ss.isLt
  simp only [Reg.addr, BitVec.toNat_ofNat]
  omega

theorem finOfNat_eq {n : Nat} {i : Fin 8} (h : n % 8 = i.val) : Fin.ofNat 8 n = i := Fin.ext h

/-- A register is found at its address. -/
theorem regAt_addr (r : Reg) : regAt r.addr = some r := by
  cases r with
  | glob r =>
    obtain ⟨hle, hword⟩ := r.addr_range
    simp only [regAt, glob_addr_toNat, if_neg (not_not_intro hword), if_pos (show r.addr < 0x100 by omega), gregAt_addr,
      Option.map_some]
  | slot r tn =>
    revert tn
    cases r <;> decide
  | chan r tn ss =>
    obtain ⟨hle, hword⟩ := r.offset_range
    have htn := tn.isLt
    have hss := ss.isLt
    have hn := chan_addr_toNat r tn ss
    generalize (Reg.chan r tn ss).addr = a at hn
    have hoff : a.toNat % 0x40 = r.offset := by omega
    simp only [regAt, hoff, cregAt_offset, Option.map_some]
    rw [if_neg (by omega), if_neg (by omega), if_neg (by omega), if_neg (by omega), if_neg (by omega),
      if_neg (by omega), if_neg (by omega), if_pos (by omega), finOfNat_eq (i := tn) (by omega),
      finOfNat_eq (i := ss) (by omega)]

/-- What an address names stands at that address; so a reserved address names nothing. -/
theorem addr_of_regAt {a : BitVec 16} {r : Reg} (h : regAt a = some r) : r.addr = a := by
  apply BitVec.eq_of_toNat_eq
  simp only [regAt] at h
  split at h
  · cases h
  split at h
  · obtain ⟨g, hg, rfl⟩ := Option.map_eq_some_iff.1 h
    rw [glob_addr_toNat, addr_of_gregAt hg]
  split at h
  · cases h
    exact slot_addr_at .tnCfg (show 0x100 ≤ a.toNat by omega) (show a.toNat < 0x100 + 0x20 by omega) (by omega)
  split at h
  · cases h
  split at h
  · cases h
    exact slot_addr_at .ulLast (show 0x140 ≤ a.toNat by omega) (show a.toNat < 0x140 + 0x20 by omega) (by omega)
  split at h
  · cases h
    exact slot_addr_at .comq (show 0x160 ≤ a.toNat by omega) (show a.toNat < 0x160 + 0x20 by omega) (by omega)
  split at h
  · cases h
  split at h
  · obtain ⟨c, hc, rfl⟩ := Option.map_eq_some_iff.1 h
    rw [chan_addr_toNat, offset_of_cregAt hc]
    simp only [Fin.val_ofNat]
    omega
  · cases h

/-- No register of section 5 stands at a misaligned address. -/
theorem Reg.addr_word (r : Reg) : r.addr.toNat % 4 = 0 := by
  cases r with
  | glob r => rw [glob_addr_toNat]; exact r.addr_range.2
  | slot r tn =>
    rw [slot_addr_toNat]
    cases r <;> simp only [TReg.base] <;> omega
  | chan r tn ss =>
    rw [chan_addr_toNat]
    have := r.offset_range
    omega

/-- Where the registers of section 5 stand: outside these ranges every address is reserved (R71). -/
theorem Reg.addr_range (r : Reg) :
    r.addr.toNat ≤ 0x50 ∨ (0x100 ≤ r.addr.toNat ∧ r.addr.toNat < 0x120) ∨ (0x140 ≤ r.addr.toNat ∧ r.addr.toNat < 0x180)
      ∨ (0x1000 ≤ r.addr.toNat ∧ r.addr.toNat < 0x2000 ∧ r.addr.toNat % 0x40 ≤ 0x38) := by
  cases r with
  | glob r => rw [glob_addr_toNat]; exact .inl r.addr_range.1
  | slot r tn =>
    have := tn.isLt
    rw [slot_addr_toNat]
    cases r <;> simp only [TReg.base] <;> omega
  | chan r tn ss =>
    have := r.offset_range
    have := tn.isLt
    have := ss.isLt
    rw [chan_addr_toNat]
    omega

/-! ## CFG_RD (R81, R116, R181) -/

variable {s : State}

theorem memRead_addr (s : State) (r : Reg) : memRead s r.addr = readReg s r := by
  unfold memRead
  rw [regAt_addr]

theorem bytes16_ofNat (a : Nat) : bytes16 (BitVec.ofNat 16 a) = [BitVec.ofNat 8 (a / 256), BitVec.ofNat 8 a] := by
  have hhi : BitVec.ofNat 8 (a % 65536 / 256) = BitVec.ofNat 8 (a / 256) :=
    BitVec.eq_of_toNat_eq (by simp only [BitVec.toNat_ofNat]; omega)
  have hlo : BitVec.ofNat 8 (a % 65536) = BitVec.ofNat 8 a :=
    BitVec.eq_of_toNat_eq (by simp only [BitVec.toNat_ofNat]; omega)
  rw [bytes16, BitVec.toNat_ofNat]
  exact congrArg₂ (fun x y => [x, y]) hhi hlo

theorem bytes32_ofNat (v : Nat) : bytes32 (BitVec.ofNat 32 v) = [BitVec.ofNat 8 (v / 16777216),
    BitVec.ofNat 8 (v / 65536), BitVec.ofNat 8 (v / 256), BitVec.ofNat 8 v] := by
  simp only [bytes32, BitVec.toNat_ofNat, List.cons.injEq, and_true]
  refine ⟨?_, ?_, ?_, ?_⟩ <;> apply BitVec.eq_of_toNat_eq <;> simp only [BitVec.toNat_ofNat] <;> omega

/-- CFG_RD at a word address: the record with the address and the value read (R81, R116). -/
theorem exec_cfgRd_of_memRead {a v : Nat} (ha : a % 4 = 0) (hv : memRead s (BitVec.ofNat 16 a) = BitVec.ofNat 32 v) :
    exec (.cfgRd (BitVec.ofNat 16 a)) s = .next { s with
      out := s.out ++ [⟨.hosto, [0x81, BitVec.ofNat 8 (a / 256), BitVec.ofNat 8 a, BitVec.ofNat 8 (v / 16777216),
        BitVec.ofNat 8 (v / 65536), BitVec.ofNat 8 (v / 256), BitVec.ofNat 8 v]⟩] } := by
  have haligned : aligned (BitVec.ofNat 16 a) = true := by
    simp only [aligned, BitVec.toNat_ofNat, beq_iff_eq]
    omega
  show execCfgRd _ s = _
  rw [execCfgRd, if_pos haligned, hv, recCfgData, bytes16_ofNat, bytes32_ofNat]
  rfl

/-- CFG_RD of a register. -/
theorem exec_cfgRd_reg (r : Reg) {a v : Nat} (ha : r.addr = BitVec.ofNat 16 a) (hv : readReg s r = BitVec.ofNat 32 v) :
    exec (.cfgRd (BitVec.ofNat 16 a)) s = .next { s with
      out := s.out ++ [⟨.hosto, [0x81, BitVec.ofNat 8 (a / 256), BitVec.ofNat 8 a, BitVec.ofNat 8 (v / 16777216),
        BitVec.ofNat 8 (v / 65536), BitVec.ofNat 8 (v / 256), BitVec.ofNat 8 v]⟩] } := by
  have hword := r.addr_word
  rw [ha, BitVec.toNat_ofNat] at hword
  exact exec_cfgRd_of_memRead (by omega) (by rw [← ha, memRead_addr]; exact hv)

/-- A misaligned CFG_RD answers nothing and counts (R83). -/
theorem exec_cfgRd_misaligned {a : BitVec 16} (ha : a.toNat % 4 ≠ 0) (s : State) :
    exec (.cfgRd a) s = .next { s with disc := { s.disc with hostMalformed := satInc s.disc.hostMalformed 1 } } := by
  show execCfgRd a s = _
  rw [execCfgRd, if_neg (by simpa only [aligned, beq_iff_eq] using ha), ← satAdd_eq_satInc]
  rfl

/-! ### The fields of a register word (R40) -/

/-- The number a list of fields stands for: each value at its lowest bit. -/
def fieldSum (fields : List (Nat × Nat)) : Nat := (fields.map fun f => f.1 * 2 ^ f.2).sum

theorem fieldSum_nil : fieldSum [] = 0 := rfl

theorem fieldSum_cons (v lo : Nat) (rest : List (Nat × Nat)) :
    fieldSum ((v, lo) :: rest) = v * 2 ^ lo + fieldSum rest := by
  simp only [fieldSum, List.map_cons, List.sum_cons]

theorem packWord_eq {fields : List (Nat × Nat)} {v : Nat} (h : fieldSum fields = v) :
    packWord fields = BitVec.ofNat 32 v := congrArg (BitVec.ofNat 32) h

theorem setWidth_eq_ofNat {w : Nat} (x : BitVec w) : x.setWidth 32 = BitVec.ofNat 32 x.toNat := by
  rw [BitVec.ofNat_toNat]

theorem low_half (x : Time) : x.extractLsb' 0 32 = BitVec.ofNat 32 (x.toNat % 2 ^ 32) :=
  BitVec.eq_of_toNat_eq (by simp [BitVec.extractLsb'_toNat])

theorem high_half (x : Time) : x.extractLsb' 32 32 = BitVec.ofNat 32 (x.toNat / 2 ^ 32) :=
  BitVec.eq_of_toNat_eq (by simp [BitVec.extractLsb'_toNat, Nat.shiftRight_eq_div_pow])

theorem eq_ofNat_toNat (x : BitVec 32) : x = BitVec.ofNat 32 x.toNat := by
  rw [BitVec.ofNat_toNat, BitVec.setWidth_eq]

/-- Settles O22, register by register: each address names its register, whose word holds the fields of its rule. -/
theorem readGlobalRegisters : Obligations.ReadGlobalRegisters := by
  intro s rd state
  have hcode : s.clk.clkState.code = state := by
    simp only [state]
    cases s.clk.clkState <;> rfl
  refine ⟨exec_cfgRd_reg (.glob .id) rfl rfl, exec_cfgRd_reg (.glob .ctrl) rfl (packWord_eq ?_),
    exec_cfgRd_reg (.glob .status) rfl (packWord_eq ?_),
    exec_cfgRd_reg (.glob .lastFn) rfl (setWidth_eq_ofNat s.clk.lastFn),
    exec_cfgRd_reg (.glob .noClk) rfl (setWidth_eq_ofNat s.clk.noClk),
    exec_cfgRd_reg (.glob .maxSkew) rfl (setWidth_eq_ofNat s.cfg.maxSkew),
    exec_cfgRd_reg (.glob .lossFrames) rfl (setWidth_eq_ofNat s.cfg.lossFrames),
    exec_cfgRd_reg (.glob .frameUs) rfl rfl,
    exec_cfgRd_reg (.glob .txAdv) rfl (setWidth_eq_ofNat s.cfg.txAdv),
    exec_cfgRd_reg (.glob .ulGapMax) rfl (setWidth_eq_ofNat s.cfg.ulGapMax),
    exec_cfgRd_reg (.glob .pwrTarget) rfl (setWidth_eq_ofNat s.cfg.pwrTarget),
    exec_cfgRd_reg (.glob .pwrStep) rfl (packWord_eq ?_), exec_cfgRd_reg (.glob .pwrRange) rfl (packWord_eq ?_),
    exec_cfgRd_reg (.glob .bsic) rfl (setWidth_eq_ofNat s.cfg.bsic),
    exec_cfgRd_reg (.glob .discards) rfl (packWord_eq ?_),
    exec_cfgRd_reg (.glob .resyncs) rfl (setWidth_eq_ofNat s.clk.resyncs),
    exec_cfgRd_reg (.glob .lastTsLo) rfl (low_half s.clk.lastTs),
    exec_cfgRd_reg (.glob .lastTsHi) rfl (high_half s.clk.lastTs),
    exec_cfgRd_reg (.glob .deadlineLo) rfl (low_half s.clk.deadline),
    exec_cfgRd_reg (.glob .deadlineHi) rfl (high_half s.clk.deadline),
    exec_cfgRd_reg (.glob .discards2) rfl (packWord_eq ?_)⟩
  all_goals
    simp only [fieldSum_cons, fieldSum_nil, hcode]
    omega

/-- Settles O23, register by register; a reserved address lies outside every register's range, so it names none. -/
theorem readSlotAndChannelRegisters : Obligations.ReadSlotAndChannelRegisters := by
  intro s tn ss rd t c chb amr lane
  have hreserved : ∀ a : Nat, a < 65536 → a % 4 = 0 →
      (0x054 ≤ a ∧ a < 0x100 ∨ 0x120 ≤ a ∧ a < 0x140 ∨ 0x180 ≤ a ∧ a < 0x1000
        ∨ 0x1000 ≤ a ∧ a < 0x2000 ∧ a % 0x40 = 0x3C ∨ 0x2000 ≤ a) → rd a 0 := by
    intro a hlt hword hrange
    have hnone : regAt (BitVec.ofNat 16 a) = none := by
      cases hr : regAt (BitVec.ofNat 16 a) with
      | none => rfl
      | some r =>
        exfalso
        have haddr := congrArg BitVec.toNat (addr_of_regAt hr)
        rw [BitVec.toNat_ofNat, Nat.mod_eq_of_lt (show a < 2 ^ 16 from hlt)] at haddr
        rcases r.addr_range with h | h | h | h <;> omega
    exact exec_cfgRd_of_memRead hword (by unfold memRead; rw [hnone]; rfl)
  refine ⟨exec_cfgRd_reg (.slot .tnCfg tn) rfl (packWord_eq ?_),
    exec_cfgRd_reg (.slot .ulLast tn) rfl (packWord_eq ?_), exec_cfgRd_reg (.slot .comq tn) rfl (packWord_eq ?_),
    exec_cfgRd_reg (.chan .chCtrl tn ss) rfl (packWord_eq ?_),
    exec_cfgRd_reg (.chan .chCodec tn ss) rfl (packWord_eq ?_),
    exec_cfgRd_reg (.chan .amrT0 tn ss) rfl (packWord_eq ?_),
    exec_cfgRd_reg (.chan .amrT1 tn ss) rfl (packWord_eq ?_),
    exec_cfgRd_reg (.chan .amrT2 tn ss) rfl (packWord_eq ?_),
    exec_cfgRd_reg (.chan .msPwr tn ss) rfl (setWidth_eq_ofNat c.msPwr),
    exec_cfgRd_reg (.chan .ta tn ss) rfl (packWord_eq ?_),
    exec_cfgRd_reg (.chan .pwrAcc tn ss) rfl (packWord_eq ?_),
    exec_cfgRd_reg (.chan .taCnt tn ss) rfl (setWidth_eq_ofNat c.taCnt),
    exec_cfgRd_reg (.chan .taSum tn ss) rfl (eq_ofNat_toNat c.taSum),
    exec_cfgRd_reg (.chan .berNum tn ss) rfl (setWidth_eq_ofNat c.berNum),
    exec_cfgRd_reg (.chan .berSum tn ss) rfl (eq_ofNat_toNat c.berSum),
    exec_cfgRd_reg (.chan .laneMStat tn ss) rfl (packWord_eq ?_),
    exec_cfgRd_reg (.chan .laneAStat tn ss) rfl (packWord_eq ?_),
    exec_cfgRd_reg (.chan .qstat tn ss) rfl (packWord_eq ?_),
    hreserved, fun a ha => exec_cfgRd_misaligned ha s⟩
  all_goals
    simp only [fieldSum_cons, fieldSum_nil, t, c, amr, lane, occupancy, Bool.toNat_false, Fin.getElem_fin, Fin.val_zero,
      Fin.val_one, Fin.val_two]
    omega

/-! ## CFG_WR where no register takes the value (R71, R83, R186) -/

/-- The global registers a write reaches (R42 to R54, R186). -/
def GReg.writable : GReg → Bool
  | .ctrl | .maxSkew | .lossFrames | .txAdv | .ulGapMax | .pwrTarget | .pwrStep | .pwrRange | .bsic => true
  | _ => false

/-- The channel registers a write reaches (R61 to R65, R186). -/
def CReg.writable : CReg → Bool
  | .chCtrl | .chCodec | .amrT0 | .amrT1 | .amrT2 | .msPwr | .ta => true
  | _ => false

/-- The registers a write reaches: of those of a timeslot, TN_CFG alone (R58, R186). -/
def Reg.writable : Reg → Bool
  | .glob r => r.writable
  | .slot r _ => r == .tnCfg
  | .chan r _ _ => r.writable

theorem writeGlob_of_not_writable {r : GReg} (h : r.writable = false) (g : GlobalCfg) (v : BitVec 32) :
    writeGlob g v r = g := by
  cases r <;> cases h <;> rfl

theorem writeSlot_of_ne_tnCfg {r : TReg} (h : r ≠ .tnCfg) (ilv : Ilv) (u : TnState) (v : BitVec 32) :
    writeSlot ilv u v r = u := by
  cases r with
  | tnCfg => exact absurd rfl h
  | ulLast => rfl
  | comq => rfl

theorem writeChan_of_not_writable {r : CReg} (h : r.writable = false) (ilv : Ilv) (c : Channel) (v : BitVec 32) :
    writeChan ilv c v r = c := by
  cases r <;> cases h <;> rfl

theorem writeReg_of_not_writable {r : Reg} (h : r.writable = false) (s : State) (v : BitVec 32) :
    writeReg s v r = s := by
  cases r with
  | glob r => simp only [writeReg, writeGlob_of_not_writable h]
  | slot r tn =>
    have hne : r ≠ .tnCfg := beq_eq_false_iff_ne.1 h
    simp only [writeReg, writeSlot_of_ne_tnCfg hne, modSlot_id]
  | chan r tn ss =>
    simp only [writeReg, writeChan_of_not_writable h]
    rw [modChan_const]
    exact modChan_self s tn ss

/-- Where they stand. -/
theorem Reg.addr_of_writable {r : Reg} (h : r.writable = true) :
    r.addr.toNat ∈ [0x004, 0x014, 0x018, 0x020, 0x024, 0x028, 0x02C, 0x030, 0x034]
      ∨ (0x100 ≤ r.addr.toNat ∧ r.addr.toNat < 0x120)
      ∨ (0x1000 ≤ r.addr.toNat ∧ r.addr.toNat < 0x2000 ∧ r.addr.toNat % 0x40 ≤ 0x18) := by
  cases r with
  | glob r =>
    rw [glob_addr_toNat]
    left
    cases r <;> cases h <;> decide
  | slot r tn =>
    have := tn.isLt
    rw [slot_addr_toNat]
    obtain rfl : r = .tnCfg := beq_iff_eq.1 h
    simp only [TReg.base]
    omega
  | chan r tn ss =>
    have hoff : r.offset ≤ 0x18 := by cases r <;> cases h <;> decide
    have := tn.isLt
    have := ss.isLt
    rw [chan_addr_toNat]
    omega

/-- Settles O24: what an ignored address names, if anything, is a register no write reaches. -/
theorem writeIgnored : Obligations.WriteIgnored := by
  intro s a v
  refine ⟨fun ha => ?_, fun ha hrange => ?_⟩
  · show execCfgWr a v s = _
    rw [execCfgWr, if_neg (by simpa only [aligned, beq_iff_eq] using ha), ← satAdd_eq_satInc]
    rfl
  · show execCfgWr a v s = _
    rw [execCfgWr, if_pos (by simpa only [aligned, beq_iff_eq] using ha)]
    unfold memWrite
    cases hr : regAt a with
    | none => rfl
    | some r =>
      have hro : r.writable = false := by
        by_contra hw
        have haddr := Reg.addr_of_writable (Bool.eq_true_of_not_eq_false hw)
        rw [addr_of_regAt hr] at haddr
        simp only [List.mem_cons, List.not_mem_nil, or_false] at haddr hrange
        omega
      exact congrArg _ (writeReg_of_not_writable hro s v)

/-! ## Power-on reset (R36, R72, R400) -/

theorem reset_slot (tn : Tn) : State.reset.slot tn = TnState.powerOn Config.ilv0 := by
  simp only [State.slot, State.reset, Vector.getElem_replicate]

theorem reset_chan (tn : Tn) (ss : Ss) : State.reset.chan tn ss = Channel.powerOn Config.ilv0 := by
  simp only [State.chan, reset_slot, TnState.powerOn, Vector.getElem_replicate]

theorem reset_queue (q : QueueRef) : State.reset.queue q = [] := by
  cases q <;> simp only [State.queue, reset_slot, reset_chan, TnState.powerOn, Channel.powerOn]

/-- Settles O57: every timeslot is the one of power-on reset, every channel its channel. -/
theorem resetValues : Obligations.ResetValues := by
  refine ⟨rfl, rfl, fun k => by cases k <;> rfl, rfl, fun tn => ?_, reset_queue,
    fun tn ss => ⟨reset_chan tn ss, fun ilv => ⟨rfl, rfl⟩⟩⟩
  rw [reset_slot]
  exact ⟨rfl, rfl, rfl, rfl, rfl, rfl, rfl⟩
end Sys2Proof.Machine

namespace Sys2Proof.Machine

/-! ## Writing a value again (R84)

Each side effect of a CFG write needs a change (R183, R184): a register that already holds the written value keeps
its owner as it is, and after a write the register holds the value. -/

theorem clampMode_of_le {v n : BitVec 2} (h : v.toNat ≤ n.toNat) : clampMode v n = v := if_pos h

theorem writeGlob_writeGlob (g : GlobalCfg) (v : BitVec 32) (r : GReg) :
    writeGlob (writeGlob g v r) v r = writeGlob g v r := by
  cases r <;> rfl

/-- TN_CFG holds the value v (R58). -/
structure TnState.HoldsTnCfg (u : TnState) (v : BitVec 32) : Prop where
  comb    : u.comb = v.extractLsb' 0 8
  tsc     : u.tsc = v.extractLsb' 8 3
  txPower : u.txPower = v.extractLsb' 16 8

theorem writeSlot_of_holdsTnCfg {u : TnState} {v : BitVec 32} (h : u.HoldsTnCfg v) (ilv : Ilv) :
    writeSlot ilv u v .tnCfg = u := by
  obtain ⟨hcomb, htsc, hpower⟩ := h
  simp only [writeSlot, ← hcomb, ← htsc, ← hpower, if_true]

theorem writeSlot_holdsTnCfg (ilv : Ilv) (u : TnState) (v : BitVec 32) : (writeSlot ilv u v .tnCfg).HoldsTnCfg v := by
  simp only [writeSlot]
  split
  · exact ⟨rfl, rfl, rfl⟩
  · exact ⟨rfl, rfl, rfl⟩

theorem writeSlot_writeSlot (ilv : Ilv) (u : TnState) (v : BitVec 32) (r : TReg) :
    writeSlot ilv (writeSlot ilv u v r) v r = writeSlot ilv u v r := by
  cases r with
  | tnCfg => exact writeSlot_of_holdsTnCfg (writeSlot_holdsTnCfg ilv u v) ilv
  | ulLast => rfl
  | comq => rfl

/-- CH_CTRL holds the value v, and the two modes are within its active set (R61, R62). -/
structure Channel.HoldsChCtrl (c : Channel) (v : BitVec 32) : Prop where
  active    : c.active = bitOf v 0
  amrEn     : c.amrEn = bitOf v 1
  hoArm     : c.hoArm = bitOf v 2
  ncodecsM1 : c.ncodecsM1 = v.extractLsb' 4 2
  dlCmr     : c.dlCmr.toNat ≤ c.ncodecsM1.toNat
  dlFt      : c.dlFt.toNat ≤ c.ncodecsM1.toNat

theorem writeChCtrl_of_holdsChCtrl {c : Channel} {v : BitVec 32} (h : c.HoldsChCtrl v) (ilv : Ilv) :
    writeChCtrl ilv c v = c := by
  obtain ⟨hactive, hamr, hho, hn, hcmr, hft⟩ := h
  have hup : ¬ (c.active = false ∧ c.active = true) := fun ⟨hf, ht⟩ => Bool.false_ne_true (hf.symm.trans ht)
  have hdown : ¬ (c.active = true ∧ c.active = false) := fun ⟨ht, hf⟩ => hup ⟨hf, ht⟩
  simp only [writeChCtrl, clampMode_of_le hcmr, clampMode_of_le hft, ← hactive, ← hamr, ← hho, ← hn, if_neg hup,
    if_neg hdown]

theorem writeChCtrl_holdsChCtrl (ilv : Ilv) (c : Channel) (v : BitVec 32) : (writeChCtrl ilv c v).HoldsChCtrl v := by
  simp only [writeChCtrl]
  split
  · exact ⟨rfl, rfl, rfl, rfl, clampMode_le _ _, clampMode_le _ _⟩
  · split
    · exact ⟨rfl, rfl, rfl, rfl, clampMode_le _ _, clampMode_le _ _⟩
    · exact ⟨rfl, rfl, rfl, rfl, clampMode_le _ _, clampMode_le _ _⟩

theorem writeChan_writeChan (ilv : Ilv) (c : Channel) (v : BitVec 32) (r : CReg) :
    writeChan ilv (writeChan ilv c v r) v r = writeChan ilv c v r := by
  cases r with
  | chCtrl => exact writeChCtrl_of_holdsChCtrl (writeChCtrl_holdsChCtrl ilv c v) ilv
  | amrT0 => simp only [writeChan, Vector.set_set]
  | amrT1 => simp only [writeChan, Vector.set_set]
  | amrT2 => simp only [writeChan, Vector.set_set]
  | _ => rfl

theorem writeReg_writeReg (s : State) (v : BitVec 32) (r : Reg) : writeReg (writeReg s v r) v r = writeReg s v r := by
  cases r with
  | glob r => exact congrArg (fun g => { s with cfg := g }) (writeGlob_writeGlob s.cfg v r)
  | slot r tn =>
    calc writeReg (writeReg s v (.slot r tn)) v (.slot r tn)
      _ = s.modSlot tn fun u => writeSlot s.ilv0 (writeSlot s.ilv0 u v r) v r := by
        simp only [writeReg]
        exact modSlot_modSlot s tn _ _
      _ = writeReg s v (.slot r tn) := by simp only [writeSlot_writeSlot, writeReg]
  | chan r tn ss =>
    calc writeReg (writeReg s v (.chan r tn ss)) v (.chan r tn ss)
      _ = s.modChan tn ss fun c => writeChan s.ilv0 (writeChan s.ilv0 c v r) v r := by
        simp only [writeReg]
        exact modChan_modChan s tn ss _ _
      _ = writeReg s v (.chan r tn ss) := by simp only [writeChan_writeChan, writeReg]

theorem memWrite_memWrite (s : State) (a : BitVec 16) (v : BitVec 32) :
    memWrite (memWrite s a v) a v = memWrite s a v := by
  unfold memWrite
  cases regAt a with
  | none => rfl
  | some r => exact writeReg_writeReg s v r

theorem exec_cfgWr_aligned {a : BitVec 16} (ha : a.toNat % 4 = 0) (v : BitVec 32) (s : State) :
    exec (.cfgWr a v) s = .next (memWrite s a v) := by
  show execCfgWr a v s = _
  rw [execCfgWr, if_pos (by simpa only [aligned, beq_iff_eq] using ha)]

/-- Settles O26: an aligned write goes to the register its address names, and that register keeps it. -/
theorem writeIdempotent : Obligations.WriteIdempotent := fun s a v ha =>
  ⟨memWrite s a v, exec_cfgWr_aligned ha v s, by rw [exec_cfgWr_aligned ha, memWrite_memWrite]⟩

end Sys2Proof.Machine

/-! SUPPORT. The family of 30_encoding.md: the bytes of a field and the field read back, each record written and read,
the grammar of the datagrams, the reserved host records, burst assembly, the records of a closed group. -/

namespace Sys2Proof

/-! ## Fields of a record, both ways (R6, R82) -/

/-- A field has the value v exactly where its two bytes are those of v. -/
theorem be16_eq_iff {b : Bytes} {i : Nat} {v : BitVec 16} :
    be16 b i = v ↔ bytes16 v = [byteAt b i, byteAt b (i + 1)] := by
  have hhi := (byteAt b i).isLt
  have hlo := (byteAt b (i + 1)).isLt
  have hv := v.isLt
  simp only [be16, bytes16, List.cons.injEq, and_true, BitVec.toNat_eq, BitVec.toNat_ofNat]
  omega

/-- A field has the value v exactly where its four bytes are those of v. -/
theorem be32_eq_iff {b : Bytes} {i : Nat} {v : BitVec 32} :
    be32 b i = v ↔ bytes32 v = [byteAt b i, byteAt b (i + 1), byteAt b (i + 2), byteAt b (i + 3)] := by
  have h0 := (byteAt b i).isLt
  have h1 := (byteAt b (i + 1)).isLt
  have h2 := (byteAt b (i + 2)).isLt
  have h3 := (byteAt b (i + 3)).isLt
  have hv := v.isLt
  simp only [be32, bytes32, List.cons.injEq, and_true, BitVec.toNat_eq, BitVec.toNat_ofNat]
  omega

theorem bytes16_be16 (b : Bytes) (i : Nat) : bytes16 (be16 b i) = [byteAt b i, byteAt b (i + 1)] := be16_eq_iff.1 rfl

theorem bytes32_be32 (b : Bytes) (i : Nat) :
    bytes32 (be32 b i) = [byteAt b i, byteAt b (i + 1), byteAt b (i + 2), byteAt b (i + 3)] := be32_eq_iff.1 rfl

theorem be32_toNat (b : Bytes) (i : Nat) : (be32 b i).toNat = (byteAt b i).toNat * 16777216
    + (byteAt b (i + 1)).toNat * 65536 + (byteAt b (i + 2)).toNat * 256 + (byteAt b (i + 3)).toNat := by
  have h0 := (byteAt b i).isLt
  have h1 := (byteAt b (i + 1)).isLt
  have h2 := (byteAt b (i + 2)).isLt
  have h3 := (byteAt b (i + 3)).isLt
  rw [be32, BitVec.toNat_ofNat]
  omega

theorem byteAt_eq_getElem {b : Bytes} {i : Nat} (h : i < b.length) : byteAt b i = b[i] := by
  rw [byteAt, List.getElem?_eq_getElem h, Option.getD_some]

/-- The first n bytes of a record, one by one. -/
theorem take_eq_map_byteAt {b : Bytes} {n : Nat} (h : n ≤ b.length) : b.take n = (List.range n).map (byteAt b) := by
  apply List.ext_getElem
  · simp [h]
  · intro i hi _
    rw [List.length_take] at hi
    rw [List.getElem_take, List.getElem_map, List.getElem_range, byteAt_eq_getElem (by omega)]

/-- A record of n bytes is its bytes. -/
theorem eq_map_byteAt {b : Bytes} {n : Nat} (h : b.length = n) : b = (List.range n).map (byteAt b) := by
  rw [← take_eq_map_byteAt h.ge, List.take_of_length_le h.le]

/-- A record is its first n bytes and the rest. -/
theorem eq_map_byteAt_append {b : Bytes} {n : Nat} (h : n ≤ b.length) :
    b = (List.range n).map (byteAt b) ++ b.drop n := by
  rw [← take_eq_map_byteAt h, List.take_append_drop]

theorem toNat_ofNat_of_le_255 {n : Nat} (h : n ≤ 255) : (BitVec.ofNat 8 n).toNat = n :=
  Nat.mod_eq_of_lt (show n < 2 ^ 8 by omega)

theorem toNat_index (i : Fin 8) : (BitVec.ofNat 8 i.val).toNat = i.val :=
  toNat_ofNat_of_le_255 (by omega)

/-! ## What is read from a host record that was written (R111 to R115) -/

theorem decodeHost_cfgRd (a : BitVec 16) : decodeHost (0x10 :: bytes16 a) = .cfgRd a :=
  congrArg Instr.cfgRd (be16_eq_iff.2 rfl)

theorem decodeHost_cfgWr (a : BitVec 16) (v : BitVec 32) : decodeHost (0x11 :: bytes16 a ++ bytes32 v) = .cfgWr a v :=
  congrArg₂ Instr.cfgWr (be16_eq_iff.2 rfl) (be32_eq_iff.2 rfl)

/-- The three index bytes of a queue name it (R106, R115). -/
theorem queueOf_queueBytes (q : QueueRef) :
    queueOf (byteAt (queueBytes q) 0) (byteAt (queueBytes q) 1) (byteAt (queueBytes q) 2) = some q := by
  cases q <;> simp [queueOf, queueBytes, byteAt, toNat_index, -BitVec.toNat_ofNat]

theorem queueBytes_eq (q : QueueRef) :
    queueBytes q = [byteAt (queueBytes q) 0, byteAt (queueBytes q) 1, byteAt (queueBytes q) 2] := by
  cases q <;> rfl

/-- A record of opcode 0x20 with a queue and the length its fifth byte gives (R115). -/
theorem decodeHost_of_push {b : Bytes} {q : QueueRef} (hop : byteAt b 0 = 0x20)
    (hq : queueOf (byteAt b 1) (byteAt b 2) (byteAt b 3) = some q) (hlen : b.length = 5 + (byteAt b 4).toNat) :
    decodeHost b = .dlqPush q (b.drop 5) := by
  unfold decodeHost
  rw [hop, hq]
  exact if_pos hlen

theorem decodeHost_dlqPush (q : QueueRef) {p : Bytes} (hp : p.length ≤ 255) :
    decodeHost (0x20 :: queueBytes q ++ BitVec.ofNat 8 p.length :: p) = .dlqPush q p := by
  rw [queueBytes_eq]
  refine decodeHost_of_push rfl (queueOf_queueBytes q) ?_
  show p.length + 5 = 5 + (BitVec.ofNat 8 p.length).toNat
  rw [toNat_ofNat_of_le_255 hp, Nat.add_comm]

/-! ## What is read from an output record that was written (R116 to R123) -/

theorem decodeOutput_cfgData (a : BitVec 16) (v : BitVec 32) :
    decodeOutput (recCfgData a v) = some (.cfgData a v) :=
  congrArg₂ (fun a v => some (Instr.cfgData a v)) (be16_eq_iff.2 rfl) (be32_eq_iff.2 rfl)

theorem decodeOutput_dataInd (tn ss ct kind : Byte) (fn : BitVec 32) {p : Bytes} (hp : p.length ≤ 255) :
    decodeOutput (recDataInd tn ss ct kind fn p) = some (.dataInd tn ss ct kind fn p) := by
  have hfn : be32 (recDataInd tn ss ct kind fn p) 5 = fn := be32_eq_iff.2 rfl
  show (if p.length + 10 = 10 + (BitVec.ofNat 8 p.length).toNat then
    some (Instr.dataInd tn ss ct kind (be32 (recDataInd tn ss ct kind fn p) 5) p) else none) = _
  rw [hfn, toNat_ofNat_of_le_255 hp]
  exact if_pos (Nat.add_comm _ _)

theorem decodeOutput_measInd (tn ss ct : Byte) (fn : BitVec 32) (n flags : Byte) (rssi ber toa : BitVec 16) :
    decodeOutput (recMeasInd tn ss ct fn n flags rssi ber toa)
      = some (.measInd tn ss ct fn n flags rssi ber toa) := by
  show some (Instr.measInd _ _ _ _ _ _ _ _ _) = _
  exact congrArg some ((Instr.measInd.injEq ..).mpr ⟨rfl, rfl, rfl, be32_eq_iff.2 rfl, rfl, rfl, be16_eq_iff.2 rfl,
    be16_eq_iff.2 rfl, be16_eq_iff.2 rfl⟩)

theorem decodeOutput_rachInd (tn ct : Byte) (fn : BitVec 32) (ra toa ber rssi : BitVec 16) :
    decodeOutput (recRachInd tn ct fn ra toa ber rssi) = some (.rachInd tn ct fn ra toa ber rssi) := by
  show some (Instr.rachInd _ _ _ _ _ _ _) = _
  exact congrArg some ((Instr.rachInd.injEq ..).mpr ⟨rfl, rfl, be32_eq_iff.2 rfl, be16_eq_iff.2 rfl, be16_eq_iff.2 rfl,
    be16_eq_iff.2 rfl, be16_eq_iff.2 rfl⟩)

theorem decodeOutput_hoInd (tn ss : Byte) (fn : BitVec 32) (ra toa ber rssi : BitVec 16) :
    decodeOutput (recHoInd tn ss fn ra toa ber rssi) = some (.hoInd tn ss fn ra toa ber rssi) := by
  show some (Instr.hoInd _ _ _ _ _ _ _) = _
  exact congrArg some ((Instr.hoInd.injEq ..).mpr ⟨rfl, rfl, be32_eq_iff.2 rfl, be16_eq_iff.2 rfl, be16_eq_iff.2 rfl,
    be16_eq_iff.2 rfl, be16_eq_iff.2 rfl⟩)

theorem decodeOutput_loopInd (tn ss which : Byte) (v : BitVec 16) :
    decodeOutput (recLoopInd tn ss which v) = some (.loopInd tn ss which v) :=
  congrArg (fun v => some (Instr.loopInd tn ss which v)) (be16_eq_iff.2 rfl)

theorem decodeOutput_fatalInd (cause : Byte) : decodeOutput (recFatalInd cause) = some (.fatalInd cause) := rfl

/-! ## Decode and encode (R124) -/

theorem decodeEvent_hosto {b : Bytes} {i : Instr} (h : decodeOutput b = some i) (now : Time) :
    decodeEvent ⟨.hosto, now, b⟩ = .ok i := by
  simp only [decodeEvent, h]

/-- Settles O2, by the instruction: the records of the host port and of HOSTO are read back field by field, a datagram
and a reserved record carry their bytes, and a sub-operation has no encoding. -/
theorem decodeOfEncode : Obligations.DecodeOfEncode := by
  intro i e hwf he
  cases i with
  | clkInd b now => cases he; rfl
  | ulBurstNb b => cases he; exact if_pos (eq_of_beq hwf)
  | ulBurst8psk b =>
    cases he
    have hlen : b.length = 452 := eq_of_beq hwf
    simp only [decodeEvent, hlen, reduceIte, Nat.reduceEqDiff]
  | linkOpen => cases he; rfl
  | linkClose => cases he; rfl
  | cfgRd a => cases he; exact congrArg Except.ok (decodeHost_cfgRd a)
  | cfgWr a v => cases he; exact congrArg Except.ok (decodeHost_cfgWr a v)
  | dlqPush q p => cases he; exact congrArg Except.ok (decodeHost_dlqPush q (of_decide_eq_true hwf))
  | hostReserved b => cases he; exact congrArg Except.ok (of_decide_eq_true hwf)
  | tick now => cases he; rfl
  | cfgData a v => cases he; exact decodeEvent_hosto (decodeOutput_cfgData a v) 0
  | dataInd tn ss ct kind fn p =>
    cases he
    simp only [WellFormed, Bool.and_eq_true, decide_eq_true_eq] at hwf
    obtain ⟨⟨-, hp⟩, -⟩ := hwf
    exact decodeEvent_hosto (decodeOutput_dataInd tn ss ct kind fn hp) 0
  | measInd => cases he; exact decodeEvent_hosto (decodeOutput_measInd ..) 0
  | rachInd => cases he; exact decodeEvent_hosto (decodeOutput_rachInd ..) 0
  | hoInd => cases he; exact decodeEvent_hosto (decodeOutput_hoInd ..) 0
  | loopInd => cases he; exact decodeEvent_hosto (decodeOutput_loopInd ..) 0
  | fatalInd cause => cases he; exact decodeEvent_hosto (decodeOutput_fatalInd cause) 0
  | _ => cases he

/-! ## What is written of a record that was read (R110 to R123) -/

theorem ofNat_toNat_byte (x : Byte) : BitVec.ofNat 8 x.toNat = x := by
  rw [BitVec.ofNat_toNat, BitVec.setWidth_eq]

/-- A queue has the index bytes that named it. -/
theorem queueBytes_of_queueOf {tn q ss : Byte} {r : QueueRef} (h : queueOf tn q ss = some r) :
    queueBytes r = [tn, q, ss] := by
  unfold queueOf at h
  split at h
  · split at h
    · split at h
      case h_1 hq =>
        have hid : q = 0 := BitVec.eq_of_toNat_eq hq
        obtain ⟨hss, ⟨⟩⟩ := Option.ite_none_right_eq_some.1 h
        have hzero : ss = 0 := BitVec.eq_of_toNat_eq hss
        simp only [queueBytes, ofNat_toNat_byte, hid, hzero]
      case h_2 hq =>
        have hid : q = 1 := BitVec.eq_of_toNat_eq hq
        obtain ⟨hss, ⟨⟩⟩ := Option.ite_none_right_eq_some.1 h
        have hzero : ss = 0 := BitVec.eq_of_toNat_eq hss
        simp only [queueBytes, ofNat_toNat_byte, hid, hzero]
      case h_3 hq =>
        have hid : q = 2 := BitVec.eq_of_toNat_eq hq
        cases h
        simp only [queueBytes, ofNat_toNat_byte, hid]
      case h_4 hq =>
        have hid : q = 3 := BitVec.eq_of_toNat_eq hq
        cases h
        simp only [queueBytes, ofNat_toNat_byte, hid]
      case h_5 hq =>
        have hid : q = 4 := BitVec.eq_of_toNat_eq hq
        cases h
        simp only [queueBytes, ofNat_toNat_byte, hid]
      case h_6 => cases h
    · cases h
  · cases h

/-- An event whose n bytes are those of b carries b. -/
theorem event_of_bytes {p : Port} {b r : Bytes} {n : Nat} (hlen : b.length = n)
    (h : r = (List.range n).map (byteAt b)) : some (Event.mk p 0 r) = some ⟨p, 0, b⟩ := by
  rw [h, ← eq_map_byteAt hlen]

/-- An event whose bytes are the first n of b and then the rest of b carries b. -/
theorem event_of_bytes_append {p : Port} {b r : Bytes} {n : Nat} (hlen : n ≤ b.length)
    (h : r = (List.range n).map (byteAt b) ++ b.drop n) : some (Event.mk p 0 r) = some ⟨p, 0, b⟩ := by
  rw [h, ← eq_map_byteAt_append hlen]

/-- The host port's decoder drops no byte. -/
theorem encode_decodeHost (b : Bytes) : encode (decodeHost b) = some ⟨.host, 0, b⟩ := by
  unfold decodeHost
  split
  · next h =>
    have hop : byteAt b 0 = 0x01 := BitVec.eq_of_toNat_eq h
    split
    · next hlen => exact event_of_bytes hlen (by rw [← hop]; rfl)
    · rfl
  · next h =>
    have hop : byteAt b 0 = 0x02 := BitVec.eq_of_toNat_eq h
    split
    · next hlen => exact event_of_bytes hlen (by rw [← hop]; rfl)
    · rfl
  · next h =>
    have hop : byteAt b 0 = 0x10 := BitVec.eq_of_toNat_eq h
    split
    · next hlen => exact event_of_bytes hlen (by rw [← hop, bytes16_be16]; rfl)
    · rfl
  · next h =>
    have hop : byteAt b 0 = 0x11 := BitVec.eq_of_toNat_eq h
    split
    · next hlen => exact event_of_bytes hlen (by rw [← hop, bytes16_be16, bytes32_be32]; rfl)
    · rfl
  · next h =>
    have hop : byteAt b 0 = 0x20 := BitVec.eq_of_toNat_eq h
    split
    · next q hq =>
      split
      · next hlen =>
        have hcount : BitVec.ofNat 8 (b.drop 5).length = byteAt b 4 := by
          rw [List.length_drop, hlen, Nat.add_sub_cancel_left, ofNat_toNat_byte]
        exact event_of_bytes_append (n := 5) (by omega) (by rw [← hop, queueBytes_of_queueOf hq, hcount]; rfl)
      · rfl
    · rfl
  · rfl

/-- HOSTO's decoder drops no byte. -/
theorem encode_of_decodeOutput {b : Bytes} {i : Instr} (h : decodeOutput b = some i) :
    encode i = some ⟨.hosto, 0, b⟩ := by
  unfold decodeOutput at h
  split at h
  case h_1 h0 =>
    have hop : byteAt b 0 = 0x81 := BitVec.eq_of_toNat_eq h0
    obtain ⟨hlen, ⟨⟩⟩ := Option.ite_none_right_eq_some.1 h
    exact event_of_bytes hlen (by rw [recCfgData, ← hop, bytes16_be16, bytes32_be32]; rfl)
  case h_2 h0 =>
    have hop : byteAt b 0 = 0x90 := BitVec.eq_of_toNat_eq h0
    obtain ⟨hlen, ⟨⟩⟩ := Option.ite_none_right_eq_some.1 h
    have hcount : BitVec.ofNat 8 (b.drop 10).length = byteAt b 9 := by
      rw [List.length_drop, hlen, Nat.add_sub_cancel_left, ofNat_toNat_byte]
    exact event_of_bytes_append (n := 10) (by omega) (by rw [recDataInd, ← hop, bytes32_be32, hcount]; rfl)
  case h_3 h0 =>
    have hop : byteAt b 0 = 0x91 := BitVec.eq_of_toNat_eq h0
    obtain ⟨hlen, ⟨⟩⟩ := Option.ite_none_right_eq_some.1 h
    exact event_of_bytes hlen (by simp only [recMeasInd, ← hop, bytes16_be16, bytes32_be32]; rfl)
  case h_4 h0 =>
    have hop : byteAt b 0 = 0x92 := BitVec.eq_of_toNat_eq h0
    obtain ⟨hlen, ⟨⟩⟩ := Option.ite_none_right_eq_some.1 h
    exact event_of_bytes hlen (by simp only [recRachInd, ← hop, bytes16_be16, bytes32_be32]; rfl)
  case h_5 h0 =>
    have hop : byteAt b 0 = 0x93 := BitVec.eq_of_toNat_eq h0
    obtain ⟨hlen, ⟨⟩⟩ := Option.ite_none_right_eq_some.1 h
    exact event_of_bytes hlen (by simp only [recHoInd, ← hop, bytes16_be16, bytes32_be32]; rfl)
  case h_6 h0 =>
    have hop : byteAt b 0 = 0x94 := BitVec.eq_of_toNat_eq h0
    obtain ⟨hlen, ⟨⟩⟩ := Option.ite_none_right_eq_some.1 h
    exact event_of_bytes hlen (by rw [recLoopInd, ← hop, bytes16_be16]; rfl)
  case h_7 h0 =>
    have hop : byteAt b 0 = 0xF0 := BitVec.eq_of_toNat_eq h0
    obtain ⟨hlen, ⟨⟩⟩ := Option.ite_none_right_eq_some.1 h
    exact event_of_bytes hlen (by rw [recFatalInd, ← hop]; rfl)
  case h_8 => cases h

/-- What the host port reads is well formed: a payload has at most the 255 bytes its length field counts. -/
theorem wellFormed_decodeHost (b : Bytes) : WellFormed (decodeHost b) = true := by
  obtain h | h | ⟨a, h⟩ | ⟨a, v, h⟩ | ⟨q, p, hp, h⟩ | h := decodeHost_cases b
  · rw [h]; rfl
  · rw [h]; rfl
  · rw [h]; rfl
  · rw [h]; rfl
  · rw [h]; exact decide_eq_true hp
  · rw [h]; exact decide_eq_true h

/-- Settles O3, by the port: a datagram is kept whole, a record is written back field by field. -/
theorem encodeOfDecode : Obligations.EncodeOfDecode := by
  rintro ⟨port, now, b⟩ i h
  cases port with
  | clk => cases h; exact ⟨⟨_, rfl, rfl, rfl⟩, fun _ => rfl⟩
  | uld =>
    simp only [decodeEvent] at h
    split at h
    · next hlen => cases h; exact ⟨⟨_, rfl, rfl, rfl⟩, fun _ => beq_iff_eq.2 hlen⟩
    · split at h
      · next hlen => cases h; exact ⟨⟨_, rfl, rfl, rfl⟩, fun _ => beq_iff_eq.2 hlen⟩
      · cases h
  | host => cases h; exact ⟨⟨_, encode_decodeHost b, rfl, rfl⟩, fun _ => wellFormed_decodeHost b⟩
  | timer =>
    simp only [decodeEvent] at h
    split at h
    · next hnil => cases h; exact ⟨⟨_, rfl, rfl, hnil.symm⟩, fun _ => rfl⟩
    · cases h
  | hosto =>
    simp only [decodeEvent] at h
    split at h
    · next j hj => cases h; exact ⟨⟨_, encode_of_decodeOutput hj, rfl, rfl⟩, nofun⟩
    · cases h

end Sys2Proof

namespace Sys2Proof

/-! ## The clock datagram (R101) -/

theorem isDigit_iff {d : Byte} : isDigit d = true ↔ 0x30 ≤ d.toNat ∧ d.toNat ≤ 0x39 := decide_eq_true_iff

theorem digitsValue_append (ds : Bytes) (d : Byte) :
    digitsValue (ds ++ [d]) = digitsValue ds * 10 + (d.toNat - 0x30) := by
  rw [digitsValue, List.foldl_append]
  rfl

/-- The value of a digit string, its last digit the lowest. -/
theorem digitsValue_eq_ofDigits (ds : Bytes) :
    digitsValue ds = Nat.ofDigits 10 (ds.reverse.map fun d => d.toNat - 0x30) := by
  induction ds using List.reverseRecOn with
  | nil => rfl
  | append_singleton ds d ih =>
    rw [digitsValue_append, ih, List.reverse_append, List.reverse_singleton, List.singleton_append, List.map_cons,
      Nat.ofDigits_cons]
    omega

/-- Digits and then zero bytes: the digits end at the first zero byte. -/
theorem span_digits {ds : Bytes} (hds : ∀ d ∈ ds, isDigit d = true) (n : Nat) :
    (ds ++ List.replicate n 0).takeWhile isDigit = ds
      ∧ (ds ++ List.replicate n 0).dropWhile isDigit = List.replicate n 0 := by
  rw [List.takeWhile_append_of_pos hds, List.dropWhile_append_of_pos hds]
  cases n with
  | zero => simp
  | succ n => exact ⟨by rw [List.replicate_succ, List.takeWhile_cons_of_neg (by decide), List.append_nil],
      by rw [List.replicate_succ, List.dropWhile_cons_of_neg (by decide)]⟩

theorem parseClk_eq_some_iff {b : Bytes} {fn : Fn} : parseClk b = some fn ↔
    ∃ (ds : Bytes) (n : Nat), b = clkHead ++ ds ++ List.replicate n 0 ∧ 1 ≤ ds.length ∧ ds.length ≤ 7
      ∧ (∀ d ∈ ds, isDigit d = true) ∧ digitsValue ds < hyperframe ∧ fn.toNat = digitsValue ds := by
  have hwidth : hyperframe < 2 ^ 22 := by decide
  constructor
  · intro h
    obtain ⟨⟨hhead, hpos, hlen, hpad, hlt⟩, hfn⟩ := Option.ite_none_right_eq_some.1 h
    have hzeros := List.eq_replicate_iff.2 ⟨rfl, fun x hx => eq_of_beq (List.all_eq_true.1 hpad x hx)⟩
    refine ⟨(b.drop 10).takeWhile isDigit, ((b.drop 10).dropWhile isDigit).length, ?_, hpos, hlen,
      fun d hd => List.mem_takeWhile_imp hd, hlt, ?_⟩
    · rw [← hzeros, List.append_assoc, List.takeWhile_append_dropWhile, ← hhead, List.take_append_drop]
    · rw [← Option.some.inj hfn, BitVec.toNat_ofNat, Nat.mod_eq_of_lt (hlt.trans hwidth)]
  · rintro ⟨ds, n, rfl, hpos, hlen, hds, hlt, hfn⟩
    obtain ⟨htake, hdrop⟩ := span_digits hds n
    have hfn' : BitVec.ofNat 22 (digitsValue ds) = fn := by rw [← hfn, BitVec.ofNat_toNat, BitVec.setWidth_eq]
    have hrest : (clkHead ++ ds ++ List.replicate n 0).drop 10 = ds ++ List.replicate n 0 := rfl
    have hzeros : (List.replicate n (0 : Byte)).all (· == 0) = true := by simp
    unfold parseClk
    simp only [hrest, htake, hdrop, hfn']
    exact if_pos ⟨rfl, hpos, hlen, hzeros, hlt⟩

/-- Settles O4: the datagram is its head, its digits and its zero bytes, and the digits' value is the decimal one. -/
theorem clockDatagramGrammar : Obligations.ClockDatagramGrammar := by
  intro b fn
  simp only [← isDigit_iff, ← digitsValue_eq_ofDigits]
  exact parseClk_eq_some_iff

/-! ## The uplink datagram (R102, R104) -/

theorem parseUl_isSome_iff {m : Modulation} {n : Nat} {b : Bytes} : (parseUl m n b).isSome = true ↔
    b.length = 8 + n ∧ (byteAt b 0).toNat < 8 ∧ (be32 b 1).toNat < hyperframe := by
  unfold parseUl
  split
  · next hvalid => exact iff_of_true rfl hvalid
  · next hvalid => exact iff_of_false Bool.false_ne_true hvalid

/-- The high and the low byte of a 16-bit field (R82). -/
theorem bytes16_eq_extract (v : BitVec 16) : bytes16 v = [v.extractLsb' 8 8, v.extractLsb' 0 8] := by
  simp only [bytes16, BitVec.extractLsb', Nat.shiftRight_eq_div_pow, Nat.reducePow, Nat.div_one]

/-- The four bytes of a 32-bit field, most significant first (R82). -/
theorem bytes32_eq_extract (v : BitVec 32) :
    bytes32 v = [v.extractLsb' 24 8, v.extractLsb' 16 8, v.extractLsb' 8 8, v.extractLsb' 0 8] := by
  simp only [bytes32, BitVec.extractLsb', Nat.shiftRight_eq_div_pow, Nat.reducePow, Nat.div_one]

/-- The four bytes of a frame number (R7, R82). -/
theorem bytes32_fn32 (f : Fn) : bytes32 (fn32 f) = [BitVec.ofNat 8 (f.toNat / 16777216),
    BitVec.ofNat 8 (f.toNat / 65536), BitVec.ofNat 8 (f.toNat / 256), BitVec.ofNat 8 f.toNat] := by
  rw [bytes32, fn32, BitVec.toNat_setWidth_of_le (by decide)]

/-- The bytes of an uplink datagram (R102). -/
theorem ulRecord_eq (tn : Tn) (fn : Fn) (r : Byte) (toa : BitVec 16) (soft : Bytes) : ulRecord tn fn r toa soft =
    [BitVec.ofNat 8 tn.val, BitVec.ofNat 8 (fn.toNat / 16777216), BitVec.ofNat 8 (fn.toNat / 65536),
      BitVec.ofNat 8 (fn.toNat / 256), BitVec.ofNat 8 fn.toNat, r, toa.extractLsb' 8 8, toa.extractLsb' 0 8]
      ++ soft := by
  rw [ulRecord, bytes32_fn32, bytes16_eq_extract]
  rfl

/-- An uplink datagram is read back field by field, its measurements and soft bits converted (R104). -/
theorem parseUl_ulRecord {m : Modulation} {tn : Tn} {fn : Fn} {r : Byte} {toa : BitVec 16} {soft : Bytes}
    (hlt : fn.toNat < hyperframe) : parseUl m soft.length (ulRecord tn fn r toa soft)
      = some (tn, fn, { rssi := -r.toInt, toa := toa.toInt, soft := soft.map softOf, modulation := m }) := by
  have hfn : be32 (ulRecord tn fn r toa soft) 1 = fn32 fn := be32_eq_iff.2 rfl
  have hfn' : (fn32 fn).toNat = fn.toNat := BitVec.toNat_setWidth_of_le (by decide)
  have htoa : be16 (ulRecord tn fn r toa soft) 6 = toa := be16_eq_iff.2 rfl
  have htn : (byteAt (ulRecord tn fn r toa soft) 0).toNat = tn.val := toNat_index tn
  have hvalid : (ulRecord tn fn r toa soft).length = 8 + soft.length
      ∧ (byteAt (ulRecord tn fn r toa soft) 0).toNat < 8
      ∧ (be32 (ulRecord tn fn r toa soft) 1).toNat < hyperframe :=
    ⟨Nat.add_comm soft.length 8, htn ▸ tn.isLt, by rwa [hfn, hfn']⟩
  unfold parseUl
  rw [dif_pos hvalid]
  simp only [htn, hfn, hfn', htoa, BitVec.ofNat_toNat, BitVec.setWidth_eq]
  rfl

/-- Settles O5: the validity of R102 with the frame number as the sum of its bytes, and each field read back. -/
theorem uplinkDatagramFields : Obligations.UplinkDatagramFields := by
  constructor
  · intro m n b
    rw [parseUl_isSome_iff, be32_toNat, Nat.lt_succ_iff]
    rfl
  · intro m tn fn r toa soft hlt
    rw [← ulRecord_eq, parseUl_ulRecord hlt]
    rfl

/-! ## Reserved and malformed host records (R121) -/

theorem eq_singleton_iff_byteAt {b : Bytes} {c : Byte} : b = [c] ↔ byteAt b 0 = c ∧ b.length = 1 := by
  constructor
  · rintro rfl
    exact ⟨rfl, rfl⟩
  · rintro ⟨rfl, hlen⟩
    exact eq_map_byteAt hlen

/-- Which ids and indices name a queue (R106, R115). -/
theorem queueOf_isSome_iff {tn q ss : Byte} : (queueOf tn q ss).isSome = true ↔
    tn.toNat ≤ 7 ∧ q.toNat ≤ 4 ∧ ss.toNat ≤ 7 ∧ (q.toNat ≤ 1 → ss = 0) := by
  have hzero : ss = 0 ↔ ss.toNat = 0 := BitVec.toNat_eq
  rw [hzero]
  unfold queueOf
  split
  · split
    · split
      case h_1 hq => rw [Option.isSome_ite]; omega
      case h_2 hq => rw [Option.isSome_ite]; omega
      case h_3 hq => exact iff_of_true rfl (by omega)
      case h_4 hq => exact iff_of_true rfl (by omega)
      case h_5 hq => exact iff_of_true rfl (by omega)
      case h_6 h0 h1 h2 h3 h4 =>
        have hid : q.toNat ≠ 0 ∧ q.toNat ≠ 1 ∧ q.toNat ≠ 2 ∧ q.toNat ≠ 3 ∧ q.toNat ≠ 4 := ⟨h0, h1, h2, h3, h4⟩
        exact iff_of_false Bool.false_ne_true (by omega)
    · exact iff_of_false Bool.false_ne_true (by omega)
  · exact iff_of_false Bool.false_ne_true (by omega)

/-- A record is read as itself reserved where its opcode and length fit none of the five host records (R110 to R115). -/
theorem decodeHost_eq_reserved_iff (b : Bytes) : decodeHost b = .hostReserved b ↔
    ¬ (byteAt b 0 = 0x01 ∧ b.length = 1) ∧ ¬ (byteAt b 0 = 0x02 ∧ b.length = 1)
      ∧ ¬ (byteAt b 0 = 0x10 ∧ b.length = 3) ∧ ¬ (byteAt b 0 = 0x11 ∧ b.length = 7)
      ∧ ¬ (byteAt b 0 = 0x20 ∧ (queueOf (byteAt b 1) (byteAt b 2) (byteAt b 3)).isSome = true
            ∧ b.length = 5 + (byteAt b 4).toNat) := by
  unfold decodeHost
  split
  case h_1 h0 =>
    have hop : byteAt b 0 = 0x01 := BitVec.eq_of_toNat_eq h0
    simp [hop]
  case h_2 h0 =>
    have hop : byteAt b 0 = 0x02 := BitVec.eq_of_toNat_eq h0
    simp [hop]
  case h_3 h0 =>
    have hop : byteAt b 0 = 0x10 := BitVec.eq_of_toNat_eq h0
    simp [hop]
  case h_4 h0 =>
    have hop : byteAt b 0 = 0x11 := BitVec.eq_of_toNat_eq h0
    simp [hop]
  case h_5 h0 =>
    have hop : byteAt b 0 = 0x20 := BitVec.eq_of_toNat_eq h0
    cases hq : queueOf (byteAt b 1) (byteAt b 2) (byteAt b 3) with
    | none => simp [hop]
    | some q => simp [hop]
  case h_6 h1 h2 h3 h4 h5 =>
    exact iff_of_true rfl ⟨fun h => h1 (congrArg _ h.1), fun h => h2 (congrArg _ h.1), fun h => h3 (congrArg _ h.1),
      fun h => h4 (congrArg _ h.1), fun h => h5 (congrArg _ h.1)⟩

/-- Settles O6: a record is reserved where none of the five forms fits; it is counted and nothing else. -/
theorem reservedHostRecords : Obligations.ReservedHostRecords := by
  constructor
  · intro b
    rw [decodeHost_eq_reserved_iff]
    simp only [ne_eq, eq_singleton_iff_byteAt, queueOf_isSome_iff, and_assoc]
  · intro b s
    rw [← Machine.satAdd_eq_satInc]
    rfl

end Sys2Proof

namespace Sys2Proof.Machine

/-! ## Burst assembly (R215 to R218) -/

/-- The layout of R216: tail, the first 58 slot bits, the training sequence, the other 58 slot bits, tail. -/
theorem asmNb_getElem? {d t : List Bool} (hd : d.length = 116) (ht : t.length = 26) {i : Nat} (hi : i < 148) :
    (asmNb d t)[i]? = if i < 3 then some false else if i < 61 then d[i - 3]? else if i < 87 then t[i - 61]?
      else if i < 145 then d[i - 29]? else some false := by
  have htail : ∀ k : Nat, k < 3 → [false, false, false][k]? = some false := fun k hk => by interval_cases k <;> rfl
  have hsecond : ∀ k : Nat, k < 58 → ((d.drop 58).take 58)[k]? = d[58 + k]? := fun k hk => by
    rw [List.getElem?_take_of_lt hk, List.getElem?_drop]
  have hlen : (d.take 58).length = 58 ∧ ((d.drop 58).take 58).length = 58 := by simp [hd]
  simp only [asmNb, List.getElem?_append, List.length_append, List.length_cons, List.length_nil, hlen, ht]
  split_ifs
  all_goals try omega
  · exact htail i (by omega)
  · exact List.getElem?_take_of_lt (by omega)
  · rfl
  · rw [hsecond _ (by omega)]
    congr 1
    omega
  · exact htail _ (by omega)

/-- The default of TSC_TABLE holds where no other table is listed (R217). -/
theorem tscSeq_of_default {s : State} (h : s.listed.tsc = none) (k : BitVec 3) :
    s.tscSeq k = (Config.tscDefault[k.toNat]'(by have := k.isLt; omega)).toList := by
  simp only [State.tscSeq, h, Option.getD_none]

/-- t[0] is the leftmost binary digit. -/
theorem tscRow_toList (n : Nat) :
    (Config.tscRow n).toList = (List.range 26).map fun i => n / 2 ^ (25 - i) % 2 == 1 := by
  apply List.ext_getElem
  · simp
  · intro i h1 h2
    simp only [Config.tscRow, Vector.toList_ofFn, List.getElem_ofFn, List.getElem_map, List.getElem_range]
    exact Nat.testBit_eq_decide_div_mod_eq

/-- The bytes of a downlink datagram (R105). -/
theorem dldRecord_eq (tn : Tn) (sn : Fn) (power : Byte) (bits : List Bool) : dldRecord tn sn power bits =
    [BitVec.ofNat 8 tn.val, BitVec.ofNat 8 (sn.toNat / 16777216), BitVec.ofNat 8 (sn.toNat / 65536),
      BitVec.ofNat 8 (sn.toNat / 256), BitVec.ofNat 8 sn.toNat, power] ++ bits.map fun x => if x then 1 else 0 := by
  rw [dldRecord, bytes32_fn32]
  rfl

/-- EMIT_DL appends one downlink datagram with the timeslot's power (R218). -/
theorem exec_emitDl (tn : Tn) (sn : Fn) (bits : List Bool) (s : State) :
    exec (.emitDl tn sn bits) s
      = .next { s with out := s.out ++ [⟨.dld, dldRecord tn sn (s.slot tn).txPower bits⟩] } := rfl

theorem exec_emitSlot_gmsk (tn : Tn) (sn : Fn) (d : List Bool) (s : State) :
    exec (.emitSlot tn sn ⟨.gmsk, d⟩) s = exec (.emitDl tn sn (asmNb d (s.tscSeq (s.slot tn).tsc))) s := rfl

theorem exec_emitSlot_psk8 {tn : Tn} {sn : Fn} {d : List Bool} {s : State}
    (h : (s.asm8psk d (s.slot tn).tsc).length = 444) :
    exec (.emitSlot tn sn ⟨.psk8, d⟩) s = exec (.emitDl tn sn (s.asm8psk d (s.slot tn).tsc)) s :=
  congrArg Res.outcome (if_pos h)

theorem exec_emitSlot_refused {tn : Tn} {sn : Fn} {d : List Bool} {s : State}
    (h : (s.asm8psk d (s.slot tn).tsc).length ≠ 444) :
    exec (.emitSlot tn sn ⟨.psk8, d⟩) s = .refused .psk8Length :=
  congrArg Res.outcome (if_neg h)

/-- Settles O31: the layout, the table's rows, and the datagram that each modulation's assembly gives. -/
theorem burstAssembly : Obligations.BurstAssembly := by
  refine ⟨fun s d t hd ht => ⟨asmNb d t, rfl, asmNb_length hd ht, fun i hi => asmNb_getElem? hd ht hi⟩, ?_, ?_⟩
  · intro s hs row
    have hrow : ∀ (k : BitVec 3) (n : Nat),
        Config.tscDefault[k.toNat]'(by have := k.isLt; omega) = Config.tscRow n → row k n := fun k n h => by
      show s.tscSeq k = _
      rw [tscSeq_of_default hs, h, tscRow_toList]
    exact ⟨hrow _ _ rfl, hrow _ _ rfl, hrow _ _ rfl, hrow _ _ rfl, hrow _ _ rfl, hrow _ _ rfl, hrow _ _ rfl,
      hrow _ _ rfl⟩
  · intro s tn sn record
    have hdl : ∀ bits, exec (.emitDl tn sn bits) s = .next { s with out := s.out ++ [⟨.dld, record bits⟩] } :=
      fun bits => by rw [exec_emitDl, dldRecord_eq]
    refine ⟨hdl, ?_, fun d => ⟨fun h => (exec_emitSlot_psk8 h).trans (hdl _), exec_emitSlot_refused⟩⟩
    rintro d t b rfl hb
    cases hb
    exact (exec_emitSlot_gmsk tn sn d s).trans (hdl _)

end Sys2Proof.Machine

namespace Sys2Proof.Machine

/-! ## The hooks of a closed group write its channel (R292 to R294) -/

section hooks

variable (tn : Tn) (ss : Ss) (s : State)

theorem pwrEval_chanOnly : chanOnly tn ss s (pwrEval tn ss s) := by
  simp only [pwrEval]
  split
  · exact chanOnly_modChan tn ss s _
  · exact chanOnly_emit (chanOnly_trans (chanOnly_modChan tn ss s _) (chanOnly_modChan tn ss _ _))

theorem pwrClock_chanOnly : chanOnly tn ss s (pwrClock tn ss s) := by
  simp only [pwrClock]
  split
  · split
    · exact chanOnly_modChan tn ss s _
    · exact chanOnly_trans (chanOnly_modChan tn ss s _) (pwrEval_chanOnly tn ss _)
  · exact chanOnly_refl tn ss s

theorem amrEval_chanOnly : chanOnly tn ss s (amrEval tn ss s) := by
  simp only [amrEval]
  split
  · exact chanOnly_modChan tn ss s _
  · exact chanOnly_emit (chanOnly_modChan tn ss s _)

theorem amrSample_chanOnly (ber w : Nat) : chanOnly tn ss s (amrSample tn ss ber w s) := by
  simp only [amrSample]
  split
  · split
    · split
      · exact chanOnly_trans (chanOnly_modChan tn ss s _) (amrEval_chanOnly tn ss _)
      · exact chanOnly_modChan tn ss s _
    · exact chanOnly_modChan tn ss s _
  · exact chanOnly_refl tn ss s

theorem noteFt_chanOnly (r : DecResult) : chanOnly tn ss s (noteFt r tn ss s) := by
  unfold noteFt
  split
  · exact chanOnly_modChan tn ss s _
  · exact chanOnly_refl tn ss s

theorem closedSacch_chanOnly (o : Closed) (r : DecResult) : chanOnly tn ss s (closedSacch o r tn ss s) := by
  unfold closedSacch
  split
  · exact chanOnly_trans (chanOnly_modChan tn ss s _) (pwrClock_chanOnly tn ss _)
  · exact pwrClock_chanOnly tn ss s

theorem closedTchf_chanOnly (o : Closed) (r : DecResult) (ber : Nat) :
    chanOnly tn ss s (closedTchf o r ber tn ss s) := by
  have hnote : chanOnly tn ss s (if o = .ok ∨ o = .bad then noteFt r tn ss s else s) := by
    split
    · exact noteFt_chanOnly tn ss s r
    · exact chanOnly_refl tn ss s
  simp only [closedTchf]
  split
  · exact chanOnly_trans hnote (amrSample_chanOnly tn ss _ ber 1)
  · exact hnote

theorem closedTchh_chanOnly (o : Closed) (r : DecResult) (ber : Nat) :
    chanOnly tn ss s (closedTchh o r ber tn ss s) := by
  have hsample := chanOnly_trans (noteFt_chanOnly tn ss s r) (amrSample_chanOnly tn ss _ ber 2)
  cases o with
  | empty => exact chanOnly_modChan tn ss s _
  | cont => exact chanOnly_modChan tn ss s _
  | bad => exact hsample
  | ok =>
    simp only [closedTchh]
    split
    · exact chanOnly_trans (noteFt_chanOnly tn ss s r) (chanOnly_modChan tn ss _ _)
    · exact hsample

theorem closedHook_chanOnly (ct : UlCt) (o : Closed) (r : DecResult) (ber : Nat) :
    chanOnly tn ss s (closedHook ct o r ber tn ss s) := by
  cases ct with
  | sacch => exact closedSacch_chanOnly tn ss s o r
  | tchf => exact closedTchf_chanOnly tn ss s o r ber
  | tchh => exact closedTchh_chanOnly tn ss s o r ber
  | sdcch => exact chanOnly_refl tn ss s
  | pdtch => exact chanOnly_refl tn ss s

end hooks

/-! ## The two records of REPORT (R288, R289) -/

/-- The MEAS_IND of a closed group. -/
def groupMeas (ct : UlCt) (tn : Tn) (ss : Ss) (r : DecResult) (l : Lane) : Bytes :=
  recMeasInd (idx8 tn) (idx8 ss) (BitVec.ofNat 8 ct.toCt.code) (fn32 l.ulFirstFn) (BitVec.ofNat 8 (popcount4 l.ulMask))
    (if l.ulMask.getLsbD 0 then 0 else 1) (s16 l.rssiAvg)
    (u16 (if l.ulMask.getLsbD 0 = false ∨ r.nbits = 0 then 0 else 10000 * r.nerr / r.nbits)) (s16 l.toaAvg)

/-- A DATA_IND with the first frame number of the group. -/
def groupInd (tn : Tn) (ss : Ss) (l : Lane) (code : Nat) (kind : Byte) (p : Bytes) : Bytes :=
  recDataInd (idx8 tn) (idx8 ss) (BitVec.ofNat 8 code) kind (fn32 l.ulFirstFn) p

/-- The DATA_IND of a closed group, by its outcome. -/
def groupData (ct : UlCt) (tn : Tn) (ss : Ss) (r : DecResult) (l : Lane) : Closed → Bytes
  | .empty => groupInd tn ss l ct.toCt.code 4 []
  | .cont => groupInd tn ss l ct.toCt.code 3 []
  | .bad => groupInd tn ss l ct.toCt.code 3 []
  | .ok => groupInd tn ss l (dataCode ct r.kind) (indKindOf r.kind).code r.payload

theorem outcomeOf_eq_empty_iff {l : Lane} {r : DecResult} {cont : Bool} :
    outcomeOf l r cont = .empty ↔ l.ulMask.getLsbD 0 = false := by
  unfold outcomeOf
  cases l.ulMask.getLsbD 0 <;> cases cont <;> cases r.ok <;> simp

/-- A group with its first burst that is a continuation or failed to decode is reported BAD. -/
theorem groupData_of_failed {ct : UlCt} {tn : Tn} {ss : Ss} {r : DecResult} {l : Lane} {cont : Bool}
    (hfirst : l.ulMask.getLsbD 0 = true) (h : cont = true ∨ r.ok = false) :
    groupData ct tn ss r l (outcomeOf l r cont) = groupInd tn ss l ct.toCt.code 3 [] := by
  unfold outcomeOf
  rw [hfirst]
  obtain rfl | hok := h
  · rfl
  · cases cont
    · simp only [hok]; rfl
    · rfl

theorem berPpt_of_outcome (l : Lane) (r : DecResult) (cont : Bool) :
    (if outcomeOf l r cont = .empty then 0 else berPpt r.nerr r.nbits)
      = if l.ulMask.getLsbD 0 = false ∨ r.nbits = 0 then 0 else 10000 * r.nerr / r.nbits := by
  rw [berPpt_eq]
  simp only [outcomeOf_eq_empty_iff, ite_or]

theorem emptyFlag_of_outcome (l : Lane) (r : DecResult) (cont : Bool) :
    bitByte (outcomeOf l r cont == .empty) = if l.ulMask.getLsbD 0 then 0 else 1 := by
  cases hfirst : l.ulMask.getLsbD 0 with
  | false => rw [outcomeOf_eq_empty_iff.2 hfirst]; rfl
  | true =>
    have hne : outcomeOf l r cont ≠ .empty := fun h =>
      Bool.false_ne_true ((outcomeOf_eq_empty_iff.1 h).symm.trans hfirst)
    rw [beq_false_of_ne hne]
    rfl

theorem emit_emit (s : State) (p q : OutPort) (a b : Bytes) :
    (s.emit p a).emit q b = { s with out := s.out ++ [⟨p, a⟩, ⟨q, b⟩] } := by
  simp only [State.emit, List.append_assoc, List.cons_append, List.nil_append]

/-- REPORT before its hook emits the two records and writes nothing. -/
theorem reportRecords_eq (ct : UlCt) (tn : Tn) (ss : Ss) (r : DecResult) (cont : Bool) (s : State) :
    let l := s.lane tn ss (ulLaneId ct)
    reportRecords ct tn ss r cont s = { s with
      out := s.out ++ [⟨.hosto, groupMeas ct tn ss r l⟩, ⟨.hosto, groupData ct tn ss r l (outcomeOf l r cont)⟩] } := by
  intro l
  have hmeas : s.emitMeas tn ss ct.toCt.code l.ulFirstFn (popcount4 l.ulMask) (outcomeOf l r cont == .empty) l.rssiAvg
      (if outcomeOf l r cont = .empty then 0 else berPpt r.nerr r.nbits) l.toaAvg
        = s.emit .hosto (groupMeas ct tn ss r l) := by
    rw [State.emitMeas, emptyFlag_of_outcome, berPpt_of_outcome]
    rfl
  rw [← emit_emit, ← hmeas]
  simp only [reportRecords]
  cases outcomeOf l r cont <;> rfl

theorem reportRecords_tns (ct : UlCt) (tn : Tn) (ss : Ss) (r : DecResult) (cont : Bool) (s : State) :
    (reportRecords ct tn ss r cont s).tns = s.tns := by
  rw [reportRecords_eq]

/-- The code a decoded block is reported under (R103, R288). -/
theorem dataCode_eq (ct : UlCt) (k : CodecKind) : dataCode ct k =
    if k = .facch ∧ ct = .tchf then 9 else if k = .facch ∧ ct = .tchh then 10 else ct.toCt.code := by
  cases k <;> cases ct <;> rfl

/-- The kind a decoded block is reported under, for a result within its contract (R107, R288, R376). -/
theorem indKindOf_code_eq {r : DecResult} (h : decOk r = true) :
    (indKindOf r.kind).code = BitVec.ofNat 8 (match r.kind with | .speech => 1 | .facch => 2 | _ => 0) := by
  obtain ⟨hkind, -⟩ := (decOk_iff r).1 h
  simp only [List.mem_cons, List.not_mem_nil, or_false] at hkind
  obtain hk | hk | hk := hkind <;> rw [hk] <;> rfl

/-- A group with its first burst that decoded is reported as its block. -/
theorem groupData_of_decoded {ct : UlCt} {tn : Tn} {ss : Ss} {r : DecResult} {l : Lane} {cont : Bool}
    (hfirst : l.ulMask.getLsbD 0 = true) (hcont : cont = false) (hok : r.ok = true) :
    groupData ct tn ss r l (outcomeOf l r cont)
      = groupInd tn ss l (dataCode ct r.kind) (indKindOf r.kind).code r.payload := by
  rw [outcomeOf_eq_ok_iff.2 ⟨hfirst, hcont, hok⟩]
  rfl

/-- REPORT is its two records and then what its hook does to its own channel. -/
theorem exec_report_eq (ct : UlCt) (tn : Tn) (ss : Ss) (r : DecResult) (cont : Bool) (s : State) :
    let l := s.lane tn ss (ulLaneId ct)
    ∃ t more, exec (.report ct tn ss r cont) s = .next t
      ∧ t.out = s.out
          ++ [⟨.hosto, groupMeas ct tn ss r l⟩, ⟨.hosto, groupData ct tn ss r l (outcomeOf l r cont)⟩] ++ more
      ∧ t = { s with tns := t.tns, out := t.out } ∧ chanOnly tn ss s t
      ∧ (ct = .sdcch ∨ ct = .pdtch → more = [] ∧ t.tns = s.tns) := by
  intro l
  have hrecords := reportRecords_eq ct tn ss r cont s
  obtain ⟨more, hmore, -⟩ := (closedHook_fn ct (outcomeOf l r cont) r
    (if outcomeOf l r cont = .empty then 0 else berPpt r.nerr r.nbits) tn ss (reportRecords ct tn ss r cont s)).1.emits
  rw [← report_eq] at hmore
  refine ⟨report ct tn ss r cont s, more, rfl, hmore.trans (by rw [hrecords]), ?_, ?_, ?_⟩
  · have hrest := (report_fn ct tn ss r cont s).1.rest
    rw [report_disc] at hrest
    exact hrest
  · rw [report_eq]
    have hsame := chanOnly_of_tns (chanOnly_refl tn ss s) (reportRecords_tns ct tn ss r cont s)
    exact chanOnly_trans hsame (closedHook_chanOnly tn ss _ ct _ r _)
  · intro hct
    have hhook : report ct tn ss r cont s = reportRecords ct tn ss r cont s := by
      obtain rfl | rfl := hct <;> rfl
    rw [hhook] at hmore ⊢
    exact ⟨List.self_eq_append_right.1 hmore, reportRecords_tns ct tn ss r cont s⟩

/-- Settles O47: the records are those of R288 and R289 field by field, and the DATA_IND is that of its outcome. -/
theorem groupReport : Obligations.GroupReport := by
  intro s ct tn ss r cont l average bits first ber b8 code meas ind kind ct'
  have hrssi : l.rssiAvg = average l.rssiSum l.rssiCnt := tdivOr0_eq _ _
  have htoa : l.toaAvg = average l.toaSum l.toaCnt := tdivOr0_eq _ _
  have hmeas : groupMeas ct tn ss r l = meas := by
    rw [groupMeas, hrssi, htoa]
    rfl
  obtain ⟨t, more, hexec, hout, hrest, hchan, hquiet⟩ := exec_report_eq ct tn ss r cont s
  refine ⟨t, _, more, hexec, hmeas ▸ hout, hrest, hchan, ?_, groupData_of_failed, ?_, hquiet⟩
  · intro hfirst
    rw [outcomeOf_eq_empty_iff.2 hfirst]
    rfl
  · intro hfirst hcont hok hlegal
    rw [groupData_of_decoded hfirst hcont hok, dataCode_eq, indKindOf_code_eq hlegal]
    rfl

end Sys2Proof.Machine

/-! ## Words of the encoding tables, and the bytes of each output record (R101, R109 to R123) -/

namespace Sys2Proof.Machine

/-- Settles O1: each word is decoded. -/
theorem opcodeWordsDecode : Obligations.OpcodeWordsDecode := by
  refine ⟨by decide, by decide, by decide, by decide, by decide, ?_, by decide, by decide⟩
  exact parseClk_eq_some_iff.2 ⟨[0x38, 0x30], 0, rfl, by decide, by decide, by decide, by decide, by decide⟩

/-- Settles O56: each field's bytes from the most significant, after the opcode. -/
theorem outputRecords : Obligations.OutputRecords := by
  intro s hi lo w emits
  have emits_of_bytes : ∀ {i : Instr} {r b : Bytes}, exec i s = .next (s.emit .hosto r) → r = b → emits i b := by
    rintro i r _ h rfl
    exact h
  have h16 : ∀ v : BitVec 16, bytes16 v = [hi v, lo v] := bytes16_eq_extract
  have h32 : ∀ v : BitVec 32, bytes32 v = w v := bytes32_eq_extract
  refine ⟨fun a v => emits_of_bytes rfl ?_, fun tn ss ct kind fn p => emits_of_bytes rfl ?_,
    fun tn ss ct fn n fl rssi ber toa => emits_of_bytes rfl ?_, fun tn ct fn ra toa ber rssi => emits_of_bytes rfl ?_,
    fun tn ss fn ra toa ber rssi => emits_of_bytes rfl ?_, fun tn ss which v => emits_of_bytes rfl ?_, fun cause => rfl⟩
  · rw [recCfgData, h16, h32]
  · rw [recDataInd, h32]; rfl
  · rw [recMeasInd, h16, h16, h16, h32]; rfl
  · rw [recRachInd, h16, h16, h16, h16, h32]; rfl
  · rw [recHoInd, h16, h16, h16, h16, h32]; rfl
  · rw [recLoopInd, h16]

end Sys2Proof.Machine

namespace Sys2Proof.Machine

/-! SUPPORT. The family of 40_clock_sync.md: SCHED_FN as a whole, frames produced one after the other, the corrections
of a clock indication, and the order of TICK. -/

variable {s t : State}

/-! ## SCHED_FN as a whole (R210, R220) -/

/-- SCHED_FN writes the timeslots and appends output; of the clock unit, the counters and the output before it, it
reads nothing. -/
theorem schedTns_ok {sn : Fn} (tns : List Tn) : ∀ {s : State}, schedTns sn tns s = .ok t →
    ∃ more, t = { s with tns := t.tns, out := s.out ++ more }
      ∧ ∀ o, schedTns sn tns (s.over o) = .ok (t.over (o.app more)) := by
  induction tns with
  | nil => intro s he; cases he; exact ⟨[], by simp, fun o => by simp [schedTns]⟩
  | cons tn rest ih =>
    intro s he
    simp only [schedTns] at he
    split at he
    · next u hu =>
      obtain ⟨a, hstep, -, -, ha⟩ := schedTn_op sn tn s u hu
      obtain ⟨b, hrest, hb⟩ := ih he
      refine ⟨a ++ b, ?_, fun o => ?_⟩
      · rw [hrest, hstep.rest, List.append_assoc]
      · simp only [schedTns, ha, hb, app_app]
    · cases he

theorem schedTns_total {sn : Fn} (tns : List Tn) : ∀ {s : State}, s.listed.lawful = true →
    ∃ t, schedTns sn tns s = .ok t := by
  induction tns with
  | nil => exact fun _ => ⟨_, rfl⟩
  | cons tn rest ih =>
    intro s h
    obtain ⟨u, hu⟩ := schedTn_total h tn sn
    obtain ⟨more, hstep, -⟩ := schedTn_op sn tn s u hu
    obtain ⟨t, ht⟩ := ih (s := u) (by rw [hstep.rest]; exact h)
    exact ⟨t, by simp only [schedTns, hu, ht]⟩

theorem schedFn_rest {fn : Fn} (he : schedFn fn s = .ok t) : t = { s with tns := t.tns, out := t.out } := by
  obtain ⟨more, hrest, -⟩ := schedTns_ok allTns he
  rw [hrest]

theorem schedFn_total (fn : Fn) (h : s.listed.lawful = true) : ∃ t, schedFn fn s = .ok t := schedTns_total allTns h

/-- A state with another LAST_TS. -/
def State.withLastTs (s : State) (ts : Time) : State := { s with clk := { s.clk with lastTs := ts } }

theorem schedFn_withLastTs {fn : Fn} (he : schedFn fn s = .ok t) (ts : Time) :
    schedFn fn (s.withLastTs ts) = .ok (t.withLastTs ts) := by
  obtain ⟨more, hrest, hover⟩ := schedTns_ok allTns he
  have hts : t.over (Outside.app ⟨{ s.clk with lastTs := ts }, s.disc, s.out, s.pending, s.ret⟩ more)
      = t.withLastTs ts := by
    rw [hrest]
    rfl
  have h := hover ⟨{ s.clk with lastTs := ts }, s.disc, s.out, s.pending, s.ret⟩
  rw [hts] at h
  exact h

/-! ## Frame numbers (R7) -/

theorem fnAdd_zero {f : Fn} (hf : f.toNat < hyperframe) : fnAdd f 0 = f := by
  rw [fnAdd, Nat.add_zero, Nat.mod_eq_of_lt hf, BitVec.ofNat_toNat, BitVec.setWidth_eq]

theorem fnAdd_fnInc (f : Fn) (k : Nat) : fnAdd (fnInc f) k = fnAdd f (k + 1) := by
  apply BitVec.eq_of_toNat_eq
  rw [fnAdd_toNat, fnAdd_toNat, fnInc_toNat]
  omega

/-- `fnDist` counts the increments from one frame number to another. -/
theorem fnAdd_fnDist {a : Fn} (ha : a.toNat < hyperframe) (b : Fn) : fnAdd b (fnDist a b) = a := by
  apply BitVec.eq_of_toNat_eq
  rw [fnAdd_toNat, fnDist]
  unfold hyperframe at *
  omega

theorem fnDist_self (a : Fn) : fnDist a a = 0 := by simp [fnDist]

theorem fnDist_eq_succ {a b : Fn} (ha : a.toNat < hyperframe) (hb : b.toNat < hyperframe) (hne : b ≠ a) :
    fnDist a b = fnDist a (fnInc b) + 1 := by
  have hne' : b.toNat ≠ a.toNat := fun h => hne (BitVec.eq_of_toNat_eq h)
  simp only [fnDist, fnInc_toNat]
  unfold hyperframe at *
  omega

/-- A lag that is not negative is the number of frames to catch up. -/
theorem fnDist_of_signedDiff {a b : Fn} (h : 0 ≤ signedDiff a b) : (fnDist a b : Int) = signedDiff a b := by
  rw [← sdiff_eq_signedDiff] at h ⊢
  unfold Machine.sdiff at h ⊢
  split at h
  · unfold fnDist hyperframe at h
    omega
  · rw [if_neg ‹_›]

theorem signedDiff_self (a : Fn) : signedDiff a a = 0 := by simp [signedDiff]

/-! ## Frames one after the other (R150, R154) -/

/-- A state with another LAST_FN. -/
def State.withLastFn (s : State) (fn : Fn) : State := { s with clk := { s.clk with lastFn := fn } }

theorem produce_succ {k : Nat} {u : State}
    (hu : schedFn (fnInc s.clk.lastFn) (s.withLastFn (fnInc s.clk.lastFn)) = .ok u) :
    produce (k + 1) s = produce k u := by
  simp only [State.withLastFn] at hu
  simp only [produce, hu]

theorem produce_succ_ok {k : Nat} (he : produce (k + 1) s = .ok t) :
    ∃ u, schedFn (fnInc s.clk.lastFn) (s.withLastFn (fnInc s.clk.lastFn)) = .ok u ∧ produce k u = .ok t := by
  simp only [produce] at he
  split at he
  · next u hu => exact ⟨u, hu, he⟩
  · cases he

/-- k frames advance LAST_FN by k; of the rest they write the timeslots and the output alone. -/
theorem produce_rest (k : Nat) : ∀ {s : State}, s.clk.lastFn.toNat < hyperframe → produce k s = .ok t →
    t = { s with clk := { s.clk with lastFn := fnAdd s.clk.lastFn k }, tns := t.tns, out := t.out } := by
  induction k with
  | zero => intro s hfn he; cases he; rw [fnAdd_zero hfn]
  | succ k ih =>
    intro s hfn he
    obtain ⟨u, hu, hk⟩ := produce_succ_ok he
    have hrest := schedFn_rest hu
    have hlast : u.clk.lastFn = fnInc s.clk.lastFn := by rw [hrest]; rfl
    have ht := ih (by rw [hlast]; exact fnInc_lt _) hk
    rw [hlast, fnAdd_fnInc] at ht
    rw [ht, hrest]
    rfl

theorem produce_total (k : Nat) : ∀ {s : State}, s.listed.lawful = true → ∃ t, produce k s = .ok t := by
  induction k with
  | zero => exact fun _ => ⟨_, rfl⟩
  | succ k ih =>
    intro s h
    obtain ⟨u, hu⟩ := schedFn_total (s := s.withLastFn (fnInc s.clk.lastFn)) (fnInc s.clk.lastFn) h
    rw [produce_succ hu]
    exact ih (by rw [schedFn_rest hu]; exact h)

theorem produce_withLastTs (k : Nat) (ts : Time) : ∀ {s : State}, produce k s = .ok t →
    produce k (s.withLastTs ts) = .ok (t.withLastTs ts) := by
  induction k with
  | zero => intro s he; cases he; rfl
  | succ k ih =>
    intro s he
    obtain ⟨u, hu, hk⟩ := produce_succ_ok he
    rw [produce_succ (s := s.withLastTs ts) (schedFn_withLastTs hu ts)]
    exact ih hk

theorem produce_lastTs {k : Nat} (he : produce k s = .ok t) : t.clk.lastTs = s.clk.lastTs := by
  rw [(produce_clk k he).1]

/-- A state with the phase accumulator k frame periods on (R154). -/
def State.advancePhase (s : State) (k : Nat) : State := s.withLastTs (s.clk.lastTs + BitVec.ofNat 64 (k * frameUs))

/-- TICK_PRODUCE is its k frames with the phase advanced by k periods first: no frame reads LAST_TS. -/
theorem tickProduce_eq_ok_iff {k : Nat} : tickProduce k s = .ok t ↔ produce k (s.advancePhase k) = .ok t := by
  unfold tickProduce
  constructor
  · intro he
    split at he
    · next u hu =>
      cases he
      rw [produce_lastTs hu]
      exact produce_withLastTs k _ hu
    · cases he
  · intro he
    have hu := produce_withLastTs k s.clk.lastTs he
    change produce k s = _ at hu
    have hts : t.clk.lastTs = s.clk.lastTs + BitVec.ofNat 64 (k * frameUs) := produce_lastTs he
    simp only [hu, State.withLastTs, ← hts]

/-! ## Link open and close (R141, R142) -/

theorem linkOpen_of_closed (h : s.clk.clkState = .closed) : linkOpen s = { s with
    clk := { clkState := .unsync, armed := false, deadline := 0, lastFn := 0, lastTs := 0, noClk := 0
             resyncs := 0, fatalCause := 0 }
    tns := mapAll8 (openSlot s.ilv0) s.tns } := if_pos h

theorem linkOpen_of_ne_closed (h : s.clk.clkState ≠ .closed) : linkOpen s = s := if_neg h

theorem linkOpen_slot (h : s.clk.clkState = .closed) (tn : Tn) :
    (linkOpen s).slot tn = openSlot s.ilv0 (s.slot tn) := by
  rw [linkOpen_of_closed h]
  exact mapAll8_get _ _ _ _

theorem openSlot_eq (ilv : Ilv) (u : TnState) : openSlot ilv u = { u with
    comb := 0, ulLastFn := 0, ulLastValid := false, laneB := DlLane.fresh ilv, laneC := DlLane.fresh ilv
    qBcch := [], qCcch := [], chans := (openSlot ilv u).chans } := rfl

theorem takeDown_eq (ilv : Ilv) (c : Channel) : c.takeDown ilv = { c with
    active := false, laneM := Lane.fresh ilv, laneA := Lane.fresh ilv, dlFacchOng := false, ulFacchOng := false
    pwrCnt := 0, pwrMin := 0, pwrClk := false, taCnt := 0, taSum := 0, berNum := 0, berSum := 0, ulFt := 0
    ackTa := c.rqdTa, qSig := [], qSpeech := [], qAssoc := [] } := rfl

theorem openSlot_chans (ilv : Ilv) (u : TnState) (ss : Ss) :
    (openSlot ilv u).chans[ss.val] = u.chans[ss.val].takeDown ilv := mapAll8_get _ _ _ _

theorem linkOpen_chan (h : s.clk.clkState = .closed) (tn : Tn) (ss : Ss) :
    (linkOpen s).chan tn ss = (s.chan tn ss).takeDown s.ilv0 := by
  rw [State.chan, linkOpen_slot h]
  exact openSlot_chans _ _ _

theorem tearDown_of_closed (h : s.clk.clkState = .closed) : tearDown s = s := if_pos h

theorem tearDown_of_ne_closed (h : s.clk.clkState ≠ .closed) :
    tearDown s = { s with clk := { s.clk with clkState := .closed, armed := false } } := if_neg h

/-! ## Corrections (R146 to R150) -/

/-- A phase and one frame period more. -/
theorem add_frames_succ (ts : Time) (k : Nat) :
    ts + BitVec.ofNat 64 (k * frameUs) + BitVec.ofNat 64 frameUs = ts + BitVec.ofNat 64 ((k + 1) * frameUs) := by
  rw [BitVec.add_assoc, ← BitVec.ofNat_add, Nat.add_mul, Nat.one_mul]

theorem anchor_eq (fn : Fn) (now : Time) (s : State) : anchor fn now s = { s with clk := { s.clk with
    lastFn := fn, lastTs := now, deadline := now + 4615, armed := true } } := rfl

theorem resync_eq (fn : Fn) (now : Time) (s : State) : resync fn now s = { s with clk := { s.clk with
    lastFn := fn, lastTs := now, deadline := now + 4615, armed := true, resyncs := satInc s.clk.resyncs 1 } } := by
  rw [← satAdd_eq_satInc]
  rfl

theorem delay_eq (k : Nat) (now : Time) (s : State) : delay k now s = { s with clk := { s.clk with
    lastTs := now + BitVec.ofNat 64 (k * 4615), deadline := now + BitVec.ofNat 64 ((k + 1) * 4615)
    armed := true } } := by
  rw [delay, State.rephase, add_frames_succ]
  rfl

theorem catchUp_of_produce {fn : Fn} (now : Time) {u : State} (hu : produce (fnDist fn s.clk.lastFn) s = .ok u) :
    catchUp fn now s = .ok (u.rephase now) := by
  rw [catchUp, hu]

theorem catchUp_of_lastFn_eq {fn : Fn} (now : Time) (h : s.clk.lastFn = fn) : catchUp fn now s = .ok (s.rephase now) :=
  catchUp_of_produce now (by rw [h, fnDist_self]; rfl)

/-- One round of the loop: the next frame is produced, and CATCH_UP goes on. -/
theorem catchUp_of_schedFn {fn : Fn} (now : Time) {u : State} (hfn : fn.toNat < hyperframe)
    (hlast : s.clk.lastFn.toNat < hyperframe) (hne : s.clk.lastFn ≠ fn)
    (hu : schedFn (fnInc s.clk.lastFn) (s.withLastFn (fnInc s.clk.lastFn)) = .ok u) :
    catchUp fn now s = catchUp fn now u := by
  have hlast' : u.clk.lastFn = fnInc s.clk.lastFn := by rw [schedFn_clk hu]; rfl
  rw [catchUp, fnDist_eq_succ hfn hlast hne, produce_succ hu, catchUp, hlast']

/-! ## CLK_APPLY and CLK_IND (R145, R147) -/

@[simp] theorem clearNoClk_lastFn (s : State) : (clearNoClk s).clk.lastFn = s.clk.lastFn := rfl
@[simp] theorem clearNoClk_cfg (s : State) : (clearNoClk s).cfg = s.cfg := rfl

section clkApply

variable {fn : Fn} (now : Time)

theorem clkApply_of_unsync (h : s.clk.clkState = .unsync) : clkApply fn now s = .ok { s with clk := { s.clk with
    clkState := .sync, lastFn := fn, lastTs := now, deadline := now + 4615, armed := true, noClk := 0 } } := if_pos h

/-- The corrections in SYNC, by the lag. -/
theorem clkApply_of_ne_unsync (h : s.clk.clkState ≠ .unsync) : clkApply fn now s =
    if signedDiff fn s.clk.lastFn > s.cfg.maxSkew.toNat ∨ signedDiff fn s.clk.lastFn < -(s.cfg.maxSkew.toNat : Int) then
      .ok (resync fn now (clearNoClk s))
    else if signedDiff fn s.clk.lastFn < 0 then .ok (delay (-signedDiff fn s.clk.lastFn).toNat now (clearNoClk s))
    else catchUp fn now (clearNoClk s) := by
  simp only [clkApply, if_neg h, sdiff_eq_signedDiff, clearNoClk_lastFn, clearNoClk_cfg]

theorem clkApply_of_resync (h : s.clk.clkState ≠ .unsync)
    (hlag : signedDiff fn s.clk.lastFn > s.cfg.maxSkew.toNat
      ∨ signedDiff fn s.clk.lastFn < -(s.cfg.maxSkew.toNat : Int)) :
    clkApply fn now s = .ok (resync fn now (clearNoClk s)) := by
  rw [clkApply_of_ne_unsync now h, if_pos hlag]

theorem clkApply_of_delay (h : s.clk.clkState ≠ .unsync)
    (hlow : -(s.cfg.maxSkew.toNat : Int) ≤ signedDiff fn s.clk.lastFn) (hneg : signedDiff fn s.clk.lastFn < 0) :
    clkApply fn now s = .ok (delay (signedDiff fn s.clk.lastFn).natAbs now (clearNoClk s)) := by
  have habs : (-signedDiff fn s.clk.lastFn).toNat = (signedDiff fn s.clk.lastFn).natAbs := by omega
  rw [clkApply_of_ne_unsync now h, if_neg (by omega), if_pos hneg, habs]

theorem clkApply_of_catchUp (h : s.clk.clkState ≠ .unsync) (hpos : 0 ≤ signedDiff fn s.clk.lastFn)
    (hhigh : signedDiff fn s.clk.lastFn ≤ s.cfg.maxSkew.toNat) : clkApply fn now s = catchUp fn now (clearNoClk s) := by
  rw [clkApply_of_ne_unsync now h, if_neg (by omega), if_neg (by omega)]

/-- An indication produces at most MAX_SKEW frames, and writes the clock unit alone beside them (R159). -/
theorem clkApply_frames {now : Time} (he : clkApply fn now s = .ok t) : ∃ (k : Nat) (s1 u : State),
    k ≤ s.cfg.maxSkew.toNat ∧ produce k s1 = .ok u ∧ s1 = { s with clk := s1.clk } ∧ s1.clk.lastFn = s.clk.lastFn
      ∧ t = { u with clk := t.clk } := by
  by_cases h : s.clk.clkState = .unsync
  · rw [clkApply_of_unsync now h] at he
    cases he
    exact ⟨0, s, s, Nat.zero_le _, rfl, rfl, rfl, rfl⟩
  rw [clkApply_of_ne_unsync now h] at he
  split at he
  · cases he
    exact ⟨0, s, s, Nat.zero_le _, rfl, rfl, rfl, rfl⟩
  · split at he
    · cases he
      exact ⟨0, s, s, Nat.zero_le _, rfl, rfl, rfl, rfl⟩
    · have hdist := fnDist_of_signedDiff (a := fn) (b := s.clk.lastFn) (by omega)
      have hbound : fnDist fn (clearNoClk s).clk.lastFn ≤ s.cfg.maxSkew.toNat := by rw [clearNoClk_lastFn]; omega
      unfold catchUp at he
      split at he
      · next u hu =>
        cases he
        exact ⟨_, clearNoClk s, u, hbound, hu, rfl, rfl, rfl⟩
      · cases he

end clkApply

theorem clkInd_of_malformed {b : Bytes} (now : Time) (h : parseClk b = none) :
    clkInd b now s = .ok { s with disc := { s.disc with clkMalformed := satInc s.disc.clkMalformed 1 } } := by
  rw [← satAdd_eq_satInc, clkInd, h]
  rfl

theorem clkInd_of_dropsRadio {b : Bytes} {fn : Fn} (now : Time) (h : parseClk b = some fn)
    (hdrops : s.clk.dropsRadio = true) :
    clkInd b now s = .ok { s with disc := { s.disc with stateIgnored := satInc s.disc.stateIgnored 1 } } := by
  rw [← satAdd_eq_satInc, clkInd, h]
  exact if_pos hdrops

theorem clkInd_of_accepts {b : Bytes} {fn : Fn} (now : Time) (h : parseClk b = some fn)
    (haccepts : s.clk.dropsRadio = false) : clkInd b now s = clkApply fn now s := by
  rw [clkInd, h]
  exact if_neg (Bool.eq_false_iff.1 haccepts)

/-! ## Counters (R6) -/

/-- A counter that does not saturate. -/
theorem satInc_toNat_of_lt {w : Nat} {v : BitVec w} {n : Nat} (h : v.toNat + n < 2 ^ w) :
    (satInc v n).toNat = v.toNat + n := by
  rw [satInc, Nat.min_eq_right (by omega), BitVec.toNat_ofNat, Nat.mod_eq_of_lt h]

theorem satInc_of_lt {w : Nat} {v : BitVec w} {n : Nat} (h : v.toNat + n < 2 ^ w) :
    satInc v n = v + BitVec.ofNat w n := by
  apply BitVec.eq_of_toNat_eq
  rw [satInc_toNat_of_lt h, BitVec.toNat_add, BitVec.toNat_ofNat, Nat.add_mod_mod, Nat.mod_eq_of_lt h]

/-! ## TICK (R151 to R154, R377) -/

theorem countExpirations_eq (now : Time) (s : State) : countExpirations now s = { s with clk := { s.clk with
    deadline := s.clk.deadline + BitVec.ofNat 64 (s.clk.expirations now * 4615)
    noClk := satInc s.clk.noClk (s.clk.expirations now) } } := by
  rw [← satAdd_eq_satInc]
  rfl

theorem clockLost_iff (s : State) : s.clockLost = true ↔ s.cfg.lossFrames.toNat < s.clk.noClk.toNat :=
  decide_eq_true_iff

section tick

variable {now : Time}

theorem stalled_of_late (h : s.clk.elapsed now > (s.cfg.maxSkew.toNat * frameUs : Nat)) :
    s.stalled now = some .stallLate := if_pos h

theorem stalled_of_back (h : ¬ s.clk.elapsed now > (s.cfg.maxSkew.toNat * frameUs : Nat))
    (hback : s.clk.elapsed now < 0) : s.stalled now = some .stallBack := by
  rw [State.stalled, if_neg h, if_pos hback]

theorem stalled_eq_none_iff : s.stalled now = none ↔
    ¬ s.clk.elapsed now > (s.cfg.maxSkew.toNat * frameUs : Nat) ∧ 0 ≤ s.clk.elapsed now := by
  unfold State.stalled
  split_ifs with hlate hback
  · exact ⟨nofun, fun h => absurd hlate h.1⟩
  · exact ⟨nofun, fun h => absurd hback (not_lt.2 h.2)⟩
  · exact ⟨fun _ => ⟨hlate, not_lt.1 hback⟩, fun _ => rfl⟩

theorem tick_of_not_due (h : ¬ s.clk.tickDue now = true) : tick now s = .ok s := if_neg h

theorem tick_of_clockLost (hdue : s.clk.tickDue now = true) (hlost : (countExpirations now s).clockLost = true) :
    tick now s = .ok (raiseFatal .clockLoss (countExpirations now s)) := (if_pos hdue).trans (if_pos hlost)

theorem tick_of_stalled {c : FatalCause} (hdue : s.clk.tickDue now = true)
    (hlive : ¬ (countExpirations now s).clockLost = true) (hstall : (countExpirations now s).stalled now = some c) :
    tick now s = .ok (raiseFatal c (countExpirations now s)) := by
  refine (if_pos hdue).trans ((if_neg hlive).trans ?_)
  rw [hstall]

theorem tick_of_runs (hdue : s.clk.tickDue now = true) (hlive : ¬ (countExpirations now s).clockLost = true)
    (hruns : (countExpirations now s).stalled now = none) :
    tick now s = tickProduce (s.clk.expirations now) (countExpirations now s) := by
  refine (if_pos hdue).trans ((if_neg hlive).trans ?_)
  rw [hruns]

/-- A due TICK that is not fatal has passed the stall check (R153) and produces its frames (R154). -/
theorem tick_due_cases (hdue : s.clk.tickDue now = true) (he : tick now s = .ok t) :
    (∃ c, t = raiseFatal c (countExpirations now s)) ∨ ((countExpirations now s).stalled now = none
      ∧ tickProduce (s.clk.expirations now) (countExpirations now s) = .ok t) := by
  by_cases hlost : (countExpirations now s).clockLost = true
  · rw [tick_of_clockLost hdue hlost] at he
    cases he
    exact .inl ⟨_, rfl⟩
  cases hstall : (countExpirations now s).stalled now with
  | some c =>
    rw [tick_of_stalled hdue hlost hstall] at he
    cases he
    exact .inl ⟨c, rfl⟩
  | none => exact .inr ⟨rfl, (tick_of_runs hdue hlost hstall) ▸ he⟩

end tick

/-! ## Production (R154) -/

theorem tickProduce_zero (s : State) : tickProduce 0 s = .ok s := by simp [tickProduce, produce]

/-- The first of the frames of TICK_PRODUCE, and then the rest. -/
theorem tickProduce_succ {k : Nat} {u : State} (hu : schedFn (fnInc s.clk.lastFn)
      ((s.withLastFn (fnInc s.clk.lastFn)).withLastTs (s.clk.lastTs + BitVec.ofNat 64 frameUs)) = .ok u) :
    tickProduce (k + 1) s = .ok t ↔ tickProduce k u = .ok t := by
  have hphase : u.advancePhase k = u.withLastTs (s.clk.lastTs + BitVec.ofNat 64 ((k + 1) * frameUs)) := by
    rw [State.advancePhase, schedFn_clk hu, ← add_frames_succ]
    exact congrArg u.withLastTs (add_right_comm _ _ _)
  have hframe := schedFn_withLastTs hu (s.clk.lastTs + BitVec.ofNat 64 ((k + 1) * frameUs))
  rw [tickProduce_eq_ok_iff, tickProduce_eq_ok_iff, hphase]
  exact Eq.congr_left (produce_succ (s := s.advancePhase (k + 1)) hframe)

theorem tickProduce_lawful (k : Nat) (hfn : s.clk.lastFn.toNat < hyperframe) (hlawful : s.listed.lawful = true) :
    ∃ t, tickProduce k s = .ok t ∧ t = { s with
      clk := { s.clk with lastFn := fnAdd s.clk.lastFn k, lastTs := s.clk.lastTs + BitVec.ofNat 64 (k * frameUs) }
      tns := t.tns, out := t.out } := by
  obtain ⟨t, ht⟩ := produce_total k (s := s.advancePhase k) hlawful
  exact ⟨t, tickProduce_eq_ok_iff.2 ht, produce_rest k (s := s.advancePhase k) hfn ht⟩

/-- A due TICK within the bounds of R152 and R153 produces its frames. -/
theorem tick_lawful {now : Time} (hdue : s.clk.tickDue now = true) (hfn : s.clk.lastFn.toNat < hyperframe)
    (hlawful : s.listed.lawful = true)
    (hlive : s.clk.noClk.toNat + s.clk.expirations now ≤ s.cfg.lossFrames.toNat)
    (hlate : ¬ s.clk.elapsed now > (s.cfg.maxSkew.toNat * frameUs : Nat)) (hback : 0 ≤ s.clk.elapsed now) :
    ∃ t, tick now s = .ok t ∧ t = { s with
      clk := { s.clk with
        lastFn := fnAdd s.clk.lastFn (s.clk.expirations now)
        lastTs := s.clk.lastTs + BitVec.ofNat 64 (s.clk.expirations now * frameUs)
        deadline := s.clk.deadline + BitVec.ofNat 64 (s.clk.expirations now * 4615)
        noClk := s.clk.noClk + BitVec.ofNat 16 (s.clk.expirations now) }
      tns := t.tns, out := t.out } := by
  have hfits : s.clk.noClk.toNat + s.clk.expirations now < 2 ^ 16 := hlive.trans_lt s.cfg.lossFrames.isLt
  have hcount := countExpirations_eq now s
  rw [satInc_of_lt hfits] at hcount
  have hnoClk : (countExpirations now s).clk.noClk.toNat = s.clk.noClk.toNat + s.clk.expirations now := by
    rw [countExpirations_eq]
    exact satInc_toNat_of_lt hfits
  have hlost : ¬ (countExpirations now s).clockLost = true := by
    rw [clockLost_iff, hnoClk]
    exact hlive.not_gt
  have hruns : (countExpirations now s).stalled now = none := stalled_eq_none_iff.2 ⟨hlate, hback⟩
  obtain ⟨t, ht, hrest⟩ := tickProduce_lawful (s := countExpirations now s) (s.clk.expirations now) hfn hlawful
  rw [hcount] at hrest
  exact ⟨t, (tick_of_runs hdue hlost hruns).trans ht, hrest⟩

/-! ## The work bound (R159) -/

/-- Past the stall check the expirations are at most MAX_SKEW: DEADLINE is one frame after LAST_TS (R26, R153). -/
theorem expirations_le_maxSkew {now : Time} (hdeadline : s.clk.deadline = s.clk.lastTs + BitVec.ofNat 64 frameUs)
    (hwrap : s.clk.lastTs.toNat + 4615 < 2 ^ 64) (hdue : s.clk.deadline.toNat ≤ now.toNat)
    (hruns : (countExpirations now s).stalled now = none) : s.clk.expirations now ≤ s.cfg.maxSkew.toNat := by
  have hgrid : s.clk.deadline.toNat = s.clk.lastTs.toNat + 4615 := by
    rw [hdeadline, BitVec.toNat_add]
    exact Nat.mod_eq_of_lt hwrap
  have hintime : ¬ (now.toNat : Int) - s.clk.lastTs.toNat > (s.cfg.maxSkew.toNat * 4615 : Nat) :=
    (stalled_eq_none_iff.1 hruns).1
  unfold ClockState.expirations frameUs
  omega

end Sys2Proof.Machine

/-! ## The statements of the family

Each stands under its own namespace, because LINK_OPEN and CATCH_UP are also the names of the model's functions. -/

namespace Sys2Proof.ClockSync

open Machine

/-- Settles O8, by the state the record finds: in CLOSED each timeslot is opened and each of its channels taken down. -/
theorem linkOpen : Obligations.LinkOpen := fun s => by
  refine ⟨fun h => congrArg Host.Outcome.next (linkOpen_of_ne_closed h), fun h => ⟨Machine.linkOpen s, rfl, ?_, ?_,
    fun tn => ?_, fun tn ss => ?_⟩⟩
  · rw [linkOpen_of_closed h]
  · rw [linkOpen_of_closed h]
  · rw [linkOpen_slot h]
    exact openSlot_eq _ _
  · rw [linkOpen_chan h]
    exact takeDown_eq _ _

/-- Settles O9: LINK_CLOSE is the teardown. -/
theorem linkClose : Obligations.LinkClose := fun _ =>
  ⟨fun h => congrArg Host.Outcome.next (tearDown_of_closed h),
    fun h => congrArg Host.Outcome.next (tearDown_of_ne_closed h)⟩

/-- Settles O10, correction by correction. -/
theorem clockCorrections : Obligations.ClockCorrections := fun s fn now =>
  ⟨congrArg Host.Outcome.next (anchor_eq fn now s), congrArg Host.Outcome.next (resync_eq fn now s),
    fun k => congrArg Host.Outcome.next (delay_eq k now s)⟩

/-- Settles O11, by the parse and then CLK_STATE. -/
theorem clockIndication : Obligations.ClockIndication := fun s b now => by
  refine ⟨fun h => outcome_next.2 (clkInd_of_malformed now h), fun fn h => ⟨fun hdrops => ?_, fun hstate => ?_,
    fun hstate => ?_⟩⟩
  · exact outcome_next.2 (clkInd_of_dropsRadio now h ((dropsRadio_iff _).2 hdrops))
  · have haccepts : s.clk.dropsRadio = false := by rw [ClockState.dropsRadio, hstate]; rfl
    exact outcome_next.2 ((clkInd_of_accepts now h haccepts).trans (clkApply_of_unsync now hstate))
  · have haccepts : s.clk.dropsRadio = false := by rw [ClockState.dropsRadio, hstate]; rfl
    exact congrArg Res.outcome (clkInd_of_accepts now h haccepts)

/-- Settles O12, by CLK_STATE and the lag. -/
theorem clockApply : Obligations.ClockApply := fun s fn now => by
  refine ⟨fun h => outcome_next.2 (clkApply_of_unsync now h), fun h => ?_⟩
  have hstate : s.clk.clkState ≠ .unsync := by rw [h]; nofun
  refine ⟨fun hlag => ?_, fun ⟨hlow, hneg⟩ => ?_, fun ⟨hpos, hhigh⟩ => ?_⟩
  · rw [← resync_eq]
    exact outcome_next.2 (clkApply_of_resync now hstate hlag)
  · rw [← delay_eq]
    exact outcome_next.2 (clkApply_of_delay now hstate hlow hneg)
  · exact congrArg Res.outcome (clkApply_of_catchUp now hstate hpos hhigh)

/-- Settles O13, by the frames left: none, one and the rest, or all of them at once. -/
theorem catchUp : Obligations.CatchUp := fun s fn now hfn hlast => by
  refine ⟨fun h => ?_, fun hne u hu => ?_, fun hlawful => ?_⟩
  · exact outcome_next.2 (catchUp_of_lastFn_eq now h)
  · exact congrArg Res.outcome (catchUp_of_schedFn now hfn hlast hne (outcome_next.1 hu))
  · obtain ⟨u, hu⟩ := produce_total (fnDist fn s.clk.lastFn) hlawful
    have hrest := produce_rest _ hlast hu
    rw [fnAdd_fnDist hfn] at hrest
    refine ⟨u.rephase now, outcome_next.2 (catchUp_of_produce now hu), ?_, ?_⟩
    · rw [hrest]
      rfl
    · rw [hrest]
      rfl

/-- Settles O14, by the checks in their order. -/
theorem tickOrder : Obligations.TickOrder := fun s now => by
  refine ⟨fun h => outcome_next.2 (tick_of_not_due (mt (tickDue_iff _ _).1 h)), fun h => ?_⟩
  have hdue := (tickDue_iff _ _).2 h
  intro k s1 elapsed lost late
  have hs1 : countExpirations now s = s1 := countExpirations_eq now s
  have hlost : (countExpirations now s).clockLost = true ↔ lost := by rw [hs1]; exact clockLost_iff s1
  refine ⟨fun hl => ?_, fun ⟨hl, hlate⟩ => ?_, fun ⟨hl, hlate, hback⟩ => ?_, fun ⟨hl, hlate, hback⟩ => ?_⟩
  · rw [← hs1]
    exact outcome_next.2 (tick_of_clockLost hdue (hlost.2 hl))
  · rw [← hs1]
    exact outcome_next.2 (tick_of_stalled hdue (mt hlost.1 hl) (stalled_of_late hlate))
  · rw [← hs1]
    exact outcome_next.2 (tick_of_stalled hdue (mt hlost.1 hl) (stalled_of_back hlate hback))
  · rw [← hs1]
    exact congrArg Res.outcome (tick_of_runs hdue (mt hlost.1 hl) (stalled_eq_none_iff.2 ⟨hlate, hback⟩))

/-- Settles O15: TICK_PRODUCE by its number of frames, and a TICK that is not fatal by its production. -/
theorem tickProduces : Obligations.TickProduces := by
  refine ⟨fun s k hfn => ⟨outcome_next.2 (tickProduce_zero s), fun u hu t => ?_, fun hlawful => ?_⟩,
    fun s now hfn hlawful hsync harmed hdue hback hlate hlive => ?_⟩
  · exact outcome_next.trans ((tickProduce_succ (outcome_next.1 hu)).trans outcome_next.symm)
  · obtain ⟨t, ht, hrest⟩ := tickProduce_lawful k hfn hlawful
    exact ⟨t, outcome_next.2 ht, by rw [hrest], by rw [hrest]; rfl⟩
  · have htick : s.clk.tickDue now = true := (tickDue_iff _ _).2 ⟨hsync, harmed, hdue⟩
    obtain ⟨t, ht, hrest⟩ := tick_lawful htick hfn hlawful hlive (by unfold ClockState.elapsed frameUs; omega)
      (by unfold ClockState.elapsed; omega)
    exact ⟨t, outcome_next.2 ht, by rw [hrest], by rw [hrest]; rfl⟩

/-- Settles O19: the first input anchors at fn, so the second finds a lag of 0 and only re-phases the grid. -/
theorem resyncIdempotent : Obligations.ResyncIdempotent := fun s fn now later hsync hlag => by
  have hstate : s.clk.clkState ≠ .unsync := by rw [hsync]; nofun
  have hsame : signedDiff fn (resync fn now (clearNoClk s)).clk.lastFn = 0 := signedDiff_self fn
  refine ⟨resync fn now (clearNoClk s), outcome_next.2 (clkApply_of_resync now hstate (by omega)), rfl,
    by rw [resync_eq]; rfl, outcome_next.2 ?_⟩
  rw [clkApply_of_catchUp (s := resync fn now (clearNoClk s)) later hstate (by omega) (by omega)]
  exact catchUp_of_lastFn_eq later rfl

/-- Settles O21: a CLK_IND by the correction it comes to, a due TICK by its outcome. -/
theorem tickWorkBound : Obligations.TickWorkBound := by
  refine ⟨fun s t b now he => ?_, fun s t now hinv hwrap hsync hdue he => ?_⟩
  · obtain ⟨c, rfl⟩ | ⟨fn, -, -, happly⟩ := clkInd_cases (outcome_next.1 he)
    · exact ⟨0, s.discard c, s.discard c, Nat.zero_le _, rfl, rfl, rfl, rfl⟩
    · obtain ⟨k, s1, u, hk, hu, hs1, hlast, ht⟩ := clkApply_frames happly
      refine ⟨k, s1, u, hk, ?_, ?_, hlast, ht⟩
      · rw [scheduleFrames_eq_produce, hu]
        rfl
      · rw [hs1]
  · obtain ⟨harmed, hdeadline⟩ := (clockInv_iff.1 hinv).syncTimer hsync
    have htick := tick_due_cases ((tickDue_iff _ _).2 ⟨hsync, harmed, hdue⟩) (outcome_next.1 he)
    intro k
    obtain ⟨c, rfl⟩ | ⟨hruns, hframes⟩ := htick
    · exact ⟨fun _ => ⟨rfl, rfl⟩, fun h => absurd rfl h⟩
    · have hstate : t.clk.clkState = s.clk.clkState := by rw [(tickProduce_clk hframes).1]; rfl
      refine ⟨fun h => ?_, fun _ => ⟨expirations_le_maxSkew hdeadline hwrap hdue hruns, countExpirations now s, ?_⟩⟩
      · rw [hstate, hsync] at h
        cases h
      · unfold tickProduce at hframes
        split at hframes
        · next u hu =>
          cases hframes
          exact ⟨u, by rw [scheduleFrames_eq_produce]; exact congrArg Res.outcome hu, rfl, rfl⟩
        · cases hframes

end Sys2Proof.ClockSync

namespace Sys2Proof.Machine

/-! SUPPORT. The family of 41_config_port.md, its writes: a CFG write as the change of the register's owner, the fields
of a written value, the side effects of TN_CFG and CH_CTRL, and DLQ_PUSH. -/

/-! ## CFG_WR of a register (R81, R182) -/

theorem exec_cfgWr_reg (r : Reg) {a : BitVec 16} (ha : r.addr = a) (v : BitVec 32) (s : State) :
    exec (.cfgWr a v) s = .next (writeReg s v r) := by
  subst ha
  rw [exec_cfgWr_aligned r.addr_word, memWrite, regAt_addr]

theorem exec_cfgWr_glob (r : GReg) {a : BitVec 16} {v : BitVec 32} {s : State} {g : GlobalCfg}
    (ha : (Reg.glob r).addr = a) (hg : writeGlob s.cfg v r = g) : exec (.cfgWr a v) s = .next { s with cfg := g } := by
  subst hg
  exact exec_cfgWr_reg (.glob r) ha v s

/-- A write to a channel register changes its channel alone. -/
theorem exec_cfgWr_chan (r : CReg) {a : BitVec 16} {tn : Tn} {ss : Ss} {v : BitVec 32} {s : State} {c : Channel}
    (ha : (Reg.chan r tn ss).addr = a) (hc : writeChan s.ilv0 (s.chan tn ss) v r = c) :
    ∃ t, exec (.cfgWr a v) s = .next t ∧ t = { s with tns := t.tns } ∧ chanOnly tn ss s t ∧ t.chan tn ss = c :=
  ⟨s.modChan tn ss fun c => writeChan s.ilv0 c v r, exec_cfgWr_reg (.chan r tn ss) ha v s, rfl,
    chanOnly_modChan tn ss s _, by rw [chan_modChan_same, hc]⟩

/-! ## The fields of a written value (R40) -/

theorem bitOf_eq (v : BitVec 32) (lo : Nat) : bitOf v lo = (BitVec.ofNat 1 (v.toNat / 2 ^ lo) == 1) := by
  rw [bitOf, ← BitVec.testBit_toNat, Nat.testBit_eq_decide_div_mod_eq, Bool.eq_iff_iff, decide_eq_true_iff, beq_iff_eq,
    ← BitVec.toNat_inj]
  rfl

theorem extractLsb'_eq (v : BitVec 32) (lo w : Nat) : v.extractLsb' lo w = BitVec.ofNat w (v.toNat / 2 ^ lo) := by
  rw [BitVec.extractLsb', Nat.shiftRight_eq_div_pow]

/-! ## The plain registers (R42 to R65, R186) -/

/-- The channel register that holds THR[i] and HYST[i] (R63). -/
def amrReg : Fin 3 → CReg
  | 0 => .amrT0
  | 1 => .amrT1
  | 2 => .amrT2

theorem amrReg_addr (i : Fin 3) (tn : Tn) (ss : Ss) : (Reg.chan (amrReg i) tn ss).addr
    = BitVec.ofNat 16 (0x1000 + 0x40 * (8 * tn.val + ss.val) + (0x08 + 4 * i.val)) := by
  match i with
  | 0 => rfl
  | 1 => rfl
  | 2 => rfl

theorem writeChan_amrReg (i : Fin 3) (ilv : Ilv) (c : Channel) (v : BitVec 32) : writeChan ilv c v (amrReg i) = { c with
    thr := c.thr.set i.val (v.extractLsb' 0 16) i.isLt, hyst := c.hyst.set i.val (v.extractLsb' 16 16) i.isLt } := by
  match i with
  | 0 => rfl
  | 1 => rfl
  | 2 => rfl

/-- Settles O25, register by register: each address names its register, whose write stores the fields of its rule. -/
theorem plainWrites : Obligations.PlainWrites := by
  intro s v f
  have hfield : ∀ lo w, v.extractLsb' lo w = f w lo := extractLsb'_eq v
  have hbit : ∀ lo, bitOf v lo = (f 1 lo == 1) := bitOf_eq v
  refine ⟨exec_cfgWr_glob .ctrl rfl ?_, exec_cfgWr_glob .maxSkew rfl ?_, exec_cfgWr_glob .lossFrames rfl ?_,
    exec_cfgWr_glob .txAdv rfl ?_, exec_cfgWr_glob .ulGapMax rfl ?_, exec_cfgWr_glob .pwrTarget rfl ?_,
    exec_cfgWr_glob .pwrStep rfl ?_, exec_cfgWr_glob .pwrRange rfl ?_, exec_cfgWr_glob .bsic rfl ?_,
    fun tn ss => ⟨fun i => exec_cfgWr_chan (amrReg i) (amrReg_addr i tn ss) (by simp only [writeChan_amrReg, hfield]),
      exec_cfgWr_chan .msPwr rfl ?_, exec_cfgWr_chan .ta rfl ?_⟩⟩
  all_goals simp only [writeGlob, writeChan, hfield, hbit]

/-! ## TN_CFG (R58, R183) -/

theorem writeSlot_tnCfg_of_comb_eq {u : TnState} {v : BitVec 32} (h : v.extractLsb' 0 8 = u.comb) (ilv : Ilv) :
    writeSlot ilv u v .tnCfg = { u with tsc := v.extractLsb' 8 3, txPower := v.extractLsb' 16 8 } := by
  simp only [writeSlot, h, if_true]

theorem writeSlot_tnCfg_of_comb_ne {u : TnState} {v : BitVec 32} (h : v.extractLsb' 0 8 ≠ u.comb) (ilv : Ilv) :
    writeSlot ilv u v .tnCfg = { u.takeDown ilv with
      comb := v.extractLsb' 0 8, tsc := v.extractLsb' 8 3, txPower := v.extractLsb' 16 8, ulLastValid := false } := by
  simp only [writeSlot, if_neg h]
  rfl

theorem writeSlot_tnCfg_chan {u : TnState} {v : BitVec 32} (h : v.extractLsb' 0 8 ≠ u.comb) (ilv : Ilv) (ss : Ss) :
    (writeSlot ilv u v .tnCfg).chans[ss.val] = u.chans[ss.val].takeDown ilv := by
  rw [writeSlot_tnCfg_of_comb_ne h]
  exact mapAll8_get _ _ _ _

/-- Settles O27: the write is that of the timeslot's TN_CFG, which takes it and each of its channels down when COMB
changes. -/
theorem timeslotConfigWrite : Obligations.TimeslotConfigWrite := by
  intro s tn v
  refine ⟨s.modSlot tn fun u => writeSlot s.ilv0 u v .tnCfg, exec_cfgWr_reg (.slot .tnCfg tn) rfl v s, rfl,
    slotOnly_modSlot tn s _, fun hsame => ?_, fun hchange => ⟨?_, fun ss => ?_⟩⟩
  · rw [slot_modSlot_same, writeSlot_tnCfg_of_comb_eq hsame]
  · rw [slot_modSlot_same, writeSlot_tnCfg_of_comb_ne hchange]
    rfl
  · rw [State.chan, slot_modSlot_same, writeSlot_tnCfg_chan hchange, takeDown_eq]
    rfl

/-! ## CH_CTRL and CH_CODEC (R61, R62, R184, R185) -/

/-- A mode is clamped to the lesser of itself and NCODECS-1 (D55). -/
theorem clampMode_eq (v n : BitVec 2) : clampMode v n = BitVec.ofNat 2 (min v.toNat n.toNat) := by
  unfold clampMode
  split
  · next h => rw [Nat.min_eq_left h, BitVec.ofNat_toNat, BitVec.setWidth_eq]
  · next h => rw [Nat.min_eq_right (by omega), BitVec.ofNat_toNat, BitVec.setWidth_eq]

/-- A channel with the four fields of CH_CTRL written and its two modes clamped, before any reset (R184). -/
def Channel.storeChCtrl (c : Channel) (v : BitVec 32) : Channel :=
  { c with
    active := bitOf v 0, amrEn := bitOf v 1, hoArm := bitOf v 2, ncodecsM1 := v.extractLsb' 4 2
    dlCmr := clampMode c.dlCmr (v.extractLsb' 4 2), dlFt := clampMode c.dlFt (v.extractLsb' 4 2) }

section chCtrl
variable {c : Channel} {v : BitVec 32}

theorem writeChCtrl_of_active_eq (h : bitOf v 0 = c.active) (ilv : Ilv) : writeChCtrl ilv c v = c.storeChCtrl v := by
  have hup : ¬ (c.active = false ∧ bitOf v 0 = true) := fun ⟨hold, hnew⟩ =>
    Bool.false_ne_true (hold.symm.trans (h.symm.trans hnew))
  have hdown : ¬ (c.active = true ∧ bitOf v 0 = false) := fun ⟨hold, hnew⟩ =>
    Bool.false_ne_true (hnew.symm.trans (h.trans hold))
  simp only [writeChCtrl, if_neg hup, if_neg hdown, Channel.storeChCtrl]

theorem writeChCtrl_of_activation (h : c.active = false ∧ bitOf v 0 = true) (ilv : Ilv) :
    writeChCtrl ilv c v = ((c.storeChCtrl v).resetLanes ilv).resetAcc := if_pos h

theorem writeChCtrl_of_deactivation (h : c.active = true ∧ bitOf v 0 = false) (ilv : Ilv) :
    writeChCtrl ilv c v = (((c.storeChCtrl v).resetLanes ilv).resetAcc).flush := by
  have hup : ¬ (c.active = false ∧ bitOf v 0 = true) := fun hup => Bool.false_ne_true (hup.1.symm.trans h.1)
  simp only [writeChCtrl, if_neg hup, if_pos h, Channel.storeChCtrl]

end chCtrl

/-- Settles O28, by what the write does to ACTIVE. -/
theorem channelControlWrite : Obligations.ChannelControlWrite := by
  intro s tn ss v
  obtain ⟨t, hexec, hrest, honly, hchan⟩ := exec_cfgWr_chan (s := s) (tn := tn) (ss := ss) (v := v) .chCtrl rfl rfl
  refine ⟨t, hexec, hrest, honly, ?_⟩
  intro c n c1 c2
  have hstore : c.storeChCtrl v = c1 := by simp only [Channel.storeChCtrl, clampMode_eq]; rfl
  have hreset : ((c.storeChCtrl v).resetLanes s.ilv0).resetAcc = c2 := by rw [hstore]; rfl
  refine ⟨fun hkept => ?_, fun hup => ?_, fun hdown => ?_⟩
  · exact hchan.trans ((writeChCtrl_of_active_eq hkept _).trans hstore)
  · exact hchan.trans ((writeChCtrl_of_activation hup _).trans hreset)
  · exact hchan.trans ((writeChCtrl_of_deactivation hdown _).trans (congrArg Channel.flush hreset))

/-- Settles O29: the write is that of CH_CODEC, whose two modes are clamped. -/
theorem channelCodecWrite : Obligations.ChannelCodecWrite := by
  intro s tn ss v
  have hcmr : (v.extractLsb' 0 2).toNat = v.toNat % 4 := BitVec.extractLsb'_toNat 0 2 v
  have hft : (v.extractLsb' 16 2).toNat = v.toNat / 65536 % 4 := by
    rw [BitVec.extractLsb'_toNat, Nat.shiftRight_eq_div_pow]
  exact exec_cfgWr_chan .chCodec rfl (by simp only [writeChan, clampMode_eq, hcmr, hft])

/-! ## DLQ_PUSH (R187, R188) -/

theorem dropsRadio_eq_false_iff (c : ClockState) :
    c.dropsRadio = false ↔ c.clkState = .unsync ∨ c.clkState = .sync := by
  unfold ClockState.dropsRadio
  cases c.clkState <;> decide

/-- DLQ_REJECTED fails exactly when none of the four grounds holds. -/
theorem dlqRejected_eq_false_iff (q : QueueRef) (s : State) : dlqRejected q s = false ↔
    (s.clk.clkState = .unsync ∨ s.clk.clkState = .sync) ∧ (s.slot (queueTn q)).comb ≠ 0 ∧ s.queueActive q = true
      ∧ (s.queue q).length < s.pqDepth := by
  simp only [dlqRejected, Bool.or_eq_false_iff, dropsRadio_eq_false_iff, beq_eq_false_iff_ne, Bool.not_eq_false',
    decide_eq_false_iff_not, Nat.not_le, and_assoc]

theorem dlqPush_of_rejected {q : QueueRef} {s : State} (h : dlqRejected q s = true) (p : Bytes) :
    dlqPush q p s = { s with disc := { s.disc with dlqReject := satInc s.disc.dlqReject 1 } } := by
  rw [dlqPush, if_pos h, ← satAdd_eq_satInc]
  rfl

theorem dlqPush_of_accepted {q : QueueRef} {s : State} (h : dlqRejected q s = false) (p : Bytes) :
    dlqPush q p s = s.setQueue q (s.queue q ++ [p]) := if_neg (by rw [h]; nofun)

theorem setQueue_rest (s : State) (q : QueueRef) (v : List Bytes) :
    s.setQueue q v = { s with tns := (s.setQueue q v).tns } := by
  cases q <;> rfl

theorem slotOnly_setQueue (s : State) (q : QueueRef) (v : List Bytes) : slotOnly (queueTn q) s (s.setQueue q v) := by
  cases q <;> exact slotOnly_modSlot _ s _

/-- Settles O30: a push is rejected or goes to the tail of its queue, in its timeslot or in its channel. -/
theorem queuePush : Obligations.QueuePush := by
  intro s q p linked tn active room
  have hactive : active = s.queueActive q := by cases q <;> rfl
  have haccept : dlqRejected q s = false ↔ linked ∧ (s.slot tn).comb ≠ 0 ∧ active = true ∧ room := by
    rw [hactive]
    exact dlqRejected_eq_false_iff q s
  refine ⟨fun hnot => ?_, fun hall => ⟨s.setQueue q (s.queue q ++ [p]), ?_, setQueue_rest s q _,
    slotOnly_setQueue s q _, ?_⟩⟩
  · exact congrArg Host.Outcome.next (dlqPush_of_rejected (Bool.eq_true_of_not_eq_false (mt haccept.1 hnot)) p)
  · exact congrArg Host.Outcome.next (dlqPush_of_accepted (haccept.2 hall) p)
  · cases q with
    | bcch tn => exact slot_modSlot_same s tn _
    | ccch tn => exact slot_modSlot_same s tn _
    | sig tn ss => exact ⟨chanOnly_modChan tn ss s _, chan_modChan_same s tn ss _⟩
    | speech tn ss => exact ⟨chanOnly_modChan tn ss s _, chan_modChan_same s tn ss _⟩
    | assoc tn ss => exact ⟨chanOnly_modChan tn ss s _, chan_modChan_same s tn ss _⟩

end Sys2Proof.Machine

namespace Sys2Proof.Machine

/-! SUPPORT. The family of 42_sched_dispatch.md: which handler TX_DISPATCH runs, the turns of the timeslots in SCHED_FN
with the records they emit, and a group start of a dedicated channel. -/

variable {s t : State} {tn : Tn} {sn : Fn}

/-! ## TX_DISPATCH (R211, R214) -/

theorem isDedicated_iff (ct : Ct) : isDedicated ct = true ↔ ct ∈ [Ct.sdcch, .sacch, .tchf, .tchh, .pdtch, .ptcch] := by
  cases ct <;> decide

theorem not_isDedicated_iff (ct : Ct) : isDedicated ct = false ↔ ct ∈ [Ct.idle, .fcch, .sch, .bcch, .ccch, .rach] := by
  cases ct <;> decide

theorem txIdle_off_c0 (h : s.cfg.c0 = false) : txIdle tn sn s = .ok s := by
  simp [txIdle, h]

theorem txDispatch_of_inactive {e : Position} (hded : isDedicated e.ct = true)
    (hinactive : (s.chan tn e.ss).active = false) :
    txDispatch tn e sn s = txIdle tn sn s := by
  simp [txDispatch, hded, hinactive]

theorem txDispatch_of_idle {e : Position} (h : e.ct = .idle) : txDispatch tn e sn s = txIdle tn sn s := by
  simp [txDispatch, h, isDedicated]

/-- The handler that runs is the one of the second-level decoder (R103, R211). -/
theorem txDispatch_runs_handler {e : Position} (h : isDedicated e.ct = false ∨ (s.chan tn e.ss).active = true) :
    ∃ i, decodeTx e.ct.code tn e.ss e.bid e.facchOk sn = .ok i ∧ exec (.txDispatch tn e sn) s = exec i s := by
  have hruns : (isDedicated e.ct && !(s.chan tn e.ss).active) = false := by
    rcases h with h | h <;> simp [h]
  have hexec : exec (.txDispatch tn e sn) s = (txDispatch tn e sn s).outcome := rfl
  rw [hexec, txDispatch, hruns]
  cases e.ct <;> exact ⟨_, rfl, rfl⟩

theorem txDispatch_lawful (e : Position) (h : s.listed.lawful = true) : ∃ t, exec (.txDispatch tn e sn) s = .next t
    ∧ t = { s with tns := t.tns, out := t.out } ∧ slotOnly tn s t := by
  obtain ⟨t, ht⟩ := txDispatch_total h tn e sn
  obtain ⟨more, hstep, -⟩ := txDispatch_op tn e sn s t ht
  exact ⟨t, outcome_next.2 ht, by rw [hstep.rest], hstep.others⟩

/-- Settles O33: an inactive dedicated position is idle, and any other runs the handler of its type. -/
theorem downlinkDispatch : Obligations.DownlinkDispatch := by
  intro s tn e sn
  refine ⟨fun hct hinactive => ?_, fun hruns => ?_⟩
  · have hidle := txDispatch_of_inactive (sn := sn) ((isDedicated_iff e.ct).2 hct) hinactive
    exact ⟨congrArg Res.outcome hidle, fun hc0 => outcome_next.2 (hidle.trans (txIdle_off_c0 hc0))⟩
  · obtain ⟨i, hdecode, hexec⟩ := txDispatch_runs_handler (sn := sn) (hruns.imp_left (not_isDedicated_iff e.ct).2)
    exact ⟨i, hdecode, hexec, txDispatch_lawful e⟩

/-! ## The turns of SCHED_FN (R210) -/

theorem schedTn_of_unconfigured (h : (s.slot tn).comb = 0) : schedTn sn tn s = .ok s := if_pos h

theorem schedTn_of_position {e : Position} (hcomb : (s.slot tn).comb ≠ 0)
    (he : s.position (s.slot tn).comb tn sn .dl = some e) : schedTn sn tn s = txDispatch tn e sn s := by
  have hmap : positionOf (s.mapOf (s.slot tn).comb tn sn .dl) = some e := he
  rw [schedTn, if_neg hcomb, hmap]

theorem schedTn_of_no_position (hcomb : (s.slot tn).comb ≠ 0) (he : s.position (s.slot tn).comb tn sn .dl = none) :
    schedTn sn tn s = .error .mapContract := by
  have hmap : positionOf (s.mapOf (s.slot tn).comb tn sn .dl) = none := he
  rw [schedTn, if_neg hcomb, hmap]

theorem thenTimeslot_next (s : State) : thenTimeslot sn (.next s) tn = (schedTn sn tn s).outcome := by
  by_cases hcomb : (s.slot tn).comb = 0
  · rw [schedTn_of_unconfigured hcomb]
    exact if_pos hcomb
  · cases he : s.position (s.slot tn).comb tn sn .dl with
    | none => simp only [schedTn_of_no_position hcomb he, thenTimeslot, if_neg hcomb, he]; rfl
    | some e => simp only [schedTn_of_position hcomb he, thenTimeslot, if_neg hcomb, he]; rfl

theorem foldl_thenTimeslot_refused (r : Refusal) (tns : List Tn) :
    tns.foldl (thenTimeslot sn) (.refused r) = .refused r := by
  induction tns with
  | nil => rfl
  | cons tn rest ih => exact ih

/-- The timeslots of a list take their turns one after the other; the first refusal ends them. -/
theorem schedTns_outcome (tns : List Tn) : ∀ s : State,
    (schedTns sn tns s).outcome = tns.foldl (thenTimeslot sn) (.next s) := by
  induction tns with
  | nil => exact fun _ => rfl
  | cons tn rest ih =>
    intro s
    rw [List.foldl_cons, thenTimeslot_next, schedTns]
    cases schedTn sn tn s with
    | ok u => exact ih u
    | error r => exact (foldl_thenTimeslot_refused r rest).symm

theorem schedTns_of_unconfigured (h : ∀ tn, (s.slot tn).comb = 0) (tns : List Tn) : schedTns sn tns s = .ok s := by
  induction tns with
  | nil => rfl
  | cons tn rest ih => rw [schedTns, schedTn_of_unconfigured (h tn)]; exact ih

/-- Settles O34: SCHED_FN is the turns of TN 0 to 7, in this order, at the one scheduling FN. -/
theorem schedulerOrder : Obligations.SchedulerOrder := by
  intro s fn
  refine ⟨schedTns_outcome allTns s, fun hcomb => ?_, fun hlawful => ?_⟩
  · exact outcome_next.2 (schedTns_of_unconfigured hcomb allTns)
  · obtain ⟨t, ht⟩ := schedFn_total fn hlawful
    exact ⟨t, outcome_next.2 ht⟩

/-! ## What a turn keeps (R220) -/

theorem DlStep.withoutDownlink {more : List Output} (h : DlStep tn s t more) (u : Tn) :
    (t.slot u).withoutDownlink = (s.slot u).withoutDownlink := by
  by_cases hu : u = tn
  · rw [hu]; exact h.inside
  · rw [h.others u hu]

theorem DlStep.comb {more : List Output} (h : DlStep tn s t more) (u : Tn) : (t.slot u).comb = (s.slot u).comb := by
  have hcomb := congrArg TnState.comb (h.withoutDownlink u)
  exact hcomb

theorem schedTns_withoutDownlink (tns : List Tn) : ∀ {s : State}, schedTns sn tns s = .ok t →
    ∀ u, (t.slot u).withoutDownlink = (s.slot u).withoutDownlink := by
  induction tns with
  | nil => intro s he u; cases he; rfl
  | cons tn rest ih =>
    intro s he u
    simp only [schedTns] at he
    split at he
    · next v hv =>
      obtain ⟨more, hstep, -⟩ := schedTn_op sn tn s v hv
      exact (ih he u).trans (hstep.withoutDownlink u)
    · cases he

/-! ## What a turn emits (R219, R241) -/

/-- Timeslot tn may send at sn: it is configured, and on a carrier other than C0 its position is not idle. -/
def State.maySend (s : State) (sn : Fn) (tn : Tn) : Prop :=
  (s.slot tn).comb ≠ 0 ∧ ((∀ e, s.position (s.slot tn).comb tn sn .dl = some e → e.ct = .idle) → s.cfg.c0 = true)

theorem DlStep.maySend_iff {more : List Output} (h : DlStep tn s t more) (u : Tn) :
    t.maySend sn u ↔ s.maySend sn u := by
  have hcfg : t.cfg = s.cfg := by rw [h.rest]
  have hposition : ∀ comb, t.position comb u sn .dl = s.position comb u sn .dl := fun comb => by rw [h.rest]; rfl
  simp only [State.maySend, h.comb, hcfg, hposition]

theorem schedTn_silent (h : ¬ s.maySend sn tn) (he : schedTn sn tn s = .ok t) : t = s := by
  by_cases hcomb : (s.slot tn).comb = 0
  · rw [schedTn_of_unconfigured hcomb] at he
    exact (Except.ok.inj he).symm
  · simp only [State.maySend, ne_eq, hcomb, not_false_eq_true, true_and, Classical.not_imp, Bool.not_eq_true] at h
    obtain ⟨hidle, hc0⟩ := h
    cases hp : s.position (s.slot tn).comb tn sn .dl with
    | none => rw [schedTn_of_no_position hcomb hp] at he; cases he
    | some e =>
      rw [schedTn_of_position hcomb hp, txDispatch_of_idle (hidle e hp), txIdle_off_c0 hc0] at he
      exact (Except.ok.inj he).symm

/-- A turn appends nothing, or one burst of its timeslot where the timeslot may send. -/
theorem schedTn_emits (he : schedTn sn tn s = .ok t) : ∃ more, DlStep tn s t more ∧
    (more = [] ∨ s.maySend sn tn ∧ ∃ power bits, more = [⟨.dld, dldRecord tn sn power bits⟩]) := by
  obtain ⟨more, hstep, hlen, hburst, -⟩ := schedTn_op sn tn s t he
  by_cases hsend : s.maySend sn tn
  · match more, hlen, hburst with
    | [], _, _ => exact ⟨[], hstep, .inl rfl⟩
    | [o], _, hburst =>
      obtain ⟨power, bits, rfl⟩ := hburst o (List.mem_singleton_self o)
      exact ⟨_, hstep, .inr ⟨hsend, power, bits, rfl⟩⟩
  · rw [schedTn_silent hsend he]
    exact ⟨[], .refl tn s, .inl rfl⟩

theorem byteAt_dldRecord_tn (tn : Tn) (sn : Fn) (power : Byte) (bits : List Bool) :
    (byteAt (dldRecord tn sn power bits) 0).toNat = tn.val := by
  have := tn.isLt
  simp only [byteAt, dldRecord, List.cons_append, List.getElem?_cons_zero, Option.getD_some, BitVec.toNat_ofNat]
  omega

theorem be32_dldRecord_fn (tn : Tn) (sn : Fn) (power : Byte) (bits : List Bool) :
    (be32 (dldRecord tn sn power bits) 1).toNat = sn.toNat := by
  have hfield : be32 (dldRecord tn sn power bits) 1 = fn32 sn := be32_of_bytes32 _ _ _
  have := sn.isLt
  rw [hfield, fn32, BitVec.toNat_setWidth]
  omega

/-- The records of the turns: their timeslots are among those of the list, in its order and each at most once. -/
theorem schedTns_emits (tns : List Tn) : ∀ {s : State}, schedTns sn tns s = .ok t →
    ∃ recs : List Bytes, t.out = s.out ++ recs.map (fun b => ⟨.dld, b⟩)
      ∧ (recs.map fun b => (byteAt b 0).toNat).Sublist (tns.map Fin.val)
      ∧ ∀ b ∈ recs, ∃ tn power bits, b = dldRecord tn sn power bits ∧ s.maySend sn tn := by
  induction tns with
  | nil => intro s he; cases he; exact ⟨[], by simp, .slnil, by simp⟩
  | cons tn rest ih =>
    intro s he
    simp only [schedTns] at he
    split at he
    · next u hu =>
      obtain ⟨more, hstep, hmore⟩ := schedTn_emits hu
      obtain ⟨recs, hout, hsub, hrecs⟩ := ih he
      have hrecs' : ∀ b ∈ recs, ∃ tn power bits, b = dldRecord tn sn power bits ∧ s.maySend sn tn := fun b hb => by
        obtain ⟨v, power, bits, hrec, hsend⟩ := hrecs b hb
        exact ⟨v, power, bits, hrec, (hstep.maySend_iff v).1 hsend⟩
      have huout : u.out = s.out ++ more := by rw [hstep.rest]
      rcases hmore with rfl | ⟨hsend, power, bits, rfl⟩
      · exact ⟨recs, by rw [hout, huout, List.append_nil], hsub.cons _, hrecs'⟩
      · refine ⟨dldRecord tn sn power bits :: recs, by simp [hout, huout], ?_, ?_⟩
        · rw [List.map_cons, byteAt_dldRecord_tn]
          exact hsub.cons_cons _
        · exact List.forall_mem_cons.2 ⟨⟨tn, power, bits, rfl, hsend⟩, hrecs'⟩
    · cases he

/-- Settles O39: the timeslots of the records are a sublist of TN 0 to 7, and each record is of a timeslot that may
send. -/
theorem schedulerEmission : Obligations.SchedulerEmission := by
  intro s t fn he
  obtain ⟨recs, hout, hsub, hrecs⟩ := schedTns_emits allTns (outcome_next.1 he)
  refine ⟨recs, hout, List.Pairwise.sublist hsub (by decide), fun b hb => ?_⟩
  obtain ⟨tn, power, bits, rfl, hcomb, hidle⟩ := hrecs b hb
  exact ⟨(be32_dldRecord_fn tn _ power bits).trans (fnAdd_toNat fn _), tn, byteAt_dldRecord_tn tn _ power bits, hcomb,
    hidle⟩

/-- Settles O40: the turns change the downlink side alone, and run alike over any clock unit, counters, earlier output
and pending events. -/
theorem schedulerIsolation : Obligations.SchedulerIsolation := by
  intro s t fn he
  have hsched := outcome_next.1 he
  obtain ⟨more, hrest, hover⟩ := schedTns_ok allTns hsched
  obtain ⟨recs, hout, -⟩ := schedTns_emits allTns hsched
  have hmoreOut : t.out = s.out ++ more := by rw [hrest]
  have hmore : more = recs.map fun b => ⟨.dld, b⟩ := List.append_cancel_left (hmoreOut.symm.trans hout)
  refine ⟨schedFn_rest hsched, schedTns_withoutDownlink allTns hsched, more, hmoreOut, ?_, ?_⟩
  · rw [hmore]
    exact List.forall_mem_map.2 fun _ _ => rfl
  · exact fun clk disc out pending ret => outcome_next.2 (hover ⟨clk, disc, out, pending, ret⟩)

/-! ## The downlink lane of a dedicated type (R213) -/

/-- The downlink lane of a type in a dedicated channel: what `Channel.withDl` replaces. -/
def Channel.dlOf (c : Channel) (ct : LaneCt) : DlLane :=
  match ct with
  | .sacch => c.laneA.dl
  | .ptcch => c.laneA.dl
  | _ => c.laneM.dl

section dedicated

variable {ct : LaneCt}

theorem dlLane_laneRef (hb : ct ≠ .bcch) (hc : ct ≠ .ccch) (s : State) (tn : Tn) (ss : Ss) :
    s.dlLane (laneRef ct tn ss) = (s.chan tn ss).dlOf ct := by
  cases ct with
  | bcch => exact absurd rfl hb
  | ccch => exact absurd rfl hc
  | _ => rfl

theorem modDl_laneRef (hb : ct ≠ .bcch) (hc : ct ≠ .ccch) (s : State) (tn : Tn) (ss : Ss) (d : DlLane) :
    (s.modDl (laneRef ct tn ss) fun _ => d) = s.modChan tn ss fun c => c.withDl ct d := by
  cases ct with
  | bcch => exact absurd rfl hb
  | ccch => exact absurd rfl hc
  | _ => rfl

/-- A type's own handler is TX_GROUP of the type (R245 to R253): only TCH/H reads FACCH_OK. -/
theorem exec_txHandler (ct : LaneCt) (tn : Tn) (ss : Ss) (bid : Bid) (fok : Bool) (sn : Fn) (s : State) :
    exec (txHandler ct tn ss bid fok sn) s = exec (.txGroup ct tn ss bid fok sn) s := by
  cases ct <;> rfl

/-! ## What a selection leaves in its channel (R240, R247 to R253) -/

theorem speechOrMiss_keeps_dl (s : State) (ct : LaneCt) (c : Channel) :
    (speechOrMiss s ct c).chan.laneM.dl = c.laneM.dl ∧ (speechOrMiss s ct c).chan.laneA.dl = c.laneA.dl := by
  unfold speechOrMiss
  cases c.qSpeech with
  | cons p rest => exact ⟨rfl, rfl⟩
  | nil => dsimp only; split <;> exact ⟨rfl, rfl⟩

/-- A selection takes from the queues, counts misses and sets the FACCH flag; the lanes' groups stay. -/
theorem takeFrom_keeps_dl (s : State) (ct : LaneCt) (fok : Bool) (c : Channel) :
    (takeFrom s ct fok c).chan.laneM.dl = c.laneM.dl ∧ (takeFrom s ct fok c).chan.laneA.dl = c.laneA.dl := by
  unfold takeFrom
  cases ct with
  | bcch => exact ⟨rfl, rfl⟩
  | ccch => exact ⟨rfl, rfl⟩
  | tchf =>
    dsimp only
    split
    · exact ⟨rfl, rfl⟩
    · exact speechOrMiss_keeps_dl s .tchf c
  | tchh =>
    dsimp only
    split
    · exact ⟨rfl, rfl⟩
    · split
      · exact ⟨rfl, rfl⟩
      · exact speechOrMiss_keeps_dl s .tchh c
  | _ => dsimp only; split <;> exact ⟨rfl, rfl⟩

theorem dlOf_takeFrom (s : State) (ct : LaneCt) (fok : Bool) (c : Channel) :
    (takeFrom s ct fok c).chan.dlOf ct = c.dlOf ct := by
  obtain ⟨hm, ha⟩ := takeFrom_keeps_dl s ct fok c
  cases ct with
  | sacch => exact ha
  | ptcch => exact ha
  | _ => exact hm

/-! ## A group start of a dedicated channel (R243) -/

theorem encStep_slots_length (h : s.listed.lawful = true) (ct : LaneCt) (kind : CodecKind) (mode cmr : BitVec 2)
    (p : Bytes) (ilv : Ilv) : (s.encStep ct kind mode cmr p ilv).slots.length = ct.toCt.groupLen := by
  have hok := lawful_encStep h ct kind mode cmr p ilv
  simp only [encOk, Bool.and_eq_true, beq_iff_eq] at hok
  exact hok.1

/-- The group that ENC_STEP makes of a selection, over the lane it goes to. -/
def State.encoded (s : State) (ct : LaneCt) (k : Taken) (d : DlLane) : EncResult :=
  s.encStep ct k.kind k.mode k.cmr k.payload d.ilv

/-- The lane after the first burst of a group. -/
def DlLane.started (d : DlLane) (r : EncResult) : DlLane :=
  { slots := overlaySlots d.slots r.slots, valid := true, lastBid := 0, ilv := r.ilv }

theorem started_slots (d : DlLane) {r : EncResult} (h : r.slots.length ≤ 4) :
    (d.started r).slots.toList = r.slots ++ d.slots.toList.drop r.slots.length :=
  overlaySlots_toList d.slots r.slots h

theorem emitDl_modChan (s : State) (tn : Tn) (ss : Ss) (f : Channel → Channel) (sn : Fn) (bits : List Bool) :
    emitDl tn sn bits (s.modChan tn ss f) = { s with
      tns := (s.modChan tn ss f).tns
      out := s.out ++ [⟨.dld, dldRecord tn sn (s.slot tn).txPower bits⟩] } := by
  rw [emitDl, slot_modChan_txPower]
  rfl

/-- TX_GROUP at bid 0 is one update of the channel and one burst. -/
theorem txGroup_start (h : s.listed.lawful = true) (hb : ct ≠ .bcch) (hc : ct ≠ .ccch) (tn : Tn) (ss : Ss) (fok : Bool)
    (sn : Fn) :
    let k := takeFrom s ct fok (s.chan tn ss)
    let d := (s.chan tn ss).dlOf ct
    let lane := d.started (s.encoded ct k d)
    txGroup ct tn ss 0 fok sn s
      = .ok (emitDl tn sn (s.assemble tn lane.slots[0]) (s.modChan tn ss fun _ => k.chan.withDl ct lane)) := by
  intro k d lane
  have hdl : (s.modChan tn ss fun _ => k.chan).dlLane (laneRef ct tn ss) = d := by
    rw [dlLane_laneRef hb hc, chan_modChan_same]
    exact dlOf_takeFrom s ct fok _
  have hstart := txGroup_zero h (sn := sn) (select_eq h ct tn ss fok hb hc) rfl
  dsimp only at hstart
  rw [hdl, modDl_laneRef hb hc, modChan_modChan, assemble_modChan, decide_eq_true (gl1 ct)] at hstart
  exact hstart

end dedicated

/-- Settles O36: what the type's selection takes is encoded into its lane, and slot 0 is sent. -/
theorem dedicatedGroupStart : Obligations.DedicatedGroupStart := by
  intro s ct tn ss fok sn h hb hc c d n k r
  have hd : d = c.dlOf ct := by cases ct <;> rfl
  have hr : r = s.encoded ct k (c.dlOf ct) := by rw [← hd]; rfl
  have hlen : r.slots.length = n := by
    rw [encStep_slots_length h]
    cases ct <;> rfl
  have hstart : exec (.txGroup ct tn ss 0 fok sn) s = .next (emitDl tn sn (s.assemble tn (d.started r).slots[0])
      (s.modChan tn ss fun _ => k.chan.withDl ct (d.started r))) := by
    rw [hr, hd]
    exact outcome_next.2 (txGroup_start h hb hc tn ss fok sn)
  refine ⟨_, (d.started r).slots, hstart, (exec_txHandler ct tn ss 0 fok sn s).trans hstart, ?_,
    emitDl_modChan s tn ss _ sn _, chanOnly_emit (chanOnly_modChan tn ss s _), ?_⟩
  · rw [← hlen]
    exact started_slots d (by rw [encStep_slots_length h]; exact groupLen_le ct.toCt)
  · exact chan_modChan_same s tn ss fun _ => k.chan.withDl ct (d.started r)

end Sys2Proof.Machine

namespace Sys2Proof.Machine

/-! SUPPORT. The family of 43_sched_downlink.md: the handlers without a lane, a counted miss, a group past its first
burst, and a group start of a common channel. -/

variable {s t : State} {tn : Tn} {ss : Ss} {sn : Fn}

/-! ## Handlers without a lane (R241, R242, R244, R254) -/

theorem txIdle_on_c0 (hc0 : s.cfg.c0 = true) (hlen : s.dummyBurst.length = 148) :
    txIdle tn sn s = .ok (emitDl tn sn s.dummyBurst s) := by
  rw [txIdle, if_pos hc0, if_pos hlen]

theorem txIdle_refused (hc0 : s.cfg.c0 = true) (hlen : s.dummyBurst.length ≠ 148) :
    txIdle tn sn s = .error .dummyLength := by
  rw [txIdle, if_pos hc0, if_neg hlen]

theorem exec_txIdle (tn : Tn) (sn : Fn) (s : State) : exec (.txIdle tn sn) s = (txIdle tn sn s).outcome := rfl

/-- A downlink RACH position is an idle one (R254). -/
theorem exec_txRachAsIdle (tn : Tn) (sn : Fn) (s : State) :
    exec (.txRachAsIdle tn sn) s = (txIdle tn sn s).outcome := rfl

theorem exec_txFcch (tn : Tn) (sn : Fn) (s : State) : exec (.txFcch tn sn) s = (txFcch tn sn s).outcome := rfl

theorem exec_txSch (tn : Tn) (sn : Fn) (s : State) : exec (.txSch tn sn) s = (txSch tn sn s).outcome := rfl

/-- Settles O32: each handler by C0 and by the length of its burst. -/
theorem handlersWithoutLane : Obligations.HandlersWithoutLane := by
  intro s tn sn sends
  have hsends : ∀ {i : Instr} {r : Res State} {bits : List Bool},
      exec i s = r.outcome → r = .ok (emitDl tn sn bits s) → sends i bits := by
    intro i r bits hexec hr
    have hnext := hexec.trans (outcome_next.2 hr)
    exact ⟨hnext, hnext⟩
  refine ⟨fun hc0 => ?_, fun hc0 hlen => ?_, fun hc0 hlen => ?_, fun hlen => ?_, fun hlen => ?_, fun hlen => ?_,
    fun hlen => ?_⟩
  · have hidle : (txIdle tn sn s).outcome = .next s := outcome_next.2 (txIdle_off_c0 hc0)
    exact ⟨hidle, hidle⟩
  · exact ⟨hsends (exec_txIdle tn sn s) (txIdle_on_c0 hc0 hlen),
      hsends (exec_txRachAsIdle tn sn s) (txIdle_on_c0 hc0 hlen)⟩
  · have hidle : (txIdle tn sn s).outcome = .refused .dummyLength := outcome_refused.2 (txIdle_refused hc0 hlen)
    exact ⟨hidle, hidle⟩
  · exact hsends (exec_txFcch tn sn s) (if_pos hlen)
  · exact (exec_txFcch tn sn s).trans (outcome_refused.2 (if_neg hlen))
  · exact hsends (exec_txSch tn sn s) (if_pos hlen)
  · exact (exec_txSch tn sn s).trans (outcome_refused.2 (if_neg hlen))

/-! ## A counted miss (R255) -/

/-- DL_LOSS of the lane a type counts in, after one more miss. -/
def State.nextLoss (s : State) (ct : MissCt) (tn : Tn) (ss : Ss) : BitVec 8 :=
  satInc (s.lane tn ss (missLane ct)).dlLoss 1

/-- The state with one more miss counted. -/
def State.missed (s : State) (ct : MissCt) (tn : Tn) (ss : Ss) : State :=
  s.modLane tn ss (missLane ct) fun l => { l with dlLoss := s.nextLoss ct tn ss }

/-- What a miss sends: BFI from the second miss on TCH, FILLER otherwise. -/
def State.missAnswer (s : State) (ct : MissCt) (tn : Tn) (ss : Ss) : CodecKind × Bytes :=
  if ct ≠ .sacch ∧ 1 < (s.nextLoss ct tn ss).toNat then (.bfi, s.bfi ct.toLane (s.chan tn ss).dlFt)
  else (.fill, s.filler ct.toLane)

theorem missAnswer_of_fill {ct : MissCt} (h : ct = .sacch ∨ (s.nextLoss ct tn ss).toNat ≤ 1) :
    s.missAnswer ct tn ss = (.fill, s.filler ct.toLane) :=
  if_neg fun hbfi => h.elim hbfi.1 (Nat.not_le.2 hbfi.2)

theorem missAnswer_of_bfi {ct : MissCt} (h : ct ≠ .sacch ∧ 1 < (s.nextLoss ct tn ss).toNat) :
    s.missAnswer ct tn ss = (.bfi, s.bfi ct.toLane (s.chan tn ss).dlFt) :=
  if_pos h

/-- A miss taken as a selection is what DL_MISS answers. -/
theorem dlMiss_of_missSel {ct : MissCt} {mode cmr : BitVec 2} {x : Selected}
    (h : missSel ct tn ss mode cmr s = .ok x) : dlMiss ct tn ss s = .ok (x.kind, x.payload, x.state) := by
  unfold missSel at h
  split at h
  · next hmiss => cases h; exact hmiss
  · cases h

theorem dlMiss_eq (h : s.listed.lawful = true) (ct : MissCt) (tn : Tn) (ss : Ss) :
    dlMiss ct tn ss s = .ok ((s.missAnswer ct tn ss).1, (s.missAnswer ct tn ss).2, s.missed ct tn ss) := by
  have hmiss := miss_eq h ct tn ss 0 0
  unfold State.missAnswer
  split
  · next hbfi => exact dlMiss_of_missSel (hmiss.trans (congrArg Except.ok (if_pos hbfi)))
  · next hfill => exact dlMiss_of_missSel (hmiss.trans (congrArg Except.ok (if_neg hfill)))

theorem exec_dlMiss (h : s.listed.lawful = true) (ct : MissCt) (tn : Tn) (ss : Ss) :
    exec (.dlMiss ct tn ss) s = .next { s.missed ct tn ss with
      ret := .miss (s.missAnswer ct tn ss).1 (s.missAnswer ct tn ss).2 } := by
  have hexec : exec (.dlMiss ct tn ss) s = execDlMiss ct tn ss s := rfl
  rw [hexec, execDlMiss, dlMiss_eq h]

theorem chan_missed (s : State) (ct : MissCt) (tn : Tn) (ss : Ss) :
    (s.missed ct tn ss).chan tn ss = match ct with
      | .sacch => (s.chan tn ss).withLossA (satInc (s.chan tn ss).laneA.dlLoss 1)
      | _ => (s.chan tn ss).withLossM (satInc (s.chan tn ss).laneM.dlLoss 1) := by
  cases ct <;> exact chan_modChan_same s tn ss _

/-- Settles O38: one more miss is counted in the type's lane, and the count and the type choose FILLER or BFI. -/
theorem downlinkMiss : Obligations.DownlinkMiss := by
  intro s ct tn ss h c loss
  have hloss : loss = s.nextLoss ct tn ss := by cases ct <;> rfl
  refine ⟨_, exec_dlMiss h ct tn ss, rfl, chanOnly_of_tns (chanOnly_modLane s tn ss _ _) rfl, ?_, ?_, ?_⟩
  · exact (chan_missed s ct tn ss).trans (by cases ct <;> rfl)
  · intro hfill
    rw [hloss] at hfill
    simp only [missAnswer_of_fill hfill]
  · intro hbfi
    rw [hloss] at hbfi
    simp only [missAnswer_of_bfi hbfi]
    rfl

/-! ## A burst sent after a downlink update (R218, R220) -/

theorem DlStep.txPower {more : List Output} (h : DlStep tn s t more) : (t.slot tn).txPower = (s.slot tn).txPower :=
  have hpower := congrArg TnState.txPower h.inside
  hpower

theorem DlStep.tsc {more : List Output} (h : DlStep tn s t more) : (t.slot tn).tsc = (s.slot tn).tsc :=
  have htsc := congrArg TnState.tsc h.inside
  htsc

theorem DlStep.listed {more : List Output} (h : DlStep tn s t more) : t.listed = s.listed := by rw [h.rest]

/-- Assembly reads the TSC and the parameters alone, which no downlink update moves. -/
theorem DlStep.assemble {more : List Output} (h : DlStep tn s t more) (slot : Slot) :
    t.assemble tn slot = s.assemble tn slot := by
  simp only [State.assemble, State.tscSeq, State.asm8psk, h.tsc, h.listed]

theorem DlStep.emitDl_eq (h : DlStep tn s t []) (sn : Fn) (bits : List Bool) : emitDl tn sn bits t = { s with
    tns := t.tns, out := s.out ++ [⟨.dld, dldRecord tn sn (s.slot tn).txPower bits⟩] } := by
  rw [emitDl, h.txPower, State.emit]
  conv_lhs => rw [h.rest, List.append_nil]

theorem DlStep.ofLane (s : State) (ct : LaneCt) (tn : Tn) (ss : Ss) (d : DlLane) :
    DlStep tn s (s.modDl (laneRef ct tn ss) fun _ => d) [] := by
  have hstep := DlStep.ofModDl s (laneRef ct tn ss) fun _ => d
  rwa [laneRef_tn] at hstep

/-! ## A group past its first burst (R243) -/

/-- A change of a lane in terms of the lane it finds. -/
theorem modDl_const (s : State) (l : LaneRef) (f : DlLane → DlLane) :
    s.modDl l f = s.modDl l fun _ => f (s.dlLane l) := by
  cases l <;> rfl

/-- The lane after burst bid of a started group of type ct. -/
def DlLane.sent (d : DlLane) (ct : LaneCt) (bid : Bid) : DlLane :=
  { d with lastBid := bid, valid := decide (bid.toNat + 1 ≠ ct.toCt.groupLen) }

section continuation

variable {ct : LaneCt} {bid : Bid} {fok : Bool}

theorem txGroup_of_not_continues (hbid : bid ≠ 0) (h : ¬ (s.dlLane (laneRef ct tn ss)).continues bid = true) :
    txGroup ct tn ss bid fok sn s = txIdle tn sn s := by
  rw [txGroup, if_neg hbid, if_neg h]

/-- A burst past bid 0 is one update of the lane and one burst. -/
theorem txGroup_of_continues (hlawful : s.listed.lawful = true) (hbid : bid ≠ 0)
    (h : (s.dlLane (laneRef ct tn ss)).continues bid = true) :
    let d := s.dlLane (laneRef ct tn ss)
    txGroup ct tn ss bid fok sn s
      = .ok (emitDl tn sn (s.assemble tn (d.slotAt bid)) (s.modDl (laneRef ct tn ss) fun _ => d.sent ct bid)) := by
  intro d
  have hvalid : (if bid.toNat + 1 = ct.toCt.groupLen then false else d.valid)
      = decide (bid.toNat + 1 ≠ ct.toCt.groupLen) := by
    rw [((continues_iff d bid).1 h).1]
    split <;> simp [*]
  rw [txGroup, if_neg hbid, if_pos h, sendSlot_eq hlawful, modDl_const]
  simp only [DlLane.sent, ← hvalid, d]

theorem chan_modDl_laneRef (hb : ct ≠ .bcch) (hc : ct ≠ .ccch) (s : State) (tn : Tn) (ss : Ss) (d : DlLane) :
    (s.modDl (laneRef ct tn ss) fun _ => d).chan tn ss = (s.chan tn ss).withDl ct d := by
  rw [modDl_laneRef hb hc, chan_modChan_same]

end continuation

/-- Settles O37: past bid 0 the lane's own fields decide between its next slot and an idle position. -/
theorem groupContinuation : Obligations.GroupContinuation := by
  intro s ct tn ss bid fok sn hbid d goes
  have hgoes : d.continues bid = true ↔ goes := continues_iff d bid
  refine ⟨fun hnot => ?_, fun hgo h => ?_⟩
  · have hidle : exec (.txGroup ct tn ss bid fok sn) s = exec (.txIdle tn sn) s :=
      congrArg Res.outcome (txGroup_of_not_continues hbid (mt hgoes.1 hnot))
    exact ⟨hidle, (exec_txHandler ct tn ss bid fok sn s).trans hidle⟩
  · have hnext : exec (.txGroup ct tn ss bid fok sn) s = .next (emitDl tn sn (s.assemble tn (d.slotAt bid))
        (s.modDl (laneRef ct tn ss) fun _ => d.sent ct bid)) :=
      outcome_next.2 (txGroup_of_continues h hbid (hgoes.2 hgo))
    have hstep := DlStep.ofLane s ct tn ss (d.sent ct bid)
    refine ⟨_, hnext, (exec_txHandler ct tn ss bid fok sn s).trans hnext, hstep.emitDl_eq sn _, hstep.others, ?_⟩
    have hded : ∀ b : Bytes, ct ≠ .bcch → ct ≠ .ccch →
        chanOnly tn ss s ((s.modDl (laneRef ct tn ss) fun _ => d.sent ct bid).emit .dld b)
          ∧ (s.modDl (laneRef ct tn ss) fun _ => d.sent ct bid).chan tn ss
            = (s.chan tn ss).withDl ct (d.sent ct bid) :=
      fun _ hb hc => ⟨chanOnly_emit (chanOnly_modDl s tn ss _ hb hc), chan_modDl_laneRef hb hc s tn ss _⟩
    cases ct with
    | bcch => exact slot_modSlot_same s tn fun u => { u with laneB := d.sent .bcch bid }
    | ccch => exact slot_modSlot_same s tn fun u => { u with laneC := d.sent .ccch bid }
    | _ => exact hded _ nofun nofun

/-! ## A group start of a common channel (R240, R243, R245, R246) -/

/-- What POP_OR_FILL encodes: the head of the queue as data, or FILLER. -/
def State.headOrFill (s : State) (ct : LaneCt) : List Bytes → CodecKind × Bytes
  | p :: _ => (.data, p)
  | [] => (.fill, s.filler ct)

theorem setQueue_queue (s : State) (q : QueueRef) : s.setQueue q (s.queue q) = s := by
  cases q with
  | bcch tn => exact modSlot_id s tn
  | ccch tn => exact modSlot_id s tn
  | sig tn ss => exact modChan_self s tn ss
  | speech tn ss => exact modChan_self s tn ss
  | assoc tn ss => exact modChan_self s tn ss

theorem popOrFill_eq (h : s.listed.lawful = true) (q : QueueRef) (ct : LaneCt) :
    popOrFill q ct s = .ok ⟨(s.headOrFill ct (s.queue q)).1, (s.headOrFill ct (s.queue q)).2, 0, 0,
      s.setQueue q (s.queue q).tail⟩ := by
  unfold popOrFill
  cases hq : s.queue q with
  | cons p rest => rfl
  | nil =>
    have hself := setQueue_queue s q
    rw [hq] at hself
    rw [List.tail_nil, hself, fillerOf, if_pos (lawful_filler h ct)]
    rfl

/-- A type is fed by queue q: POP_OR_FILL on q is its selection, and q stands apart from its lane of four slots. -/
structure FedBy (ct : LaneCt) (q : QueueRef) (tn : Tn) (ss : Ss) : Prop where
  groupLen : ct.toCt.groupLen = 4
  queueTn  : queueTn q = tn
  select   : ∀ fok s, select ct tn ss fok s = popOrFill q ct s
  dlLane   : ∀ (s : State) v, (s.setQueue q v).dlLane (laneRef ct tn ss) = s.dlLane (laneRef ct tn ss)

theorem bcch_fedBy (tn : Tn) (ss : Ss) : FedBy .bcch (.bcch tn) tn ss :=
  ⟨rfl, rfl, fun _ _ => rfl, fun s v => by simp [State.setQueue, State.dlLane, laneRef]⟩

theorem ccch_fedBy (tn : Tn) (ss : Ss) : FedBy .ccch (.ccch tn) tn ss :=
  ⟨rfl, rfl, fun _ _ => rfl, fun s v => by simp [State.setQueue, State.dlLane, laneRef]⟩

section common

variable {ct : LaneCt} {q : QueueRef} {fok : Bool}

/-- The state with the head of the queue gone and a lane in place. -/
def State.popInto (s : State) (q : QueueRef) (l : LaneRef) (d : DlLane) : State :=
  (s.setQueue q (s.queue q).tail).modDl l fun _ => d

theorem FedBy.pop_step (hfed : FedBy ct q tn ss) (s : State) :
    DlStep tn s (s.setQueue q (s.queue q).tail) [] := by
  have hstep := DlStep.ofSetQueue s q (s.queue q).tail
  rwa [hfed.queueTn] at hstep

theorem FedBy.popInto_step (hfed : FedBy ct q tn ss) (s : State) (d : DlLane) :
    DlStep tn s (s.popInto q (laneRef ct tn ss) d) [] :=
  (hfed.pop_step s).trans (.ofLane _ ct tn ss d)

/-- TX_GROUP at bid 0 takes the head of the queue, puts the group into the lane and sends slot 0. -/
theorem FedBy.txGroup_start (hfed : FedBy ct q tn ss) (h : s.listed.lawful = true) :
    let k := s.headOrFill ct (s.queue q)
    let d := s.dlLane (laneRef ct tn ss)
    let lane := d.started (s.encStep ct k.1 0 0 k.2 d.ilv)
    txGroup ct tn ss 0 fok sn s
      = .ok (emitDl tn sn (s.assemble tn lane.slots[0]) (s.popInto q (laneRef ct tn ss) lane)) := by
  intro k d lane
  have hstart := txGroup_zero h (sn := sn) ((hfed.select fok s).trans (popOrFill_eq h q ct)) (setQueue_listed s q _)
  dsimp only at hstart
  rw [hfed.dlLane, decide_eq_true (gl1 ct), (hfed.pop_step s).assemble] at hstart
  exact hstart

end common

/-- Settles O35: both common types start alike; what differs is the lane and the queue of the timeslot. -/
theorem commonGroupStart : Obligations.CommonGroupStart := by
  intro s tn ss fok sn h start
  have hstart : ∀ {ct : LaneCt} {q : QueueRef} (slot : DlLane → TnState), FedBy ct q tn ss →
      (∀ d, (s.popInto q (laneRef ct tn ss) d).slot tn = slot d) →
      start ct (s.dlLane (laneRef ct tn ss)) (s.queue q) slot := by
    intro ct q slot hfed hslot
    unfold start
    intro r
    have hr : s.encStep ct (s.headOrFill ct (s.queue q)).1 0 0 (s.headOrFill ct (s.queue q)).2
        (s.dlLane (laneRef ct tn ss)).ilv = r := by
      simp only [r]
      cases s.queue q <;> rfl
    have hlen : r.slots.length = 4 := by rw [← hr, encStep_slots_length h, hfed.groupLen]
    have hnext := outcome_next.2 (hfed.txGroup_start (fok := fok) (sn := sn) h)
    rw [hr] at hnext
    have hstep := hfed.popInto_step s ((s.dlLane (laneRef ct tn ss)).started r)
    refine ⟨_, ((s.dlLane (laneRef ct tn ss)).started r).slots, hnext,
      (exec_txHandler ct tn ss 0 fok sn s).trans hnext, ?_, hstep.emitDl_eq sn _, hstep.others, hslot _⟩
    rw [started_slots _ hlen.le, hlen, List.drop_of_length_le (by simp), List.append_nil]
  constructor
  · refine hstart (fun d => { s.slot tn with laneB := d, qBcch := (s.slot tn).qBcch.tail })
      (bcch_fedBy tn ss) fun d => ?_
    simp [State.popInto, State.setQueue, State.modDl, State.queue, laneRef]
  · refine hstart (fun d => { s.slot tn with laneC := d, qCcch := (s.slot tn).qCcch.tail })
      (ccch_fedBy tn ss) fun d => ?_
    simp [State.popInto, State.setQueue, State.modDl, State.queue, laneRef]

end Sys2Proof.Machine

namespace Sys2Proof.Machine

/-! SUPPORT. The family of 44_sched_uplink.md: the acceptance of a datagram, the sequence and its gaps, the dispatch of
a position, the groups with their hooks, the access bursts, and the independence from the timing registers. -/

variable {s t : State} {tn : Tn} {ss : Ss} {f fn last : Fn} {x : Option Burst} {b : Burst}

/-! ## Acceptance (R280) -/

theorem discard_ulReject (s : State) :
    s.discard .ulReject = { s with disc := { s.disc with ulReject := satInc s.disc.ulReject 1 } } := by
  rw [← satAdd_eq_satInc]
  rfl

theorem discard_stateIgnored (s : State) :
    s.discard .stateIgnored = { s with disc := { s.disc with stateIgnored := satInc s.disc.stateIgnored 1 } } := by
  rw [← satAdd_eq_satInc]
  rfl

theorem discard_accessFail (s : State) :
    s.discard .accessFail = { s with disc := { s.disc with accessFail := satInc s.disc.accessFail 1 } } := by
  rw [← satAdd_eq_satInc]
  rfl

theorem ulBurst_of_closed (h : s.clk.dropsRadio = true) :
    ulBurst (some (tn, fn, b)) s = .ok (s.discard .stateIgnored) := if_pos h

theorem ulBurst_of_unconfigured (h : ¬ s.clk.dropsRadio = true) (hcomb : (s.slot tn).comb = 0) :
    ulBurst (some (tn, fn, b)) s = .ok (s.discard .ulReject) := (if_neg h).trans (if_pos hcomb)

theorem ulBurst_of_accepted (h : ¬ s.clk.dropsRadio = true) (hcomb : (s.slot tn).comb ≠ 0) :
    ulBurst (some (tn, fn, b)) s = ulSeq tn fn b s := (if_neg h).trans (if_neg hcomb)

/-- Settles O41: both forms are UL_BURST of their parse, check by check. -/
theorem uplinkAcceptance : Obligations.UplinkAcceptance := by
  intro s b i p hform
  have hexec : exec i s = (ulBurst p s).outcome := by
    obtain ⟨rfl, rfl⟩ | ⟨rfl, rfl⟩ := hform
    · rfl
    · rfl
  rw [hexec]
  refine ⟨?_, ?_⟩
  · rintro rfl
    exact outcome_next.2 (congrArg Except.ok (rejectEvent_uldLength s))
  · rintro tn fn x rfl closed
    have hclosed : s.clk.dropsRadio = true ↔ closed := dropsRadio_iff s.clk
    rw [← hclosed]
    refine ⟨fun h => ?_, fun h hcomb => ?_, fun h hcomb => ?_⟩
    · rw [ulBurst_of_closed h, discard_stateIgnored]
      rfl
    · rw [ulBurst_of_unconfigured h hcomb, discard_ulReject]
      rfl
    · rw [ulBurst_of_accepted h hcomb]
      rfl

/-! ## Gaps (R282) -/

theorem ulGap_of_adjacent (tn : Tn) (last : Fn) (s : State) : ulGap tn last (fnInc last) s = .ok s := by
  rw [ulGap, fnDist_self]
  rfl

/-- A gap is its first position as MISSING and then the gap that is left. -/
theorem ulGap_of_missing {u : State} (hfn : fn.toNat < hyperframe) (hne : fn ≠ fnInc last)
    (hpos : rxPos tn (fnInc last) none s = .ok u) : ulGap tn last fn s = ulGap tn (fnInc last) fn u := by
  have hdist : fnDist fn (fnInc last) = fnDist fn (fnInc (fnInc last)) + 1 :=
    fnDist_eq_succ hfn (fnInc_lt last) hne.symm
  rw [ulGap, hdist, missingRun, hpos]
  rfl

theorem ulGap_op (tn : Tn) (last fn : Fn) : UlOp tn (ulGap tn last fn) := missingRun_op tn _ _

/-- Settles O43, by the position after the last burst; the frame is that of an uplink operation which counts nothing. -/
theorem uplinkGap : Obligations.UplinkGap := by
  intro s tn last fn _ hfn
  refine ⟨?_, fun hne u hpos => ?_, fun hlawful => ?_⟩
  · rintro rfl
    exact outcome_next.2 (ulGap_of_adjacent tn last s)
  · exact congrArg Res.outcome (ulGap_of_missing hfn hne (outcome_next.1 hpos))
  · obtain ⟨t, hgap⟩ := (ulGap_op tn last fn).total s hlawful
    have hstep := (ulGap_op tn last fn).step s t hgap
    have hrest := hstep.rest
    rw [missingRun_disc _ hgap] at hrest
    exact ⟨t, outcome_next.2 hgap, hrest, hstep.others, by rw [hstep.inside], by rw [hstep.inside]⟩

/-! ## Sequence (R281) -/

theorem ulSeq_of_stale (h : (s.slot tn).ulLastValid = true ∧ signedDiff fn (s.slot tn).ulLastFn ≤ 0) :
    ulSeq tn fn b s = .ok (s.discard .ulReject) := by
  rw [← sdiff_eq_signedDiff] at h
  exact if_pos h

/-- A burst that is not stale runs its position once its gap, if it has one to fill, is filled. -/
theorem ulSeq_of_fresh {u : State}
    (hfresh : ¬ ((s.slot tn).ulLastValid = true ∧ signedDiff fn (s.slot tn).ulLastFn ≤ 0))
    (hgap : (if (s.slot tn).ulLastValid = true ∧ 2 ≤ signedDiff fn (s.slot tn).ulLastFn
        ∧ signedDiff fn (s.slot tn).ulLastFn ≤ s.cfg.ulGapMax.toNat
      then ulGap tn (s.slot tn).ulLastFn fn s else .ok s) = .ok u) :
    ulSeq tn fn b s = rxPos tn fn (some b) (noteUl tn fn u) := by
  simp only [ulSeq, sdiff_eq_signedDiff]
  rw [if_neg hfresh, hgap]

/-- Settles O42: a stale burst is counted, and any other notes its FN after the gap and runs its position. -/
theorem uplinkSequence : Obligations.UplinkSequence := by
  intro s tn fn x u d gap
  refine ⟨fun hstale => ?_, fun s1 hfresh hfilled hnone => ?_⟩
  · rw [← discard_ulReject]
    exact outcome_next.2 (ulSeq_of_stale hstale)
  · have hgap : (if gap then ulGap tn u.ulLastFn fn s else .ok s) = .ok s1 := by
      split
      · next h => exact outcome_next.1 (hfilled h)
      · next h => rw [hnone h]
    have hlisted : s1.listed = s.listed := by
      split at hgap
      · exact ((ulGap_op tn u.ulLastFn fn).step s s1 hgap).listed
      · cases hgap; rfl
    have hseq := ulSeq_of_fresh (b := x) hfresh hgap
    refine ⟨noteUl tn fn s1, rfl, slotOnly_modSlot tn s1 _, slot_modSlot_same s1 tn _, congrArg Res.outcome hseq,
      fun hlawful => ?_⟩
    obtain ⟨t, ht⟩ := (rxPos_op tn fn (some x)).total (noteUl tn fn s1) (hlisted ▸ hlawful)
    exact ⟨t, outcome_next.2 (hseq.trans ht)⟩

/-! ## Dispatch (R283) -/

section dispatch

variable {e : Position}

/-- An 8PSK burst off PDTCH, as RX_POS tests it. -/
theorem wrongModulation_iff {ct : Ct} : (isPsk8 x && ct != .pdtch) = true
    ↔ (∃ b, x = some b ∧ b.modulation = .psk8) ∧ ct ≠ .pdtch := by
  cases x <;> simp [isPsk8]

theorem rxPos_of_position (h : s.position (s.slot tn).comb tn f .ul = some e) :
    rxPos tn f x s = rxDispatch tn e f x s := by
  unfold rxPos
  rw [show positionOf (s.mapOf (s.slot tn).comb tn f .ul) = some e from h]

theorem rxPos_of_no_position (h : s.position (s.slot tn).comb tn f .ul = none) :
    rxPos tn f x s = .error .mapContract := by
  unfold rxPos
  rw [show positionOf (s.mapOf (s.slot tn).comb tn f .ul) = none from h]

theorem rxDispatch_of_wrongModulation (h : (isPsk8 x && e.ct != .pdtch) = true) :
    rxDispatch tn e f x s = .ok (rxIdle x s) := by
  obtain ⟨⟨b, rfl, -⟩, -⟩ := wrongModulation_iff.1 h
  exact if_pos h

theorem rxDispatch_of_no_uplink (hct : e.ct ∈ [Ct.idle, .fcch, .sch, .bcch, .ccch]) :
    rxDispatch tn e f x s = .ok (rxIdle x s) := by
  cases hpsk : isPsk8 x && e.ct != .pdtch with
  | true => exact rxDispatch_of_wrongModulation hpsk
  | false =>
    rw [rxDispatch, hpsk]
    simp only [List.mem_cons, List.not_mem_nil, or_false] at hct
    obtain h | h | h | h | h := hct <;> rw [h] <;> rfl

theorem rxDispatch_of_inactive (hct : e.ct ∈ [Ct.sdcch, .sacch, .tchf, .tchh, .pdtch, .ptcch])
    (hinactive : (s.chan tn e.ss).active = false) : rxDispatch tn e f x s = .ok (rxIdle x s) := by
  cases hpsk : isPsk8 x && e.ct != .pdtch with
  | true => exact rxDispatch_of_wrongModulation hpsk
  | false =>
    rw [rxDispatch, hpsk, hinactive]
    simp only [List.mem_cons, List.not_mem_nil, or_false] at hct
    obtain h | h | h | h | h | h := hct <;> rw [h] <;> rfl

theorem rxGroup_of_armed {ct : UlCt} {bid : Bid} (hct : ct ≠ .sacch) (harm : (s.chan tn ss).hoArm = true) :
    rxGroup ct tn ss bid f x s = hoAccess tn ss f x s := by
  rw [rxGroup, harm, bne_iff_ne.2 hct]
  rfl

theorem rxGroup_of_unarmed {ct : UlCt} {bid : Bid} (h : ct = .sacch ∨ (s.chan tn ss).hoArm = false) :
    rxGroup ct tn ss bid f x s = rxLane ct tn ss bid f x s := by
  refine if_neg ?_
  obtain rfl | harm := h
  · simp
  · simp [harm]

theorem rxDispatch_of_armed (hpsk : (isPsk8 x && e.ct != .pdtch) = false)
    (hct : e.ct ∈ [Ct.sdcch, .tchf, .tchh, .pdtch]) (hactive : (s.chan tn e.ss).active = true)
    (harm : (s.chan tn e.ss).hoArm = true) : rxDispatch tn e f x s = hoAccess tn e.ss f x s := by
  rw [rxDispatch, hpsk, hactive]
  simp only [List.mem_cons, List.not_mem_nil, or_false] at hct
  obtain h | h | h | h := hct <;> rw [h] <;> exact rxGroup_of_armed (by decide) harm

/-- A group position that is not armed is RX_LANE of its type. -/
theorem rxDispatch_runs_handler (hpsk : (isPsk8 x && e.ct != .pdtch) = false)
    (h : e.ct = .rach ∨ (s.chan tn e.ss).active = true ∧ (e.ct = .ptcch ∨ e.ct = .sacch
      ∨ e.ct ∈ [Ct.sdcch, .tchf, .tchh, .pdtch] ∧ (s.chan tn e.ss).hoArm = false)) :
    ∃ i, decodeRx e.ct.code tn e.ss e.bid f x = .ok i ∧ (rxDispatch tn e f x s).outcome = exec i s := by
  rw [rxDispatch, hpsk]
  obtain hct | ⟨hactive, hct | hct | ⟨hct, harm⟩⟩ := h
  · rw [hct]
    exact ⟨_, rfl, rfl⟩
  · rw [hct, hactive]
    exact ⟨_, rfl, rfl⟩
  · rw [hct, hactive]
    exact ⟨_, rfl, congrArg Res.outcome (rxGroup_of_unarmed (.inl rfl))⟩
  · rw [hactive]
    simp only [List.mem_cons, List.not_mem_nil, or_false] at hct
    obtain h | h | h | h := hct <;> rw [h] <;> exact ⟨_, rfl, congrArg Res.outcome (rxGroup_of_unarmed (.inr harm))⟩

end dispatch

/-- Settles O44, in the rule's order: the contract, the three rejections, HO_ACCESS, and the handler. -/
theorem uplinkDispatch : Obligations.UplinkDispatch := by
  intro s tn f x rejected
  refine ⟨rfl, fun hnone => congrArg Res.outcome (rxPos_of_no_position hnone), fun e hsome => ?_⟩
  intro c psk
  have hexec : exec (.rxPos tn f x) s = (rxDispatch tn e f x s).outcome :=
    congrArg Res.outcome (rxPos_of_position hsome)
  have hrejected : rxDispatch tn e f x s = .ok (rxIdle x s) → rejected := by
    intro h
    rw [h] at hexec
    refine ⟨?_, fun hx => ?_⟩
    · rintro rfl
      exact hexec
    · obtain ⟨b, rfl⟩ := Option.ne_none_iff_exists'.1 hx
      rw [← discard_ulReject]
      exact hexec
  have hright : ¬ (psk ∧ e.ct ≠ .pdtch) → (isPsk8 x && e.ct != .pdtch) = false :=
    fun h => Bool.eq_false_iff.2 (mt wrongModulation_iff.1 h)
  refine ⟨fun h => hrejected (rxDispatch_of_wrongModulation (wrongModulation_iff.2 h)),
    fun hct => hrejected (rxDispatch_of_no_uplink hct),
    fun hct hinactive => hrejected (rxDispatch_of_inactive hct hinactive),
    fun hpsk hct hactive harm => ?_, fun hpsk hruns => ?_⟩
  · exact hexec.trans (congrArg Res.outcome (rxDispatch_of_armed (hright hpsk) hct hactive harm))
  · obtain ⟨i, hdecode, hi⟩ := rxDispatch_runs_handler (hright hpsk) hruns
    refine ⟨i, hdecode, hexec.trans hi, fun hlawful => ?_⟩
    obtain ⟨t, ht⟩ := (rxPos_op tn f x).total s hlawful
    exact ⟨t, outcome_next.2 ht⟩

/-! ## Groups (R284 to R287, R290 to R295) -/

section groups

variable {ct : UlCt} {bid : Bid}

theorem closeGroup_of_unlawful (h : ¬ decOk (decodeGroup ct tn ss s) = true) :
    closeGroup ct tn ss s = .error .decContract := if_neg h

/-- CLOSE_GROUP leaves its lane closed. -/
theorem closeGroup_ulOpen (h : closeGroup ct tn ss s = .ok t) : (t.lane tn ss (ulLaneId ct)).ulOpen = false := by
  by_cases hr : decOk (decodeGroup ct tn ss s) = true
  · cases (closeGroup_of_decOk hr).symm.trans h
    rw [(report_step ct tn ss hr _ _).lane, lane_modLane_same]
  · cases (closeGroup_of_unlawful hr).symm.trans h

theorem rxLane_of_not_forced (h : ¬ (s.lane tn ss (ulLaneId ct)).forcesClose bid = true) :
    rxLane ct tn ss bid f x s =
      if bid.toNat + 1 = ct.toCt.groupLen then closeGroup ct tn ss (takePosition ct tn ss bid f x s)
      else .ok (takePosition ct tn ss bid f x s) := by
  rw [rxLane, forceClose, if_neg h]

/-- A forced close, and then the position as the first of a new group. -/
theorem rxLane_of_forced (h : (s.lane tn ss (ulLaneId ct)).forcesClose bid = true)
    (hclose : closeGroup ct tn ss s = .ok t) : rxLane ct tn ss bid f x s = rxLane ct tn ss bid f x t := by
  have hopen : ¬ (t.lane tn ss (ulLaneId ct)).forcesClose bid = true := by
    simp [forcesClose_iff, closeGroup_ulOpen hclose]
  rw [rxLane_of_not_forced hopen, rxLane, forceClose, if_pos h, hclose]

/-- Each of the five handlers is RX_LANE of its type (R291 to R295). -/
theorem exec_rxHandler (ct : UlCt) (tn : Tn) (ss : Ss) (bid : Bid) (f : Fn) (x : Option Burst) (s : State) :
    exec (rxHandler ct tn ss bid f x) s = (rxLane ct tn ss bid f x s).outcome := by
  cases ct <;> rfl

/-- A lane update in terms of the lane it finds. -/
theorem modLane_const (c : Channel) (id : LaneId) (g : Lane → Lane) :
    c.modLane id g = c.modLane id fun _ => g (c.lane id) := by
  cases id <;> rfl

end groups

/-- Settles O45: a forced close comes first, the position is taken with its samples, and the last bid closes. -/
theorem groupPosition : Obligations.GroupPosition := by
  intro s ct tn ss bid f x l both
  have hboth : ∀ {p : Host.Outcome State Fault Refusal → Prop}, p (rxLane ct tn ss bid f x s).outcome →
      both fun i => p (exec i s) := by
    intro p h
    have hhandler : p (exec (rxHandler ct tn ss bid f x) s) := by rwa [exec_rxHandler]
    exact ⟨h, hhandler⟩
  refine ⟨fun hforced s1 hclose => ?_, fun hnot => ?_⟩
  · have hlane : rxLane ct tn ss bid f x s = rxLane ct tn ss bid f x s1 :=
      rxLane_of_forced ((forcesClose_iff l bid).2 hforced) (outcome_next.1 hclose)
    have hhandler : exec (rxHandler ct tn ss bid f x) s = exec (rxHandler ct tn ss bid f x) s1 := by
      rw [exec_rxHandler, exec_rxHandler, hlane]
    exact ⟨congrArg Res.outcome hlane, hhandler⟩
  · intro l0
    have hlane := rxLane_of_not_forced (f := f) (x := x) (mt (forcesClose_iff l bid).1 hnot)
    refine ⟨s.modLane tn ss (ulLaneId ct) fun l => l.accept bid f x, takePosition ct tn ss bid f x s, rfl,
      chanOnly_modChan tn ss s _, ?_, ?_, fun hlast => ?_, fun hlast => ?_⟩
    · rw [State.modLane, chan_modChan_same, modLane_const]
      cases x <;> rfl
    · cases x with
      | none => rfl
      | some b => cases ct <;> rfl
    · refine hboth (p := fun o => o = .next (takePosition ct tn ss bid f x s)) ?_
      rw [hlane, if_neg hlast]
      rfl
    · refine hboth (p := fun o => o = exec (.closeGroup ct tn ss) (takePosition ct tn ss bid f x s)
        ∧ (s.listed.lawful = true → ∃ t, o = .next t)) ⟨?_, fun hlawful => ?_⟩
      · rw [hlane, if_pos hlast]
        rfl
      · obtain ⟨t, ht⟩ := (rxLane_op ct tn ss bid f x).total s hlawful
        exact ⟨t, outcome_next.2 ht⟩

/-- Settles O46: DEC_STEP's answer is refused, or it closes the group and is reported. -/
theorem groupClose : Obligations.GroupClose := by
  intro s ct tn ss c l mode cont g r legal
  have hcont : cont = contOf ct c := by cases ct <;> rfl
  have hresult : r = decodeGroup ct tn ss s := by cases ct <;> rfl
  have hlegal : decOk (decodeGroup ct tn ss s) = true ↔ legal := hresult ▸ decOk_iff r
  refine ⟨fun h => congrArg Res.outcome (closeGroup_of_unlawful (mt hlegal.1 h)), fun h => ?_⟩
  have hclose := closeGroup_of_decOk (hlegal.2 h)
  rw [← hresult, ← hcont] at hclose
  exact ⟨_, _, outcome_next.2 hclose, rfl, rfl, chanOnly_modChan tn ss s _, chan_modChan_same s tn ss _⟩

/-! ## The closed hooks (R292 to R294) -/

/-- UL_FT after a closed TCH group: the mode its frame indicates, where it carries one. -/
def indicatedFt (o : Closed) (r : DecResult) (c : Channel) : BitVec 2 :=
  if (o = .ok ∨ o = .bad) ∧ r.ftValid = true then BitVec.ofNat 2 r.ft else c.ulFt

/-- ACK_TA after a closed SACCH group: the timing advance its block acknowledges, where it carries one. -/
def acknowledgedTa (o : Closed) (r : DecResult) (c : Channel) : BitVec 6 :=
  if o = .ok ∧ r.taValid = true then BitVec.ofNat 6 r.ta else c.ackTa

/-- UL_FACCH_ONG after a closed TCH/H group: a FACCH/H begins with a decoded FACCH and ends with its continuation. -/
def facchOngoing (o : Closed) (r : DecResult) (c : Channel) : Bool :=
  if o = .empty ∨ o = .cont then false else if o = .ok ∧ r.kind = .facch then true else c.ulFacchOng

theorem closedSacch_eq (o : Closed) (r : DecResult) (tn : Tn) (ss : Ss) (s : State) :
    closedSacch o r tn ss s = pwrClock tn ss (s.modChan tn ss fun _ =>
      { s.chan tn ss with ackTa := acknowledgedTa o r (s.chan tn ss) }) := by
  unfold closedSacch acknowledgedTa
  split
  · rw [modChan_const]
  · exact congrArg _ (modChan_self s tn ss).symm

theorem noteFt_eq (r : DecResult) (tn : Tn) (ss : Ss) (s : State) :
    noteFt r tn ss s = s.modChan tn ss fun _ =>
      { s.chan tn ss with ulFt := if r.ftValid = true then BitVec.ofNat 2 r.ft else (s.chan tn ss).ulFt } := by
  unfold noteFt
  split
  · exact modChan_const s tn ss _
  · exact (modChan_self s tn ss).symm

theorem setUlFacch_eq (v : Bool) (tn : Tn) (ss : Ss) (s : State) :
    setUlFacch v tn ss s = s.modChan tn ss fun _ => { s.chan tn ss with ulFacchOng := v } := modChan_const s tn ss _

theorem closedTchf_eq (o : Closed) (r : DecResult) (ber : Nat) (tn : Tn) (ss : Ss) (s : State) :
    closedTchf o r ber tn ss s =
      let s1 := s.modChan tn ss fun _ => { s.chan tn ss with ulFt := indicatedFt o r (s.chan tn ss) }
      if o = .bad ∨ o = .ok ∧ r.kind ≠ .facch then amrSample tn ss ber 1 s1 else s1 := by
  have hnote : (if o = .ok ∨ o = .bad then noteFt r tn ss s else s)
      = s.modChan tn ss fun _ => { s.chan tn ss with ulFt := indicatedFt o r (s.chan tn ss) } := by
    unfold indicatedFt
    split
    · next h => rw [noteFt_eq]; simp only [h, true_and]
    · next h => simp only [h, false_and, if_false]; exact (modChan_self s tn ss).symm
  rw [closedTchf, hnote]

theorem closedTchh_eq (o : Closed) (r : DecResult) (ber : Nat) (tn : Tn) (ss : Ss) (s : State) :
    closedTchh o r ber tn ss s =
      let s1 := s.modChan tn ss fun _ => { s.chan tn ss with
        ulFt := indicatedFt o r (s.chan tn ss), ulFacchOng := facchOngoing o r (s.chan tn ss) }
      if o = .bad ∨ o = .ok ∧ r.kind ≠ .facch then amrSample tn ss ber 2 s1 else s1 := by
  cases o with
  | empty => simp [closedTchh, setUlFacch_eq, indicatedFt, facchOngoing]
  | cont => simp [closedTchh, setUlFacch_eq, indicatedFt, facchOngoing]
  | bad => simp [closedTchh, noteFt_eq, indicatedFt, facchOngoing]
  | ok =>
    by_cases hfacch : r.kind = .facch
    · simp [closedTchh, hfacch, setUlFacch_eq, noteFt_eq, modChan_modChan, indicatedFt, facchOngoing]
    · simp [closedTchh, hfacch, noteFt_eq, indicatedFt, facchOngoing]

/-- The records of REPORT, and then its channel written: what stands before the loop of the hook runs. -/
theorem reported_frame (ct : UlCt) (tn : Tn) (ss : Ss) (r : DecResult) (cont : Bool) (s : State) (c : Channel) :
    let t := (reportRecords ct tn ss r cont s).modChan tn ss fun _ => c
    t = { s with tns := t.tns, out := t.out }
      ∧ (∃ meas data, t.out = s.out ++ [⟨.hosto, meas⟩, ⟨.hosto, data⟩]) ∧ chanOnly tn ss s t := by
  intro t
  have hrecords := reportRecords_eq ct tn ss r cont s
  have hsame := chanOnly_of_tns (chanOnly_refl tn ss s) (reportRecords_tns ct tn ss r cont s)
  refine ⟨?_, ⟨_, _, congrArg State.out hrecords⟩, chanOnly_trans hsame (chanOnly_modChan tn ss _ _)⟩
  simp only [t, hrecords]
  rfl

theorem reportRecords_chan (ct : UlCt) (tn : Tn) (ss : Ss) (r : DecResult) (cont : Bool) (s : State) :
    (reportRecords ct tn ss r cont s).chan tn ss = s.chan tn ss := by
  rw [reportRecords_eq]
  rfl

/-- Settles O49: each hook is one write of its channel after the two records, and then its loop. -/
theorem reportHooks : Obligations.ReportHooks := by
  intro s tn ss r cont outcome ber reported c oA oM ft
  have hsacch := closedSacch_eq oA r tn ss (reportRecords .sacch tn ss r cont s)
  have htchf := closedTchf_eq oM r (ber c.laneM) tn ss (reportRecords .tchf tn ss r cont s)
  have htchh := closedTchh_eq oM r (ber c.laneM) tn ss (reportRecords .tchh tn ss r cont s)
  rw [reportRecords_chan] at hsacch htchf htchh
  have hrun : ∀ (ct : UlCt) (l : Lane), l = s.lane tn ss (ulLaneId ct) →
      exec (.report ct tn ss r cont) s
        = .next (closedHook ct (outcome l) r (ber l) tn ss (reportRecords ct tn ss r cont s)) := by
    rintro ct l rfl
    show Host.Outcome.next (report ct tn ss r cont s) = _
    rw [report_eq, berPpt_of_outcome]
    rfl
  refine ⟨⟨_, reported_frame .sacch tn ss r cont s _, chan_modChan_same _ tn ss _, ?_⟩,
    ⟨_, reported_frame .tchf tn ss r cont s _, chan_modChan_same _ tn ss _, fun h => ?_, fun h => ?_⟩,
    ⟨_, reported_frame .tchh tn ss r cont s _, chan_modChan_same _ tn ss _, fun h => ?_, fun h => ?_⟩⟩
  · exact (hrun .sacch c.laneA rfl).trans (congrArg _ hsacch)
  · exact (hrun .tchf c.laneM rfl).trans (congrArg _ (htchf.trans (if_pos h)))
  · exact (hrun .tchf c.laneM rfl).trans (congrArg _ (htchf.trans (if_neg h)))
  · exact (hrun .tchh c.laneM rfl).trans (congrArg _ (htchh.trans (if_pos h)))
  · exact (hrun .tchh c.laneM rfl).trans (congrArg _ (htchh.trans (if_neg h)))

/-! ## Access bursts and idle positions (R296 to R299) -/

section access

variable {ind : RachResult → Burst → State → State}

theorem accessBurst_of_unlawful (h : ¬ rachOk (s.rachDec (b.soft.take 148)) = true) :
    accessBurst ind (some b) s = .error .rachContract := if_neg h

theorem accessBurst_of_failed (h : rachOk (s.rachDec (b.soft.take 148)) = true)
    (hok : (s.rachDec (b.soft.take 148)).ok = false) :
    accessBurst ind (some b) s = .ok (s.discard .accessFail) := by
  simp [accessBurst, h, hok]

theorem accessBurst_of_decoded (h : rachOk (s.rachDec (b.soft.take 148)) = true)
    (hok : (s.rachDec (b.soft.take 148)).ok = true) :
    accessBurst ind (some b) s = .ok (ind (s.rachDec (b.soft.take 148)) b s) := by
  simp [accessBurst, h, hok]

end access

/-- Settles O50: the three handlers are one decode with an indication each, and an idle position discards a burst. -/
theorem accessBursts : Obligations.AccessBursts := by
  intro s tn ss f access rach
  have haccess : ∀ {i : Option Burst → Instr} {ind : RachResult → Burst → State → State}
      {bytes : Burst → RachResult → Nat → Bytes}, (∀ x, exec (i x) s = (accessBurst ind x s).outcome) →
      (∀ r b, ind r b s = s.emit .hosto (bytes b r (berPpt r.nerr r.nbits))) → access i bytes := by
    intro i ind bytes hexec hind
    refine ⟨hexec none, fun b => ?_⟩
    intro r ber
    have hlawful : rachOk r = true ↔ r.ra ≤ 2047 ∧ r.nerr ≤ r.nbits := rachOk_iff r
    rw [hexec]
    refine ⟨fun h => ?_, fun hra hnerr hok => ?_, fun hra hnerr hok => ?_⟩
    · rw [accessBurst_of_unlawful (fun hr => by have := hlawful.1 hr; omega)]
      rfl
    · rw [accessBurst_of_failed (hlawful.2 ⟨hra, hnerr⟩) hok, discard_accessFail]
      rfl
    · rw [accessBurst_of_decoded (hlawful.2 ⟨hra, hnerr⟩) hok, hind, berPpt_eq]
      rfl
  refine ⟨haccess (fun _ => rfl) fun _ _ => rfl, haccess (fun _ => rfl) fun _ _ => rfl,
    haccess (bytes := fun b r ber =>
      recHoInd (idx8 tn) (idx8 ss) (fn32 f) (u16 r.ra) (s16 b.toa) (u16 ber) (s16 b.rssi))
      (fun _ => rfl) fun _ _ => rfl, rfl, fun b => ?_⟩
  rw [← discard_ulReject]
  rfl

/-! ## No timing register is read or written (R300 (d)) -/

/-- An operation that leaves the clock unit and the configuration alone and does the same whatever LAST_FN, LAST_TS and
DEADLINE hold. -/
structure TimeFree (g : State → Res State) : Prop where
  keeps : ∀ s t, g s = .ok t → t.clk = s.clk ∧ t.cfg = s.cfg
  time  : ∀ s o, g (s.retime o) = (g s).map fun t => t.retime o

theorem UlOp.timeFree {g : State → Res State} (h : UlOp tn g) : TimeFree g :=
  ⟨fun s t ht => ⟨(h.step s t ht).clk, (h.step s t ht).cfg⟩, h.time⟩

theorem TimeFree.ofDiscard (k : Counter) : TimeFree fun s => .ok (s.discard k) := (UlFn.ofDiscard 0 k).op.timeFree

theorem TimeFree.ofNoteUl (tn : Tn) (fn : Fn) : TimeFree fun s => .ok (noteUl tn fn s) :=
  ⟨fun s t ht => by cases ht; exact ⟨rfl, rfl⟩, fun _ _ => rfl⟩

theorem TimeFree.seq {g h : State → Res State} (hg : TimeFree g) (hh : TimeFree h) :
    TimeFree fun s => match g s with | .ok u => h u | .error e => .error e := by
  constructor
  · intro s t ht
    split at ht
    · next u hu =>
      obtain ⟨hclk, hcfg⟩ := hg.keeps s u hu
      obtain ⟨hclk', hcfg'⟩ := hh.keeps u t ht
      exact ⟨hclk'.trans hclk, hcfg'.trans hcfg⟩
    · cases ht
  · intro s o
    rw [hg.time]
    cases g s with
    | ok u => exact hh.time u o
    | error e => rfl

/-- A choice made on something the timing registers do not reach. -/
theorem TimeFree.ite {g h : State → Res State} (p : State → Prop) [DecidablePred p]
    (hp : ∀ s o, p (s.retime o) ↔ p s) (hg : TimeFree g) (hh : TimeFree h) :
    TimeFree fun s => if p s then g s else h s := by
  constructor
  · intro s t ht
    split at ht
    · exact hg.keeps s t ht
    · exact hh.keeps s t ht
  · intro s o
    simp only [hp]
    split
    · exact hg.time s o
    · exact hh.time s o


/-- An operation with an operand the timing registers do not reach. -/
theorem TimeFree.dep {β : Type} (k : State → β) (hk : ∀ s o, k (s.retime o) = k s)
    {g : β → State → Res State} (hg : ∀ v, TimeFree (g v)) : TimeFree fun s => g (k s) s :=
  ⟨fun s t ht => (hg (k s)).keeps s t ht, fun s o => by
    show g (k (s.retime o)) (s.retime o) = _
    rw [hk]
    exact (hg (k s)).time s o⟩

theorem ulSeq_timeFree (tn : Tn) (fn : Fn) (b : Burst) : TimeFree (ulSeq tn fn b) := by
  have hgap : TimeFree fun s => if (s.slot tn).ulLastValid = true ∧ 2 ≤ sdiff fn (s.slot tn).ulLastFn
      ∧ sdiff fn (s.slot tn).ulLastFn ≤ s.cfg.ulGapMax.toNat
    then ulGap tn (s.slot tn).ulLastFn fn s else .ok s :=
    .ite _ (fun _ _ => Iff.rfl)
      (.dep (fun s => (s.slot tn).ulLastFn) (fun _ _ => rfl) fun last => (ulGap_op tn last fn).timeFree)
      (UlFn.id tn).op.timeFree
  have hpos := (TimeFree.ofNoteUl tn fn).seq (rxPos_op tn fn (some b)).timeFree
  exact .ite (fun s => (s.slot tn).ulLastValid = true ∧ sdiff fn (s.slot tn).ulLastFn ≤ 0) (fun _ _ => Iff.rfl)
    (.ofDiscard .ulReject) (hgap.seq hpos)

theorem ulBurst_timeFree (p : Option (Tn × Fn × Burst)) : TimeFree (ulBurst p) :=
  match p with
  | none => .ofDiscard .dataMalformed
  | some (tn, fn, b) =>
    .ite (fun s => s.clk.dropsRadio = true) (fun _ _ => Iff.rfl) (.ofDiscard .stateIgnored)
      (.ite (fun s => (s.slot tn).comb = 0) (fun _ _ => Iff.rfl) (.ofDiscard .ulReject) (ulSeq_timeFree tn fn b))

/-- Every instruction of the uplink runs an operation that is free of the timing registers. -/
theorem uplink_timeFree {i : Instr} (h : isUplink i = true) :
    ∃ g, TimeFree g ∧ ∀ s, exec i s = Res.outcome (g s) := by
  cases i with
  | ulBurstNb b => exact ⟨_, ulBurst_timeFree (parseUl .gmsk 148 b), fun _ => rfl⟩
  | ulBurst8psk b => exact ⟨_, ulBurst_timeFree (parseUl .psk8 444 b), fun _ => rfl⟩
  | ulSeq tn fn b => exact ⟨_, ulSeq_timeFree tn fn b, fun _ => rfl⟩
  | ulGap tn last fn => exact ⟨_, (ulGap_op tn last fn).timeFree, fun _ => rfl⟩
  | rxPos tn f x => exact ⟨_, (rxPos_op tn f x).timeFree, fun _ => rfl⟩
  | rxLane ct tn ss bid f x => exact ⟨_, (rxLane_op ct tn ss bid f x).timeFree, fun _ => rfl⟩
  | closeGroup ct tn ss => exact ⟨_, (closeGroup_op ct tn ss).timeFree, fun _ => rfl⟩
  | report ct tn ss r cont => exact ⟨_, (report_fn ct tn ss r cont).op.timeFree, fun _ => rfl⟩
  | rxMissing tn f => exact ⟨_, (rxPos_op tn f none).timeFree, fun _ => rfl⟩
  | rxIdle x => exact ⟨_, (rxIdle_fn 0 x).op.timeFree, fun _ => rfl⟩
  | rxSdcch tn ss bid f x => exact ⟨_, (rxLane_op .sdcch tn ss bid f x).timeFree, fun _ => rfl⟩
  | rxSacch tn ss bid f x => exact ⟨_, (rxLane_op .sacch tn ss bid f x).timeFree, fun _ => rfl⟩
  | rxTchf tn ss bid f x => exact ⟨_, (rxLane_op .tchf tn ss bid f x).timeFree, fun _ => rfl⟩
  | rxTchh tn ss bid f x => exact ⟨_, (rxLane_op .tchh tn ss bid f x).timeFree, fun _ => rfl⟩
  | rxPdtch tn ss bid f x => exact ⟨_, (rxLane_op .pdtch tn ss bid f x).timeFree, fun _ => rfl⟩
  | rxPtcch tn ss f x => exact ⟨_, (rxPtcch_op tn f x).timeFree, fun _ => rfl⟩
  | rxRach tn f x => exact ⟨_, (rxRach_op tn f x).timeFree, fun _ => rfl⟩
  | hoAccess tn ss f x => exact ⟨_, (hoAccess_op tn ss f x).timeFree, fun _ => rfl⟩
  | _ => cases h

/-- Settles O51: the operation an uplink instruction runs is free of the timing registers. -/
theorem uplinkIgnoresTiming : Obligations.UplinkIgnoresTiming := by
  intro i s t hi hexec
  obtain ⟨g, hfree, hruns⟩ := uplink_timeFree hi
  rw [hruns, outcome_next] at hexec
  obtain ⟨hclk, hcfg⟩ := hfree.keeps s t hexec
  refine ⟨hclk, hcfg, fun lastFn lastTs deadline => ?_⟩
  have htime := hfree.time s ⟨lastFn, lastTs, deadline⟩
  rw [hexec] at htime
  exact (hruns _).trans (outcome_next.2 htime)

end Sys2Proof.Machine

namespace Sys2Proof.Machine

/-! SUPPORT. The family of 45_loops.md: one write of the channel with the indication of a change, the samples of the three
loops, their evaluations, and a run of timing-advance samples. -/

variable {s t : State} {tn : Tn} {ss : Ss}

/-! ## What a loop writes (R122, R340 (d)) -/

/-- From s to t only channel (tn, ss) and the output changed, and the channel is now c. -/
def ChanBecomes (tn : Tn) (ss : Ss) (s t : State) (c : Channel) : Prop :=
  t = { s with tns := t.tns, out := t.out } ∧ chanOnly tn ss s t ∧ t.chan tn ss = c

theorem chanBecomes_modChan (s : State) (tn : Tn) (ss : Ss) (f : Channel → Channel) :
    ChanBecomes tn ss s (s.modChan tn ss f) (f (s.chan tn ss)) :=
  ⟨rfl, chanOnly_modChan tn ss s f, chan_modChan_same s tn ss f⟩

theorem ChanBecomes.emitLoop {c : Channel} (h : ChanBecomes tn ss s t c) (w : LoopKind) (v : Int) :
    ChanBecomes tn ss s (t.emitLoop tn ss w v) c := by
  obtain ⟨hframe, honly, hchan⟩ := h
  refine ⟨?_, chanOnly_emit honly, hchan⟩
  show { t with out := _ } = _
  rw [hframe]
  rfl

/-- An evaluation of a loop leaves the channel as c, and LOOP_IND carries the value v exactly where it is a change. -/
structure Evaluates (tn : Tn) (ss : Ss) (w : LoopKind) (same : Prop) (v : Int) (s t : State) (c : Channel) : Prop where
  becomes : ChanBecomes tn ss s t c
  quiet   : same → t.out = s.out
  tells   : ¬ same → t.out = s.out ++ [⟨.hosto, recLoopInd (idx8 tn) (idx8 ss) w.code (s16 v)⟩]

theorem evaluates_ite (s : State) (tn : Tn) (ss : Ss) (f : Channel → Channel) (w : LoopKind) (same : Prop)
    [Decidable same] (v : Int) :
    Evaluates tn ss w same v s (if same then s.modChan tn ss f else (s.modChan tn ss f).emitLoop tn ss w v)
      (f (s.chan tn ss)) := by
  have hwrite := chanBecomes_modChan s tn ss f
  by_cases h : same
  · rw [if_pos h]
    exact ⟨hwrite, fun _ => rfl, fun hne => absurd h hne⟩
  · rw [if_neg h]
    exact ⟨hwrite.emitLoop w v, fun he => absurd he h, fun _ => rfl⟩

/-! ## Power (R331 to R333) -/

theorem pwrSample_of_disabled (h : s.cfg.pwrLoopEn = false) (rssi : Int) : pwrSample tn ss rssi s = s := by
  simp [pwrSample, h]

theorem pwrSample_of_enabled (h : s.cfg.pwrLoopEn = true) (rssi : Int) :
    pwrSample tn ss rssi s = s.modChan tn ss fun c => c.pwrSample rssi := if_pos h

theorem pwrClock_of_disabled (h : s.cfg.pwrLoopEn = false) : pwrClock tn ss s = s := by
  simp [pwrClock, h]

/-- Every second clock evaluates: the one that finds PWR_CLK set (R332). -/
theorem pwrClock_of_enabled (h : s.cfg.pwrLoopEn = true) : pwrClock tn ss s =
    let s1 := s.modChan tn ss fun c => { c with pwrClk := !c.pwrClk }
    if (s.chan tn ss).pwrClk then pwrEval tn ss s1 else s1 := by
  simp only [pwrClock, if_pos h, chan_modChan_same]
  cases (s.chan tn ss).pwrClk <;> rfl

/-- A clamp between ordered bounds stays between them (R6). -/
theorem clampInt_mem {lo hi : Int} (h : lo ≤ hi) (x : Int) : lo ≤ clampInt x lo hi ∧ clampInt x lo hi ≤ hi := by
  unfold clampInt
  omega

/-- The new MS_PWR fits its signed field of 8 bits, whatever the order of the bounds (R333). -/
theorem pwrNewOf_toInt (g : GlobalCfg) (c : Channel) : (BitVec.ofInt 8 (pwrNewOf g c)).toInt = pwrNewOf g c := by
  have hmin := BitVec.le_toInt g.minDbm
  have hmax := BitVec.le_toInt g.maxDbm
  have hmax' := BitVec.toInt_lt (x := g.maxDbm)
  apply BitVec.toInt_ofInt_eq_self (by decide)
  · unfold pwrNewOf clampInt
    omega
  · unfold pwrNewOf clampInt
    omega

/-- PWR_EVAL as one write of the channel: an MS_PWR that does not change may be written again. -/
theorem pwrEval_eq (s : State) (tn : Tn) (ss : Ss) : pwrEval tn ss s =
    let new := pwrNewOf s.cfg (s.chan tn ss)
    let s1 := s.modChan tn ss fun c => { c with pwrCnt := 0, pwrMin := 0, msPwr := BitVec.ofInt 8 new }
    if new = (s.chan tn ss).msPwr.toInt then s1 else s1.emitLoop tn ss .pwr new := by
  simp only [pwrEval, modChan_modChan]
  split
  · next hsame =>
    have hkept : BitVec.ofInt 8 (pwrNewOf s.cfg (s.chan tn ss)) = (s.chan tn ss).msPwr := by
      rw [hsame, BitVec.ofInt_toInt]
    rw [hkept, modChan_const, modChan_const (f := fun c => { c with msPwr := _, pwrCnt := 0, pwrMin := 0 })]
  · rfl

theorem pwrEval_evaluates (s : State) (tn : Tn) (ss : Ss) :
    let c := s.chan tn ss
    let new := pwrNewOf s.cfg c
    Evaluates tn ss .pwr (new = c.msPwr.toInt) new s (pwrEval tn ss s)
      { c with pwrCnt := 0, pwrMin := 0, msPwr := BitVec.ofInt 8 new } := by
  rw [pwrEval_eq]
  exact evaluates_ite s tn ss _ .pwr _ _

/-- Settles O52: the samples and the clock by the enable bit, and the evaluation as one write with its indication. -/
theorem powerLoop : Obligations.PowerLoop := by
  intro s tn ss c becomes clamp diff new
  refine ⟨fun hoff => ⟨fun rssi => congrArg Host.Outcome.next (pwrSample_of_disabled hoff rssi),
    congrArg Host.Outcome.next (pwrClock_of_disabled hoff)⟩, fun hon rssi => ?_, fun hon => ?_, ?_⟩
  · refine ⟨_, congrArg Host.Outcome.next (pwrSample_of_enabled hon rssi), rfl, ?_⟩
    rw [← satAdd_eq_satInc]
    exact chanBecomes_modChan s tn ss _
  · have hclock := pwrClock_of_enabled (tn := tn) (ss := ss) hon
    refine ⟨s.modChan tn ss fun c => { c with pwrClk := !c.pwrClk }, rfl, chanBecomes_modChan s tn ss _,
      fun hclk => ?_, fun hclk => ?_⟩
    · exact congrArg Host.Outcome.next (hclock.trans (if_neg (by rw [hclk]; decide)))
    · exact congrArg Host.Outcome.next (hclock.trans (if_pos hclk))
  · have heval := pwrEval_evaluates s tn ss
    refine ⟨_, rfl, heval.becomes, heval.quiet, heval.tells, fun hrange => ?_⟩
    obtain ⟨-, -, hchan⟩ := heval.becomes
    rw [hchan]
    show _ ≤ (BitVec.ofInt 8 (pwrNewOf s.cfg c)).toInt ∧ (BitVec.ofInt 8 (pwrNewOf s.cfg c)).toInt ≤ _
    rw [pwrNewOf_toInt]
    exact clampInt_mem hrange _

/-! ## Timing advance (R334 to R336) -/

theorem taSample_of_ignored (h : s.cfg.taLoopEn = false ∨ (s.chan tn ss).ackTa ≠ (s.chan tn ss).rqdTa) (toa : Int) :
    taSample tn ss toa s = s := by
  refine if_neg fun ⟨hon, hack⟩ => ?_
  rcases h with hoff | hne
  · exact Bool.false_ne_true (hoff.symm.trans hon)
  · exact hne hack

/-- A counted sample evaluates where it is the 16th: the one that finds 15 before it (R334). -/
theorem taSample_of_counted (hon : s.cfg.taLoopEn = true) (hack : (s.chan tn ss).ackTa = (s.chan tn ss).rqdTa)
    (toa : Int) : taSample tn ss toa s =
    let s1 := s.modChan tn ss fun c => c.addToa toa
    if (s.chan tn ss).taCnt = 15 then taEval tn ss s1 else s1 := by
  have hlast : ((s.chan tn ss).taCnt + 1 = 16) = ((s.chan tn ss).taCnt = 15) :=
    propext ⟨fun h => by bv_omega, fun h => by bv_omega⟩
  simp only [taSample, if_pos (And.intro hon hack), chan_modChan_same, hlast]
  rfl

/-- The requested TA after an evaluation as a number: the step of one stays within 0..63 (R336). -/
theorem taNewOf_toNat (c : Channel) : (taNewOf c).toNat =
    if 10 * c.taSum.toInt > 36864 ∧ c.rqdTa.toNat < 63 then c.rqdTa.toNat + 1
    else if 10 * c.taSum.toInt < -36864 ∧ 0 < c.rqdTa.toNat then c.rqdTa.toNat - 1 else c.rqdTa.toNat := by
  unfold taNewOf
  split
  · next h => obtain ⟨-, hlt⟩ := h; bv_omega
  · split
    · next h => obtain ⟨-, hpos⟩ := h; bv_omega
    · rfl

theorem taEval_evaluates (s : State) (tn : Tn) (ss : Ss) :
    let c := s.chan tn ss
    Evaluates tn ss .ta (taNewOf c = c.rqdTa) (taNewOf c).toNat s (taEval tn ss s)
      { c with rqdTa := taNewOf c, taSum := 0, taCnt := 0 } :=
  evaluates_ite s tn ss (fun c => { c with rqdTa := taNewOf (s.chan tn ss), taSum := 0, taCnt := 0 }) .ta _ _

/-- Settles O53: a sample by the acknowledged TA and its count, and the evaluation with the step as a number. -/
theorem timingAdvanceLoop : Obligations.TimingAdvanceLoop := by
  intro s tn ss c becomes new
  refine ⟨fun toa h => congrArg Host.Outcome.next (taSample_of_ignored h toa), fun toa hon hack => ?_, ?_⟩
  · have hsample := taSample_of_counted hon hack toa
    exact ⟨s.modChan tn ss fun c => c.addToa toa, rfl, chanBecomes_modChan s tn ss _,
      fun hcnt => congrArg Host.Outcome.next (hsample.trans (if_neg hcnt)),
      fun hcnt => congrArg Host.Outcome.next (hsample.trans (if_pos hcnt))⟩
  · have hnew : (taNewOf c).toNat = new := taNewOf_toNat c
    have heval := taEval_evaluates s tn ss
    rw [← hnew, BitVec.ofNat_toNat, BitVec.setWidth_eq, ← BitVec.ofInt_natCast]
    exact ⟨_, rfl, heval.becomes, fun h => heval.quiet (BitVec.eq_of_toNat_eq h),
      fun h => heval.tells fun e => h (congrArg BitVec.toNat e)⟩

/-! ## AMR codec mode (R337 to R339) -/

theorem amrSample_of_disabled (h : (s.chan tn ss).amrEn = false) (ber w : Nat) : amrSample tn ss ber w s = s := by
  simp [amrSample, h]

theorem amrSample_of_unsynced (hon : (s.chan tn ss).amrEn = true) (h : (s.chan tn ss).ulFt ≠ (s.chan tn ss).dlCmr)
    (ber w : Nat) : amrSample tn ss ber w s = s.modChan tn ss fun c => { c with berSum := 0, berNum := 0 } := by
  simp [amrSample, Channel.amrSynced, hon, h]

/-- A weighted sample evaluates where it completes 48 frames (R337). -/
theorem amrSample_of_synced (hon : (s.chan tn ss).amrEn = true) (h : (s.chan tn ss).ulFt = (s.chan tn ss).dlCmr)
    (ber w : Nat) : amrSample tn ss ber w s =
    let s1 := s.modChan tn ss fun c => c.addBer ber w
    if 48 ≤ ((s.chan tn ss).berNum + BitVec.ofNat 8 w).toNat then amrEval tn ss s1 else s1 := by
  have hsync : (s.chan tn ss).amrSynced = true := beq_iff_eq.2 h
  simp only [amrSample, if_pos hon, if_pos hsync, chan_modChan_same]
  rfl

/-- A boundary that exists, as its threshold and hysteresis in the two lists (R63). -/
theorem boundary_eq (c : Channel) {i : Nat} (h : i < 3) :
    c.boundary i = (((c.thr.toList[i]?).getD 0).toNat, ((c.hyst.toList[i]?).getD 0).toNat) := by
  have hthr : c.thr.toList[i]? = some c.thr[i] := by simp [h]
  have hhyst : c.hyst.toList[i]? = some c.hyst[i] := by simp [h]
  rw [hthr, hhyst]
  have hi : i = 0 ∨ i = 1 ∨ i = 2 := by omega
  rcases hi with rfl | rfl | rfl <;> rfl

/-- The mode after an evaluation as a number: the boundary below is asked first, and only boundaries 0..2 (R339). -/
theorem amrNewOf_toNat (c : Channel) :
    let m := c.dlCmr.toNat
    let thr (i : Nat) : Nat := ((c.thr.toList[i]?).getD 0).toNat
    let hyst (i : Nat) : Nat := ((c.hyst.toList[i]?).getD 0).toNat
    (amrNewOf c).toNat =
      if 0 < m ∧ thr (m - 1) * c.berNum.toNat < c.berSum.toNat then m - 1
      else if m < c.ncodecsM1.toNat ∧ (c.berSum.toNat : Int) < ((thr m : Int) - hyst m) * c.berNum.toNat then m + 1
      else m := by
  intro m thr hyst
  have hm : m < 4 := c.dlCmr.isLt
  have hn : c.ncodecsM1.toNat < 4 := c.ncodecsM1.isLt
  have hdown : (c.boundary (m - 1)).1 = thr (m - 1) := congrArg Prod.fst (boundary_eq c (by omega))
  have hup : (m < c.ncodecsM1.toNat
        ∧ (c.berSum.toNat : Int) < (((c.boundary m).1 : Int) - (c.boundary m).2) * c.berNum.toNat)
      ↔ (m < c.ncodecsM1.toNat ∧ (c.berSum.toNat : Int) < ((thr m : Int) - hyst m) * c.berNum.toNat) :=
    and_congr_right fun h => by rw [boundary_eq c (by omega)]
  simp only [amrNewOf]
  change BitVec.toNat (if 0 < m ∧ (c.boundary (m - 1)).1 * c.berNum.toNat < c.berSum.toNat then _ else _) = _
  rw [hdown]
  split
  · next h =>
    obtain ⟨hpos, -⟩ := h
    have hdec : (c.dlCmr - 1).toNat = c.dlCmr.toNat - 1 := by bv_omega
    exact hdec
  · rw [if_congr hup rfl rfl]
    split
    · next h =>
      obtain ⟨hlt, -⟩ := h
      have hinc : (c.dlCmr + 1).toNat = c.dlCmr.toNat + 1 := by bv_omega
      exact hinc
    · rfl

theorem amrEval_evaluates (s : State) (tn : Tn) (ss : Ss) :
    let c := s.chan tn ss
    Evaluates tn ss .cmr (amrNewOf c = c.dlCmr) (amrNewOf c).toNat s (amrEval tn ss s)
      { c with dlCmr := amrNewOf c, berSum := 0, berNum := 0 } :=
  evaluates_ite s tn ss (fun c => { c with dlCmr := amrNewOf (s.chan tn ss), berSum := 0, berNum := 0 }) .cmr _ _

/-- Settles O54: a sample by the enable bit and the synchronisation, and the evaluation with the mode as a number. -/
theorem codecModeLoop : Obligations.CodecModeLoop := by
  intro s tn ss c becomes m thr hyst new
  refine ⟨fun ber w hoff => congrArg Host.Outcome.next (amrSample_of_disabled hoff ber w), fun ber w hon hne => ?_,
    fun ber w hon heq => ?_, ?_⟩
  · exact ⟨_, congrArg Host.Outcome.next (amrSample_of_unsynced hon hne ber w), rfl, chanBecomes_modChan s tn ss _⟩
  · have hsample := amrSample_of_synced hon heq ber w
    exact ⟨s.modChan tn ss fun c => c.addBer ber w, rfl, chanBecomes_modChan s tn ss _,
      fun hnum => congrArg Host.Outcome.next (hsample.trans (if_neg (Nat.not_le.2 hnum))),
      fun hnum => congrArg Host.Outcome.next (hsample.trans (if_pos hnum))⟩
  · have hnew : (amrNewOf c).toNat = new := amrNewOf_toNat c
    have heval := amrEval_evaluates s tn ss
    rw [← hnew, BitVec.ofNat_toNat, BitVec.setWidth_eq, ← BitVec.ofInt_natCast]
    exact ⟨_, rfl, heval.becomes, fun h => heval.quiet (BitVec.eq_of_toNat_eq h),
      fun h => heval.tells fun e => h (congrArg BitVec.toNat e)⟩

/-! ## A run of timing-advance samples (R340 (b)) -/

/-- The accumulation of a run of counted samples (R334). -/
def Channel.addToas (c : Channel) (toas : List Int) : Channel :=
  { c with taSum := c.taSum + BitVec.ofInt 32 toas.sum, taCnt := c.taCnt + BitVec.ofNat 5 toas.length }

theorem addToas_nil (c : Channel) : c.addToas [] = c := by
  simp [Channel.addToas]

theorem addToas_append (c : Channel) (xs ys : List Int) : (c.addToas xs).addToas ys = c.addToas (xs ++ ys) := by
  simp [Channel.addToas, BitVec.ofInt_add, BitVec.ofNat_add, BitVec.add_assoc]

theorem addToas_singleton (c : Channel) (toa : Int) : c.addToas [toa] = c.addToa toa := by
  simp [Channel.addToas, Channel.addToa, BitVec.ofInt_add]

/-- Counted samples that do not reach the sixteenth only accumulate. -/
theorem taSamples_accumulate (hon : s.cfg.taLoopEn = true) (hack : (s.chan tn ss).ackTa = (s.chan tn ss).rqdTa)
    (toas : List Int) (hlen : (s.chan tn ss).taCnt.toNat + toas.length < 16) :
    toas.foldl (fun o v => thenExec o (.taSample tn ss v)) (.next s)
      = .next (s.modChan tn ss fun c => c.addToas toas) := by
  induction toas generalizing s with
  | nil => simp only [List.foldl_nil, addToas_nil]; rw [modChan_const, modChan_self]
  | cons v vs ih =>
    rw [List.length_cons] at hlen
    have hcnt : (s.chan tn ss).taCnt ≠ 15 := by bv_omega
    have hstep : exec (.taSample tn ss v) s = .next (s.modChan tn ss fun c => c.addToas [v]) := by
      simp only [addToas_singleton]
      exact congrArg _ ((taSample_of_counted hon hack v).trans (if_neg hcnt))
    have hnext : ((s.chan tn ss).addToas [v]).taCnt.toNat = (s.chan tn ss).taCnt.toNat + 1 := by
      simp only [Channel.addToas, List.length_singleton]
      bv_omega
    have hrest := ih (s := s.modChan tn ss fun c => c.addToas [v]) hon (by rwa [chan_modChan_same])
      (by rw [chan_modChan_same, hnext]; omega)
    rw [List.foldl_cons, thenExec, hstep, hrest]
    simp only [modChan_modChan, addToas_append, List.singleton_append]

/-- A run that completes the sixteen accumulates and then evaluates. -/
theorem taSamples_evaluate (hon : s.cfg.taLoopEn = true) (hack : (s.chan tn ss).ackTa = (s.chan tn ss).rqdTa)
    (hcnt : (s.chan tn ss).taCnt = 0) {toas : List Int} (hlen : toas.length = 16) :
    toas.foldl (fun o v => thenExec o (.taSample tn ss v)) (.next s)
      = .next (taEval tn ss (s.modChan tn ss fun c => c.addToas toas)) := by
  obtain rfl | ⟨init, v, rfl⟩ := toas.eq_nil_or_concat'
  · cases hlen
  · have hinit : init.length = 15 := by simpa using hlen
    have hcnt15 : ((s.chan tn ss).addToas init).taCnt = 15 := by
      simp [Channel.addToas, hcnt, hinit]
    have hfirst := taSamples_accumulate hon hack init (by rw [hcnt, hinit]; decide)
    have hlast := taSample_of_counted (s := s.modChan tn ss fun c => c.addToas init) (tn := tn) (ss := ss) hon
      (by rwa [chan_modChan_same]) v
    rw [chan_modChan_same] at hlast
    have hjoin : (s.modChan tn ss fun c => c.addToas (init ++ [v]))
        = (s.modChan tn ss fun c => c.addToas init).modChan tn ss fun c => c.addToa v := by
      simp only [modChan_modChan, ← addToas_append, addToas_singleton]
    rw [List.foldl_append, hfirst, hjoin]
    exact congrArg Host.Outcome.next (hlast.trans (if_pos hcnt15))

/-- Sixteen samples beyond 230.4/256 symbol sum beyond the limit of R336 and stay within the signed field of 32 bits. -/
theorem late_sum_mem {toas : List Int} (hlen : toas.length = 16) (hlate : ∀ v ∈ toas, 2304 < 10 * v ∧ v ≤ 32767) :
    36864 < 10 * toas.sum ∧ toas.sum < 2147483648 := by
  have hlo := toas.card_nsmul_le_sum 231 fun v hv => by have := hlate v hv; omega
  have hhi := toas.sum_le_card_nsmul 32767 fun v hv => (hlate v hv).2
  rw [hlen] at hlo hhi
  norm_num at hlo hhi
  omega

/-- A sum beyond the limit raises the requested TA by one, below 63 (R336). -/
theorem taNewOf_of_late {c : Channel} (hsum : 36864 < 10 * c.taSum.toInt) (hta : c.rqdTa.toNat < 63) :
    (taNewOf c).toNat = c.rqdTa.toNat + 1 := by
  rw [taNewOf_toNat, if_pos ⟨hsum, hta⟩]

/-- Settles O55: the sixteen evaluate to a step of one, and the TA that is then requested is not the acknowledged one,
so the next sample is not counted. -/
theorem sixteenLateSamples : Obligations.SixteenLateSamples := by
  intro s tn ss toas last hlen hlate hon hack hta hcnt hsum0
  obtain ⟨hsum, hbound⟩ := late_sum_mem hlen hlate
  have hacc : ((s.chan tn ss).addToas toas).taSum.toInt = toas.sum := by
    simp only [Channel.addToas, hsum0, zero_add]
    exact toInt_ofInt_32 (by omega) hbound
  have hraised : (taNewOf ((s.chan tn ss).addToas toas)).toNat = (s.chan tn ss).rqdTa.toNat + 1 :=
    taNewOf_of_late (by rwa [hacc]) hta
  have hchanged : taNewOf ((s.chan tn ss).addToas toas) ≠ (s.chan tn ss).rqdTa := fun h => by
    rw [h] at hraised
    omega
  have hrun := taSamples_evaluate hon hack hcnt hlen
  have heval := taEval_evaluates (s.modChan tn ss fun c => c.addToas toas) tn ss
  rw [chan_modChan_same] at heval
  generalize taEval tn ss (s.modChan tn ss fun c => c.addToas toas) = t at hrun heval
  obtain ⟨-, -, hchan⟩ := heval.becomes
  have hnack : (t.chan tn ss).ackTa ≠ (t.chan tn ss).rqdTa := by
    rw [hchan]
    exact fun h => hchanged (h.symm.trans hack)
  refine ⟨t, t, hrun, ?_, ?_, ?_, ?_, congrArg Host.Outcome.next (taSample_of_ignored (.inr hnack) last), rfl, rfl⟩
  · rw [hchan]; exact hraised
  · rw [hchan]
  · rw [hchan]
  · rw [heval.tells hchanged, List.length_append]
    rfl

end Sys2Proof.Machine

namespace Sys2Proof.Machine

/-! SUPPORT. The family of 60_exceptions.md, its refusals: with lawful parameters every instruction answers a next state,
which keeps the parameters and the pending events and only appends output. -/

variable {s t u : State}

/-! ## A next state that keeps the parameters (R20, R94, R376) -/

/-- From s to t the parameters and the pending events stay, and the output streams only grow. -/
structure Extends (s t : State) : Prop where
  listed  : t.listed = s.listed
  pending : t.pending = s.pending
  out     : s.out <+: t.out

theorem Extends.refl (s : State) : Extends s s := ⟨rfl, rfl, [], List.append_nil _⟩

theorem Extends.trans (h : Extends s t) (h' : Extends t u) : Extends s u :=
  ⟨h'.listed.trans h.listed, h'.pending.trans h.pending, h.out.trans h'.out⟩

theorem Extends.lawful (h : Extends s t) (hlawful : s.listed.lawful = true) : t.listed.lawful = true := by
  rwa [h.listed]

/-- What only writes registers, counters, timeslots or the answer field. -/
theorem Extends.ofWrite (s : State) (clk : ClockState) (cfg : GlobalCfg) (disc : Discards) (tns : Vector TnState 8)
    (ret : Ret) : Extends s { s with clk := clk, cfg := cfg, disc := disc, tns := tns, ret := ret } :=
  ⟨rfl, rfl, [], List.append_nil _⟩

theorem Extends.ofClk (s : State) (clk : ClockState) : Extends s { s with clk := clk } := .ofWrite s clk _ _ _ _

theorem Extends.ofEmit (s : State) (p : OutPort) (b : Bytes) : Extends s (s.emit p b) := ⟨rfl, rfl, _, rfl⟩

theorem Extends.ofDiscard (s : State) (k : Counter) : Extends s (s.discard k) := .ofWrite s _ _ _ _ _

theorem UlStep.toExtends {tn : Tn} (h : UlStep tn s t) : Extends s t := by
  obtain ⟨more, hout, -⟩ := h.emits
  exact ⟨h.listed, by rw [h.rest], more, hout.symm⟩

/-- What only writes the timeslots and appends records. -/
theorem Extends.ofAppends {more : List Output} (h : t = { s with tns := t.tns, out := s.out ++ more }) :
    Extends s t := by
  rw [h]
  exact ⟨rfl, rfl, more, rfl⟩

theorem DlStep.toExtends {tn : Tn} {more : List Output} (h : DlStep tn s t more) : Extends s t := .ofAppends h.rest

/-- Run from s, an operation answered r: a state, and one that extends s. -/
def Answers (s : State) (r : Res State) : Prop := ∃ t, r = .ok t ∧ Extends s t

theorem Answers.ok (h : Extends s t) : Answers s (.ok t) := ⟨t, rfl, h⟩

theorem Answers.after {r : Res State} (h : Extends s u) (h' : Answers u r) : Answers s r := by
  obtain ⟨t, hr, ht⟩ := h'
  exact ⟨t, hr, h.trans ht⟩

/-- The outcome of an operation that answered. -/
theorem Answers.outcome {r : Res State} (h : Answers s r) : ∃ t, r.outcome = .next t ∧ Extends s t := by
  obtain ⟨t, hr, ht⟩ := h
  exact ⟨t, outcome_next.2 hr, ht⟩

theorem Extends.next (h : Extends s t) :
    ∃ u, (.next t : Host.Outcome State Fault Refusal) = .next u ∧ Extends s u := ⟨t, rfl, h⟩

/-- A downlink operation that is not refused. -/
theorem DlOp.answers {tn : Tn} {sn : Fn} {g : State → Res State} (hg : DlOp tn sn g) (htotal : ∃ t, g s = .ok t) :
    Answers s (g s) := by
  obtain ⟨t, ht⟩ := htotal
  obtain ⟨more, hstep, -⟩ := hg s t ht
  exact ⟨t, ht, hstep.toExtends⟩

section lawful

variable (h : s.listed.lawful = true)
include h

theorem UlOp.answers {tn : Tn} {g : State → Res State} (hg : UlOp tn g) : Answers s (g s) := by
  obtain ⟨t, ht⟩ := hg.total s h
  exact ⟨t, ht, (hg.step s t ht).toExtends⟩

/-! ### The downlink (42_sched_dispatch.md, 43_sched_downlink.md) -/

theorem txIdle_answers (tn : Tn) (sn : Fn) : Answers s (txIdle tn sn s) :=
  (txIdle_op tn sn).answers (txIdle_total h tn sn)

theorem txFcch_answers (tn : Tn) (sn : Fn) : Answers s (txFcch tn sn s) :=
  (txFcch_op tn sn).answers ⟨_, if_pos (lawful_fcchBurst h)⟩

theorem txSch_answers (tn : Tn) (sn : Fn) : Answers s (txSch tn sn s) :=
  (txSch_op tn sn).answers ⟨_, if_pos (lawful_schEnc h _ sn)⟩

theorem txGroup_answers (ct : LaneCt) (tn : Tn) (ss : Ss) (bid : Bid) (fok : Bool) (sn : Fn) :
    Answers s (txGroup ct tn ss bid fok sn s) :=
  (txGroup_op ct tn ss bid fok sn).answers (txGroup_total h ct tn ss bid fok sn)

theorem txDispatch_answers (tn : Tn) (e : Position) (sn : Fn) : Answers s (txDispatch tn e sn s) :=
  (txDispatch_op tn e sn).answers (txDispatch_total h tn e sn)

theorem emitSlot_answers (tn : Tn) (sn : Fn) (slot : Slot) : Answers s (emitSlot tn sn slot s) :=
  ⟨_, emitSlot_total h tn sn slot, .ofEmit s _ _⟩

/-- A miss sends BFI or FILLER, each within the length of its contract (R255). -/
theorem dlMiss_total (ct : MissCt) (tn : Tn) (ss : Ss) : ∃ k p t, dlMiss ct tn ss s = .ok (k, p, t) := by
  have hcounted : (countLoss (missLane ct) tn ss s).listed.lawful = true := h
  simp only [dlMiss]
  split
  · rw [if_pos (lawful_bfi hcounted _ _)]
    exact ⟨_, _, _, rfl⟩
  · rw [fillerOf, if_pos (lawful_filler hcounted _)]
    exact ⟨_, _, _, rfl⟩

theorem schedFn_answers (fn : Fn) : Answers s (schedFn fn s) := by
  obtain ⟨t, ht⟩ := schedFn_total fn h
  obtain ⟨more, hrest, -⟩ := schedTns_ok allTns ht
  exact ⟨t, ht, .ofAppends hrest⟩

end lawful

/-! ### The clock unit (40_clock_sync.md) -/

theorem Extends.ofRaiseFatal (c : FatalCause) (s : State) : Extends s (raiseFatal c s) :=
  (Extends.ofClk s _).trans (.ofEmit _ _ _)

theorem linkOpen_extends (s : State) : Extends s (linkOpen s) := by
  by_cases h : s.clk.clkState = .closed
  · rw [linkOpen_of_closed h]
    exact .ofWrite s _ _ _ _ _
  · rw [linkOpen_of_ne_closed h]
    exact .refl s

theorem tearDown_extends (s : State) : Extends s (tearDown s) := by
  by_cases h : s.clk.clkState = .closed
  · rw [tearDown_of_closed h]
    exact .refl s
  · rw [tearDown_of_ne_closed h]
    exact .ofClk s _

theorem produce_answers (k : Nat) : ∀ {s : State}, s.listed.lawful = true → Answers s (produce k s) := by
  induction k with
  | zero => exact fun _ => .ok (.refl _)
  | succ k ih =>
    intro s h
    obtain ⟨u, hu, hframe⟩ := schedFn_answers (s := s.withLastFn (fnInc s.clk.lastFn)) h (fnInc s.clk.lastFn)
    have hsu : Extends s u := (Extends.ofClk s _).trans hframe
    rw [produce_succ hu]
    exact .after hsu (ih (hsu.lawful h))

section lawful

variable (h : s.listed.lawful = true)
include h

theorem catchUp_answers (fn : Fn) (now : Time) : Answers s (catchUp fn now s) := by
  obtain ⟨u, hu, hsu⟩ := produce_answers (fnDist fn s.clk.lastFn) h
  rw [catchUp_of_produce now hu]
  exact .ok (hsu.trans (.ofClk u _))

theorem clkApply_answers (fn : Fn) (now : Time) : Answers s (clkApply fn now s) := by
  by_cases hstate : s.clk.clkState = .unsync
  · rw [clkApply_of_unsync now hstate]
    exact .ok (.ofClk s _)
  rw [clkApply_of_ne_unsync now hstate]
  have hclear : Extends s (clearNoClk s) := .ofClk s _
  split
  · exact .ok (hclear.trans (.ofClk _ _))
  · split
    · exact .ok (hclear.trans (.ofClk _ _))
    · exact .after hclear (catchUp_answers (hclear.lawful h) fn now)

theorem clkInd_answers (b : Bytes) (now : Time) : Answers s (clkInd b now s) := by
  unfold clkInd
  split
  · exact .ok (.ofDiscard s _)
  · split
    · exact .ok (.ofDiscard s _)
    · exact clkApply_answers h _ now

theorem tickProduce_answers (k : Nat) : Answers s (tickProduce k s) := by
  obtain ⟨t, ht, hframes⟩ := produce_answers k (s := s.advancePhase k) h
  exact ⟨t, tickProduce_eq_ok_iff.2 ht, (Extends.ofClk s _).trans hframes⟩

theorem tick_answers (now : Time) : Answers s (tick now s) := by
  have hcount : Extends s (countExpirations now s) := .ofClk s _
  by_cases hdue : s.clk.tickDue now = true
  · by_cases hlost : (countExpirations now s).clockLost = true
    · rw [tick_of_clockLost hdue hlost]
      exact .ok (hcount.trans (.ofRaiseFatal _ _))
    cases hstall : (countExpirations now s).stalled now with
    | some c =>
      rw [tick_of_stalled hdue hlost hstall]
      exact .ok (hcount.trans (.ofRaiseFatal c _))
    | none =>
      rw [tick_of_runs hdue hlost hstall]
      exact .after hcount (tickProduce_answers (hcount.lawful h) _)
  · rw [tick_of_not_due hdue]
    exact .ok (.refl s)

/-! ### The uplink (44_sched_uplink.md) -/

/-- UL_SEQ is no operation on the channels alone: between the gap and the position it notes the FN (R281). -/
theorem ulSeq_answers (tn : Tn) (fn : Fn) (b : Burst) : Answers s (ulSeq tn fn b s) := by
  by_cases hstale : (s.slot tn).ulLastValid = true ∧ signedDiff fn (s.slot tn).ulLastFn ≤ 0
  · rw [ulSeq_of_stale hstale]
    exact .ok (.ofDiscard s _)
  have hgap : Answers s (if (s.slot tn).ulLastValid = true ∧ 2 ≤ signedDiff fn (s.slot tn).ulLastFn
      ∧ signedDiff fn (s.slot tn).ulLastFn ≤ s.cfg.ulGapMax.toNat
    then ulGap tn (s.slot tn).ulLastFn fn s else .ok s) := by
    split
    · exact (ulGap_op tn _ fn).answers h
    · exact .ok (.refl s)
  obtain ⟨u, hu, hsu⟩ := hgap
  have hnoted : Extends s (noteUl tn fn u) := hsu.trans (.ofWrite u _ _ _ _ _)
  rw [ulSeq_of_fresh hstale hu]
  exact .after hnoted ((rxPos_op tn fn (some b)).answers (hnoted.lawful h))

theorem ulBurst_answers (p : Option (Tn × Fn × Burst)) : Answers s (ulBurst p s) := by
  unfold ulBurst
  split
  · exact .ok (.ofDiscard s _)
  · split
    · exact .ok (.ofDiscard s _)
    · split
      · exact .ok (.ofDiscard s _)
      · exact ulSeq_answers h _ _ _

end lawful

/-! ### The configuration port (41_config_port.md) -/

/-- A CFG write reaches the configuration and the timeslots alone (R182). -/
theorem memWrite_rest (s : State) (a : BitVec 16) (v : BitVec 32) :
    memWrite s a v = { s with cfg := (memWrite s a v).cfg, tns := (memWrite s a v).tns } := by
  unfold memWrite
  cases regAt a with
  | none => rfl
  | some r => cases r <;> rfl

theorem memWrite_extends (s : State) (a : BitVec 16) (v : BitVec 32) : Extends s (memWrite s a v) := by
  rw [memWrite_rest]
  exact .ofWrite s _ _ _ _ _

theorem dlqPush_extends (q : QueueRef) (p : Bytes) (s : State) : Extends s (dlqPush q p s) := by
  unfold dlqPush
  split
  · exact .ofDiscard s _
  · rw [setQueue_rest]
    exact .ofWrite s _ _ _ _ _

/-! ### Every instruction -/

/-- With lawful parameters every instruction answers a state that extends the one it ran in. -/
theorem exec_extends (i : Instr) (h : s.listed.lawful = true) : ∃ t, exec i s = .next t ∧ Extends s t := by
  cases i with
  | clkInd b now => exact (clkInd_answers h b now).outcome
  | ulBurstNb b => exact (ulBurst_answers h (parseUl .gmsk 148 b)).outcome
  | ulBurst8psk b => exact (ulBurst_answers h (parseUl .psk8 444 b)).outcome
  | linkOpen => exact (linkOpen_extends s).next
  | linkClose => exact (tearDown_extends s).next
  | cfgRd a =>
    refine Extends.next ?_
    split
    · exact .ofEmit s _ _
    · exact .ofDiscard s _
  | cfgWr a v =>
    refine Extends.next ?_
    split
    · exact memWrite_extends s a v
    · exact .ofDiscard s _
  | dlqPush q p => exact (dlqPush_extends q p s).next
  | hostReserved b => exact (Extends.ofDiscard s .hostMalformed).next
  | tick now => exact (tick_answers h now).outcome
  | anchor fn now => exact (Extends.ofClk s _).next
  | clkApply fn now => exact (clkApply_answers h fn now).outcome
  | resync fn now => exact (Extends.ofClk s _).next
  | delay k now => exact (Extends.ofClk s _).next
  | catchUp fn now => exact (catchUp_answers h fn now).outcome
  | tickLiveness now =>
    have hcount : Extends s (countExpirations now s) := .ofClk s _
    refine Extends.next ?_
    split
    · exact hcount.trans (.ofRaiseFatal _ _)
    · exact hcount
  | tickStall now =>
    show ∃ t, execTickStall now s = .next t ∧ Extends s t
    unfold execTickStall
    split
    · exact (Extends.ofRaiseFatal _ s).next
    · exact (Extends.refl s).next
  | tickProduce k => exact (tickProduce_answers h k).outcome
  | fatal c => exact (Extends.ofRaiseFatal c s).next
  | schedFn fn => exact (schedFn_answers h fn).outcome
  | txDispatch tn e sn => exact (txDispatch_answers h tn e sn).outcome
  | txIdle tn sn => exact (txIdle_answers h tn sn).outcome
  | txFcch tn sn => exact (txFcch_answers h tn sn).outcome
  | txSch tn sn => exact (txSch_answers h tn sn).outcome
  | txBcch tn bid sn => exact (txGroup_answers h .bcch tn 0 bid false sn).outcome
  | txCcch tn bid sn => exact (txGroup_answers h .ccch tn 0 bid false sn).outcome
  | txSdcch tn ss bid sn => exact (txGroup_answers h .sdcch tn ss bid false sn).outcome
  | txSacch tn ss bid sn => exact (txGroup_answers h .sacch tn ss bid false sn).outcome
  | txTchf tn ss bid sn => exact (txGroup_answers h .tchf tn ss bid false sn).outcome
  | txTchh tn ss bid fok sn => exact (txGroup_answers h .tchh tn ss bid fok sn).outcome
  | txPdtch tn ss bid sn => exact (txGroup_answers h .pdtch tn ss bid false sn).outcome
  | txPtcch tn ss bid sn => exact (txGroup_answers h .ptcch tn ss bid false sn).outcome
  | txRachAsIdle tn sn => exact (txIdle_answers h tn sn).outcome
  | txGroup ct tn ss bid fok sn => exact (txGroup_answers h ct tn ss bid fok sn).outcome
  | dlMiss ct tn ss =>
    obtain ⟨k, p, t, ht⟩ := dlMiss_total h ct tn ss
    obtain ⟨hstep, -, -⟩ := dlMiss_op ht
    refine ⟨{ t with ret := .miss k p }, ?_, hstep.toExtends.trans (.ofWrite t _ _ _ _ _)⟩
    show execDlMiss ct tn ss s = _
    rw [execDlMiss, ht]
  | emitSlot tn sn slot => exact (emitSlot_answers h tn sn slot).outcome
  | asmNb d t => exact (Extends.ofWrite s _ _ _ _ _).next
  | emitDl tn sn bits => exact (Extends.ofEmit s _ _).next
  | ulSeq tn fn b => exact (ulSeq_answers h tn fn b).outcome
  | ulGap tn last fn => exact ((ulGap_op tn last fn).answers h).outcome
  | rxPos tn f x => exact ((rxPos_op tn f x).answers h).outcome
  | rxLane ct tn ss bid f x => exact ((rxLane_op ct tn ss bid f x).answers h).outcome
  | closeGroup ct tn ss => exact ((closeGroup_op ct tn ss).answers h).outcome
  | report ct tn ss r cont => exact (report_fn ct tn ss r cont s).1.toExtends.next
  | rxMissing tn f => exact ((rxPos_op tn f none).answers h).outcome
  | rxIdle x => exact (rxIdle_fn 0 x s).1.toExtends.next
  | rxSdcch tn ss bid f x => exact ((rxLane_op .sdcch tn ss bid f x).answers h).outcome
  | rxSacch tn ss bid f x => exact ((rxLane_op .sacch tn ss bid f x).answers h).outcome
  | rxTchf tn ss bid f x => exact ((rxLane_op .tchf tn ss bid f x).answers h).outcome
  | rxTchh tn ss bid f x => exact ((rxLane_op .tchh tn ss bid f x).answers h).outcome
  | rxPdtch tn ss bid f x => exact ((rxLane_op .pdtch tn ss bid f x).answers h).outcome
  | rxPtcch tn ss f x => exact ((rxPtcch_op tn f x).answers h).outcome
  | rxRach tn f x => exact ((rxRach_op tn f x).answers h).outcome
  | hoAccess tn ss f x => exact ((hoAccess_op tn ss f x).answers h).outcome
  | pwrSample tn ss rssi => exact (pwrSample_fn tn ss rssi s).1.toExtends.next
  | pwrClock tn ss => exact (pwrClock_fn tn ss s).1.toExtends.next
  | pwrEval tn ss => exact (pwrEval_fn tn ss s).1.toExtends.next
  | taSample tn ss toa => exact (taSample_fn tn ss toa s).1.toExtends.next
  | taEval tn ss => exact (taEval_fn tn ss s).1.toExtends.next
  | amrSample tn ss ber w => exact (amrSample_fn tn ss ber w s).1.toExtends.next
  | amrEval tn ss => exact (amrEval_fn tn ss s).1.toExtends.next
  | cfgData | dataInd | measInd | rachInd | hoInd | loopInd | fatalInd => exact (Extends.ofEmit s .hosto _).next

/-- Settles O60, instruction by instruction. -/
theorem lawfulParametersProgress : Obligations.LawfulParametersProgress := by
  intro i s h
  obtain ⟨t, hexec, hext⟩ := exec_extends i h
  exact ⟨t, hexec, hext.listed, hext.pending, hext.out⟩

end Sys2Proof.Machine

namespace Sys2Proof.Machine

/-! SUPPORT. The family of 60_exceptions.md, its fatal entry: what it writes, which records are counted and dropped in
every state, and what each event does in FATAL. -/

variable {s t : State}

/-! ## The fatal entry (R152, R153, R371) -/

theorem raiseFatal_eq (c : FatalCause) (s : State) : raiseFatal c s = { s with
    clk := { s.clk with armed := false, clkState := .fatal, fatalCause := fatalCode c }
    out := s.out ++ [⟨.hosto, [0xF0, (fatalCode c).setWidth 8]⟩] } := rfl

theorem execTickLiveness_of_clockLost {now : Time} (h : (countExpirations now s).clockLost = true) :
    execTickLiveness now s = .next (raiseFatal .clockLoss (countExpirations now s)) :=
  congrArg Host.Outcome.next (if_pos h)

theorem execTickLiveness_of_live {now : Time} (h : ¬ (countExpirations now s).clockLost = true) :
    execTickLiveness now s = .next (countExpirations now s) := congrArg Host.Outcome.next (if_neg h)

theorem execTickStall_of_stalled {now : Time} {c : FatalCause} (h : s.stalled now = some c) :
    execTickStall now s = .next (raiseFatal c s) := by
  rw [execTickStall, h]

theorem execTickStall_of_runs {now : Time} (h : s.stalled now = none) : execTickStall now s = .next s := by
  rw [execTickStall, h]

/-- Settles O16: the entry by its cause, the liveness check by its count, the stall check by the time elapsed. -/
theorem fatalEntry : Obligations.FatalEntry := by
  refine ⟨fun s c code hcode => ?_, fun s now _ => ?_, fun s now => ⟨fun h => ?_, fun h => ?_, fun h => ?_⟩⟩
  · show Host.Outcome.next (raiseFatal c s) = _
    rw [raiseFatal_eq]
    obtain ⟨rfl, rfl⟩ | ⟨rfl, rfl⟩ | ⟨rfl, rfl⟩ := hcode <;> rfl
  · intro k s1
    have hs1 : countExpirations now s = s1 := countExpirations_eq now s
    have hlost : (countExpirations now s).clockLost = true ↔ s.cfg.lossFrames.toNat < s1.clk.noClk.toNat := by
      rw [hs1]
      exact clockLost_iff s1
    refine ⟨fun h => ?_, fun h => ?_⟩
    · rw [← hs1]
      exact execTickLiveness_of_clockLost (hlost.2 h)
    · rw [← hs1]
      exact execTickLiveness_of_live (mt hlost.1 h.not_gt)
  · exact execTickStall_of_stalled (stalled_of_late h)
  · refine execTickStall_of_stalled (stalled_of_back (fun hlate => ?_) h)
    have : (0 : Int) ≤ (s.cfg.maxSkew.toNat * frameUs : Nat) := Int.natCast_nonneg _
    have hlt : s.clk.elapsed now < 0 := h
    omega
  · exact execTickStall_of_runs (stalled_eq_none_iff.2 h)

/-! ## Malformed records (R389) -/

theorem ulBurst_of_malformed {p : Option (Tn × Fn × Burst)} (hp : p = none) :
    ulBurst p s = .ok { s with disc := { s.disc with dataMalformed := satInc s.disc.dataMalformed 1 } } := by
  rw [← rejectEvent_uldLength, hp]
  rfl

theorem exec_hostReserved (b : Bytes) (s : State) : exec (.hostReserved b) s
    = .next { s with disc := { s.disc with hostMalformed := satInc s.disc.hostMalformed 1 } } := by
  rw [← satAdd_eq_satInc]
  rfl

/-- Settles O20, by the port: a datagram of CLK, one of ULD by its length, and a host record. -/
theorem malformedOnlyCounts : Obligations.MalformedOnlyCounts := by
  intro s e rest hp
  refine ⟨fun hport hbad => ?_, fun hport hnb h8psk => ?_, fun hport hbad => ?_⟩
  · have hd : decodeEvent e = .ok (.clkInd e.bytes e.now) := by simp only [decodeEvent, hport]
    rw [step_of_decodes hp hd]
    exact outcome_next.2 (clkInd_of_malformed e.now hbad)
  · by_cases h156 : e.bytes.length = 156
    · have hd : decodeEvent e = .ok (.ulBurstNb e.bytes) := by simp only [decodeEvent, hport, if_pos h156]
      rw [step_of_decodes hp hd]
      exact outcome_next.2 (ulBurst_of_malformed hnb)
    by_cases h452 : e.bytes.length = 452
    · have hd : decodeEvent e = .ok (.ulBurst8psk e.bytes) := by
        simp only [decodeEvent, hport, if_neg h156, if_pos h452]
      rw [step_of_decodes hp hd]
      exact outcome_next.2 (ulBurst_of_malformed h8psk)
    · rw [step_of_rejected hp (decodeEvent_uld_of_length_ne hport h156 h452), rejectEvent_uldLength]
  · have hd : decodeEvent e = .ok (.hostReserved e.bytes) := by simp only [decodeEvent, hport, hbad]
    rw [step_of_decodes hp hd, exec_hostReserved]

/-! ## The configuration port in every CLK_STATE (R181, R182, R373) -/

/-- A state with another CLK_STATE. -/
def State.withClkState (s : State) (st : ClkState) : State := { s with clk := { s.clk with clkState := st } }

/-- Of the registers STATUS alone shows CLK_STATE (R43). -/
theorem readReg_withClkState {r : Reg} (h : r ≠ .glob .status) (s : State) (st : ClkState) :
    readReg (s.withClkState st) r = readReg s r := by
  cases r with
  | glob r =>
    cases r with
    | status => exact absurd rfl h
    | _ => rfl
  | slot r tn => rfl
  | chan r tn ss => rfl

theorem memRead_withClkState {a : BitVec 16} (h : a ≠ 0x008) (s : State) (st : ClkState) :
    memRead (s.withClkState st) a = memRead s a := by
  unfold memRead
  cases hr : regAt a with
  | none => rfl
  | some r =>
    refine readReg_withClkState (fun hstatus => h ?_) s st
    rw [← addr_of_regAt hr, hstatus]
    rfl

theorem memWrite_withClkState (s : State) (st : ClkState) (a : BitVec 16) (v : BitVec 32) :
    memWrite (s.withClkState st) a v = (memWrite s a v).withClkState st := by
  unfold memWrite
  cases regAt a with
  | none => rfl
  | some r => cases r <;> rfl

theorem aligned_iff (a : BitVec 16) : aligned a = true ↔ a.toNat % 4 = 0 := beq_iff_eq

theorem exec_cfgRd_aligned {a : BitVec 16} (h : a.toNat % 4 = 0) (s : State) :
    exec (.cfgRd a) s = .next (s.emit .hosto (recCfgData a (memRead s a))) :=
  congrArg Host.Outcome.next (if_pos ((aligned_iff a).2 h))

/-- CFG_RD of a register other than STATUS answers the same in every CLK_STATE. -/
theorem exec_cfgRd_withClkState {a : BitVec 16} (ha : a.toNat % 4 = 0) (hne : a ≠ 0x008) (s : State) (st : ClkState) :
    exec (.cfgRd a) (s.withClkState st) = .next ((s.withClkState st).emit .hosto (recCfgData a (memRead s a))) := by
  rw [← memRead_withClkState hne s st]
  exact exec_cfgRd_aligned ha _

/-- CFG_WR writes the same in every CLK_STATE, and leaves the clock unit as it was. -/
theorem exec_cfgWr_withClkState {a : BitVec 16} (ha : a.toNat % 4 = 0) (v : BitVec 32) (s : State) (st : ClkState) :
    exec (.cfgWr a v) (s.withClkState st)
      = .next { memWrite s a v with clk := { s.clk with clkState := st } } := by
  rw [exec_cfgWr_aligned ha, memWrite_withClkState, State.withClkState, memWrite_clk]

/-- STATUS in FATAL: the code 3, ARMED and the cause (R43). -/
theorem memRead_status_of_fatal (h : s.clk.clkState = .fatal) :
    (memRead s 0x008).toNat = 3 + 4 * s.clk.armed.toNat + 16 * s.clk.fatalCause.toNat := by
  have hword : memRead s 0x008 = BitVec.ofNat 32 (3 + 4 * s.clk.armed.toNat + 16 * s.clk.fatalCause.toNat) := by
    refine packWord_eq ?_
    simp only [fieldSum_cons, fieldSum_nil, h, ClkState.code]
    omega
  have harmed := Bool.toNat_le s.clk.armed
  have hcause := s.clk.fatalCause.isLt
  rw [hword, BitVec.toNat_ofNat]
  omega

/-! ## The events in FATAL (R373) -/

/-- From s to t records went out on HOSTO alone. -/
def HostOnly (s t : State) : Prop := ∃ more, t.out = s.out ++ more ∧ ∀ o ∈ more, o.port = .hosto

theorem HostOnly.ofSame (h : t.out = s.out) : HostOnly s t := ⟨[], by rw [h, List.append_nil], nofun⟩

theorem HostOnly.ofDiscard (s : State) (k : Counter) : HostOnly s (s.discard k) := .ofSame (discard_out s k)

theorem HostOnly.ofEmit (s : State) (b : Bytes) : HostOnly s (s.emit .hosto b) :=
  ⟨_, rfl, fun _ ho => by rw [List.mem_singleton.1 ho]⟩

theorem HostOnly.dld (h : HostOnly s t) :
    t.out.filter (fun o => o.port == .dld) = s.out.filter fun o => o.port == .dld := by
  obtain ⟨more, hout, hport⟩ := h
  have hnone : more.filter (fun o => o.port == .dld) = [] :=
    List.filter_eq_nil_iff.2 fun o ho => by rw [hport o ho]; nofun
  rw [hout, List.filter_append, hnone, List.append_nil]

/-- An uplink datagram is counted, and nothing else, where the radio events are dropped (R280). -/
theorem ulBurst_of_dropsRadio (p : Option (Tn × Fn × Burst)) (h : s.clk.dropsRadio = true) :
    ∃ k, ulBurst p s = .ok (s.discard k) :=
  match p with
  | none => ⟨.dataMalformed, rfl⟩
  | some (_, _, _) => ⟨.stateIgnored, ulBurst_of_closed h⟩

theorem ulBurst_of_isSome {p : Option (Tn × Fn × Burst)} (hp : p.isSome = true) (h : s.clk.dropsRadio = true) :
    ulBurst p s = .ok { s with disc := { s.disc with stateIgnored := satInc s.disc.stateIgnored 1 } } := by
  obtain ⟨⟨tn, fn, b⟩, rfl⟩ := Option.isSome_iff_exists.1 hp
  rw [ulBurst_of_closed h, discard_stateIgnored]

section fatal

variable (h : s.clk.clkState = .fatal)
include h

theorem dropsRadio_of_fatal : s.clk.dropsRadio = true := (dropsRadio_iff _).2 (.inr h)

theorem ne_closed_of_fatal : s.clk.clkState ≠ .closed := by rw [h]; nofun

/-- No TICK is due in FATAL (R151). -/
theorem tick_of_fatal (now : Time) : tick now s = .ok s :=
  tick_of_not_due fun hdue => by
    obtain ⟨hsync, -⟩ := (tickDue_iff _ _).1 hdue
    rw [h] at hsync
    cases hsync

theorem dlqPush_of_fatal (q : QueueRef) (p : Bytes) :
    dlqPush q p s = { s with disc := { s.disc with dlqReject := satInc s.disc.dlqReject 1 } } :=
  dlqPush_of_rejected (by rw [dlqRejected, dropsRadio_of_fatal h]; rfl) p

theorem clkInd_of_fatal (b : Bytes) (now : Time) : ∃ k, clkInd b now s = .ok (s.discard k) := by
  unfold clkInd
  split
  · exact ⟨_, rfl⟩
  · exact ⟨_, if_pos (dropsRadio_of_fatal h)⟩

/-- A host record puts no burst on DLD in FATAL; CFG_RD answers on HOSTO. -/
theorem decodeHost_hostOnly_of_fatal {b : Bytes} (he : exec (decodeHost b) s = .next t) : HostOnly s t := by
  obtain hi | hi | ⟨a, hi⟩ | ⟨a, v, hi⟩ | ⟨q, p, -, hi⟩ | hi := decodeHost_cases b <;> rw [hi] at he <;> cases he
  · rw [linkOpen_of_ne_closed (ne_closed_of_fatal h)]
    exact .ofSame rfl
  · rw [tearDown_of_ne_closed (ne_closed_of_fatal h)]
    exact .ofSame rfl
  · split
    · exact .ofEmit s _
    · exact .ofDiscard s _
  · split
    · rw [memWrite_rest]
      exact .ofSame rfl
    · exact .ofDiscard s _
  · rw [dlqPush_of_fatal h]
    exact .ofSame rfl
  · exact .ofDiscard s _

/-- No event of an input port puts a burst on DLD in FATAL, by the port. -/
theorem exec_hostOnly_of_fatal {e : Event} {i : Instr} (hin : isInputPort e.port = true)
    (hd : decodeEvent e = .ok i) (he : exec i s = .next t) : HostOnly s t := by
  have hcounted : ∀ {r : Res State}, (∃ k, r = .ok (s.discard k)) → r.outcome = .next t → HostOnly s t := by
    rintro _ ⟨k, rfl⟩ hr
    cases hr
    exact .ofDiscard s k
  cases hport : e.port <;> rw [hport] at hin <;> simp only [decodeEvent, hport] at hd
  case clk => cases hd; exact hcounted (clkInd_of_fatal h _ _) he
  case uld =>
    split at hd
    · cases hd; exact hcounted (ulBurst_of_dropsRadio _ (dropsRadio_of_fatal h)) he
    · split at hd
      · cases hd; exact hcounted (ulBurst_of_dropsRadio _ (dropsRadio_of_fatal h)) he
      · cases hd
  case host => cases hd; exact decodeHost_hostOnly_of_fatal h he
  case timer =>
    split at hd
    · cases hd
      cases (outcome_next.2 (tick_of_fatal h e.now)).symm.trans he
      exact .ofSame rfl
    · cases hd
  case hosto => cases hin

end fatal

/-- Settles O18, row by row of the table: CLK and ULD datagrams, TICK, the link records, DLQ_PUSH, the reserved records,
the configuration port at a word address and at a misaligned one, and DLD. -/
theorem inFatal : Obligations.InFatal := by
  intro s h
  have hdrops := dropsRadio_of_fatal h
  refine ⟨fun b now hp => ?_, fun b now hp => outcome_next.2 (clkInd_of_malformed now hp),
    fun b hp => outcome_next.2 (ulBurst_of_isSome hp hdrops), fun b hp => outcome_next.2 (ulBurst_of_malformed hp),
    fun b hp => outcome_next.2 (ulBurst_of_isSome hp hdrops), fun b hp => outcome_next.2 (ulBurst_of_malformed hp),
    fun now => outcome_next.2 (tick_of_fatal h now),
    congrArg Host.Outcome.next (linkOpen_of_ne_closed (ne_closed_of_fatal h)),
    congrArg Host.Outcome.next (tearDown_of_ne_closed (ne_closed_of_fatal h)),
    fun q p => congrArg Host.Outcome.next (dlqPush_of_fatal h q p), fun b => exec_hostReserved b s,
    fun a ha => ⟨memRead s a, exec_cfgRd_aligned ha s, ?_, fun hne st => exec_cfgRd_withClkState ha hne s st⟩,
    fun a v ha => ⟨memWrite s a v, exec_cfgWr_aligned ha v s, memWrite_rest s a v,
      fun st => exec_cfgWr_withClkState ha v s st⟩,
    fun a v ha => ⟨exec_cfgRd_misaligned ha s, (writeIgnored s a v).1 ha⟩,
    fun e i t hin hd he => (exec_hostOnly_of_fatal h hin hd he).dld⟩
  · obtain ⟨fn, hfn⟩ := Option.isSome_iff_exists.1 hp
    exact outcome_next.2 (clkInd_of_dropsRadio now hfn hdrops)
  · rintro rfl
    exact memRead_status_of_fatal h

end Sys2Proof.Machine

/-! SUPPORT. The family of 70_reset_and_hazards.md: the power-on values of a channel, a timeslot and the clock unit are
within the bounds of the invariant, for every depth of the queues and every initial interleaver state. -/

namespace Sys2Proof.Machine

/-! ## The invariant at power-on reset (R72, R400) -/

theorem LoopBounds.powerOn (ilv : Ilv) : LoopBounds (Channel.powerOn ilv) where
  dlCmr := by simp only [Channel.powerOn, le_refl]
  dlFt := by simp only [Channel.powerOn, le_refl]
  pwrMin := by simp only [Channel.powerOn]; decide
  taCnt := by simp only [Channel.powerOn]; decide
  taSum := by simp only [Channel.powerOn]; decide
  berNum := by simp only [Channel.powerOn]; decide
  berSum := by simp only [Channel.powerOn]; decide

theorem ChanBounds.powerOn (depth : Nat) (ilv : Ilv) : ChanBounds depth (Channel.powerOn ilv) where
  loops := .powerOn ilv
  laneM := .fresh ilv
  laneA := .fresh ilv
  qSig := queueInv_nil depth
  qSpeech := queueInv_nil depth
  qAssoc := queueInv_nil depth

theorem SlotBounds.powerOn (depth : Nat) (ilv : Ilv) : SlotBounds depth (TnState.powerOn ilv) where
  ulLastFn := by simp only [TnState.powerOn]; decide
  laneB := dlInv_fresh ilv
  laneC := dlInv_fresh ilv
  qBcch := queueInv_nil depth
  qCcch := queueInv_nil depth
  chans := fun ss => by
    simp only [TnState.powerOn, Vector.getElem_replicate]
    exact .powerOn depth ilv

/-- The block starts in CLOSED with the timer disarmed (R26) and LAST_FN at 0 (R143). -/
theorem reset_clock : ClockBounds State.reset.clk where
  armedOnlyInSync := nofun
  syncTimer := nofun
  causeRange := by simp only [State.reset]; decide
  causeInFatal := nofun
  causeInSession := fun _ => rfl
  lastFn := by simp only [State.reset]; decide

theorem reset_data : DataInv State.reset where
  slots := fun tn => by
    rw [reset_slot]
    exact .powerOn _ Config.ilv0
  out := nofun

/-- Settles O58, part by part: the clock unit in CLOSED, then every timeslot at its power-on value and no record
emitted yet. -/
theorem resetMeetsInvariant : Obligations.ResetMeetsInvariant :=
  inv_iff.2 ⟨reset_clock, reset_data⟩

end Sys2Proof.Machine
